-- ==== Sys2Proof/Word.lean ====
section
/-! DEFINITION. The word types of the host-visible registers and records (R171) and the one saturating step of R185. -/

namespace Sys2Proof

/-- One byte of a record, a completion or a posted write. -/
abbrev Byte := BitVec 8

/-- A 32-bit register or record field: register values, take numbers, capture frame numbers. -/
abbrev Word := BitVec 32

/-- A 64-bit host bus address. -/
abbrev HostAddr := BitVec 64

end Sys2Proof
end

