-- ==== Sys2Proof/Syntax.lean ====
section
/-! DEFINITION. The commands of the engine: one constructor of `Instr` for each row of spec/opcode_table.json. -/

namespace Sys2Proof

/-- The two encode lanes (chapter 4). -/
inductive Lane where
  | full
  | proxy
  deriving DecidableEq, Repr

/-- The edge of REF that is used (R1); the codes of R16 are 0 RISING and 1 FALLING. -/
inductive Polarity where
  | rising
  | falling
  deriving DecidableEq, Repr

/-- The parameters of SET_PROFILE as the host writes them (R112; layout in R171). -/
structure ProfileParams where
  base : Byte
  mode : Byte
  df : Byte
  scale : Byte
  rateF : Word
  rateP : Word
  window : Byte
  qminF : Byte
  qmaxF : Byte
  startF : Byte
  qminP : Byte
  qmaxP : Byte
  startP : Byte
  patience : Byte
  preroll : BitVec 16
  width : BitVec 16
  height : BitVec 16
  deriving DecidableEq, Repr

/-- The commands. A `tag` is the number the engine gave the read or the encode job when it began
(R69, R160, R163): a completion names the one it belongs to. Data of a completed read are its bytes,
and `none` where the link gave no completion. -/
inductive Instr where
  /-- Power-on or PCIe fundamental reset (R167). -/
  | fundamentalReset
  /-- The PCIe link leaves its active state (R166). -/
  | linkDown
  /-- Function-level reset (R166). -/
  | functionLevelReset
  /-- A 32-bit write to Board Anchor Low (R162). -/
  | boardAnchorLow (value : Word)
  /-- A 32-bit write to Board Anchor High (R163). -/
  | boardAnchorHigh (value : Word)
  /-- A 32-bit write of any value to Visit Request (R168). -/
  | visitRequest (value : Word)
  /-- A 32-bit write to Notice Cause (R186). -/
  | noticeCause (value : Word)
  /-- A 32-bit write to Notice Mask Set (R186). -/
  | noticeMaskSet (value : Word)
  /-- A 32-bit write to Notice Mask Clear (R186). -/
  | noticeMaskClear (value : Word)
  /-- A write of `bytes` bytes at `offset` that R162 says is ignored. -/
  | ignoredRegisterWrite (offset : BitVec 12) (bytes : Nat) (value : Word)
  /-- The completion of a header read (R164). -/
  | headerReadDone (tag : Nat) (data : Option (List Byte))
  /-- The cadence counter reaches zero (R2, R11). -/
  | cadenceExpiry
  /-- A REF transition, and `ticks` reference ticks, the first of which samples it (R5, log 2). -/
  | refEdge (polarity : Polarity) (ticks : Nat)
  /-- The late count reaches the tolerance (R12). -/
  | windowClose
  /-- The base-period counter reaches zero (R25). -/
  | basePeriodBoundary
  /-- FRAME_BEGIN of the sensor (R40). -/
  | frameBegin
  /-- A line of the sensor, with whether it passed the link receiver's check (R41). -/
  | lineEvent (index : Nat) (samples : List (BitVec 16)) (passed : Bool)
  /-- FRAME_END of the sensor (R42). -/
  | frameEnd
  /-- The job start of a lane (R55). -/
  | jobStart (lane : Lane)
  /-- The end of a first pass, with the encoded size E in bytes (R63). -/
  | pass1End (lane : Lane) (tag : Nat) (size : Nat)
  /-- The end of a retry pass, with the encoded size E in bytes (R64). -/
  | pass2End (lane : Lane) (tag : Nat) (size : Nat)
  /-- SET_CADENCE (R16). -/
  | setCadence (period : BitVec 64) (mode : Byte) (polarity : Byte) (tolerance : Word)
  /-- START_CADENCE (R18). -/
  | startCadence
  /-- STOP_CADENCE (R19). -/
  | stopCadence
  /-- JAM_TIMECODE (R31). -/
  | jamTimecode (hh : Byte) (mm : Byte) (ss : Byte) (ff : Byte) (target : Byte)
  /-- SET_PROFILE (R112). -/
  | setProfile (params : ProfileParams)
  /-- OPEN_TAKE (R115). -/
  | openTake (take : Word)
  /-- CLOSE_TAKE (R117). -/
  | closeTake
  /-- MARK (R120). -/
  | mark (value : BitVec 16)
  /-- REMAP_APERTURES (R156). -/
  | remapApertures (first : Word) (count : Word)
  /-- PROBE_APERTURE (R159). -/
  | probeAperture (page : Word)
  /-- SNAPSHOT (R189). -/
  | snapshot
  /-- SET_NOTICE (R188). -/
  | setNotice (count : Byte) (age : Byte)
  /-- The read of the chain anchor's Next field completes (R175). -/
  | chainNextReadDone (tag : Nat) (data : Option (List Byte))
  /-- The fetch of a directive record completes (R175). -/
  | chainRecordFetchDone (tag : Nat) (data : Option (List Byte))
  /-- The fetch of an aperture table entry completes (R155). -/
  | apertureFetchDone (tag : Nat) (data : Option (List Byte))
  /-- An idle writer chooses its next work (R133). -/
  | writerStartWork
  /-- The read of a chunk table entry completes (R131). -/
  | chunkEntryReadDone (tag : Nat) (data : Option (List Byte))
  /-- The proxy wait count has reached the patience (R142). -/
  | proxySuspended
  /-- The coalescing age has reached the age limit (R187). -/
  | coalescingAgeLimit
  deriving DecidableEq, Repr

end Sys2Proof
end

