-- ==== Sys2Proof/Decode.lean ====
section
/-! DEFINITION. The opcode table gives no row any bits (every row's "fields" is empty and none has "fixed"), so no word
spells a command. -/

namespace Sys2Proof

/-- The command a word spells by the table's bits: none for every word, since the table numbers no bits. -/
def decodeTableWord (_nbits _w : Nat) : Option Instr :=
  none

end Sys2Proof
end

