-- ==== Sys2Proof/Machine/State.lean ====
section
/-! DEFINITION. The state of the engine, block by block, and its value after fundamental reset. Every field is plain data;
the rule that names it stands beside it. -/

namespace Sys2Proof.Machine

/-! ### Cadence Unit (R1) -/

inductive RunState where
  | stopped
  | running
  deriving DecidableEq, Repr

inductive CadenceMode where
  | free
  | locked
  deriving DecidableEq, Repr

inductive LockState where
  | unused
  | seeking
  | locked
  | holdover
  deriving DecidableEq, Repr

/-- Period, mode, polarity and tolerance: the active or the pending setting. -/
structure CadenceSetting where
  period : Nat
  mode : CadenceMode
  polarity : Polarity
  tolerance : Nat
  deriving DecidableEq, Repr

structure Cadence where
  run : RunState
  counter : Nat
  /-- The late part of a LOCKED window is under way: the counter has reached zero (R11). -/
  lateOpen : Bool
  lateCount : Nat
  active : CadenceSetting
  /-- The pending setting; PENDING is set when there is one. -/
  pending : Option CadenceSetting
  edgeLatch : Bool
  measure : Nat
  /-- M of R6. -/
  lastInterval : Nat
  lock : LockState
  good : Nat
  bad : Nat
  missed : Nat
  frameNumber : Word
  deriving DecidableEq, Repr

/-! ### Timecode Unit (R22) -/

structure Label where
  hh : Nat
  mm : Nat
  ss : Nat
  ff : Nat
  df : Bool
  deriving DecidableEq, Repr

inductive TimecodeMode where
  | freeRun
  | recordRun
  deriving DecidableEq, Repr

inductive JamTarget where
  | free
  | record
  deriving DecidableEq, Repr

structure Jam where
  label : Label
  target : JamTarget
  deriving DecidableEq, Repr

structure Timecode where
  freeRun : Label
  recordRun : Label
  latched : Label
  baseCounter : Nat
  base : Nat
  df : Bool
  mode : TimecodeMode
  /-- The staged jam; JAM PENDING is set when there is one. -/
  jam : Option Jam
  deriving DecidableEq, Repr

/-! ### Frame Intake (R36) -/

/-- The samples of a raw slot: cells of its 64 MiB, in the canonical form of `Memory.wf`. -/
abbrev Memory := List Host.Cell

inductive SlotState where
  | free
  | capturing
  | heldByLanes
  deriving DecidableEq, Repr

structure Slot where
  state : SlotState
  samples : Memory
  deriving DecidableEq, Repr

inductive LineMark where
  | good
  | bad
  deriving DecidableEq, Repr

inductive CapturePhase where
  | awaitingBegin
  | receiving
  deriving DecidableEq, Repr

/-- The capture record and line map; a line index that `lines` does not list is ABSENT. -/
structure Capture where
  phase : CapturePhase
  slot : Nat
  frame : Word
  retimed : Bool
  width : Nat
  height : Nat
  label : Label
  lines : List (Nat × LineMark)
  deriving DecidableEq, Repr

structure Intake where
  slots : List Slot
  /-- None is the capture state NONE. -/
  capture : Option Capture
  pendingGap : Nat
  pendingMark : Option (BitVec 16)
  strobe : Bool
  deriving DecidableEq, Repr

/-! ### The lanes (R53) -/

inductive ProxyState where
  | present
  | held
  | absent
  deriving DecidableEq, Repr

/-- What a lane made of a ticket; `state` is always PRESENT for the full lane. -/
structure LaneResult where
  state : ProxyState
  size : Nat
  q : Nat
  clipped : Bool
  deriving DecidableEq, Repr

/-- A ticket in the lanes (R46), with what R53 says it carries. Its raw slot names it: every ticket in
a queue holds a slot of its own (R54). -/
structure Ticket where
  slot : Nat
  frame : Word
  label : Label
  damaged : Bool
  retimed : Bool
  gap : Nat
  mark : Option (BitVec 16)
  /-- The take binding; 0 is unbound. -/
  take : Word
  /-- Marked as pre-roll by an OPEN_TAKE while it held no record (R116). -/
  preroll : Bool
  width : Nat
  height : Nat
  hasRecord : Bool
  fullResult : Option LaneResult
  proxyResult : Option LaneResult
  deriving DecidableEq, Repr

inductive JobPhase where
  | idle
  | pass1
  | pass2
  deriving DecidableEq, Repr

/-- The current job of a lane; its reservation is `cap` bytes. -/
structure Job where
  slot : Nat
  tag : Nat
  q : Nat
  retryQ : Nat
  cap : Nat
  target : Nat
  width : Nat
  height : Nat
  deriving DecidableEq, Repr

structure LaneState where
  /-- The queue, head first, each ticket by its raw slot. -/
  queue : List Nat
  phase : JobPhase
  job : Option Job
  deriving DecidableEq, Repr

structure Lanes where
  tickets : List Ticket
  full : LaneState
  proxy : LaneState
  /-- The take of the latest PRESENT proxy, or 0 (R60). -/
  heldReference : Word
  deriving DecidableEq, Repr

/-! ### Rate Governor (R71) -/

structure Stream where
  rate : Nat
  qmin : Nat
  qmax : Nat
  start : Nat
  /-- T, bytes per frame. -/
  target : Nat
  /-- L, bytes. -/
  capacity : Nat
  /-- B, bytes. -/
  level : Int
  q : Nat
  deriving DecidableEq, Repr

structure Governor where
  full : Stream
  proxy : Stream
  base : Nat
  window : Nat
  deriving DecidableEq, Repr

/-! ### Pair Store (R90) -/

/-- A range of consecutive bytes of an area's ring (R92). -/
structure Extent where
  start : Nat
  len : Nat
  deriving DecidableEq, Repr

structure Area where
  size : Nat
  head : Nat
  tail : Nat
  deriving DecidableEq, Repr

/-- The fields of a pair record that are set at commit (R67, R94). -/
structure PairData where
  label : Label
  damaged : Bool
  retimed : Bool
  gap : Nat
  mark : Option (BitVec 16)
  fullQ : Nat
  fullClipped : Bool
  proxyState : ProxyState
  proxyQ : Nat
  proxyClipped : Bool
  deriving DecidableEq, Repr

/-- A record of the pair list: a reservation while `pair` is none, a pair once it is there. The extents
are the record's bytes in the two areas; area offset and length of R94 are their start and length. -/
structure PairRecord where
  take : Word
  frame : Word
  preroll : Bool
  full : Option Extent
  proxy : Option Extent
  pair : Option PairData
  deriving DecidableEq, Repr

structure Store where
  fullArea : Area
  proxyArea : Area
  list : List PairRecord
  pressure : Nat
  deriving DecidableEq, Repr

/-! ### Take Control (R111, R114) -/

inductive ProxyScale where
  | half
  | quarter
  deriving DecidableEq, Repr

structure Profile where
  base : Nat
  mode : TimecodeMode
  df : Bool
  rateF : Nat
  rateP : Nat
  window : Nat
  qminF : Nat
  qmaxF : Nat
  startF : Nat
  qminP : Nat
  qmaxP : Nat
  startP : Nat
  scale : ProxyScale
  patience : Nat
  preroll : Nat
  width : Nat
  height : Nat
  deriving DecidableEq, Repr

inductive TakePhase where
  | opened
  | closed
  deriving DecidableEq, Repr

inductive CloseCause where
  | none
  | host
  | cadenceStopped
  | storeOverrun
  deriving DecidableEq, Repr

/-- The header values kept at OPEN_TAKE (R121). -/
structure TakeHeader where
  base : Nat
  mode : TimecodeMode
  df : Bool
  period : Nat
  targetF : Nat
  targetP : Nat
  width : Nat
  height : Nat
  scale : ProxyScale
  deriving DecidableEq, Repr

structure TakeRecord where
  number : Word
  phase : TakePhase
  cause : CloseCause
  header : TakeHeader
  preroll : Nat
  ordinal : Nat
  headerWritten : Bool
  startLabel : Label
  endLabel : Label
  fullBytes : Nat
  proxyBytes : Nat
  held : Nat
  absent : Nat
  clippedF : Nat
  clippedP : Nat
  gapFrames : Nat
  /-- Take Control's drained test has held for the record (R125). -/
  drained : Bool
  deriving DecidableEq, Repr

structure Takes where
  profile : Profile
  /-- The pending profile; PROFILE PENDING is set when there is one. -/
  pendingProfile : Option Profile
  /-- Oldest first. -/
  table : List TakeRecord
  deriving DecidableEq, Repr

/-! ### Stream Writer (R128, R130) -/

inductive Pool where
  | full
  | proxy
  | index
  deriving DecidableEq, Repr

inductive WriterPhase where
  | idle
  | writing
  | waiting
  | blocked
  deriving DecidableEq, Repr

inductive WriterStep where
  | header
  | full
  | proxy
  | entry
  | trailer
  deriving DecidableEq, Repr

inductive WaitCause where
  | noChunk
  | entryRead
  | translationRead
  deriving DecidableEq, Repr

/-- A chunk held FILLING. `take` is the take number written at acquisition (R138). -/
structure Chunk where
  entry : Nat
  addr : Nat
  take : Word
  sequence : Nat
  offset : Nat
  used : Nat
  deriving DecidableEq, Repr

/-- An acquisition scan under way: the read in flight, the entry it reads, and how many entries the
scan may still read, that one included (R131). -/
structure Attempt where
  tag : Nat
  entry : Nat
  left : Nat
  deriving DecidableEq, Repr

structure PoolState where
  count : Nat
  chunkSize : Nat
  cursor : Nat
  chunk : Option Chunk
  nextSequence : Nat
  attempt : Option Attempt
  deriving DecidableEq, Repr

/-- The work in hand: a pair (named by its capture frame number) or the end of the oldest take. -/
structure Work where
  ending : Bool
  step : WriterStep
  frame : Word
  /-- Bytes of the step already written. -/
  written : Nat
  fullOffset : Nat
  proxyOffset : Nat
  /-- What the proxy step settled. -/
  proxyState : ProxyState
  /-- The FULL and PROXY chunks of an ending take have been closed (R140, step 3). -/
  closed : Bool
  /-- The translation the step's bytes are being written at: the page and its host bus address (R151). -/
  page : Option (Nat × HostAddr)
  deriving DecidableEq, Repr

structure BlockedPosition where
  pool : Pool
  offset : Nat
  page : Nat
  deriving DecidableEq, Repr

structure Writer where
  phase : WriterPhase
  work : Option Work
  take : Option Word
  fullPool : PoolState
  proxyPool : PoolState
  indexPool : PoolState
  wait : Option (Pool × WaitCause)
  proxyWait : Nat
  suspended : Bool
  blocked : Option BlockedPosition
  /-- The latest frame start of a PROXY wait found the count at the patience or above it (R141). -/
  patienceOut : Bool
  deriving DecidableEq, Repr

/-! ### Aperture Unit (R150) -/

structure Way where
  tag : Nat
  base : HostAddr
  deriving DecidableEq, Repr

structure CacheSet where
  /-- Four ways; none is invalid. -/
  ways : List (Option Way)
  b0 : Bool
  b1 : Bool
  b2 : Bool
  deriving DecidableEq, Repr

inductive Client where
  | writer
  | chain
  deriving DecidableEq, Repr

structure Miss where
  client : Client
  page : Nat
  deriving DecidableEq, Repr

structure Fetch where
  page : Nat
  discard : Bool
  tag : Nat
  deriving DecidableEq, Repr

structure Aperture where
  sets : List CacheSet
  misses : List Miss
  fetch : Option Fetch
  deriving DecidableEq, Repr

/-! ### Board Interface (R161, R172, R186, R187, R189, R190) -/

inductive EngineMode where
  | detached
  | attaching
  | idle
  | standby
  | recording
  deriving DecidableEq, Repr

inductive AttachResult where
  | none
  | ok
  | misaligned
  | format
  | readFailure
  deriving DecidableEq, Repr

structure HeaderRead where
  tag : Nat
  anchor : HostAddr
  deriving DecidableEq, Repr

structure Board where
  staging : Word
  anchor : HostAddr
  mode : EngineMode
  result : AttachResult
  clamped : Bool
  headerRead : Option HeaderRead
  deriving DecidableEq, Repr

inductive Status where
  | done
  | doneClamped
  | refused
  deriving DecidableEq, Repr

/-- The result codes of R180 and R181. -/
inductive ResultCode where
  | none
  | clamped
  | pending
  | alreadyLatched
  | replaced
  | unknownKind
  | badField
  | wrongMode
  | takeOpen
  | noTake
  | takeTableFull
  | duplicateTake
  deriving DecidableEq, Repr

/-- What an applied directive answers: Status, result code and the 16 bytes of result data. -/
structure DirectiveResult where
  status : Status
  code : ResultCode
  data : List Byte
  deriving DecidableEq, Repr

/-- A fetched record that was applied and whose result waits for a translation (R178). -/
structure PendingResult where
  addr : Nat
  next : Nat
  notify : Bool
  result : DirectiveResult
  deriving DecidableEq, Repr

/-- The visit state IDLE, or VISITING with what the visit waits for. -/
inductive ChainPhase where
  | idle
  | anchorPage
  | nextRead (tag : Nat)
  | recordPage (addr : Nat)
  | recordRead (tag : Nat) (addr : Nat)
  | resultPage (pending : PendingResult)
  deriving DecidableEq, Repr

structure Chain where
  anchor : Nat
  phase : ChainPhase
  again : Bool
  count : Nat
  notify : Bool
  stalled : Bool
  /-- The visit under way began at a frame start (R174). -/
  atFrameStart : Bool
  deriving DecidableEq, Repr

structure Notices where
  cause : Byte
  mask : Byte
  threshold : Nat
  ageLimit : Nat
  fullCount : Nat
  proxyCount : Nat
  indexCount : Nat
  age : Nat
  snapshotLatch : Bool
  deriving DecidableEq, Repr

inductive FaultClass where
  | frameLost
  | intakeOverrun
  | referenceLost
  | apertureFault
  | linkRead
  | chainFault
  | storeOverrun
  | chunkRejected
  | proxySuspended
  deriving DecidableEq, Repr

structure FaultRecord where
  cls : Option FaultClass
  frame : Word
  take : Word
  detail : Word
  more : Bool
  later : Nat
  latch : Bool
  deriving DecidableEq, Repr

/-- The sixteen counters of R185. -/
structure Counters where
  captured : Nat
  lostInCapture : Nat
  lostNoSlot : Nat
  damaged : Nat
  retimed : Nat
  discardedUnbound : Nat
  held : Nat
  absent : Nat
  clippedF : Nat
  clippedP : Nat
  apertureFaults : Nat
  chunksRejected : Nat
  directivesRefused : Nat
  badEdges : Nat
  missedWindows : Nat
  strayEvents : Nat
  deriving DecidableEq, Repr

/-! ### What the engine issues on the link -/

/-- One thing the engine issues on the PCIe link. A payload names the area bytes it carries (taken
along the ring from `offset`), since picture contents are out of the spec's scope (00_scope.md). -/
inductive LinkItem where
  | write (addr : HostAddr) (data : List Byte)
  | payload (addr : HostAddr) (lane : Lane) (offset : Nat) (len : Nat)
  | read (tag : Nat) (addr : HostAddr) (len : Nat)
  | msi
  deriving DecidableEq, Repr

/-! ### The machine -/

structure State where
  cadence : Cadence
  timecode : Timecode
  intake : Intake
  lanes : Lanes
  governor : Governor
  store : Store
  takes : Takes
  writer : Writer
  aperture : Aperture
  board : Board
  chain : Chain
  notices : Notices
  faultRecord : FaultRecord
  counters : Counters
  reportSequence : Word
  /-- What the engine has issued, oldest first (the model's own; log 5). -/
  link : List LinkItem
  /-- The number of the next read or encode job (the model's own; log 4). -/
  nextTag : Nat
  /-- The index of the next free value (the model's own; log 7). -/
  freeIndex : Nat
  /-- The result of the latest directive applied (the model's own; log 10). -/
  lastResult : Option DirectiveResult
  /-- The commands that wait, first in, first out (log 1). -/
  pending : List Instr
  deriving DecidableEq, Repr

/-- Why the machine stops. -/
inductive Fault where
  /-- A sensor line lies above the 64 MiB of its raw slot (R37). Raised by LINE_EVENT, in states that no run reaches, since
  R111 keeps the geometry in range. Safe. -/
  | slotAddress
  deriving DecidableEq, Repr

/-- Why a command has no meaning. -/
inductive Refusal where
  /-- Raised by `exec` for a row without a meaning; no arm raises it now. Safe. -/
  | notModelled (mnemonic : String)
  deriving DecidableEq, Repr

/-! ### Fundamental reset -/

/-- The label of R34. -/
def Label.zero : Label :=
  { hh := 0, mm := 0, ss := 0, ff := 0, df := false }

/-- The default profile of R111. -/
def Profile.default : Profile :=
  { base := 1, mode := .freeRun, df := false, rateF := 600000, rateP := 10000, window := 16,
    qminF := 8, qmaxF := 40, startF := 20, qminP := 8, qmaxP := 60, startP := 24,
    scale := .quarter, patience := 8, preroll := 0, width := 4096, height := 2160 }

/-- R20. -/
def Cadence.reset : Cadence :=
  { run := .stopped, counter := 0, lateOpen := false, lateCount := 0,
    active := { period := 1080000, mode := .free, polarity := .rising, tolerance := 2700 },
    pending := none, edgeLatch := false, measure := 268435455, lastInterval := 0, lock := .unused,
    good := 0, bad := 0, missed := 0, frameNumber := 0#32 }

/-- R34. -/
def Timecode.reset : Timecode :=
  { freeRun := Label.zero, recordRun := Label.zero, latched := Label.zero, baseCounter := 1080000,
    base := 1, df := false, mode := .freeRun, jam := none }

/-- R52; the samples are a DESIGN CHOICE (log 9). -/
def Slot.reset : Slot :=
  { state := .free, samples := [] }

/-- R52. -/
def Intake.reset : Intake :=
  { slots := [Slot.reset, Slot.reset, Slot.reset], capture := none, pendingGap := 0,
    pendingMark := none, strobe := false }

/-- R70. -/
def LaneState.reset : LaneState :=
  { queue := [], phase := .idle, job := none }

/-- R70. -/
def Lanes.reset : Lanes :=
  { tickets := [], full := LaneState.reset, proxy := LaneState.reset, heldReference := 0#32 }

/-- R86. -/
def Governor.reset : Governor :=
  { full := { rate := 600000, qmin := 8, qmax := 40, start := 20, target := 3000000,
              capacity := 48000000, level := 0, q := 20 },
    proxy := { rate := 10000, qmin := 8, qmax := 60, start := 24, target := 50000,
               capacity := 800000, level := 0, q := 24 },
    base := 1, window := 16 }

/-- An empty area of a number of MiB (R91, R110). -/
def Area.empty (mib : Nat) : Area :=
  { size := mib * 1048576, head := 0, tail := 0 }

/-- R91. -/
def Store.reset : Store :=
  { fullArea := Area.empty 512, proxyArea := Area.empty 64, list := [], pressure := 0 }

/-- R111, R114. -/
def Takes.reset : Takes :=
  { profile := Profile.default, pendingProfile := none, table := [] }

/-- A pool of R128 as R130 sets it. -/
def PoolState.fresh (count chunkMiB : Nat) : PoolState :=
  { count := count, chunkSize := chunkMiB * 1048576, cursor := 0, chunk := none, nextSequence := 0,
    attempt := none }

/-- R130 for given pools. -/
def Writer.fresh (full proxy index : PoolState) : Writer :=
  { phase := .idle, work := none, take := none, fullPool := full, proxyPool := proxy,
    indexPool := index, wait := none, proxyWait := 0, suspended := false, blocked := none,
    patienceOut := false }

/-- R128, R130. -/
def Writer.reset : Writer :=
  Writer.fresh (PoolState.fresh 2 4) (PoolState.fresh 2 2) (PoolState.fresh 2 2)

/-- R160. -/
def CacheSet.reset : CacheSet :=
  { ways := [none, none, none, none], b0 := false, b1 := false, b2 := false }

/-- R160. -/
def Aperture.reset : Aperture :=
  { sets := List.replicate 8 CacheSet.reset, misses := [], fetch := none }

/-- R167. -/
def Board.reset : Board :=
  { staging := 0#32, anchor := 0#64, mode := .detached, result := .none, clamped := false,
    headerRead := none }

/-- R172. -/
def Chain.reset : Chain :=
  { anchor := 0, phase := .idle, again := false, count := 0, notify := false, stalled := false,
    atFrameStart := false }

/-- R167, R187, R189. -/
def Notices.reset : Notices :=
  { cause := 0x00#8, mask := 0xFF#8, threshold := 1, ageLimit := 0, fullCount := 0, proxyCount := 0,
    indexCount := 0, age := 0, snapshotLatch := false }

/-- R190. -/
def FaultRecord.reset : FaultRecord :=
  { cls := none, frame := 0#32, take := 0#32, detail := 0#32, more := false, later := 0,
    latch := false }

/-- R185. -/
def Counters.reset : Counters :=
  { captured := 0, lostInCapture := 0, lostNoSlot := 0, damaged := 0, retimed := 0,
    discardedUnbound := 0, held := 0, absent := 0, clippedF := 0, clippedP := 0,
    apertureFaults := 0, chunksRejected := 0, directivesRefused := 0, badEdges := 0,
    missedWindows := 0, strayEvents := 0 }

/-- The machine right after fundamental reset (R167 and the rules it names). -/
def State.reset : State :=
  { cadence := Cadence.reset, timecode := Timecode.reset, intake := Intake.reset,
    lanes := Lanes.reset, governor := Governor.reset, store := Store.reset, takes := Takes.reset,
    writer := Writer.reset, aperture := Aperture.reset, board := Board.reset, chain := Chain.reset,
    notices := Notices.reset, faultRecord := FaultRecord.reset, counters := Counters.reset,
    reportSequence := 0#32, link := [], nextTag := 0, freeIndex := 0, lastResult := none,
    pending := [] }

end Sys2Proof.Machine
end

