-- ==== Sys2Proof/Machine/Operands.lean ====
section
/-! DEFINITION. Operand forms: little-endian fields (R171), record layouts, clamps and saturating counts (00_scope.md,
Conventions), and the sizes the rules name. -/

namespace Sys2Proof.Machine

/-- The `k` little-endian bytes of a number, taken modulo 256^k. -/
def leBytes : Nat → Nat → List Byte
  | 0, _ => []
  | k + 1, n => BitVec.ofNat 8 n :: leBytes k (n / 256)

/-- The number that little-endian bytes spell. -/
def leNat : List Byte → Nat
  | [] => 0
  | b :: bs => b.toNat + 256 * leNat bs

/-- The field of `len` bytes at `offset` of a record; bytes the record lacks read as 0 (log 32). -/
def fieldAt (bytes : List Byte) (offset len : Nat) : Nat :=
  leNat ((bytes.drop offset).take len)

/-- Put bytes at an offset of a buffer. -/
def putAt (buffer : List Byte) (offset : Nat) (bytes : List Byte) : List Byte :=
  buffer.take offset ++ bytes ++ buffer.drop (offset + bytes.length)

/-- A record of `len` bytes with the given fields; bytes not named are 0 (R171). -/
def layout (len : Nat) (fields : List (Nat × List Byte)) : List Byte :=
  fields.foldl (fun buffer f => putAt buffer f.1 f.2) (List.replicate len 0#8)

/-- A flag byte. -/
def bit (b : Bool) (position : Nat) : Nat :=
  if b then 2 ^ position else 0

/-- The nearest end of the range for a value outside it (00_scope.md, Conventions). -/
def clampNat (lo hi x : Nat) : Nat :=
  max lo (min hi x)

/-- The same for integers. -/
def clampInt (lo hi x : Int) : Int :=
  max lo (min hi x)

/-- Rounded down to a multiple of m. -/
def roundDown (m x : Nat) : Nat :=
  x / m * m

/-- The limit of a 32-bit counter (00_scope.md, Conventions). -/
def counterLimit : Nat :=
  4294967295

/-- Add to a count that saturates at a limit. -/
def satAdd (limit n k : Nat) : Nat :=
  min limit (n + k)

/-- One more on a 32-bit counter. -/
def bump (n : Nat) : Nat :=
  satAdd counterLimit n 1

/-- The interval measure's last value (R6): 2^28-1. -/
def measureLimit : Nat :=
  268435455

/-- A page of board space (R149). -/
def pageBytes : Nat :=
  2097152

/-- The end of board space (R149). -/
def boardSpace : Nat :=
  4294967296

/-- A raw slot (R37). -/
def slotBytes : Nat :=
  67108864

/-- The sizes a chunk or an area is told in. -/
def mib : Nat :=
  1048576

/-- The label as four bytes (R171). -/
def Label.bytes (l : Label) : List Byte :=
  [BitVec.ofNat 8 l.ff, BitVec.ofNat 8 l.ss, BitVec.ofNat 8 l.mm,
    BitVec.ofNat 8 (l.hh % 32 + bit l.df 7)]

/-- A signed 32-bit field (R75, R88). -/
def signedBytes (x : Int) : List Byte :=
  leBytes 4 (BitVec.ofInt 32 x).toNat

/-- The code of a lock state (R171). -/
def LockState.code : LockState → Nat
  | .unused => 0
  | .seeking => 1
  | .locked => 2
  | .holdover => 3

/-- The code of an engine mode (R171). -/
def EngineMode.code : EngineMode → Nat
  | .detached => 0
  | .attaching => 1
  | .idle => 2
  | .standby => 3
  | .recording => 4

/-- The code of an attach result (R171). -/
def AttachResult.code : AttachResult → Nat
  | .none => 0
  | .ok => 1
  | .misaligned => 2
  | .format => 3
  | .readFailure => 4

/-- The code of a writer state (R171). -/
def WriterPhase.code : WriterPhase → Nat
  | .idle => 0
  | .writing => 1
  | .waiting => 2
  | .blocked => 3

/-- The code of a pool (R171). -/
def Pool.code : Pool → Nat
  | .full => 0
  | .proxy => 1
  | .index => 2

/-- The code of a wait cause (R171). -/
def WaitCause.code : WaitCause → Nat
  | .noChunk => 0
  | .entryRead => 1
  | .translationRead => 2

/-- The code of a fault class; 0 is none (R171). -/
def FaultClass.code : Option FaultClass → Nat
  | none => 0
  | some .frameLost => 1
  | some .intakeOverrun => 2
  | some .referenceLost => 3
  | some .apertureFault => 4
  | some .linkRead => 5
  | some .chainFault => 6
  | some .storeOverrun => 7
  | some .chunkRejected => 8
  | some .proxySuspended => 9

/-- The code of a result code (R171). -/
def ResultCode.code : ResultCode → Nat
  | .none => 0
  | .clamped => 1
  | .pending => 2
  | .alreadyLatched => 3
  | .replaced => 4
  | .unknownKind => 16
  | .badField => 17
  | .wrongMode => 18
  | .takeOpen => 19
  | .noTake => 20
  | .takeTableFull => 21
  | .duplicateTake => 22

/-- The code of a Status the engine writes (R171). -/
def Status.code : Status → Nat
  | .done => 2
  | .doneClamped => 3
  | .refused => 4

/-- The code of a close cause (R171). -/
def CloseCause.code : CloseCause → Nat
  | .none => 0
  | .host => 1
  | .cadenceStopped => 2
  | .storeOverrun => 3

/-- The code of a proxy state in a Pair Entry (R171). -/
def ProxyState.code : ProxyState → Nat
  | .present => 0
  | .held => 1
  | .absent => 2

/-- The code of a proxy scale (R171). -/
def ProxyScale.code : ProxyScale → Nat
  | .half => 0
  | .quarter => 1

/-- The fault detail of a pool and an entry index (R171). -/
def poolDetail (p : Pool) (entry : Nat) : Word :=
  BitVec.ofNat 32 (entry % 256 + 256 * p.code)

/-- The LINK_READ detail of a page: bit 31 set (R148, R171). -/
def pageReadDetail (page : Nat) : Word :=
  BitVec.ofNat 32 (page + 2147483648)

/-- A refusal: the result data are 0 (R176). -/
def DirectiveResult.refuse (code : ResultCode) : DirectiveResult :=
  { status := .refused, code := code, data := layout 16 [] }

/-- A directive carried out, with result data fields and clamp mask (R171, R181): DONE_CLAMPED when
the mask is not 0. -/
def DirectiveResult.carried (code : ResultCode) (fields : List (Nat × List Byte)) (mask : Nat) :
    DirectiveResult :=
  { status := if mask = 0 then .done else .doneClamped, code := code,
    data := layout 16 (fields ++ [(12, leBytes 4 mask)]) }

end Sys2Proof.Machine
end

