-- ==== Sys2Proof/Machine/Ops.lean ====
section
/-! DEFINITION. Shared operations: the samples of a raw slot, and what the engine issues on the link. -/

namespace Sys2Proof.Machine

/-! ### The samples of a raw slot (R37) -/

/-- What a byte of a slot reads as. A byte nothing has written reads 0 (DESIGN CHOICE, log 9). -/
def Memory.read (m : Memory) (a : Nat) : Byte :=
  match m with
  | [] => 0#8
  | c :: rest => if c.1 = a then c.2 else Memory.read rest a

/-- The cells of bytes laid from an address on, bytes of 0 left out. -/
def Memory.cells (a : Nat) : List Byte → Memory
  | [] => []
  | b :: bs => if b = 0#8 then Memory.cells (a + 1) bs else (a, b) :: Memory.cells (a + 1) bs

/-- Write consecutive bytes from an address on. -/
def Memory.write (m : Memory) (a : Nat) (bytes : List Byte) : Memory :=
  m.filter (fun c => decide (c.1 < a)) ++ Memory.cells a bytes ++
    m.filter (fun c => decide (a + bytes.length ≤ c.1))

/-- Consecutive bytes from an address on. -/
def Memory.readBlock (m : Memory) (a len : Nat) : List Byte :=
  (List.range len).map (fun i => Memory.read m (a + i))

/-- The canonical form: addresses strictly rising, and no entry equal to what an unlisted address reads as. -/
abbrev Memory.wf (m : Memory) : Prop :=
  m.Pairwise (fun c d => c.1 < d.1) ∧ ∀ c ∈ m, c.2 ≠ 0#8

/-- The bytes of a line's samples, 16 bits each (R37), the low byte at the lower address: the spec
gives a raw slot no byte order, and this is the model's choice (log 38). -/
def sampleBytes (samples : List (BitVec 16)) : List Byte :=
  samples.flatMap (fun x => leBytes 2 x.toNat)

/-- Where line i of a frame of a width lies in its slot (R37). -/
def lineOffset (width i : Nat) : Nat :=
  i * width * 2

/-! ### The link -/

/-- Issue one thing on the link, after all that was issued before (R137). -/
def State.emit (s : State) (x : LinkItem) : State :=
  { s with link := s.link ++ [x] }

/-- Issue a posted write. -/
def State.post (s : State) (addr : HostAddr) (data : List Byte) : State :=
  s.emit (.write addr data)

/-- Issue a read; it takes the number `s.nextTag`, by which its completion names it (log 4). -/
def State.issueRead (s : State) (addr : HostAddr) (len : Nat) : State :=
  { s with link := s.link ++ [.read s.nextTag addr len], nextTag := s.nextTag + 1 }

/-- The host bus address of an offset of the Board (R170), modulo 2^64: an anchor in the last 32 KiB of the host bus space
puts parts of the Board past its end, and R170 says nothing of them (DESIGN CHOICE, log 51). -/
def State.boardAddr (s : State) (offset : Nat) : HostAddr :=
  s.board.anchor + BitVec.ofNat 64 offset

/-- The engine holds a Board: IDLE, STANDBY or RECORDING (R169). -/
def State.attached (s : State) : Bool :=
  match s.board.mode with
  | .detached => false
  | .attaching => false
  | .idle => true
  | .standby => true
  | .recording => true

/-- The OPEN record of the take table, if any (R114). -/
def State.openTake (s : State) : Option TakeRecord :=
  s.takes.table.find? (fun r => r.phase == .opened)

/-- The number of the OPEN take, or 0 (R114). -/
def State.openTakeNumber (s : State) : Word :=
  match s.openTake with
  | none => 0#32
  | some r => r.number

/-- Whether a take is OPEN. -/
def State.takeIsOpen (s : State) : Bool :=
  s.openTake.isSome

end Sys2Proof.Machine
end

