-- ==== Sys2Proof/Machine/Flags.lean ====
section
/-! DEFINITION. Notice causes, the mask and the MSI (R186), the fault record (R190) and chunk coalescing (R187). -/

namespace Sys2Proof.Machine

/-- The causes of R186. -/
inductive Notice where
  | attach
  | directive
  | chunk
  | take
  | fault
  | lock
  | snapshot
  | report
  deriving DecidableEq, Repr

/-- The bit of a cause in the notice registers (R186). -/
def Notice.bit : Notice → Byte
  | .attach => 0x01#8
  | .directive => 0x02#8
  | .chunk => 0x04#8
  | .take => 0x08#8
  | .fault => 0x10#8
  | .lock => 0x20#8
  | .snapshot => 0x40#8
  | .report => 0x80#8

/-- The signalling set: pending and not masked (R186). -/
def Notices.signalling (n : Notices) : Byte :=
  n.cause &&& ~~~n.mask

/-- Take new notice registers, and send one MSI if the signalling set goes from empty to non-empty (R186). -/
def State.signal (s : State) (n : Notices) : State :=
  let t := { s with notices := n }
  if s.notices.signalling = 0#8 ∧ n.signalling ≠ 0#8 then t.emit .msi else t

/-- Raise a cause (R186). -/
def State.raise (s : State) (c : Notice) : State :=
  s.signal { s.notices with cause := s.notices.cause ||| c.bit }

/-- Report a fault to the fault record (R190). R186 has the FAULT MSI follow the record, and R183 writes the record to memory
in a Frame Report alone: the MSI is sent as the engine's record latches, ahead of any report that shows it (DESIGN CHOICE,
log 52). -/
def State.reportFault (s : State) (cls : FaultClass) (frame take detail : Word) : State :=
  if s.faultRecord.latch then
    { s with faultRecord := { s.faultRecord with more := true, later := bump s.faultRecord.later } }
  else
    { s with faultRecord := { cls := some cls, frame := frame, take := take, detail := detail,
                              more := false, later := 0, latch := true } }.raise .fault

/-- The total of the three not-announced counts (R187). -/
def Notices.total (n : Notices) : Nat :=
  n.fullCount + n.proxyCount + n.indexCount

/-- The three counts and the age at 0 (R187). -/
def Notices.zeroCounts (n : Notices) : Notices :=
  { n with fullCount := 0, proxyCount := 0, indexCount := 0, age := 0 }

/-- Announce CHUNK: the counts and the age become 0 and the cause is raised (R187). -/
def State.announce (s : State) : State :=
  { s with notices := s.notices.zeroCounts }.raise .chunk

/-- One more on a pool's not-announced count. -/
def Notices.countPool (n : Notices) : Pool → Notices
  | .full => { n with fullCount := n.fullCount + 1 }
  | .proxy => { n with proxyCount := n.proxyCount + 1 }
  | .index => { n with indexCount := n.indexCount + 1 }

/-- A chunk close reaches coalescing (R187). -/
def State.countClose (s : State) (p : Pool) : State :=
  let n := s.notices.countPool p
  let n := if n.total = 1 then { n with age := 0 } else n
  let t := { s with notices := n }
  if n.threshold ≤ n.total then t.announce else t

/-- The age has reached an age limit that is not 0, with chunks waiting (R187). -/
def Notices.aged (n : Notices) : Bool :=
  decide (0 < n.total) && decide (n.ageLimit ≠ 0) && decide (n.ageLimit ≤ n.age)

/-- A frame start reaches coalescing (R187). The age is a count of frame starts and, like the counters of
R185, stops at 2^32-1 (DESIGN CHOICE, log 47). -/
def State.coalesceFrameStart (s : State) : State :=
  if s.notices.total = 0 then s
  else
    let n := { s.notices with age := bump s.notices.age }
    let t := { s with notices := n }
    if n.aged then t.announce else t

/-- The meaning of NOTICE_CAUSE: each 1 clears its cause, and 1 in FAULT or SNAPSHOT releases that
record's latch (R162, R186, R189, R190). -/
def execNoticeCause (value : Word) (s : State) : Host.Outcome State Fault Refusal :=
  let v := value.setWidth 8
  .next { s with
    notices := { s.notices with
      cause := s.notices.cause &&& ~~~v
      snapshotLatch := if v &&& Notice.snapshot.bit = 0#8 then s.notices.snapshotLatch else false }
    faultRecord := { s.faultRecord with
      latch := if v &&& Notice.fault.bit = 0#8 then s.faultRecord.latch else false } }

/-- The meaning of NOTICE_MASK_SET (R186): it can only shrink the signalling set. -/
def execNoticeMaskSet (value : Word) (s : State) : Host.Outcome State Fault Refusal :=
  .next { s with notices := { s.notices with mask := s.notices.mask ||| value.setWidth 8 } }

/-- The meaning of NOTICE_MASK_CLEAR (R186): unmasking a pending cause can send an MSI. -/
def execNoticeMaskClear (value : Word) (s : State) : Host.Outcome State Fault Refusal :=
  .next (s.signal { s.notices with mask := s.notices.mask &&& ~~~(value.setWidth 8) })

/-- The meaning of COALESCING_AGE_LIMIT: the age has reached the limit, and CHUNK is announced; where
it has not, nothing changes (R187; log 26). -/
def execCoalescingAgeLimit (s : State) : Host.Outcome State Fault Refusal :=
  .next (if s.notices.aged then s.announce else s)

/-- The act of SET_NOTICE (R188). -/
def State.applySetNotice (s : State) (count age : Nat) : State × DirectiveResult :=
  let c := clampNat 1 16 count
  let a := clampNat 0 255 age
  let mask := bit (c != count) 0 + bit (a != age) 1
  let n := { s.notices with threshold := c, ageLimit := a }
  let t := { s with notices := n }
  let t := if c ≤ n.total ∨ (a ≠ 0 ∧ a ≤ n.age) then t.announce else t
  (t, DirectiveResult.carried (if mask = 0 then .none else .clamped)
    [(0, leBytes 1 c), (1, leBytes 1 a)] mask)

end Sys2Proof.Machine
end

