-- ==== Sys2Proof/Machine/Timecode.lean ====
section
/-! DEFINITION. Timecode Unit (chapter 2): base rates, labels, the free-run and record-run labels, jams and base changes. -/

namespace Sys2Proof.Machine

/-- One row of the table of R23, with the rate as the ratio N/D of R73. -/
structure BaseRate where
  period : Nat
  n : Nat
  d : Nat
  num : Nat
  den : Nat
  deriving DecidableEq, Repr

/-- The base rates of R23 and R73. Codes above 8 are never in force (R112); they read as code 8. -/
def baseRate (code : Nat) : BaseRate :=
  if code = 0 then { period := 1125000, n := 24, d := 0, num := 24, den := 1 }
  else if code = 1 then { period := 1080000, n := 25, d := 0, num := 25, den := 1 }
  else if code = 2 then { period := 900000, n := 30, d := 0, num := 30, den := 1 }
  else if code = 3 then { period := 562500, n := 48, d := 0, num := 48, den := 1 }
  else if code = 4 then { period := 540000, n := 50, d := 0, num := 50, den := 1 }
  else if code = 5 then { period := 450000, n := 60, d := 0, num := 60, den := 1 }
  else if code = 6 then { period := 1126125, n := 24, d := 0, num := 24000, den := 1001 }
  else if code = 7 then { period := 900900, n := 30, d := 2, num := 30000, den := 1001 }
  else { period := 450450, n := 60, d := 4, num := 60000, den := 1001 }

/-- A dropped label (R24). -/
def Label.dropped (base : Nat) (l : Label) : Bool :=
  l.df && decide (l.ss = 0) && decide (l.ff < (baseRate base).d) && decide (l.mm % 10 ≠ 0)

/-- Step 1 of the increment (R24). -/
def Label.carry (base : Nat) (l : Label) : Label :=
  if l.ff + 1 ≠ (baseRate base).n then { l with ff := l.ff + 1 }
  else if l.ss + 1 ≠ 60 then { l with ff := 0, ss := l.ss + 1 }
  else if l.mm + 1 ≠ 60 then { l with ff := 0, ss := 0, mm := l.mm + 1 }
  else if l.hh + 1 ≠ 24 then { l with ff := 0, ss := 0, mm := 0, hh := l.hh + 1 }
  else { l with ff := 0, ss := 0, mm := 0, hh := 0 }

/-- A dropped label takes FF d (R24 step 2, R31, R33). -/
def Label.undrop (base : Nat) (l : Label) : Label :=
  if l.dropped base then { l with ff := (baseRate base).d } else l

/-- The increment of a label (R24). -/
def Label.increment (base : Nat) (l : Label) : Label :=
  (l.carry base).undrop base

/-- k increments. -/
def Label.advance (base : Nat) : Nat → Label → Label
  | 0, l => l
  | k + 1, l => Label.advance base k (l.increment base)

/-- The conversion of a label to a new base code and DF (R33). -/
def Label.convert (base : Nat) (df : Bool) (l : Label) : Label :=
  Label.undrop base { l with ff := min l.ff ((baseRate base).n - 1), df := df }

/-- The label follows the reference (R25). -/
def State.following (s : State) : Bool :=
  (s.cadence.lock == .locked) && (s.cadence.active.period == (baseRate s.timecode.base).period)

/-- The effective mode (R29). -/
def State.effectiveMode (s : State) : TimecodeMode :=
  if s.cadence.active.period = (baseRate s.timecode.base).period then s.timecode.mode else .recordRun

/-- What the free-run label becomes where it moves: the staged FREE jam, or its increment (R25, R31). -/
def Timecode.stepped (t : Timecode) : Label :=
  match t.jam with
  | some ⟨l, .free⟩ => l
  | some ⟨_, .record⟩ => t.freeRun.increment t.base
  | none => t.freeRun.increment t.base

/-- A FREE jam that has taken effect is no longer staged (R31). -/
def Timecode.jamAfterFree (t : Timecode) : Option Jam :=
  match t.jam with
  | some ⟨_, .free⟩ => none
  | j => j

/-- A base-period boundary (R25). -/
def Timecode.boundary (t : Timecode) : Timecode :=
  { t with freeRun := t.stepped, jam := t.jamAfterFree, baseCounter := (baseRate t.base).period }

/-- A following frame start (R26): the jam, or the increment unless twice the counter exceeds the
base period; in every case the counter loads the base period. -/
def Timecode.followingFrameStart (t : Timecode) : Timecode :=
  let period := (baseRate t.base).period
  let staged := t.jamAfterFree != t.jam
  if staged || decide (2 * t.baseCounter ≤ period) then t.boundary
  else { t with baseCounter := period }

/-- A base-period boundary falls on this tick and has not been taken yet (R25). -/
def State.boundaryDue (s : State) : Bool :=
  !s.following && decide (s.timecode.baseCounter = 0)

/-- The step of the record-run label for a ticket or a loss of a take: a staged RECORD jam first, then
the increment (R28, R32). -/
def Timecode.recordStep (t : Timecode) : Timecode :=
  match t.jam with
  | some ⟨l, .record⟩ => { t with recordRun := l.increment t.base, jam := none }
  | _ => { t with recordRun := t.recordRun.increment t.base }

/-- The Timecode Unit takes base code, DF and mode of an activating profile (R33). -/
def Timecode.takeProfile (t : Timecode) (p : Profile) : Timecode :=
  if p.base = t.base ∧ p.df = t.df then { t with mode := p.mode }
  else
    { t with
      freeRun := t.freeRun.convert p.base p.df
      recordRun := t.recordRun.convert p.base p.df
      jam := t.jam.map (fun j => { j with label := j.label.convert p.base p.df })
      baseCounter := if p.base = t.base then t.baseCounter else (baseRate p.base).period
      base := p.base
      df := p.df
      mode := p.mode }

/-- A base-period boundary is taken; while the label follows the reference there is none (R25). -/
def State.baseBoundary (s : State) : State :=
  if s.following then s else { s with timecode := s.timecode.boundary }

/-- The label the Directive Chain writes into a record (R30). -/
def State.visitLabel (s : State) : Label :=
  match s.effectiveMode with
  | .recordRun => s.timecode.recordRun
  | .freeRun => if s.chain.atFrameStart then s.timecode.latched else s.timecode.freeRun

/-- The label of an empty take, by the mode kept in its record (R30, R125). -/
def State.emptyTakeLabel (s : State) (mode : TimecodeMode) : Label :=
  match mode with
  | .freeRun => s.timecode.freeRun
  | .recordRun => s.timecode.recordRun

/-- The target of a jam code (R31). -/
def jamTarget (code : Nat) : Option JamTarget :=
  if code = 0 then some .free else if code = 1 then some .record else none

/-- The act of JAM_TIMECODE (R31). -/
def State.applyJam (s : State) (hh mm ss ff code : Nat) : State × DirectiveResult :=
  match jamTarget code with
  | none => (s, DirectiveResult.refuse .badField)
  | some target =>
    let t := s.timecode
    let clamped : Label :=
      { hh := min hh 23, mm := min mm 59, ss := min ss 59, ff := min ff ((baseRate t.base).n - 1),
        df := t.df }
    let staged := clamped.undrop t.base
    let mask := bit (clamped.hh != hh) 0 + bit (clamped.mm != mm) 1 + bit (clamped.ss != ss) 2 +
      bit (clamped.ff != ff) 3 + bit (clamped.dropped t.base) 4
    ({ s with timecode := { t with jam := some { label := staged, target := target } } },
      DirectiveResult.carried (if t.jam.isSome then .replaced else .pending)
        [(0, staged.bytes), (4, leBytes 1 code)] mask)

end Sys2Proof.Machine
end

