-- ==== Sys2Proof/Machine/Governor.lean ====
section
/-! DEFINITION. Rate Governor (chapter 5): targets, buckets, the step rule, and the answers to job starts. -/

namespace Sys2Proof.Machine

/-- Target bytes per frame (R73): one kbit/s is 125 bytes per second; one division, rounding down. -/
def targetBytes (rate base : Nat) : Nat :=
  rate * 125 * (baseRate base).den / (baseRate base).num

/-- The step of the governor quantiser (R79), by the first test that holds. -/
def governorStep (level : Int) (capacity : Nat) : Int :=
  if 2 * level < -(capacity : Int) then 2
  else if 8 * level < -(capacity : Int) then 1
  else if 8 * level ≤ (capacity : Int) then 0
  else if 2 * level ≤ (capacity : Int) then -1
  else -2

/-- The update of a stream at a completion with target T and size S (R76, R78, R79, R80). -/
def Stream.update (g : Stream) (target size : Nat) : Stream :=
  let level := clampInt (-(g.capacity : Int)) g.capacity (g.level + target - size)
  let q := clampInt g.qmin g.qmax ((g.q : Int) + governorStep level g.capacity)
  { g with level := level, q := q.toNat }

/-- The governor of a lane's stream. -/
def Governor.stream (g : Governor) : Lane → Stream
  | .full => g.full
  | .proxy => g.proxy

/-- Update the stream of a lane; the other is untouched (R76). -/
def Governor.update (g : Governor) (lane : Lane) (target size : Nat) : Governor :=
  match lane with
  | .full => { g with full := g.full.update target size }
  | .proxy => { g with proxy := g.proxy.update target size }

/-- A stream as an activating profile sets it (R72, R73, R75, R84). -/
def Stream.ofProfile (rate base window qmin qmax start : Nat) : Stream :=
  let target := targetBytes rate base
  { rate := rate, qmin := qmin, qmax := qmax, start := start, target := target,
    capacity := target * window, level := 0, q := start }

/-- The Governor takes an activating profile (R84). -/
def Governor.ofProfile (p : Profile) : Governor :=
  { full := Stream.ofProfile p.rateF p.base p.window p.qminF p.qmaxF p.startF,
    proxy := Stream.ofProfile p.rateP p.base p.window p.qminP p.qmaxP p.startP,
    base := p.base, window := p.window }

/-- A stream back at an empty bucket and its start quantiser (R85). -/
def Stream.restart (g : Stream) : Stream :=
  { g with level := 0, q := g.start }

/-- The reset at an OPEN_TAKE without pre-roll (R85). -/
def Governor.restart (g : Governor) : Governor :=
  { g with full := g.full.restart, proxy := g.proxy.restart }

/-- The answer to a proxy job start (R82): a quantiser, or HELD as none. -/
def proxyAnswer (q pressure : Nat) : Option Nat :=
  let a := q + 8 * pressure
  if a ≤ 63 then some a else if a ≤ 70 then some 63 else none

end Sys2Proof.Machine
end

