-- ==== Sys2Proof/Machine/Store.lean ====
section
/-! DEFINITION. Pair Store (chapter 6): areas, the pair list, admission, eviction, trimming, pressure and removal. -/

namespace Sys2Proof.Machine

/-! ### Areas and extents (R92, R93) -/

/-- The area of a lane. -/
def Store.area (st : Store) : Lane → Area
  | .full => st.fullArea
  | .proxy => st.proxyArea

/-- Replace the area of a lane. -/
def Store.setArea (st : Store) (lane : Lane) (a : Area) : Store :=
  match lane with
  | .full => { st with fullArea := a }
  | .proxy => { st with proxyArea := a }

/-- The extent a record holds in the area of a lane. -/
def PairRecord.extent (r : PairRecord) : Lane → Option Extent
  | .full => r.full
  | .proxy => r.proxy

/-- Set or drop the extent a record holds in the area of a lane. -/
def PairRecord.setExtent (r : PairRecord) (lane : Lane) (x : Option Extent) : PairRecord :=
  match lane with
  | .full => { r with full := x }
  | .proxy => { r with proxy := x }

/-- The extents that records hold in an area, oldest first (R95: the list and the areas are in capture order). -/
def extentsOf (rs : List PairRecord) (lane : Lane) : List Extent :=
  rs.filterMap (fun r => r.extent lane)

/-- The span of an area (R92): from head to tail along the ring, 0 when it holds no extent. -/
def Store.span (st : Store) (lane : Lane) : Nat :=
  let a := st.area lane
  if (extentsOf st.list lane).isEmpty then 0
  else
    let d := (a.tail + a.size - a.head) % a.size
    if d = 0 then a.size else d

/-- The free room of an area (R92). -/
def Store.freeRoom (st : Store) (lane : Lane) : Nat :=
  (st.area lane).size - st.span lane

/-- Take-bound, that is, with a take number that is not 0. -/
def PairRecord.bound (r : PairRecord) : Bool :=
  r.take != 0#32

/-- The bound or the unbound records. -/
def Store.records (st : Store) (bound : Bool) : Nat :=
  (st.list.filter (fun r => r.bound == bound)).length

/-- The bound or the unbound live bytes of an area (R92). -/
def Store.liveBytes (st : Store) (lane : Lane) (bound : Bool) : Nat :=
  ((extentsOf (st.list.filter (fun r => r.bound == bound)) lane).map Extent.len).sum

/-- The byte after an extent (R92). -/
def Area.after (a : Area) (x : Extent) : Nat :=
  (x.start + x.len) % a.size

/-- The head moves to the oldest remaining extent, or to the tail when none remains (R93). -/
def Area.advanceHead (a : Area) (remaining : List Extent) : Area :=
  match remaining.head? with
  | none => { a with head := a.tail }
  | some x => { a with head := x.start }

/-- The tail moves back to the newest remaining extent, or to the head when none remains (R93). -/
def Area.retreatTail (a : Area) (remaining : List Extent) : Area :=
  match remaining.getLast? with
  | none => { a with tail := a.head }
  | some x => { a with tail := a.after x }

/-! ### Pressure (R107, R108) -/

/-- The level of one measure (R107). -/
def pressureLevel (u c : Nat) : Nat :=
  if 2 * u < c then 0 else if 4 * u < 3 * c then 1 else if 10 * u < 9 * c then 2 else 3

/-- P from the three measures as they stand (R107). -/
def Store.measured (st : Store) : Nat :=
  max (pressureLevel (st.records true) 4096)
    (max (pressureLevel (st.liveBytes .full true) st.fullArea.size)
      (pressureLevel (st.liveBytes .proxy true) st.proxyArea.size))

/-- P is recomputed (R108). -/
def Store.refresh (st : Store) : Store :=
  { st with pressure := st.measured }

/-! ### Leaving the list (R93, R99, R100, R104, R109) -/

/-- An area after the head record has left: its extent was the oldest of the area. -/
def Store.freeHeadExtent (st : Store) (lane : Lane) (r : PairRecord) (rest : List PairRecord) : Area :=
  match r.extent lane with
  | none => st.area lane
  | some _ => (st.area lane).advanceHead (extentsOf rest lane)

/-- The head record leaves and its extents are freed from the heads of their areas (R100, R109). -/
def Store.dropHead (st : Store) : Store :=
  match st.list with
  | [] => st
  | r :: rest =>
    { st with list := rest, fullArea := st.freeHeadExtent .full r rest,
              proxyArea := st.freeHeadExtent .proxy r rest }

/-- The head record can be evicted: committed and unbound (R99, R100, R101). -/
def Store.headEvictable (st : Store) : Bool :=
  match st.list with
  | [] => false
  | r :: _ => r.pair.isSome && !r.bound

/-- An area after a record that stood behind `before` and ahead of `later` has left (R93, R104): at the
tail, at the head, or as slack. -/
def Store.freeExtentAt (st : Store) (lane : Lane) (r : PairRecord) (before later : List PairRecord) :
    Area :=
  match r.extent lane with
  | none => st.area lane
  | some _ =>
    if (extentsOf later lane).isEmpty then (st.area lane).retreatTail (extentsOf before lane)
    else if (extentsOf before lane).isEmpty then (st.area lane).advanceHead (extentsOf later lane)
    else st.area lane

/-- The store releases everything a ticket holds (R104); P is recomputed (R108). The ticket's record is the first of its
32-bit capture frame number, the model's choice (log 48). -/
def Store.release (st : Store) (frame : Word) : Store :=
  let before := st.list.takeWhile (fun r => r.frame != frame)
  match st.list.dropWhile (fun r => r.frame != frame) with
  | [] => st
  | r :: later =>
    { st with list := before ++ later, fullArea := st.freeExtentAt .full r before later,
              proxyArea := st.freeExtentAt .proxy r before later }.refresh

/-! ### Requests (R96 to R99) -/

inductive Lack where
  | records
  | fullBytes
  | proxyBytes
  deriving DecidableEq, Repr

/-- The verdicts of R57, with the lack a refusal returns (R96). -/
inductive Verdict where
  | granted
  | bytesRefused (lack : Lack)
  | refused (lack : Lack)
  deriving DecidableEq, Repr

/-- A reservation request (R57, R96). -/
structure Request where
  frame : Word
  take : Word
  lane : Lane
  bytes : Nat
  wantRecord : Bool
  deriving DecidableEq, Repr

/-- The lack of bytes of an area (R97). -/
def byteLack : Lane → Lack
  | .full => .fullBytes
  | .proxy => .proxyBytes

/-- A record as a reservation holds it at first (R94). -/
def PairRecord.fresh (frame take : Word) : PairRecord :=
  { take := take, frame := frame, preroll := false, full := none, proxy := none, pair := none }

/-- Append a wanted record (R94, R96). -/
def Store.addRecord (st : Store) (r : Request) : Store :=
  if r.wantRecord then { st with list := st.list ++ [PairRecord.fresh r.frame r.take] } else st

/-- Change the record of a ticket. R94 does not say how the store finds it: the model names it by the 32-bit capture frame
number, so that a record still held 2^32 frame starts later is changed with it (DESIGN CHOICE, log 48). -/
def Store.mapRecord (st : Store) (frame : Word) (f : PairRecord → PairRecord) : Store :=
  { st with list := st.list.map (fun r => if r.frame = frame then f r else r) }

/-- Place an extent at the tail and write it into the record; 0 bytes place none (R92, R96). The record is found by its
capture frame number, the model's choice (log 48). -/
def Store.place (st : Store) (r : Request) : Store :=
  if r.bytes = 0 then st
  else
    let a := st.area r.lane
    let placed := st.mapRecord r.frame
      (fun p => p.setExtent r.lane (some { start := a.tail, len := r.bytes }))
    placed.setArea r.lane { a with tail := (a.tail + r.bytes) % a.size }

/-- A bound request (R97). -/
def Store.requestBound (st : Store) (r : Request) : Store × Verdict :=
  if r.wantRecord ∧ 4096 ≤ st.list.length then (st, .refused .records)
  else
    let reserved := st.addRecord r
    if r.bytes ≤ st.freeRoom r.lane then ((reserved.place r).refresh, .granted)
    else (reserved.refresh, .bytesRefused (byteLack r.lane))

/-- The record part of an unbound request is met (R98). -/
def Store.recordMet (st : Store) (limit : Nat) (r : Request) : Bool :=
  !r.wantRecord || (decide (st.records false + 1 ≤ limit) && decide (st.list.length < 4096))

/-- The byte part of an unbound request is met (R98). -/
def Store.bytesMet (st : Store) (r : Request) : Bool :=
  decide (8 * (st.liveBytes r.lane false + r.bytes) ≤ 7 * (st.area r.lane).size) &&
    decide (r.bytes ≤ st.freeRoom r.lane)

/-- Admission of an unbound request (R99): test, evict the head pair, test again, at most `fuel` evictions. -/
def Store.takeUnbound (limit : Nat) (r : Request) : Nat → Store → Store × Verdict
  | fuel, st =>
    if st.recordMet limit r && st.bytesMet r then ((st.addRecord r).place r, .granted)
    else if !st.recordMet limit r && !st.headEvictable then (st, .refused .records)
    else if !st.headEvictable then (st.addRecord r, .bytesRefused (byteLack r.lane))
    else
      match fuel with
      | 0 => (st, .refused .records)
      | k + 1 => Store.takeUnbound limit r k st.dropHead

/-- The unbound record limit (R98): the pre-roll frames, or 0 in RECORD_RUN, and at most 3,584. -/
def unboundLimit (preroll : Nat) (mode : TimecodeMode) : Nat :=
  match mode with
  | .recordRun => 0
  | .freeRun => min preroll 3584

/-- The judgement of a request (R96): bound and unbound by their own rules. -/
def Store.request (st : Store) (limit : Nat) (r : Request) : Store × Verdict :=
  if r.take ≠ 0#32 then st.requestBound r else st.takeUnbound limit r st.list.length

/-! ### Trimming (R102) -/

/-- The unbound material exceeds a limit of R98. -/
def Store.overLimit (st : Store) (limit : Nat) : Bool :=
  decide (limit < st.records false) ||
    decide (7 * st.fullArea.size < 8 * st.liveBytes .full false) ||
    decide (7 * st.proxyArea.size < 8 * st.liveBytes .proxy false)

/-- Evict head pairs while they can be evicted and a limit is exceeded, at most `fuel` of them. -/
def Store.trimBy (limit : Nat) : Nat → Store → Store
  | 0, st => st
  | k + 1, st =>
    if st.headEvictable && st.overLimit limit then Store.trimBy limit k st.dropHead else st

/-- Trimming (R102). -/
def Store.trim (st : Store) (limit : Nat) : Store :=
  Store.trimBy limit st.list.length st

/-! ### Completion, commit, binding and removal (R103, R105, R109) -/

/-- The extent of a completed picture is shortened to its size, and the rest returns at the tail (R93, R103). The record is
found by its capture frame number, the model's choice (log 48). -/
def Store.shorten (st : Store) (frame : Word) (lane : Lane) (size : Nat) : Store :=
  let cut := st.mapRecord frame
    (fun r => r.setExtent lane ((r.extent lane).map (fun x => { x with len := size })))
  let later := (st.list.dropWhile (fun r => r.frame != frame)).drop 1
  let a := st.area lane
  (if (extentsOf later lane).isEmpty then cut.setArea lane (a.retreatTail (extentsOf cut.list lane))
    else cut).refresh

/-- The pair is committed (R67, R103, R116), in the record found by its capture frame number (DESIGN CHOICE, log 48). -/
def Store.commit (st : Store) (frame take : Word) (preroll : Bool) (data : PairData) : Store :=
  st.mapRecord frame
    (fun r => { r with take := take, preroll := r.preroll || preroll, pair := some data })

/-- An OPEN_TAKE binds all unbound records (R105). -/
def Store.bindAll (st : Store) (take : Word) : Store :=
  { st with
    list := st.list.map (fun (r : PairRecord) => if r.bound then r else { r with take := take, preroll := true })
    }.refresh

/-- The Stream Writer removes the head pair (R109). -/
def Store.remove (st : Store) : Store :=
  st.dropHead.refresh

end Sys2Proof.Machine
end

