-- ==== Sys2Proof/Machine/Aperture.lean ====
section
/-! DEFINITION. Aperture Unit (chapter 9): the translation cache, its replacement, misses and fetches. -/

namespace Sys2Proof.Machine

/-- The page of a board address (R149). -/
def pageOf (addr : Nat) : Nat :=
  addr / pageBytes

/-- The page offset of a board address (R149). -/
def pageOffset (addr : Nat) : Nat :=
  addr % pageBytes

/-- The set of a page (R152). -/
def setIndex (page : Nat) : Nat :=
  page % 8

/-- The tag of a page (R152). -/
def tagOf (page : Nat) : Nat :=
  page / 8

/-- The host bus address of a page offset, at a page's translation (R149). -/
def hostAt (base : HostAddr) (addr : Nat) : HostAddr :=
  base + BitVec.ofNat 64 (pageOffset addr)

/-- The set at an index. -/
def Aperture.set (a : Aperture) (i : Nat) : CacheSet :=
  a.sets.getD i CacheSet.reset

/-- Replace the set at an index. -/
def Aperture.putSet (a : Aperture) (i : Nat) (c : CacheSet) : Aperture :=
  { a with sets := a.sets.set i c }

/-- The host bus address of a way that holds a tag. -/
def wayHolds (tag : Nat) (w : Option Way) : Bool :=
  match w with
  | none => false
  | some x => x.tag == tag

/-- The way that holds a tag, from a way number on. -/
def findWay (tag : Nat) : Nat → List (Option Way) → Option Nat
  | _, [] => none
  | i, w :: ws => if wayHolds tag w then some i else findWay tag (i + 1) ws

/-- The lowest-numbered invalid way, from a way number on (R153). -/
def findInvalid : Nat → List (Option Way) → Option Nat
  | _, [] => none
  | i, w :: ws => if w.isNone then some i else findInvalid (i + 1) ws

/-- The PLRU bits after a use or fill of a way (R153). -/
def CacheSet.touch (c : CacheSet) (way : Nat) : CacheSet :=
  if way = 0 then { c with b0 := true, b1 := true }
  else if way = 1 then { c with b0 := true, b1 := false }
  else if way = 2 then { c with b0 := false, b2 := true }
  else { c with b0 := false, b2 := false }

/-- The victim the bits point to (R153). -/
def CacheSet.victim (c : CacheSet) : Nat :=
  if c.b0 then (if c.b2 then 3 else 2) else (if c.b1 then 1 else 0)

/-- The way that receives a fetched entry (R153, R155). -/
def CacheSet.fillWay (c : CacheSet) (tag : Nat) : Nat :=
  match findWay tag 0 c.ways with
  | some i => i
  | none =>
    match findInvalid 0 c.ways with
    | some i => i
    | none => c.victim

/-- Install an entry (R153, R155). -/
def CacheSet.install (c : CacheSet) (tag : Nat) (base : HostAddr) : CacheSet :=
  let i := c.fillWay tag
  ({ c with ways := c.ways.set i (some { tag := tag, base := base }) } : CacheSet).touch i

/-- The base a way holds. -/
def CacheSet.baseAt (c : CacheSet) (i : Nat) : HostAddr :=
  match c.ways.getD i none with
  | none => 0#64
  | some w => w.base

/-- A hit: the way and its host bus address (R152). -/
def Aperture.lookup (a : Aperture) (page : Nat) : Option (Nat × HostAddr) :=
  let c := a.set (setIndex page)
  match findWay (tagOf page) 0 c.ways with
  | none => none
  | some i => some (i, c.baseAt i)

/-- The PLRU bits after a use of a way for a page (R152, R153). -/
def Aperture.use (a : Aperture) (page way : Nat) : Aperture :=
  a.putSet (setIndex page) ((a.set (setIndex page)).touch way)

/-- Begin the fetch of a page's entry: one 8-byte read of the aperture table (R149, R154). -/
def State.beginFetch (s : State) (page : Nat) : State :=
  let t := s.issueRead (s.boardAddr (0x4000 + 8 * page)) 8
  { t with aperture := { t.aperture with fetch := some { page := page, discard := false, tag := s.nextTag } } }

/-- A translation request (R151, R152, R154): the page's host bus address on a hit; on a miss none, with
the miss appended and a fetch begun when none is in flight. -/
def State.translate (s : State) (client : Client) (addr : Nat) : State × Option HostAddr :=
  let page := pageOf addr
  match s.aperture.lookup page with
  | some (way, base) => ({ s with aperture := s.aperture.use page way }, some base)
  | none =>
    let t := { s with aperture := { s.aperture with
      misses := s.aperture.misses ++ [{ client := client, page := page }] } }
    (if s.aperture.fetch.isNone then t.beginFetch page else t, none)

/-- A client has a translation outstanding (R150). -/
def State.waitsForPage (s : State) (client : Client) : Bool :=
  s.aperture.misses.any (fun m => m.client == client)

inductive Answer where
  | translated (base : HostAddr)
  | invalid
  | readFailed
  deriving DecidableEq, Repr

/-- Serve the list from its head, at most `fuel` misses: a miss that now hits is answered and leaves; the
first that does not begins its fetch (R154). Gives the answers in order. -/
def State.serveMisses : Nat → State → State × List (Miss × Answer)
  | 0, s => (s, [])
  | k + 1, s =>
    match s.aperture.misses with
    | [] => (s, [])
    | m :: rest =>
      match s.aperture.lookup m.page with
      | none => (s.beginFetch m.page, [])
      | some (way, base) =>
        let a := s.aperture.use m.page way
        let (t, answers) := State.serveMisses k { s with aperture := { a with misses := rest } }
        (t, (m, .translated base) :: answers)

/-- The answer of a completed fetch (R155): the entry's bit 0 is valid, bits 63..21 the address (R171). -/
def fetchAnswer (data : Option (List Byte)) : Answer :=
  match data with
  | none => .readFailed
  | some bytes =>
    let entry := BitVec.ofNat 64 (fieldAt bytes 0 8)
    if entry.getLsbD 0 then .translated (entry &&& ~~~(BitVec.ofNat 64 2097151)) else .invalid

/-- The cache after a fetch's answer: only a valid entry is installed (R155). -/
def Aperture.afterFetch (a : Aperture) (page : Nat) (answer : Answer) : Aperture :=
  match answer with
  | .translated base => a.putSet (setIndex page) ((a.set (setIndex page)).install (tagOf page) base)
  | .invalid => a
  | .readFailed => a

/-- A completed fetch that carries no DISCARD settles its misses and the next is served (R154, R155). The next miss's fetch
is begun here, before the answered clients act on their answers: R155 gives no order (DESIGN CHOICE, log 50). -/
def State.settleFetch (s : State) (page : Nat) (answer : Answer) : State × List (Miss × Answer) :=
  let done := s.aperture.misses.filter (fun m => m.page == page)
  let left := s.aperture.misses.filter (fun m => m.page != page)
  let a := { s.aperture.afterFetch page answer with misses := left, fetch := none }
  let (t, more) := State.serveMisses left.length { s with aperture := a }
  (t, done.map (fun m => (m, answer)) ++ more)

/-- The ways of a set, by page, that lie in a range are invalidated (R157). -/
def CacheSet.invalidate (c : CacheSet) (index first last : Nat) : CacheSet :=
  { c with ways := c.ways.map (fun w =>
      match w with
      | none => none
      | some x => if first ≤ x.tag * 8 + index ∧ x.tag * 8 + index ≤ last then none else some x) }

/-- The sets from an index on after a REMAP of a range (R157). -/
def invalidateSets (first last : Nat) : Nat → List CacheSet → List CacheSet
  | _, [] => []
  | i, c :: cs => c.invalidate i first last :: invalidateSets first last (i + 1) cs

/-- The number of valid ways. -/
def validWays (sets : List CacheSet) : Nat :=
  (sets.map (fun c => (c.ways.filter Option.isSome).length)).sum

/-- A fetch in flight for a page of the range (R157). -/
def Aperture.fetchIn (a : Aperture) (first last : Nat) : Bool :=
  match a.fetch with
  | none => false
  | some f => decide (first ≤ f.page) && decide (f.page ≤ last)

/-- The Aperture Unit applies a REMAP of a range (R157). -/
def Aperture.remap (a : Aperture) (first last : Nat) : Aperture :=
  { a with
    sets := invalidateSets first last 0 a.sets
    fetch := a.fetch.map (fun f =>
      if first ≤ f.page ∧ f.page ≤ last then { f with discard := true } else f) }

/-- The act of PROBE_APERTURE (R159): it changes nothing. -/
def State.applyProbe (s : State) (page : Nat) : State × DirectiveResult :=
  if 2047 < page then (s, DirectiveResult.refuse .badField)
  else
    let c := s.aperture.set (setIndex page)
    let hit := s.aperture.lookup page
    let inFlight := match s.aperture.fetch with
      | none => false
      | some f => f.page == page
    (s, DirectiveResult.carried .none
      [(0, leBytes 1 (bit hit.isSome 0 + bit inFlight 1)), (1, leBytes 1 (setIndex page)),
       (2, leBytes 1 (match hit with | none => 0 | some (way, _) => way)),
       (3, leBytes 1 (bit c.b0 0 + bit c.b1 1 + bit c.b2 2)),
       (4, leBytes 8 (match hit with | none => 0 | some (_, base) => base.toNat))] 0)

end Sys2Proof.Machine
end

