-- ==== Sys2Proof/Machine/Takes.lean ====
section
/-! DEFINITION. Take Control (chapter 7): the profile, the take table, opening and closing, the drained test, MARK. -/

namespace Sys2Proof.Machine

/-! ### The profile (R72, R111, R112) -/

/-- qmin, qmax and start in force for the three values the host wrote (R72). -/
def quantisers (qmin qmax start : Nat) : Nat × Nat × Nat :=
  let lo := min qmin 63
  let hi := max lo (min qmax 63)
  (lo, hi, clampNat lo hi (min start 63))

/-- Pre-roll frames in force (R112). -/
def prerollInForce (mode preroll : Nat) : Nat :=
  if mode = 1 then 0 else min preroll 4096

/-- A dimension in force: clamped, then rounded down to a multiple of 16 (R112). -/
def dimension (lo hi x : Nat) : Nat :=
  roundDown 16 (clampNat lo hi x)

/-- The codes of SET_PROFILE are in their sets (R112). -/
def profileCodesOk (p : ProfileParams) : Bool :=
  decide (p.base.toNat ≤ 8) && decide (p.mode.toNat ≤ 1) && decide (p.df.toNat ≤ 1) &&
    decide (p.scale.toNat ≤ 1)

/-- DF in force: only with base code 7 or 8 (R23, R112). -/
def profileDf (p : ProfileParams) : Bool :=
  decide (p.df.toNat = 1) && (decide (p.base.toNat = 7) || decide (p.base.toNat = 8))

/-- The profile a SET_PROFILE forms (R112). -/
def profileFormed (p : ProfileParams) : Profile :=
  let f := quantisers p.qminF.toNat p.qmaxF.toNat p.startF.toNat
  let x := quantisers p.qminP.toNat p.qmaxP.toNat p.startP.toNat
  { base := p.base.toNat
    mode := if p.mode.toNat = 1 then .recordRun else .freeRun
    df := profileDf p
    rateF := clampNat 50000 3200000 p.rateF.toNat
    rateP := clampNat 1000 50000 p.rateP.toNat
    window := clampNat 4 64 p.window.toNat
    qminF := f.1, qmaxF := f.2.1, startF := f.2.2
    qminP := x.1, qmaxP := x.2.1, startP := x.2.2
    scale := if p.scale.toNat = 1 then .quarter else .half
    patience := clampNat 1 255 p.patience.toNat
    preroll := prerollInForce p.mode.toNat p.preroll.toNat
    width := dimension 1280 8192 p.width.toNat
    height := dimension 720 4096 p.height.toNat }

/-- The clamp mask of SET_PROFILE (R112). -/
def profileMask (p : ProfileParams) : Nat :=
  let q := profileFormed p
  bit (decide (p.df.toNat = 1) && !profileDf p) 0 + bit (q.rateF != p.rateF.toNat) 1 +
    bit (q.rateP != p.rateP.toNat) 2 + bit (q.window != p.window.toNat) 3 +
    bit ((q.qminF, q.qmaxF, q.startF) != (p.qminF.toNat, p.qmaxF.toNat, p.startF.toNat)) 4 +
    bit ((q.qminP, q.qmaxP, q.startP) != (p.qminP.toNat, p.qmaxP.toNat, p.startP.toNat)) 5 +
    bit (q.patience != p.patience.toNat) 6 + bit (q.preroll != p.preroll.toNat) 7 +
    bit (q.width != p.width.toNat) 8 + bit (q.height != p.height.toNat) 9

/-- The unbound record limit as it stands (R98). -/
def State.recordLimit (s : State) : Nat :=
  unboundLimit s.takes.profile.preroll s.effectiveMode

/-- The store trims (R102). -/
def State.trimStore (s : State) : State :=
  { s with store := s.store.trim s.recordLimit }

/-- A profile activation, as the Timecode Unit and the Rate Governor take it (R33, R84, R113). -/
def State.activate (s : State) (p : Profile) : State :=
  { s with
    takes := { s.takes with profile := p, pendingProfile := none }
    timecode := s.timecode.takeProfile p
    governor := Governor.ofProfile p }

/-- An activation while the cadence is stopped also trims the store (R102, R113). -/
def State.activateStopped (s : State) (p : Profile) : State :=
  (s.activate p).trimStore

/-- A frame start at Take Control: a pending profile activates when no take is OPEN (R113). -/
def State.profileFrameStart (s : State) : State :=
  match s.takes.pendingProfile with
  | none => s
  | some p => if s.takeIsOpen then s else s.activate p

/-- The act of SET_PROFILE (R112, R113). -/
def State.applySetProfile (s : State) (p : ProfileParams) : State × DirectiveResult :=
  if profileCodesOk p then
    match s.cadence.run with
    | .stopped =>
      (s.activateStopped (profileFormed p),
        DirectiveResult.carried (if profileMask p = 0 then .none else .clamped) [] (profileMask p))
    | .running =>
      ({ s with takes := { s.takes with pendingProfile := some (profileFormed p) } },
        DirectiveResult.carried (if s.takes.pendingProfile.isSome then .replaced else .pending) []
          (profileMask p))
  else (s, DirectiveResult.refuse .badField)

/-! ### The drained test (R125) -/

/-- No ticket and no record is bound to the take (R125). -/
def State.noMaterial (s : State) (take : Word) : Bool :=
  !(s.lanes.tickets.any (fun t => t.take == take)) && !(s.store.list.any (fun r => r.take == take))

/-- A record at Take Control's test: one that drains with no Pair Entry takes its labels (R125). -/
def State.testDrained (s : State) (r : TakeRecord) : TakeRecord :=
  if (r.phase == .closed) && !r.drained && s.noMaterial r.number then
    if r.ordinal = 0 ∧ r.headerWritten = false then
      { r with drained := true, startLabel := s.emptyTakeLabel r.header.mode,
               endLabel := s.emptyTakeLabel r.header.mode }
    else { r with drained := true }
  else r

/-- Take Control's test, at each event that can make it true (R125). -/
def State.settleDrained (s : State) : State :=
  { s with takes := { s.takes with table := s.takes.table.map s.testDrained } }

/-! ### Opening and closing (R115 to R119) -/

/-- The header values at OPEN_TAKE (R121). -/
def State.takeHeader (s : State) : TakeHeader :=
  { base := s.takes.profile.base, mode := s.effectiveMode, df := s.timecode.df,
    period := s.cadence.active.period, targetF := s.governor.full.target,
    targetP := s.governor.proxy.target, width := s.takes.profile.width,
    height := s.takes.profile.height, scale := s.takes.profile.scale }

/-- A record as OPEN_TAKE appends it (R116). Its labels are set later (R114); until then they read
00:00:00:00 (log 22). -/
def TakeRecord.opening (number : Word) (header : TakeHeader) (preroll : Nat) : TakeRecord :=
  { number := number, phase := .opened, cause := .none, header := header, preroll := preroll,
    ordinal := 0, headerWritten := false, startLabel := Label.zero, endLabel := Label.zero,
    fullBytes := 0, proxyBytes := 0, held := 0, absent := 0, clippedF := 0, clippedP := 0,
    gapFrames := 0, drained := false }

/-- A ticket at an OPEN_TAKE: an unbound one is bound, and marked as pre-roll when it holds no record (R116). -/
def Ticket.bindTo (take : Word) (t : Ticket) : Ticket :=
  if t.take = 0#32 then { t with take := take, preroll := !t.hasRecord } else t

/-- The pre-roll count (R116): the unbound records, and the unbound tickets that hold none. -/
def State.prerollCount (s : State) : Nat :=
  s.store.records false +
    (s.lanes.tickets.filter (fun t => (t.take == 0#32) && !t.hasRecord)).length

/-- OPEN_TAKE, once it has passed its tests (R116, R119). -/
def State.openTakeAct (s : State) (take : Word) : State :=
  let count := s.prerollCount
  { s with
    store := s.store.bindAll take
    lanes := { s.lanes with
      tickets := s.lanes.tickets.map (Ticket.bindTo take)
      heldReference := 0#32 }
    takes := { s.takes with
      table := s.takes.table ++ [TakeRecord.opening take s.takeHeader count] }
    intake := { s.intake with pendingGap := 0 }
    governor := if count = 0 then s.governor.restart else s.governor
    board := { s.board with mode := .recording } }

/-- The act of OPEN_TAKE (R115, R116). -/
def State.applyOpenTake (s : State) (take : Word) : State × DirectiveResult :=
  if take = 0#32 then (s, DirectiveResult.refuse .badField)
  else if s.takeIsOpen then (s, DirectiveResult.refuse .takeOpen)
  else if 4 ≤ s.takes.table.length then (s, DirectiveResult.refuse .takeTableFull)
  else if s.takes.table.any (fun r => r.number == take) then
    (s, DirectiveResult.refuse .duplicateTake)
  else (s.openTakeAct take, DirectiveResult.carried .none [(0, leBytes 4 s.prerollCount)] 0)

/-- The OPEN record of a number becomes CLOSED (R117, R118). -/
def TakeRecord.closeIf (number : Word) (cause : CloseCause) (r : TakeRecord) : TakeRecord :=
  if r.number = number ∧ r.phase = .opened then { r with phase := .closed, cause := cause } else r

/-- A close or close request (R117, R118): it closes the named record when that is OPEN, the mode
becomes STANDBY, and the drained test follows (R125). A CLOSED record stays as it is. -/
def State.closeTake (s : State) (number : Word) (cause : CloseCause) : State :=
  if s.takes.table.any (fun r => (r.number == number) && (r.phase == .opened)) then
    ({ s with
      takes := { s.takes with table := s.takes.table.map (TakeRecord.closeIf number cause) }
      board := { s.board with mode := .standby } } : State).settleDrained
  else s

/-- The act of CLOSE_TAKE (R117). -/
def State.applyCloseTake (s : State) : State × DirectiveResult :=
  match s.openTake with
  | none => (s, DirectiveResult.refuse .noTake)
  | some r =>
    (s.closeTake r.number .host,
      DirectiveResult.carried .none [(0, leBytes 4 r.number.toNat)] 0)

/-- The act of MARK (R120). -/
def State.applyMark (s : State) (value : BitVec 16) : State × DirectiveResult :=
  if value = 0#16 then (s, DirectiveResult.refuse .badField)
  else
    ({ s with intake := { s.intake with pendingMark := some value } },
      DirectiveResult.carried (if s.intake.pendingMark.isSome then .replaced else .pending) [] 0)

/-! ### Pair Entries and the take record (R124) -/

/-- What a Pair Entry says of its pair (R122). -/
structure PairEntry where
  ordinal : Nat
  frame : Word
  preroll : Bool
  data : PairData
  fullOffset : Nat
  fullLen : Nat
  /-- The state written: PRESENT only when the picture was written (R136, R142). -/
  proxyState : ProxyState
  proxyOffset : Nat
  proxyLen : Nat
  proxyQ : Nat
  proxyClipped : Bool
  take : Word
  deriving DecidableEq, Repr

/-- The take record after an entry (R124). Ordinals and totals wrap at their widths (log 18). -/
def TakeRecord.count (r : TakeRecord) (e : PairEntry) : TakeRecord :=
  { r with
    ordinal := (r.ordinal + 1) % 4294967296
    endLabel := e.data.label
    fullBytes := (r.fullBytes + e.fullLen) % 18446744073709551616
    proxyBytes := (r.proxyBytes + e.proxyLen) % 18446744073709551616
    held := satAdd counterLimit r.held (if e.proxyState = .held then 1 else 0)
    absent := satAdd counterLimit r.absent (if e.proxyState = .absent then 1 else 0)
    clippedF := satAdd counterLimit r.clippedF (if e.data.fullClipped then 1 else 0)
    clippedP := satAdd counterLimit r.clippedP (if e.proxyClipped then 1 else 0)
    gapFrames := satAdd counterLimit r.gapFrames e.data.gap }

/-- The record of a take number. -/
def State.takeRecord (s : State) (number : Word) : Option TakeRecord :=
  s.takes.table.find? (fun r => r.number == number)

/-- Change the record of a take number. -/
def State.mapTake (s : State) (number : Word) (f : TakeRecord → TakeRecord) : State :=
  { s with takes := { s.takes with
      table := s.takes.table.map (fun r => if r.number = number then f r else r) } }

end Sys2Proof.Machine
end

