-- ==== Sys2Proof/Machine/Intake.lean ====
section
/-! DEFINITION. Frame Intake (chapter 3): slots, captures, lines, repair, losses and tickets. -/

namespace Sys2Proof.Machine

/-- The slot at an index. -/
def Intake.slot (k : Intake) (i : Nat) : Slot :=
  k.slots.getD i Slot.reset

/-- Set the state of a slot. -/
def Intake.setSlot (k : Intake) (i : Nat) (x : SlotState) : Intake :=
  { k with slots := k.slots.modify i (fun y => { y with state := x }) }

/-- Set the samples of a slot. -/
def Intake.setSamples (k : Intake) (i : Nat) (m : Memory) : Intake :=
  { k with slots := k.slots.modify i (fun y => { y with samples := m }) }

/-- The lowest-numbered FREE slot, from an index on (R39). -/
def freeSlot : Nat → List Slot → Option Nat
  | _, [] => none
  | i, x :: xs => if x.state = .free then some i else freeSlot (i + 1) xs

/-- A loss at the Timecode Unit and the gap count: only with a take OPEN (R28, R45). -/
def State.lose (s : State) : State :=
  if s.takeIsOpen then
    { s with
      timecode := s.timecode.recordStep
      intake := { s.intake with pendingGap := satAdd 65535 s.intake.pendingGap 1 } }
  else s

/-- A frame is lost in capture (R38, R42): counted, FRAME_LOST reported, and the loss handled. -/
def State.loseCapture (s : State) (c : Capture) : State :=
  let k := (s.intake.setSlot c.slot .free)
  let t := { s with
    intake := { k with capture := none }
    counters := { s.counters with lostInCapture := bump s.counters.lostInCapture } }
  (t.reportFault .frameLost c.frame t.openTakeNumber 0#32).lose

/-- A frame start cuts a capture short (R38). -/
def State.cutCapture (s : State) : State :=
  match s.intake.capture with
  | none => s
  | some c => s.loseCapture c

/-- A frame start begins a capture in the lowest FREE slot and strobes the sensor, or loses its frame for
want of a slot (R39). -/
def State.beginCapture (s : State) (retimed : Bool) : State :=
  match freeSlot 0 s.intake.slots with
  | some i =>
    let k := s.intake.setSlot i .capturing
    { s with intake := { k with
        capture := some { phase := .awaitingBegin, slot := i, frame := s.cadence.frameNumber,
                          retimed := retimed, width := s.takes.profile.width,
                          height := s.takes.profile.height, label := s.timecode.latched, lines := [] }
        strobe := true } }
  | none =>
    let t := { s with
      counters := { s.counters with lostNoSlot := bump s.counters.lostNoSlot }
      intake := { s.intake with strobe := false } }
    (t.reportFault .intakeOverrun s.cadence.frameNumber t.openTakeNumber 0#32).lose

/-- A frame start at the Intake (R38, R39). -/
def State.intakeFrameStart (s : State) (retimed : Bool) : State :=
  s.cutCapture.beginCapture retimed

/-- A stray sensor event (R40, R42). -/
def State.stray (s : State) : State :=
  { s with counters := { s.counters with strayEvents := bump s.counters.strayEvents } }

/-- The meaning of FRAME_BEGIN (R40). -/
def execFrameBegin (s : State) : Host.Outcome State Fault Refusal :=
  match s.intake.capture with
  | none => .next s.stray
  | some c =>
    match c.phase with
    | .receiving => .next s.stray
    | .awaitingBegin =>
      .next { s with intake := { s.intake with capture := some { c with phase := .receiving } } }

/-- Mark a line in the line map, kept in index order; a later copy replaces an earlier one (R41). -/
def markLine (index : Nat) (m : LineMark) : List (Nat × LineMark) → List (Nat × LineMark)
  | [] => [(index, m)]
  | x :: xs =>
    if x.1 < index then x :: markLine index m xs
    else if x.1 = index then (index, m) :: xs
    else (index, m) :: x :: xs

/-- The mark of a line (R41): a sample count other than the width fails the check. -/
def lineMark (width count : Nat) (passed : Bool) : LineMark :=
  if passed ∧ count = width then .good else .bad

/-- A line of a receiving capture is written at its place, up to the width, and marked (R41, log 9). -/
def State.takeLine (s : State) (c : Capture) (index : Nat) (samples : List (BitVec 16)) (passed : Bool) :
    State :=
  let m := Memory.write (s.intake.slot c.slot).samples (lineOffset c.width index)
    (sampleBytes (samples.take c.width))
  let k := s.intake.setSamples c.slot m
  { s with intake := { k with
      capture := some { c with lines := markLine index (lineMark c.width samples.length passed) c.lines } } }

/-- The meaning of LINE_EVENT (R41). A place above the slot's 64 MiB does not exist (R37): a fault. -/
def execLineEvent (index : Nat) (samples : List (BitVec 16)) (passed : Bool) (s : State) :
    Host.Outcome State Fault Refusal :=
  match s.intake.capture with
  | none => .next s
  | some c =>
    match c.phase with
    | .awaitingBegin => .next s
    | .receiving =>
      if index < c.height then
        if lineOffset c.width (index + 1) ≤ slotBytes then .next (s.takeLine c index samples passed)
        else .fault .slotAddress
      else .next s

/-! ### The frame end (R42, R43) -/

/-- The mark of a line; none is ABSENT. -/
def markOf (lines : List (Nat × LineMark)) (i : Nat) : Option LineMark :=
  (lines.find? (fun x => x.1 == i)).map Prod.snd

/-- A line is GOOD. -/
def goodLine (lines : List (Nat × LineMark)) (i : Nat) : Bool :=
  markOf lines i == some .good

/-- The bad-line count (R41). -/
def Capture.badLines (c : Capture) : Nat :=
  (c.lines.filter (fun x => x.2 == .bad)).length

/-- The fault lines (R41, R42): the missing line count plus the bad-line count. -/
def Capture.faultLines (c : Capture) : Nat :=
  (c.height - c.lines.length) + c.badLines

/-- The first GOOD line (R43). -/
def firstGood (lines : List (Nat × LineMark)) : Nat :=
  match lines.find? (fun x => x.2 == .good) with
  | none => 0
  | some x => x.1

/-- Copy a line of a slot over another. -/
def copyLine (width src dst : Nat) (m : Memory) : Memory :=
  Memory.write m (lineOffset width dst) (Memory.readBlock m (lineOffset width src) (2 * width))

/-- Repair the lines from `i` on, `count` of them: a line that is not GOOD is overwritten with `src`, the
nearest GOOD line below it or else the first GOOD line (R43). -/
def repairLines (width : Nat) (lines : List (Nat × LineMark)) : Nat → Nat → Nat → Memory → Memory
  | 0, _, _, m => m
  | k + 1, i, src, m =>
    if goodLine lines i then repairLines width lines k (i + 1) i m
    else repairLines width lines k (i + 1) src (copyLine width src i m)

/-- The repair of a damaged frame (R43). -/
def Capture.repair (c : Capture) (m : Memory) : Memory :=
  repairLines c.width c.lines c.height 0 (firstGood c.lines) m

/-- A usable frame's slot and counters at its end: repaired and counted when damaged (R42, R43). -/
def State.usableFrame (s : State) (c : Capture) : State :=
  let n := { s.counters with captured := bump s.counters.captured }
  if c.faultLines = 0 then { s with counters := n }
  else
    { s with
      counters := { n with damaged := bump n.damaged }
      intake := s.intake.setSamples c.slot (c.repair (s.intake.slot c.slot).samples) }

/-- An unbound ticket is kept (R47): pre-roll frames and effective mode FREE_RUN. -/
def State.keepsUnbound (s : State) : Bool :=
  decide (0 < s.takes.profile.preroll) && (s.effectiveMode == .freeRun)

/-- The ticket's label (R30, R46), the record-run label having stepped. -/
def State.ticketLabel (s : State) (c : Capture) : Label :=
  match s.effectiveMode with
  | .freeRun => c.label
  | .recordRun => s.timecode.recordRun

/-- The ticket of a kept frame (R46, R48, R49). -/
def State.newTicket (s : State) (c : Capture) (take : Word) : Ticket :=
  { slot := c.slot, frame := c.frame, label := s.ticketLabel c, damaged := decide (c.faultLines ≠ 0),
    retimed := c.retimed, gap := if take = 0#32 then 0 else s.intake.pendingGap,
    mark := s.intake.pendingMark, take := take, preroll := false, width := c.width,
    height := c.height, hasRecord := false, fullResult := none, proxyResult := none }

/-- A kept ticket joins both queues as one act, its slot is HELD_BY_LANES, and gap and mark are consumed
(R46, R48, R49, R54). -/
def State.keepTicket (s : State) (c : Capture) (take : Word) : State :=
  let k := s.intake.setSlot c.slot .heldByLanes
  { s with
    intake := { k with
      capture := none
      pendingGap := if take = 0#32 then s.intake.pendingGap else 0
      pendingMark := none }
    lanes := { s.lanes with
      tickets := s.lanes.tickets ++ [s.newTicket c take]
      full := { s.lanes.full with queue := s.lanes.full.queue ++ [c.slot] }
      proxy := { s.lanes.proxy with queue := s.lanes.proxy.queue ++ [c.slot] } } }

/-- A discarded ticket frees its slot and is counted (R47). -/
def State.discardTicket (s : State) (c : Capture) : State :=
  let k := s.intake.setSlot c.slot .free
  { s with
    intake := { k with capture := none }
    counters := { s.counters with discardedUnbound := bump s.counters.discardedUnbound } }

/-- Ticket creation (R46, R47): the binding, then the record-run step, then label, gap and mark. -/
def State.makeTicket (s : State) (c : Capture) : State :=
  if s.takeIsOpen then
    ({ s with timecode := s.timecode.recordStep } : State).keepTicket c s.openTakeNumber
  else if s.keepsUnbound then s.keepTicket c 0#32
  else s.discardTicket c

/-- The meaning of FRAME_END (R42 to R47). -/
def execFrameEnd (s : State) : Host.Outcome State Fault Refusal :=
  match s.intake.capture with
  | none => .next s.stray
  | some c =>
    if c.height < 2 * c.faultLines then .next (s.loseCapture c)
    else .next ((s.usableFrame c).makeTicket c)

end Sys2Proof.Machine
end

