-- ==== Sys2Proof/Config.lean ====
section
/-! DEFINITION. What the spec leaves free. -/

namespace Sys2Proof

/-- The blocks that act on the same event as the Frame Report, and whose fields the report shows as they
stand before or after their handling of it, whichever the Board Interface meets (R184). -/
inductive ReportBlock where
  | intake
  | store
  | writer
  | coalescing
  | faultRecord
  deriving DecidableEq, Repr

/-- FREE VALUE (log 7). Of the states the blocks pass through while they handle one event, the number of
the one a report shows a block in; the second argument is the index of the report. R184 allows them all.
It has no body: nothing can be proved of its values. -/
opaque Config.reportSees : ReportBlock → Nat → Nat

end Sys2Proof
end

