-- ==== Sys2Proof/Machine/Lanes.lean ====
section
/-! DEFINITION. The twin encode lanes (chapter 4): job starts, reservation outcomes, the ends of passes, completion and
commit. -/

namespace Sys2Proof.Machine

/-- The state of a lane. -/
def Lanes.lane (l : Lanes) : Lane → LaneState
  | .full => l.full
  | .proxy => l.proxy

/-- Replace the state of a lane. -/
def Lanes.setLane (l : Lanes) (lane : Lane) (x : LaneState) : Lanes :=
  match lane with
  | .full => { l with full := x }
  | .proxy => { l with proxy := x }

/-- Replace the state of a lane. -/
def State.setLane (s : State) (lane : Lane) (x : LaneState) : State :=
  { s with lanes := s.lanes.setLane lane x }

/-- The ticket in a raw slot. -/
def State.ticket (s : State) (slot : Nat) : Option Ticket :=
  s.lanes.tickets.find? (fun t => t.slot == slot)

/-- Change the ticket in a raw slot. -/
def State.mapTicket (s : State) (slot : Nat) (f : Ticket → Ticket) : State :=
  { s with lanes := { s.lanes with
      tickets := s.lanes.tickets.map (fun t => if t.slot = slot then f t else t) } }

/-- A ticket ends: it leaves the lanes and its raw slot becomes FREE (R59, R67). -/
def State.endTicket (s : State) (slot : Nat) : State :=
  { s with
    lanes := { s.lanes with tickets := s.lanes.tickets.filter (fun t => t.slot != slot) }
    intake := { s.intake with
      slots := s.intake.slots.modify slot (fun x => { x with state := .free }) } }

/-- The result of a lane for a ticket. -/
def Ticket.result (t : Ticket) : Lane → Option LaneResult
  | .full => t.fullResult
  | .proxy => t.proxyResult

/-- Attach the result of a lane (R65). -/
def Ticket.attach (t : Ticket) (lane : Lane) (r : LaneResult) : Ticket :=
  match lane with
  | .full => { t with fullResult := some r }
  | .proxy => { t with proxyResult := some r }

/-- The other lane. -/
def otherLane : Lane → Lane
  | .full => .proxy
  | .proxy => .full

/-- The smallest multiple of 256 that is at least E, with E at least 1 (R63). -/
def padded (e : Nat) : Nat :=
  (max e 1 + 255) / 256 * 256

/-- The cap C (R56). -/
def State.cap (s : State) (lane : Lane) : Nat :=
  match lane with
  | .full => min (roundDown 256 (4 * s.governor.full.target)) 67108864
  | .proxy =>
    min (min (roundDown 256 (4 * s.governor.proxy.target)) 4194304) s.writer.proxyPool.chunkSize

/-- The factor of a proxy scale (R66). -/
def ProxyScale.factor : ProxyScale → Nat
  | .half => 2
  | .quarter => 4

/-- The geometry a lane encodes at (R63, R66). -/
def State.jobGeometry (s : State) (lane : Lane) (t : Ticket) : Nat × Nat :=
  match lane with
  | .full => (t.width, t.height)
  | .proxy =>
    let f := s.takes.profile.scale.factor
    (roundDown 16 (t.width / f), roundDown 16 (t.height / f))

/-- The quantiser of a job start, none for an accepted HELD (R55, R60, R81, R82). -/
def State.jobQuantiser (s : State) (lane : Lane) (t : Ticket) : Option Nat :=
  match lane with
  | .full => some s.governor.full.q
  | .proxy =>
    match proxyAnswer s.governor.proxy.q s.store.pressure with
    | some q => some q
    | none => if t.take ≠ 0#32 ∧ s.lanes.heldReference = t.take then none else some 63

/-! ### Commit and completion (R65, R67) -/

/-- What the record takes from a ticket and its two results (R67). -/
def Ticket.pairData (t : Ticket) (f p : LaneResult) : PairData :=
  { label := t.label, damaged := t.damaged, retimed := t.retimed, gap := t.gap, mark := t.mark,
    fullQ := f.q, fullClipped := f.clipped, proxyState := p.state, proxyQ := p.q,
    proxyClipped := p.clipped }

/-- The pair of a ticket that both lanes have completed is committed, and its slot becomes FREE (R67). -/
def State.commitIfDone (s : State) (slot : Nat) : State :=
  match s.ticket slot with
  | none => s
  | some t =>
    match t.fullResult, t.proxyResult with
    | some f, some p =>
      ({ s with store := s.store.commit t.frame t.take t.preroll (t.pairData f p) } : State).endTicket slot
    | _, _ => s

/-- The counters of a lane's result (R61, R62, R64, R185). -/
def Counters.countResult (c : Counters) (lane : Lane) (r : LaneResult) : Counters :=
  match lane with
  | .full => if r.clipped then { c with clippedF := bump c.clippedF } else c
  | .proxy =>
    match r.state with
    | .held => { c with held := bump c.held }
    | .absent => { c with absent := bump c.absent }
    | .present => if r.clipped then { c with clippedP := bump c.clippedP } else c

/-- The HELD reference after a completion (R60). -/
def Lanes.referenceAfter (l : Lanes) (lane : Lane) (t : Ticket) (r : LaneResult) : Word :=
  match lane with
  | .full => l.heldReference
  | .proxy => if r.state = .present ∧ t.take ≠ 0#32 then t.take else l.heldReference

/-- The store after a lane's result: a PRESENT picture keeps S bytes, the rest is released (R65, R103). -/
def Store.afterResult (st : Store) (frame : Word) (lane : Lane) (r : LaneResult) : Store :=
  match r.state with
  | .present => st.shorten frame lane r.size
  | .held => st
  | .absent => st

/-- A lane completes a ticket (R65): the result is attached, the rest of the reservation released, the
governor updated with the job's target, the ticket dequeued, and the pair committed if the other lane
is done. -/
def State.complete (s : State) (lane : Lane) (t : Ticket) (target : Nat) (r : LaneResult) : State :=
  let x := s.lanes.lane lane
  let attached := s.mapTicket t.slot (fun u => u.attach lane r)
  let lanes := attached.lanes.setLane lane
    { queue := x.queue.filter (fun i => i != t.slot), phase := .idle, job := none }
  ({ attached with
    lanes := { lanes with heldReference := s.lanes.referenceAfter lane t r }
    store := s.store.afterResult t.frame lane r
    governor := s.governor.update lane target r.size
    counters := s.counters.countResult lane r } : State).commitIfDone t.slot

/-! ### Reservation failure (R58, R59) -/

/-- A lane after a ticket was dropped or discarded: off the queue, and its job abandoned (R59). -/
def LaneState.without (x : LaneState) (slot : Nat) : LaneState :=
  let mine : Bool := match x.job with
    | none => false
    | some j => j.slot == slot
  { queue := x.queue.filter (fun i => i != slot)
    phase := if mine then .idle else x.phase
    job := if mine then none else x.job }

/-- A ticket is dropped or discarded (R59, R104): it leaves both queues, the other lane's job for it is
abandoned, the store releases all it holds, its slot becomes FREE, and the HELD reference becomes 0
when a bound ticket's PRESENT proxy goes with it (R60). -/
def State.dropTicket (s : State) (t : Ticket) : State :=
  let lost : Bool := match t.proxyResult with
    | none => false
    | some r => (r.state == .present) && (t.take != 0#32)
  ({ s with
    lanes := { s.lanes with
      full := s.lanes.full.without t.slot
      proxy := s.lanes.proxy.without t.slot
      heldReference := if lost then 0#32 else s.lanes.heldReference }
    store := if t.hasRecord then s.store.release t.frame else s.store } : State).endTicket t.slot

/-- The tickets that stand behind a slot in a queue, or the whole queue when it does not stand there. -/
def behind (slot : Nat) (queue : List Nat) : List Nat :=
  if queue.contains slot then (queue.dropWhile (fun i => i != slot)).drop 1 else queue

/-- The slot of the first later ticket of a take in the full lane's queue (R58). -/
def State.nextOfTake (s : State) (t : Ticket) : Option Nat :=
  (behind t.slot s.lanes.full.queue).find? (fun i =>
    match s.ticket i with
    | none => false
    | some u => u.take == t.take)

/-- The GAP count of the first later ticket of the take grows by one, saturating at 65,535 (R58). -/
def State.showLoss (s : State) (t : Ticket) : State :=
  match s.nextOfTake t with
  | none => s
  | some i => s.mapTicket i (fun u => { u with gap := satAdd 65535 u.gap 1 })

/-- The STORE_OVERRUN detail of a lack (R58, R171: 1 RECORDS, 2 FULL_BYTES). A lack of proxy bytes does
not lead here. -/
def Lack.detail : Lack → Word
  | .records => 1#32
  | .fullBytes => 2#32
  | .proxyBytes => 3#32

/-- A full reservation failure (R58): close request and STORE_OVERRUN for a bound ticket, the
discarded-unbound count for an unbound one; then the ticket goes (R59) and the drained test follows
(R125). -/
def State.reservationFailure (s : State) (t : Ticket) (lack : Lack) : State :=
  if t.take ≠ 0#32 then
    (((s.closeTake t.take .storeOverrun).reportFault .storeOverrun t.frame t.take lack.detail).showLoss
      t).dropTicket t |>.settleDrained
  else
    ({ s with counters := { s.counters with
      discardedUnbound := bump s.counters.discardedUnbound } } : State).dropTicket t

/-! ### Job start (R55, R57, R61, R62) -/

/-- The job a granted request runs (R55). -/
def State.jobOf (s : State) (lane : Lane) (t : Ticket) (q cap : Nat) : Job :=
  let g := s.jobGeometry lane t
  { slot := t.slot, tag := s.nextTag, q := q, retryQ := min (q + 8) 63, cap := cap,
    target := (s.governor.stream lane).target, width := g.1, height := g.2 }

/-- A granted job runs in PASS_1 (R55). -/
def State.startJob (s : State) (lane : Lane) (j : Job) : State :=
  let x := s.lanes.lane lane
  let t := s.setLane lane { x with phase := .pass1, job := some j }
  { t with nextTag := s.nextTag + 1 }

/-- The result of a proxy that is HELD or ABSENT (R61, R62). -/
def LaneResult.empty (state : ProxyState) : LaneResult :=
  { state := state, size := 0, q := 0, clipped := false }

/-- The store's answer is taken: the store as it left it, and a wanted record that it reserved belongs
to the ticket (R57). -/
def State.withReservation (s : State) (slot : Nat) (store : Store) (verdict : Verdict) : State :=
  let t := { s with store := store }
  match verdict with
  | .refused _ => t
  | .granted => t.mapTicket slot (fun u => { u with hasRecord := true })
  | .bytesRefused _ => t.mapTicket slot (fun u => { u with hasRecord := true })

/-- The outcome of a job start (R57): `q` is none for an accepted HELD. -/
def State.settleJob (s : State) (lane : Lane) (t : Ticket) (q : Option Nat) (job : Job)
    (verdict : Verdict) : State :=
  let held := { t with hasRecord := true }
  match verdict with
  | .refused lack => s.reservationFailure t lack
  | .granted =>
    match q with
    | none => s.complete lane held job.target (LaneResult.empty .held)
    | some _ => s.startJob lane job
  | .bytesRefused lack =>
    match lane with
    | .full => s.reservationFailure held lack
    | .proxy => s.complete .proxy held job.target (LaneResult.empty .absent)

/-- The job start of a lane for the ticket at its head (R55): quantiser, cap, request, outcome. -/
def State.jobStart (s : State) (lane : Lane) (t : Ticket) : State :=
  let q := s.jobQuantiser lane t
  let cap := s.cap lane
  let job := s.jobOf lane t (q.getD 0) cap
  let request : Request :=
    { frame := t.frame, take := t.take, lane := lane, bytes := if q.isSome then cap else 0,
      wantRecord := !t.hasRecord }
  let answer := s.store.request s.recordLimit request
  (s.withReservation t.slot answer.1 answer.2).settleJob lane t q job answer.2

/-- The ticket whose job an idle lane starts (4.2). -/
def State.headTicket (s : State) (lane : Lane) : Option Ticket :=
  let x := s.lanes.lane lane
  match x.phase with
  | .idle =>
    match x.queue with
    | [] => none
    | i :: _ => s.ticket i
  | .pass1 => none
  | .pass2 => none

/-- The meaning of JOB_START (R55). A lane that is not idle, or has no ticket, makes none (log 3). -/
def execJobStart (lane : Lane) (s : State) : Host.Outcome State Fault Refusal :=
  match s.headTicket lane with
  | none => .next s
  | some t => .next (s.jobStart lane t)

/-! ### The ends of the passes (R63, R64) -/

/-- The job of a lane in a phase, if its number is `tag`; the end of an abandoned job finds none (R69). -/
def State.runningJob (s : State) (lane : Lane) (phase : JobPhase) (tag : Nat) : Option (Job × Ticket) :=
  let x := s.lanes.lane lane
  match x.job with
  | none => none
  | some j =>
    if x.phase = phase ∧ j.tag = tag then (s.ticket j.slot).map (fun t => (j, t)) else none

/-- A picture that fits its cap (R63, R64). -/
def LaneResult.fitted (size q : Nat) : LaneResult :=
  { state := .present, size := size, q := q, clipped := false }

/-- A picture ended within its cap (R64). -/
def LaneResult.clipTo (cap q : Nat) : LaneResult :=
  { state := .present, size := cap, q := q, clipped := true }

/-- The end of a first pass (R63). -/
def State.endPass1 (s : State) (lane : Lane) (j : Job) (t : Ticket) (size : Nat) : State :=
  if padded size ≤ j.cap then s.complete lane t j.target (LaneResult.fitted (padded size) j.q)
  else if j.q < 63 then s.setLane lane { s.lanes.lane lane with phase := .pass2 }
  else s.complete lane t j.target (LaneResult.clipTo j.cap 63)

/-- The meaning of PASS_1_END (R63; the end of an abandoned job is discarded, R69). -/
def execPass1End (lane : Lane) (tag size : Nat) (s : State) : Host.Outcome State Fault Refusal :=
  match s.runningJob lane .pass1 tag with
  | none => .next s
  | some (j, t) => .next (s.endPass1 lane j t size)

/-- The end of a retry pass (R64). -/
def State.endPass2 (s : State) (lane : Lane) (j : Job) (t : Ticket) (size : Nat) : State :=
  if padded size ≤ j.cap then s.complete lane t j.target (LaneResult.fitted (padded size) j.retryQ)
  else s.complete lane t j.target (LaneResult.clipTo j.cap j.retryQ)

/-- The meaning of PASS_2_END (R64; the end of an abandoned job is discarded, R69). -/
def execPass2End (lane : Lane) (tag size : Nat) (s : State) : Host.Outcome State Fault Refusal :=
  match s.runningJob lane .pass2 tag with
  | none => .next s
  | some (j, t) => .next (s.endPass2 lane j t size)

end Sys2Proof.Machine
end

