-- ==== Sys2Proof/Machine/Writer.lean ====
section
/-! DEFINITION. Stream Writer (chapter 8): pools, acquisition, the steps of a pair, the end of a take, patience, waits and
blocks; and REMAP_APERTURES, which releases a blocked writer (R158). -/

namespace Sys2Proof.Machine

/-! ### Pools and chunk table entries (R128, R129) -/

/-- The state of a pool. -/
def Writer.pool (w : Writer) : Pool → PoolState
  | .full => w.fullPool
  | .proxy => w.proxyPool
  | .index => w.indexPool

/-- Replace the state of a pool. -/
def Writer.setPool (w : Writer) (p : Pool) (x : PoolState) : Writer :=
  match p with
  | .full => { w with fullPool := x }
  | .proxy => { w with proxyPool := x }
  | .index => { w with indexPool := x }

/-- Replace the writer. -/
def State.setWriter (s : State) (w : Writer) : State :=
  { s with writer := w }

/-- Replace the state of a pool. -/
def State.setPool (s : State) (p : Pool) (x : PoolState) : State :=
  s.setWriter (s.writer.setPool p x)

/-- The Board offset of a pool's chunk table (R170). -/
def Pool.table : Pool → Nat
  | .full => 0x0400
  | .proxy => 0x0C00
  | .index => 0x1400

/-- The host bus address of a chunk table entry (R128, R170), modulo 2^64 (DESIGN CHOICE, log 51). -/
def State.entryAddr (s : State) (p : Pool) (i : Nat) : HostAddr :=
  s.boardAddr (p.table + 32 * i)

/-- The engine's part of a chunk table entry, from byte 4 on (R129, R171). -/
def enginePart (state : Nat) (short last : Bool) (take : Word) (sequence offset valid : Nat) : List Byte :=
  layout 28 [(0, leBytes 1 state), (1, leBytes 1 (bit short 0 + bit last 1)),
    (4, leBytes 4 take.toNat), (8, leBytes 4 sequence), (12, leBytes 8 offset), (20, leBytes 4 valid)]

/-- The frame number a writer's fault carries (R148). -/
def State.writerFrame (s : State) : Word :=
  match s.writer.work with
  | none => s.cadence.frameNumber
  | some w => if w.ending then s.cadence.frameNumber else w.frame

/-- A fault of the writer (R148). -/
def State.writerFault (s : State) (cls : FaultClass) (detail : Word) : State :=
  s.reportFault cls s.writerFrame (s.writer.take.getD 0#32) detail

/-- Close the current chunk of a pool (R138): its entry is written FULL, and coalescing counts it. -/
def State.closeChunk (s : State) (p : Pool) (last : Bool) : State :=
  let x := s.writer.pool p
  match x.chunk with
  | none => s
  | some c =>
    let t := s.post (s.entryAddr p c.entry + 4#64)
      (enginePart 3 (decide (c.used < x.chunkSize)) last c.take c.sequence c.offset c.used)
    (t.setPool p { x with chunk := none }).countClose p

/-- Begin an acquisition attempt on a pool, unless one is in flight (R131, R132). -/
def State.attempt (s : State) (p : Pool) : State :=
  let x := s.writer.pool p
  match x.attempt with
  | some _ => s
  | none =>
    (s.issueRead (s.entryAddr p x.cursor) 32).setPool p
      { x with attempt := some { tag := s.nextTag, entry := x.cursor, left := x.count } }

/-! ### Index records (R121, R122, R126, R171) -/

/-- The Take Header (R121, R171). -/
def TakeRecord.headerBytes (r : TakeRecord) : List Byte :=
  let h := r.header
  layout 64 [(0, leBytes 1 1), (1, leBytes 1 h.base),
    (2, leBytes 1 (bit (h.mode == .recordRun) 0 + bit h.df 1)), (3, leBytes 1 h.scale.code),
    (4, leBytes 4 r.number.toNat), (8, leBytes 8 h.period), (16, leBytes 4 h.targetF),
    (20, leBytes 4 h.targetP), (24, leBytes 2 h.width), (26, leBytes 2 h.height),
    (28, leBytes 4 r.preroll), (32, r.startLabel.bytes)]

/-- A mark as it is written: 0 for none (R122). -/
def markValue (m : Option (BitVec 16)) : Nat :=
  match m with
  | none => 0
  | some v => v.toNat

/-- A Pair Entry (R122, R171). -/
def PairEntry.bytes (e : PairEntry) : List Byte :=
  let d := e.data
  layout 64 [(0, leBytes 1 2),
    (1, leBytes 1 (bit d.damaged 0 + bit d.retimed 1 + bit e.preroll 2 + bit d.fullClipped 3 +
      bit e.proxyClipped 4)),
    (2, leBytes 2 d.gap), (4, leBytes 4 e.ordinal), (8, leBytes 4 e.frame.toNat), (12, d.label.bytes),
    (16, leBytes 2 (markValue d.mark)), (18, leBytes 1 d.fullQ), (19, leBytes 1 e.proxyQ),
    (20, leBytes 1 e.proxyState.code), (24, leBytes 8 e.fullOffset), (32, leBytes 4 e.fullLen),
    (36, leBytes 4 e.proxyLen), (40, leBytes 8 e.proxyOffset), (48, leBytes 4 e.take.toNat)]

/-- A Take Trailer (R126, R171). -/
def TakeRecord.trailerBytes (r : TakeRecord) : List Byte :=
  layout 64 [(0, leBytes 1 3), (1, leBytes 1 r.cause.code), (4, leBytes 4 r.number.toNat),
    (8, leBytes 4 r.ordinal), (12, r.endLabel.bytes), (16, leBytes 4 r.held), (20, leBytes 4 r.absent),
    (24, leBytes 4 r.clippedF), (28, leBytes 4 r.clippedP), (32, leBytes 4 r.gapFrames),
    (40, leBytes 8 r.fullBytes), (48, leBytes 8 r.proxyBytes)]

/-- The length of an extent, 0 for none. -/
def extentLen (x : Option Extent) : Nat :=
  match x with
  | none => 0
  | some e => e.len

/-- The Pair Entry of a pair as the work in hand has settled it (R122, R136, R137). -/
def pairEntry (r : PairRecord) (d : PairData) (w : Work) (ordinal : Nat) : PairEntry :=
  let present := w.proxyState == .present
  { ordinal := ordinal, frame := r.frame, preroll := r.preroll, data := d, fullOffset := w.fullOffset,
    fullLen := extentLen r.full, proxyState := w.proxyState,
    proxyOffset := if present then w.proxyOffset else 0,
    proxyLen := if present then extentLen r.proxy else 0,
    proxyQ := if present then d.proxyQ else 0, proxyClipped := present && d.proxyClipped,
    take := r.take }

/-! ### Choosing work (R133) -/

/-- The oldest record of the take table has drained (R133, case 1). -/
def State.oldestDrained (s : State) : Bool :=
  match s.takes.table with
  | [] => false
  | r :: _ => r.drained

/-- The head pair, when it is committed and take-bound (R133, case 2). -/
def State.headPair (s : State) : Option (PairRecord × PairData) :=
  match s.store.list with
  | [] => none
  | r :: _ =>
    match r.pair with
    | none => none
    | some d => if r.bound then some (r, d) else none

/-- There is a piece of work to choose (R133). -/
def State.workWaits (s : State) : Bool :=
  s.oldestDrained || s.headPair.isSome

/-- A piece of work at its first step. -/
def Work.fresh (ending : Bool) (step : WriterStep) (frame : Word) : Work :=
  { ending := ending, step := step, frame := frame, written := 0, fullOffset := 0, proxyOffset := 0,
    proxyState := .absent, closed := false, page := none }

/-- The writer makes a take its current take, with every next sequence 0, and the record's start label
is set by the pair that brings it (R134, R140). -/
def State.makeCurrent (s : State) (take : Word) : State :=
  let w := s.writer
  s.setWriter { w with
    take := some take
    fullPool := { w.fullPool with nextSequence := 0 }
    proxyPool := { w.proxyPool with nextSequence := 0 }
    indexPool := { w.indexPool with nextSequence := 0 } }

/-- The writer begins a piece of work. -/
def State.beginWork (s : State) (k : Work) : State :=
  s.setWriter { s.writer with phase := .writing, work := some k }

/-- The writer begins the head pair: at the Take Header if its take's is not yet written (R134, R135). -/
def State.beginPair (s : State) (r : PairRecord) (d : PairData) : State :=
  match s.takeRecord r.take with
  | none => s.beginWork (Work.fresh false .full r.frame)
  | some k =>
    if k.headerWritten then s.beginWork (Work.fresh false .full r.frame)
    else
      ((s.makeCurrent r.take).mapTake r.take (fun x => { x with startLabel := d.label })).beginWork
        (Work.fresh false .header r.frame)

/-- The writer begins to end the oldest take: at the Take Header if that is not yet written (R140). -/
def State.beginEnding (s : State) (r : TakeRecord) : State :=
  if r.headerWritten then s.beginWork (Work.fresh true .trailer 0#32)
  else (s.makeCurrent r.number).beginWork (Work.fresh true .header 0#32)

/-- The writer has finished a piece of work: IDLE unless another piece waits (R133, log 20). -/
def State.finishPiece (s : State) : State :=
  s.setWriter { s.writer with work := none, phase := if s.workWaits then .writing else .idle }

/-! ### Placing bytes (R135, R144, R151) -/

/-- The work in hand with its step advanced to another. -/
def Work.goTo (k : Work) (step : WriterStep) : Work :=
  { k with step := step, written := 0, page := none }

/-- Replace the work in hand. -/
def State.setWork (s : State) (k : Work) : State :=
  s.setWriter { s.writer with work := some k }

/-- What a segment of a step carries: bytes of an index record, or bytes of a picture in its area. -/
inductive Source where
  | record (bytes : List Byte)
  | picture (lane : Lane) (start size : Nat)
  deriving DecidableEq, Repr

/-- The link item of `len` bytes of a source, from byte `from` of the step on. -/
def Source.item (src : Source) (addr : HostAddr) (first len : Nat) : LinkItem :=
  match src with
  | .record bytes => .write addr ((bytes.drop first).take len)
  | .picture lane start size => .payload addr lane ((start + first) % size) len

/-- Write one run of bytes of the step on one page of the current chunk, at the page's translation. -/
def State.writeSegment (s : State) (p : Pool) (c : Chunk) (k : Work) (src : Source) (total : Nat)
    (base : HostAddr) : State :=
  let x := s.writer.pool p
  let addr := c.addr + c.used
  let len := min (total - k.written) (min (x.chunkSize - c.used) (pageBytes - pageOffset addr))
  let place := c.offset + c.used
  let first := k.written = 0
  let k2 := { k with
    written := k.written + len
    fullOffset := if first ∧ p = .full then place else k.fullOffset
    proxyOffset := if first ∧ p = .proxy then place else k.proxyOffset }
  ((s.emit (src.item (hostAt base addr) k.written len)).setPool p
    { x with chunk := some { c with used := c.used + len } }).setWork k2

/-- Place the next bytes of a step in a pool. Whether the writer can go on at once: it stops to acquire a
chunk (R131) or to wait for a translation (R154). The page of the byte before and its translation are kept, into
a newly acquired chunk too, and only a byte on another page asks again (R151). -/
def State.placeBytes (s : State) (p : Pool) (k : Work) (src : Source) (total : Nat) : State × Bool :=
  let x := s.writer.pool p
  match x.chunk with
  | none => (s.attempt p, false)
  | some c =>
    if x.chunkSize ≤ c.used then (s.closeChunk p false, true)
    else
      let addr := c.addr + c.used
      match k.page with
      | some (page, base) =>
        if page = pageOf addr then (s.writeSegment p c k src total base, true)
        else
          match s.translate .writer addr with
          | (t, some b) => (t.setWork { k with page := some (pageOf addr, b) }, true)
          | (t, none) => (t, false)
      | none =>
        match s.translate .writer addr with
        | (t, some b) => (t.setWork { k with page := some (pageOf addr, b) }, true)
        | (t, none) => (t, false)

/-! ### The steps (R134 to R137, R140) -/

/-- The record of the take the work in hand belongs to: the oldest of the table (R133). -/
def State.workTake (s : State) : Option TakeRecord :=
  s.takes.table.head?

/-- The step of a Take Header (R134, R140). -/
def State.headerStep (s : State) (k : Work) (r : TakeRecord) : State × Bool :=
  if k.written < 64 then s.placeBytes .index k (.record r.headerBytes) 64
  else
    ((s.mapTake r.number (fun x => { x with headerWritten := true })).setWork
      (k.goTo (if k.ending then .trailer else .full)), true)

/-- The step of a full picture (R135). -/
def State.fullStep (s : State) (k : Work) (r : PairRecord) : State × Bool :=
  match r.full with
  | none => (s.setWork (k.goTo .proxy), true)
  | some e =>
    if k.written < e.len then
      s.placeBytes .full k (.picture .full e.start s.store.fullArea.size) e.len
    else (s.setWork (k.goTo .proxy), true)

/-- The proxy step settles the entry's state and ends. -/
def State.settleProxy (s : State) (k : Work) (state : ProxyState) : State × Bool :=
  (s.setWork { k.goTo .entry with proxyState := state }, true)

/-- A PRESENT picture of `len` bytes, not yet begun, does not fit the current PROXY chunk (R136). -/
def State.proxyShort (s : State) (k : Work) (len : Nat) : Bool :=
  match s.writer.proxyPool.chunk with
  | none => false
  | some c => (k.written == 0) && decide (s.writer.proxyPool.chunkSize < c.used + len)

/-- The step of a proxy picture (R136, R142). -/
def State.proxyStep (s : State) (k : Work) (r : PairRecord) (d : PairData) : State × Bool :=
  match d.proxyState with
  | .held => s.settleProxy k .held
  | .absent => s.settleProxy k .absent
  | .present =>
    match r.proxy with
    | none => s.settleProxy k .absent
    | some e =>
      if e.len ≤ k.written then s.settleProxy k .present
      else if k.written = 0 ∧ s.writer.suspended = true then s.settleProxy k .absent
      else if s.proxyShort k e.len then (s.closeChunk .proxy false, true)
      else s.placeBytes .proxy k (.picture .proxy e.start s.store.proxyArea.size) e.len

/-- The Pair Entry is written: Take Control counts it, the store removes the pair, the drained test
follows, and the piece is finished (R124, R125, R137). -/
def State.finishPair (s : State) (e : PairEntry) : State :=
  let t := s.mapTake e.take (fun x => x.count e)
  (({ t with store := t.store.remove } : State).settleDrained).finishPiece

/-- The step of a Pair Entry (R137). -/
def State.entryStep (s : State) (k : Work) (r : PairRecord) (d : PairData) : State × Bool :=
  let ordinal := match s.takeRecord r.take with
    | none => 0
    | some x => x.ordinal
  let e := pairEntry r d k ordinal
  if k.written < 64 then s.placeBytes .index k (.record e.bytes) 64
  else (s.finishPair e, false)

/-- The end of a take once its trailer is written (R125, R140, R187): the INDEX chunk is closed with
LAST_OF_TAKE, CHUNK is announced, the record leaves, TAKE is raised, and no take is current. -/
def State.finishTake (s : State) : State :=
  let t := (s.closeChunk .index true).announce
  let t := { t with takes := { t.takes with table := t.takes.table.drop 1 } }
  let t := t.raise .take
  let w := t.writer
  (t.setWriter { w with
    take := none
    fullPool := { w.fullPool with nextSequence := 0 }
    proxyPool := { w.proxyPool with nextSequence := 0 }
    indexPool := { w.indexPool with nextSequence := 0 } }).finishPiece

/-- The last steps of a take (R140): the wait for a PROXY attempt in flight, the closes of the FULL and
PROXY chunks, the trailer, and the INDEX close. An attempt that a frame start began since (R143) is waited
for, and a chunk it took is closed with no byte in it, ahead of the INDEX close: the take leaves all three
pools with no chunk (R139, log 36). -/
def State.trailerStep (s : State) (k : Work) (r : TakeRecord) : State × Bool :=
  if k.closed then
    if k.written < 64 then s.placeBytes .index k (.record r.trailerBytes) 64
    else if s.writer.proxyPool.attempt.isSome then (s, false)
    else ((s.closeChunk .proxy true).finishTake, false)
  else if s.writer.proxyPool.attempt.isSome then (s, false)
  else (((s.closeChunk .full true).closeChunk .proxy true).setWork { k with closed := true }, true)

/-- One step of the work in hand, and whether the writer can go on at once. -/
def State.writerStep (s : State) : State × Bool :=
  match s.writer.work with
  | none => (s, false)
  | some k =>
    match s.workTake with
    | none => (s, false)
    | some r =>
      if k.ending then
        match k.step with
        | .header => s.headerStep k r
        | _ => s.trailerStep k r
      else
        match s.headPair with
        | none => (s, false)
        | some (p, d) =>
          match k.step with
          | .header => s.headerStep k r
          | .full => s.fullStep k p
          | .proxy => s.proxyStep k p d
          | .entry => s.entryStep k p d
          | .trailer => (s, false)

/-- The writer works until it must wait or the piece is finished, at most `fuel` steps. -/
def State.runWriter : Nat → State → State
  | 0, s => s
  | n + 1, s =>
    match s.writerStep with
    | (t, true) => State.runWriter n t
    | (t, false) => t

/-- More steps than one piece can take between two waits: a picture of at most 64 MiB lies on at most 33
pages (R56, R149), two steps a page (log 33). -/
def writerFuel : Nat :=
  256

/-- The writer goes on with its work. -/
def State.work (s : State) : State :=
  s.runWriter writerFuel

/-- The writer chooses its next piece of work (R133) and works on it. -/
def State.chooseWork (s : State) : State :=
  match s.takes.table with
  | [] => s.finishPiece
  | r :: _ =>
    if r.drained then (s.beginEnding r).work
    else
      match s.headPair with
      | none => s.finishPiece
      | some (p, d) => (s.beginPair p d).work

/-- The meaning of WRITER_START_WORK (R133). A writer with work in hand makes no choice, and without a
Board there is none to make (DEDUCED, log 3). -/
def execWriterStartWork (s : State) : Host.Outcome State Fault Refusal :=
  if s.writer.work.isSome ∨ s.attached = false then .next s else .next s.chooseWork

/-! ### Suspension (R141 to R143) -/

/-- Suspension begins (R142): the wait ends, PROXY_SUSPENDED is reported, the pair's proxy is recorded
ABSENT and the writer goes on to its Pair Entry. -/
def State.beginSuspension (s : State) : State :=
  let t := s.writerFault .proxySuspended (poolDetail .proxy 0)
  let k := t.writer.work.map (fun k => { k.goTo .entry with proxyState := .absent })
  (t.setWriter { t.writer with
    phase := .writing, work := k, wait := none, proxyWait := 0, suspended := true,
    patienceOut := false }).work

/-- The writer waits for a PROXY chunk (R141). -/
def Writer.waitsProxy (w : Writer) : Bool :=
  match w.wait with
  | some (.proxy, .noChunk) => true
  | some (.proxy, .entryRead) => true
  | _ => false

/-- The meaning of PROXY_SUSPENDED: the proxy wait count has reached the patience and no PROXY attempt
is in flight; where that is not so, nothing changes (R141, R142; log 26). -/
def execProxySuspended (s : State) : Host.Outcome State Fault Refusal :=
  if s.writer.waitsProxy = true ∧ s.writer.proxyPool.attempt.isNone = true ∧
      s.takes.profile.patience ≤ s.writer.proxyWait then
    .next s.beginSuspension
  else .next s

/-! ### The end of an acquisition attempt (R131, R132, R143) -/

/-- The writer waits on a pool (R132). A PROXY wait that is not under way yet starts its count at 0 (R141). -/
def State.waitOn (s : State) (p : Pool) (cause : WaitCause) : State :=
  let w := s.writer
  s.setWriter { w with
    phase := .waiting
    wait := some (p, cause)
    proxyWait := if w.waitsProxy then w.proxyWait else 0
    patienceOut := if w.waitsProxy then w.patienceOut else false }

/-- An ending take that waited for a PROXY attempt, at step 2 or with its trailer written, goes on (R140,
log 36). -/
def State.resumeEnding (s : State) : State :=
  match s.writer.work with
  | none => s
  | some k =>
    if k.ending && (k.step == .trailer) && (!k.closed || decide (64 ≤ k.written)) then s.work else s

/-- An attempt has ended without a chunk: its scan has failed, or an entry read has (R132, R141, R143). With the
patience out suspension begins in both cases; R141 has it so for an attempt that fails, and R131 calls only a scan of
every entry failed, so that a failed read begins it too is a DESIGN CHOICE (log 46). -/
def State.attemptFailed (s : State) (p : Pool) (cause : WaitCause) : State :=
  let t := s.setPool p { s.writer.pool p with attempt := none }
  if p = .proxy ∧ s.writer.suspended = true then t.resumeEnding
  else if p = .proxy ∧ s.writer.patienceOut = true then t.beginSuspension
  else t.waitOn p cause

/-- An attempt takes an entry (R131, R139): it is written FILLING and becomes the current chunk. A
suspension attempt clears SUSPENDED and leaves the writer's state alone (R143); any other ends the wait
and the step resumes (R132, R141). A suspension attempt writes its entry FILLING in a BLOCKED writer too (DESIGN CHOICE,
log 49). -/
def State.takeEntry (s : State) (p : Pool) (i addr : Nat) : State :=
  let x := s.writer.pool p
  let take := s.writer.take.getD 0#32
  let offset := x.nextSequence * x.chunkSize
  let t := s.post (s.entryAddr p i + 4#64) (enginePart 2 false false take x.nextSequence offset 0)
  let chunk : Chunk :=
    { entry := i, addr := addr, take := take, sequence := x.nextSequence, offset := offset, used := 0 }
  let t := t.setPool p { x with
    chunk := some chunk, attempt := none, cursor := (i + 1) % x.count,
    nextSequence := (x.nextSequence + 1) % 4294967296 }
  if p = .proxy ∧ s.writer.suspended = true then
    (t.setWriter { t.writer with suspended := false }).resumeEnding
  else
    (t.setWriter { t.writer with
      phase := .writing, wait := none, proxyWait := if p = .proxy then 0 else t.writer.proxyWait,
      patienceOut := false }).work

/-- The scan reads its next entry, or has failed when it has read them all (R131). -/
def State.scanOn (s : State) (p : Pool) (a : Attempt) : State :=
  if a.left ≤ 1 then s.attemptFailed p .noChunk
  else
    let x := s.writer.pool p
    let i := (a.entry + 1) % x.count
    (s.issueRead (s.entryAddr p i) 32).setPool p
      { x with attempt := some { tag := s.nextTag, entry := i, left := a.left - 1 } }

/-- An EMPTY entry with an unusable address is rejected (R131), by a suspension attempt of a BLOCKED writer too (DESIGN
CHOICE, log 49). -/
def State.rejectEntry (s : State) (p : Pool) (i : Nat) : State :=
  let t := s.post (s.entryAddr p i + 4#64) (leBytes 1 4)
  { t with counters := { t.counters with chunksRejected := bump t.counters.chunksRejected } }.writerFault
    .chunkRejected (poolDetail p i)

/-- The address of an EMPTY entry can be used (R131). -/
def usableAddress (addr chunkSize : Nat) : Bool :=
  decide (addr % pageBytes = 0) && decide (addr + chunkSize ≤ boardSpace)

/-- An entry has been read (R131, R132). A failed read reports LINK_READ before a suspension that its attempt's end
begins reports PROXY_SUSPENDED (DESIGN CHOICE, log 46). -/
def State.entryRead (s : State) (p : Pool) (a : Attempt) (data : Option (List Byte)) : State :=
  match data with
  | none =>
    (s.writerFault .linkRead (poolDetail p a.entry)).attemptFailed p .entryRead
  | some bytes =>
    let addr := fieldAt bytes 0 4
    if fieldAt bytes 4 1 ≠ 1 then s.scanOn p a
    else if usableAddress addr (s.writer.pool p).chunkSize then s.takeEntry p a.entry addr
    else (s.rejectEntry p a.entry).scanOn p a

/-- The attempt in flight on a pool, if its read has the number `tag`. -/
def Writer.attemptWith (w : Writer) (tag : Nat) (p : Pool) : Option Attempt :=
  match (w.pool p).attempt with
  | none => none
  | some a => if a.tag = tag then some a else none

/-- The meaning of CHUNK_ENTRY_READ_DONE (R131, R132, R143). The completion of an abandoned attempt is
discarded (R147). -/
def execChunkEntryReadDone (tag : Nat) (data : Option (List Byte)) (s : State) :
    Host.Outcome State Fault Refusal :=
  match s.writer.attemptWith tag .full with
  | some a => .next (s.entryRead .full a data)
  | none =>
    match s.writer.attemptWith tag .proxy with
    | some a => .next (s.entryRead .proxy a data)
    | none =>
      match s.writer.attemptWith tag .index with
      | some a => .next (s.entryRead .index a data)
      | none => .next s

/-! ### Translations (R144, R145, R158) -/

/-- The pool the work in hand places bytes in. -/
def WriterStep.pool : WriterStep → Pool
  | .header => .index
  | .full => .full
  | .proxy => .proxy
  | .entry => .index
  | .trailer => .index

/-- The position of the next byte the work in hand places (R144). -/
def State.nextPosition (s : State) (page : Nat) : BlockedPosition :=
  let p := match s.writer.work with
    | none => Pool.full
    | some k => k.step.pool
  let offset := match (s.writer.pool p).chunk with
    | none => 0
    | some c => c.used
  { pool := p, offset := offset, page := page }

/-- The writer's translation of a page is answered (R144, R145, R155). -/
def State.answerWriter (s : State) (page : Nat) (a : Answer) : State :=
  let w := s.writer
  match a with
  | .translated base =>
    (s.setWriter { w with
      phase := .writing, wait := none, blocked := none,
      work := w.work.map (fun k => { k with page := some (page, base) }) }).work
  | .invalid =>
    match w.phase with
    | .blocked => s
    | _ =>
      let t := s.setWriter { w with
        phase := .blocked, wait := none, blocked := some (s.nextPosition page) }
      { t with counters := { t.counters with apertureFaults := bump t.counters.apertureFaults } }.writerFault
        .apertureFault (BitVec.ofNat 32 page)
  | .readFailed =>
    let position := s.nextPosition page
    (s.setWriter { w with
      phase := .waiting, wait := some (position.pool, .translationRead),
      blocked := some position }).writerFault .linkRead (pageReadDetail page)

/-- The board address of the next byte the work in hand places. -/
def State.nextAddress (s : State) : Nat :=
  match s.writer.work with
  | none => 0
  | some k =>
    match (s.writer.pool k.step.pool).chunk with
    | none => 0
    | some c => c.addr + c.used

/-- A retry of a block or of a translation read wait (R145): no second request while its miss waits. -/
def State.retryTranslation (s : State) : State :=
  if s.waitsForPage .writer then s
  else
    let addr := s.nextAddress
    match s.translate .writer addr with
    | (t, some base) => t.answerWriter (pageOf addr) (.translated base)
    | (t, none) => t

/-- A Visit Request at the writer (R132, R145, R168). -/
def State.writerVisit (s : State) : State :=
  match s.writer.phase with
  | .idle => s
  | .writing => s
  | .blocked => s.retryTranslation
  | .waiting =>
    match s.writer.wait with
    | none => s
    | some (_, .translationRead) => s.retryTranslation
    | some (p, .noChunk) => s.attempt p
    | some (p, .entryRead) => s.attempt p

/-- A frame start at a writer that waits for a PROXY chunk (R141): the count moves, up to the end of its range
(DESIGN CHOICE, log 47), and is compared with the patience in force. -/
def State.proxyWaitFrameStart (s : State) : State :=
  let n := satAdd 255 s.writer.proxyWait 1
  let out := decide (s.takes.profile.patience ≤ n)
  let t := s.setWriter { s.writer with proxyWait := n, patienceOut := out }
  if out then (if s.writer.proxyPool.attempt.isNone then t.beginSuspension else t)
  else t.attempt .proxy

/-- A frame start at a waiting writer (R132, R141, R145). -/
def State.writerWaitFrameStart (s : State) : State :=
  match s.writer.phase with
  | .waiting =>
    match s.writer.wait with
    | none => s
    | some (_, .translationRead) => s.retryTranslation
    | some (.proxy, _) => s.proxyWaitFrameStart
    | some (p, _) => s.attempt p
  | _ => s

/-- A frame start at the writer: the wait, and the suspension attempt of a writer that was suspended when
the frame start came (R143, log 15). A BLOCKED writer makes that attempt too: R144 has a BLOCKED writer write nothing, and
R143 lets the attempt run beside its other work with no word on BLOCKED (DESIGN CHOICE, log 49). -/
def State.writerFrameStart (s : State) : State :=
  let t := s.writerWaitFrameStart
  if s.writer.suspended = true ∧ t.writer.take.isSome = true ∧ t.writer.suspended = true then
    t.attempt .proxy
  else t

/-! ### REMAP_APERTURES (R156 to R158) -/

/-- The writer is BLOCKED on a page of a range (R158). -/
def Writer.blockedIn (w : Writer) (first last : Nat) : Bool :=
  match w.phase, w.blocked with
  | .blocked, some b => decide (first ≤ b.page) && decide (b.page ≤ last)
  | _, _ => false

/-- The act of REMAP_APERTURES (R156, R157, R158). -/
def State.applyRemap (s : State) (first count : Nat) : State × DirectiveResult :=
  if 2047 < first then (s, DirectiveResult.refuse .badField)
  else
    let n := clampNat 1 (2048 - first) count
    let last := first + n - 1
    let mask := bit (n != count) 0
    let a := s.aperture.remap first last
    let ways := validWays s.aperture.sets - validWays a.sets
    let discarded := s.aperture.fetchIn first last
    let released := s.writer.blockedIn first last
    let t := { s with aperture := a }
    (if released then t.retryTranslation else t,
      DirectiveResult.carried (if mask = 0 then .none else .clamped)
        [(0, leBytes 4 first), (4, leBytes 4 n), (8, leBytes 2 ways),
         (10, leBytes 1 (bit discarded 0 + bit released 1))] mask)

end Sys2Proof.Machine
end

