-- ==== Sys2Proof/Machine/Reports.lean ====
section
/-! DEFINITION. The Frame Report (R183, R184) and the Snapshot (R189). -/

namespace Sys2Proof.Machine

/-! ### Values both records carry -/

/-- The writer detail (R130, R171): the pool a wait or a blocked position names, and the wait cause. In IDLE and
WRITING the byte is 0, and in BLOCKED the wait cause bits are, the model's choice (log 41). -/
def Writer.detail (w : Writer) : Nat :=
  match w.phase with
  | .idle => 0
  | .writing => 0
  | .waiting =>
    match w.wait with
    | none => 0
    | some (p, c) => p.code + 4 * c.code
  | .blocked =>
    match w.blocked with
    | none => 0
    | some b => b.pool.code

/-- The pending period as the records carry it: 0 while PENDING is clear (R1). -/
def Cadence.pendingPeriod (c : Cadence) : Nat :=
  match c.pending with
  | none => 0
  | some x => x.period

/-- The flags byte of the records: PENDING and SUSPENDED (R171). -/
def recordFlags (c : Cadence) (w : Writer) : Nat :=
  bit c.pending.isSome 0 + bit w.suspended 1

/-- The four live byte counts, in Frame Report order, from an offset on (R92, R171). -/
def Store.liveFields (st : Store) (offset : Nat) : List (Nat × List Byte) :=
  [(offset, leBytes 4 (st.liveBytes .full true)), (offset + 4, leBytes 4 (st.liveBytes .full false)),
   (offset + 8, leBytes 4 (st.liveBytes .proxy true)), (offset + 12, leBytes 4 (st.liveBytes .proxy false))]

/-! ### The Frame Report -/

/-- The state each block is shown in. -/
structure ReportView where
  intake : State
  store : State
  writer : State
  coalescing : State
  faultRecord : State

/-- The state a report shows a block in, of those the blocks passed through (R184, log 7). -/
def seenState (b : ReportBlock) (index : Nat) (last : State) : List State → State
  | [] => last
  | [x] => x
  | xs => xs.getD (Config.reportSees b index % xs.length) last

/-- The view a report takes (R184). -/
def State.reportView (s : State) (passed : List State) : ReportView :=
  let see := fun b => seenState b s.freeIndex s passed
  { intake := see .intake, store := see .store, writer := see .writer, coalescing := see .coalescing,
    faultRecord := see .faultRecord }

/-- The counters in the order of R171; those of frames lost are the Intake's as the report shows it. -/
def reportCounters (c : Counters) (intake : Counters) : List Nat :=
  [c.captured, intake.lostInCapture, intake.lostNoSlot, c.damaged, c.retimed, c.discardedUnbound, c.held,
   c.absent, c.clippedF, c.clippedP, c.apertureFaults, c.chunksRejected, c.directivesRefused, c.badEdges,
   c.missedWindows, c.strayEvents]

/-- The cadence, label and governor fields of a report (R184, R171). The record-run label steps with a
loss at the Intake (R28), so it goes with the Intake's view. -/
def State.reportCadenceFields (s : State) (label recordRun : Label) : List (Nat × List Byte) :=
  [(4, leBytes 1 s.board.mode.code), (5, leBytes 1 s.cadence.lock.code),
   (8, leBytes 4 s.cadence.frameNumber.toNat), (12, leBytes 4 s.openTakeNumber.toNat), (16, label.bytes),
   (20, recordRun.bytes), (24, leBytes 8 s.cadence.active.period),
   (32, leBytes 8 s.cadence.pendingPeriod), (40, signedBytes s.governor.full.level),
   (44, signedBytes s.governor.proxy.level), (48, leBytes 1 s.governor.full.q),
   (49, leBytes 1 s.governor.proxy.q)]

/-- The writer's and the store's fields of a report (R184, R171). -/
def reportStoreFields (c : Cadence) (w : Writer) (st : Store) : List (Nat × List Byte) :=
  [(6, leBytes 1 (recordFlags c w)), (7, leBytes 1 st.pressure), (50, leBytes 1 w.phase.code),
   (51, leBytes 1 w.detail), (52, leBytes 2 (st.records true)), (54, leBytes 2 (st.records false)),
   (72, leBytes 1 w.fullPool.cursor), (73, leBytes 1 w.proxyPool.cursor),
   (74, leBytes 1 w.indexPool.cursor)] ++ st.liveFields 56

/-- The coalescing and fault record fields of a report (R184, R171). A set MORE is written as 1, the model's
choice (log 42). -/
def reportNoticeFields (n : Notices) (f : FaultRecord) : List (Nat × List Byte) :=
  [(76, leBytes 1 n.fullCount), (77, leBytes 1 n.proxyCount), (78, leBytes 1 n.indexCount),
   (144, leBytes 1 (FaultClass.code f.cls)), (145, leBytes 1 (bit f.more 0)),
   (148, leBytes 4 f.frame.toNat), (152, leBytes 4 f.take.toNat), (156, leBytes 4 f.detail.toNat),
   (160, leBytes 4 f.later)]

/-- Bytes 0..507 of a report, the begin sequence read as 0 (R184, R171). -/
def State.reportBytes (s : State) (v : ReportView) (label : Label) : List Byte :=
  layout 508 (s.reportCadenceFields label v.intake.timecode.recordRun ++
    reportStoreFields s.cadence v.writer.writer v.store.store ++
    [(80, (reportCounters s.counters v.intake.counters).flatMap (leBytes 4))] ++
    reportNoticeFields v.coalescing.notices v.faultRecord.faultRecord)

/-- Write a Frame Report (R183): the begin sequence, the fields at 4..507 and the end sequence, as posted
writes in this order, and then REPORT. `passed` are the states the blocks passed through in the event
that brings the report, the present one the last. -/
def State.frameReport (s : State) (passed : List State) (label : Label) : State :=
  let sequence := s.reportSequence + 1#32
  let body := (s.reportBytes (s.reportView passed) label).drop 4
  let t := { s with reportSequence := sequence, freeIndex := s.freeIndex + 1 }
  let t := t.post (t.boardAddr 0x0100) (leBytes 4 sequence.toNat)
  let t := t.post (t.boardAddr 0x0104) body
  let t := t.post (t.boardAddr 0x02FC) (leBytes 4 sequence.toNat)
  t.raise .report

/-! ### The Snapshot -/

/-- The Snapshot record (R189, R171). -/
def State.snapshotBytes (s : State) : List Byte :=
  layout 128 ([(0, leBytes 4 s.cadence.frameNumber.toNat), (4, s.timecode.freeRun.bytes),
    (8, s.timecode.recordRun.bytes), (12, leBytes 1 s.cadence.lock.code),
    (13, leBytes 1 (recordFlags s.cadence s.writer)), (14, leBytes 1 s.writer.phase.code),
    (15, leBytes 1 s.writer.detail), (16, leBytes 8 s.cadence.counter),
    (24, leBytes 8 s.cadence.active.period), (32, leBytes 8 s.cadence.pendingPeriod),
    (40, leBytes 4 s.cadence.lastInterval), (44, signedBytes s.governor.full.level),
    (48, signedBytes s.governor.proxy.level), (52, leBytes 1 s.governor.full.q),
    (53, leBytes 1 s.governor.proxy.q), (54, leBytes 1 s.store.pressure),
    (56, leBytes 2 (s.store.records true)), (58, leBytes 2 (s.store.records false))] ++
    s.store.liveFields 60)

/-- The act of SNAPSHOT (R189): with the latch free the record is written, the latch held and SNAPSHOT
raised; with the latch held nothing changes. -/
def State.applySnapshot (s : State) : State × DirectiveResult :=
  if s.notices.snapshotLatch then (s, DirectiveResult.carried .alreadyLatched [] 0)
  else
    let t := s.post (s.boardAddr 0x0300) s.snapshotBytes
    (({ t with notices := { t.notices with snapshotLatch := true } } : State).raise .snapshot,
      DirectiveResult.carried .none [] 0)

end Sys2Proof.Machine
end

