-- ==== Sys2Proof/Machine/Visits.lean ====
section
/-! DEFINITION. Visits of the directive chain: how one is asked for, begins, goes on and ends (R174, R175, R177). -/

namespace Sys2Proof.Machine

/-- Set what the visit waits for. -/
def State.setPhase (s : State) (p : ChainPhase) : State :=
  { s with chain := { s.chain with phase := p } }

/-- Read the anchor's Next field, 4 bytes, at its page's translation (R173, R175 step 1). A root anchor that is no
multiple of 64 can stand in the last 3 bytes of a page: all 4 bytes are read at that page's translation, where R149
goes on at the next page's and R175 names only the anchor's (DESIGN CHOICE, log 44). -/
def State.readNext (s : State) (base : HostAddr) : State :=
  (s.issueRead (hostAt base s.chain.anchor) 4).setPhase (.nextRead s.nextTag)

/-- A visit begins (R174, R175 step 1). -/
def State.beginVisit (s : State) (atFrameStart : Bool) : State :=
  let t := { s with chain := { s.chain with
    phase := .anchorPage, again := false, count := 0, notify := false, atFrameStart := atFrameStart } }
  match t.translate .chain t.chain.anchor with
  | (u, some base) => u.readNext base
  | (u, none) => u

/-- A visit is asked for (R174): it begins at once when none is under way, and else visit again is set. -/
def State.askVisit (s : State) (atFrameStart : Bool) : State :=
  match s.chain.phase with
  | .idle => s.beginVisit atFrameStart
  | _ => { s with chain := { s.chain with again := true } }

/-- A visit ends (R174, R175): DIRECTIVE is raised if a NOTIFY was seen, and a new visit begins when visit
again is set, or when the visit ended at the limit with the cadence stopped. Both together bring one
(log 13). -/
def State.endVisit (s : State) (atLimit : Bool) : State :=
  let t := s.setPhase .idle
  let t := if s.chain.notify then t.raise .directive else t
  let more : Bool := s.chain.again || (atLimit && (s.cadence.run == .stopped))
  if more then t.beginVisit false else t

/-- A chain fault at an address (R177): one CHAIN_FAULT until STALLED is cleared, and the visit ends. -/
def State.chainFault (s : State) (addr : Nat) : State :=
  let t :=
    if s.chain.stalled then s
    else
      ({ s with chain := { s.chain with stalled := true } } : State).reportFault .chainFault
        s.cadence.frameNumber s.openTakeNumber (BitVec.ofNat 32 (pageOf addr))
  t.endVisit false

/-- Fetch the record at an address, 64 bytes, at its page's translation (R175 step 4). -/
def State.readRecord (s : State) (addr : Nat) (base : HostAddr) : State :=
  (s.issueRead (hostAt base addr) 64).setPhase (.recordRead s.nextTag addr)

/-- The walk goes on from a Next field (R175, steps 2 to 4). -/
def State.followNext (s : State) (next : Nat) : State :=
  if next = 0 then s.endVisit false
  else if next % 64 ≠ 0 then s.chainFault next
  else
    match (s.setPhase (.recordPage next)).translate .chain next with
    | (t, some base) => t.readRecord next base
    | (t, none) => t

end Sys2Proof.Machine
end

