-- ==== Sys2Proof/Machine/Cadence.lean ====
section
/-! DEFINITION. Cadence Unit (chapter 1): ticks, edges, windows, lock states, frame starts and what they are handed to; and the
cadence directives. -/

namespace Sys2Proof.Machine

/-! ### Ticks (R1, R6, R11, R25) -/

/-- The unit is in LOCKED mode and lock state LOCKED, where an expiry makes no frame start (R2, R11). -/
def Cadence.windowed (c : Cadence) : Bool :=
  (c.active.mode == .locked) && (c.lock == .locked)

/-- n reference ticks counted by the cadence (R1, R6, R11), none of them but the last with an event. -/
def Cadence.count (c : Cadence) (n : Nat) : Cadence :=
  match c.run with
  | .stopped => c
  | .running =>
    let measure := min (c.measure + n) measureLimit
    if c.lateOpen then
      { c with measure := measure, lateCount := min (c.lateCount + n) c.active.tolerance }
    else { c with measure := measure, counter := c.counter - n }

/-- n reference ticks counted, none of them but the last with an event of the cadence or the labels (R1, R6,
R11, R25). While the label follows, its counter stops at zero. The exposure strobe is a pulse of one tick
(log 34). -/
def State.count (s : State) (n : Nat) : State :=
  { s with
    cadence := s.cadence.count n
    timecode := { s.timecode with baseCounter := s.timecode.baseCounter - n }
    intake := { s.intake with strobe := false } }

/-! ### Lock states (R8, R14, R15) -/

/-- Every change of the lock state raises LOCK (R15). Its MSI is sent at the change, at a frame start ahead of that frame
start's report and in a record of the chain ahead of the record's result: R186 names no write for LOCK (DESIGN CHOICE,
log 53). -/
def State.setLock (s : State) (l : LockState) : State :=
  if s.cadence.lock = l then s
  else ({ s with cadence := { s.cadence with lock := l } } : State).raise .lock

/-- The good, bad and missed counts become 0. -/
def Cadence.zeroCounts (c : Cadence) : Cadence :=
  { c with good := 0, bad := 0, missed := 0 }

/-- The lock state becomes SEEKING (R8). -/
def State.enterSeeking (s : State) : State :=
  ({ s with cadence := { s.cadence.zeroCounts with
      edgeLatch := false, measure := measureLimit } } : State).setLock .seeking

/-- The lock state becomes UNUSED (R8). -/
def State.enterUnused (s : State) : State :=
  ({ s with cadence := s.cadence.zeroCounts } : State).setLock .unused

/-- The lock state becomes LOCKED (R10). -/
def State.enterLocked (s : State) : State :=
  ({ s with cadence := s.cadence.zeroCounts } : State).setLock .locked

/-- The lock state becomes HOLDOVER, with REFERENCE_LOST (R14). -/
def State.enterHoldover (s : State) : State :=
  (({ s with cadence := s.cadence.zeroCounts } : State).setLock .holdover).reportFault .referenceLost
    s.cadence.frameNumber s.openTakeNumber s.cadence.frameNumber

/-- HOLDOVER when a count has reached 2 (R14). -/
def State.checkLost (s : State) : State :=
  if 2 ≤ s.cadence.bad ∨ 2 ≤ s.cadence.missed then s.enterHoldover else s

/-! ### Settings (R3) -/

/-- A setting changes the period or the mode. -/
def CadenceSetting.differs (x active : CadenceSetting) : Bool :=
  (x.period != active.period) || (x.mode != active.mode)

/-- A setting changes more than the tolerance. -/
def CadenceSetting.regrids (x active : CadenceSetting) : Bool :=
  x.differs active || (x.polarity != active.polarity)

/-- A pending setting becomes the active one, and the lock state follows the table of R3. -/
def State.applySetting (s : State) (x : CadenceSetting) : State :=
  let old := s.cadence.active
  let t := { s with cadence := { s.cadence with active := x, pending := none } }
  match x.mode with
  | .free => t.enterUnused
  | .locked =>
    match old.mode with
    | .free => t.enterSeeking
    | .locked => if x.regrids old then t.enterSeeking else t

/-- The setting that a frame start applies (R3): none while an OPEN take holds it back. -/
def State.settingDue (s : State) : Option CadenceSetting :=
  match s.cadence.pending with
  | none => none
  | some x => if s.takeIsOpen && x.differs s.cadence.active then none else some x

/-! ### Frame starts (R4) -/

/-- What makes a frame start: an expiry (R2), a third good edge (R10), an edge in the window with its
judgement (R11), or the close of a window (R12). -/
inductive FrameCause where
  | expiry
  | realign
  | edge (good : Bool)
  | close
  deriving DecidableEq, Repr

/-- The frame start is numbered (R4), and counted when it carries RETIMED. -/
def State.numberFrame (s : State) (cause : FrameCause) : State :=
  { s with
    cadence := { s.cadence with frameNumber := s.cadence.frameNumber + 1#32 }
    counters := { s.counters with
      retimed := if cause = .realign then bump s.counters.retimed else s.counters.retimed } }

/-- The frame start's own edge handling (R10, R11, R12, R14). -/
def State.edgeHandling (s : State) (cause : FrameCause) : State :=
  match cause with
  | .expiry => s
  | .realign => s.enterLocked
  | .edge true => { s with cadence := { s.cadence with bad := 0, missed := 0 } }
  | .edge false =>
    ({ s with cadence := { s.cadence with bad := s.cadence.bad + 1 } } : State).checkLost
  | .close =>
    ({ s with
      cadence := { s.cadence with missed := s.cadence.missed + 1 }
      counters := { s.counters with missedWindows := bump s.counters.missedWindows } } : State).checkLost

/-- The counter loads (R2, R3, R10, R11, R12), and a late count is dropped. `grid` says that the load stays
on the grid of the last edge. -/
def Cadence.load (c : Cadence) (grid : Bool) : Cadence :=
  { c with
    counter := if grid then c.active.period - c.active.tolerance else c.active.period
    lateOpen := false
    lateCount := 0 }

/-- The pending setting and the counter's load at a frame start (R3, R12). -/
def State.settleCounter (s : State) (cause : FrameCause) : State :=
  match s.settingDue with
  | none => { s with cadence := s.cadence.load (decide (cause = .close)) }
  | some x =>
    let t := s.applySetting x
    { t with cadence := t.cadence.load (decide (cause = .close) && !x.regrids s.cadence.active) }

/-- The Timecode Unit at a frame start: the step of a following frame start (R26), unless the activation
has just changed the base code (R33); else the boundary that falls on the tick (R25); then the latch, so
that it holds the label after the step (R27, log 23). -/
def State.timecodeFrameStart (s : State) (cause : FrameCause) (baseChanged : Bool) : State :=
  let follows : Bool := decide (cause ≠ .expiry) &&
    decide (s.cadence.active.period = (baseRate s.timecode.base).period) && !baseChanged
  let t :=
    if follows then { s with timecode := s.timecode.followingFrameStart }
    else if s.boundaryDue then s.baseBoundary
    else s
  { t with timecode := { t.timecode with latched := t.timecode.freeRun } }

/-- The Board Interface at a frame start: the Frame Report (R183) and the visit (R174). -/
def State.boardFrameStart (s : State) (passed : List State) : State :=
  let t := if s.attached then s.frameReport passed s.timecode.latched else s
  match s.board.mode with
  | .standby => t.askVisit true
  | .recording => t.askVisit true
  | _ => t

/-- A frame start is handed to its receivers (R4), Take Control first (R113), the others in the order of
log 6. -/
def State.handFrameStart (s : State) (cause : FrameCause) : State :=
  let a := s.profileFrameStart
  let b := a.timecodeFrameStart cause (a.timecode.base != s.timecode.base)
  let c := b.intakeFrameStart (decide (cause = .realign))
  let d := c.trimStore
  let e := d.writerFrameStart
  let f := e.coalesceFrameStart
  f.boardFrameStart [b, c, d, e, f]

/-- A frame start (R4): numbered, its edge handling, the pending setting and the counter, its receivers. -/
def State.frameStart (s : State) (cause : FrameCause) : State :=
  (((s.numberFrame cause).edgeHandling cause).settleCounter cause).handFrameStart cause

/-! ### Sampled edges (R5 to R13) -/

/-- A sampled edge is good (R7). -/
def Cadence.judge (c : Cadence) (interval : Nat) : Bool :=
  decide (interval < measureLimit) && decide (interval ≤ c.active.period + c.active.tolerance) &&
    decide (c.active.period ≤ interval + c.active.tolerance)

/-- The tick lies in the edge window (R11), whose last tick is the one on which the late count reaches the
tolerance. -/
def Cadence.inWindow (c : Cadence) : Bool :=
  if c.lateOpen then decide (c.lateCount ≤ c.active.tolerance) else decide (c.counter ≤ c.active.tolerance)

/-- A bad sampled edge is counted (R7). -/
def State.countBadEdge (s : State) : State :=
  { s with counters := { s.counters with badEdges := bump s.counters.badEdges } }

/-- A sampled edge in SEEKING or HOLDOVER (R9, R10). -/
def State.seekEdge (s : State) (good : Bool) : State :=
  if good then
    if 3 ≤ s.cadence.good + 1 then s.frameStart .realign
    else { s with cadence := { s.cadence with good := s.cadence.good + 1 } }
  else { s with cadence := { s.cadence with good := 0 } }.countBadEdge

/-- A sampled edge in LOCKED (R11, R13). -/
def State.lockedEdge (s : State) (good : Bool) : State :=
  if s.cadence.inWindow then
    (if good then s else s.countBadEdge).frameStart (.edge good)
  else
    ({ s.countBadEdge with cadence := { s.cadence with bad := s.cadence.bad + 1 } } : State).checkLost

/-- A sampled edge (R6 to R13): the interval is measured, and the edge handled by the lock state. An edge
latched before the mode became FREE is sampled too, and counted when it is bad (R5, R7). -/
def State.sampleEdge (s : State) : State :=
  let interval := s.cadence.measure
  let good := s.cadence.judge interval
  let t := { s with cadence := { s.cadence with
    lastInterval := interval, measure := 0, edgeLatch := false } }
  match s.cadence.lock with
  | .unused => if good then t else t.countBadEdge
  | .seeking => t.seekEdge good
  | .holdover => t.seekEdge good
  | .locked => t.lockedEdge good

/-- A REF transition sets the edge latch (R5). -/
def Cadence.latches (c : Cadence) (polarity : Polarity) : Bool :=
  (c.run == .running) && (c.active.mode == .locked) && (c.active.polarity == polarity)

/-- A REF transition (R5): the latch is set if it counts; a latch that is set already stays so. -/
def State.latchEdge (s : State) (polarity : Polarity) : State :=
  if s.cadence.latches polarity then { s with cadence := { s.cadence with edgeLatch := true } } else s

/-! ### Ticks and the events that fall on them (R2, R5, R11, R12, R25) -/

/-- The cadence counter of a running cadence stands at zero (R2, R11). -/
def State.expiryDue (s : State) : Bool :=
  (s.cadence.run == .running) && !s.cadence.lateOpen && decide (s.cadence.counter = 0)

/-- The late count stands at the tolerance (R12). -/
def State.closeDue (s : State) : Bool :=
  (s.cadence.run == .running) && s.cadence.windowed && s.cadence.lateOpen &&
    decide (s.cadence.active.tolerance ≤ s.cadence.lateCount)

/-- An expiry that is due: in LOCKED the late count starts, and else a frame start is made (R2, R11). -/
def State.takeExpiry (s : State) : State :=
  if s.cadence.windowed then
    { s with cadence := { s.cadence with lateOpen := true, lateCount := 0 } }
  else s.frameStart .expiry

/-- The events of the present tick that no command has taken yet (R2, R11, R12, R25). In SEEKING and HOLDOVER an
edge sampled on the tick (`State.pass`) has been counted before them: an expiry of that tick, with its pending setting
and its report, comes after the edge (DESIGN CHOICE, log 43). -/
def State.settle (s : State) : State :=
  let t := if s.expiryDue then s.takeExpiry else s
  let u := if t.closeDue then t.frameStart .close else t
  if u.boundaryDue then u.baseBoundary else u

/-- The ticks up to the next event of the cadence's own, if one is to come (R2, R5, R11, R12). -/
def Cadence.ticksToEvent (c : Cadence) : Option Nat :=
  if c.edgeLatch then some 1
  else
    match c.run with
    | .stopped => none
    | .running =>
      if c.lateOpen then
        if c.windowed then some (c.active.tolerance - c.lateCount) else none
      else some c.counter

/-- Of n ticks, those up to the next event, at least one: they can be counted at once. -/
def State.quietTicks (s : State) (n : Nat) : Nat :=
  let c := match s.cadence.ticksToEvent with
    | none => n
    | some k => min n k
  max 1 (if s.following then c else min c s.timecode.baseCounter)

/-- n ticks are counted, and the last of them samples the edge latch (R5). The edge is judged and counted under the
setting that stands when the tick comes: R10 orders only a third good edge with an expiry of the same tick, and any
other edge comes before that expiry here (DESIGN CHOICE, log 43). -/
def State.pass (s : State) (n : Nat) : State :=
  let t := s.count n
  if t.cadence.edgeLatch then t.sampleEdge else t

/-- n ticks with all their events, in at most `fuel` runs. -/
def State.elapseIn : Nat → Nat → State → State
  | 0, _, s => s
  | fuel + 1, n, s =>
    if n = 0 then s
    else
      let t := s.settle
      State.elapseIn fuel (n - t.quietTicks n) (t.pass (t.quietTicks n))

/-- n reference ticks: before each, what falls on the present tick happens; the next one is counted and
samples the edge latch (log 2). What falls on the last tick is left due. No run is shorter than a tick. -/
def State.elapse (s : State) (n : Nat) : State :=
  State.elapseIn n n s

/-! ### The timed commands -/

/-- The meaning of CADENCE_EXPIRY (R2, R11): the ticks up to it pass (log 2), and it is taken. A stopped
cadence and an open late window have no expiry (log 3). -/
def execCadenceExpiry (s : State) : Host.Outcome State Fault Refusal :=
  match s.cadence.run with
  | .stopped => .next s
  | .running =>
    if s.cadence.lateOpen then .next s
    else
      let t := s.elapse s.cadence.counter
      .next (if t.expiryDue then t.takeExpiry else t)

/-- The meaning of REF_EDGE (R5): the transition sets the latch if it counts, and `ticks` ticks pass, the
first of which samples it. With none the latch waits, and another transition adds nothing (log 2). -/
def execRefEdge (polarity : Polarity) (ticks : Nat) (s : State) : Host.Outcome State Fault Refusal :=
  .next ((s.latchEdge polarity).elapse ticks)

/-- The ticks up to the close of the window under way or to come (R11, R12). -/
def Cadence.ticksToClose (c : Cadence) : Nat :=
  if c.lateOpen then c.active.tolerance - c.lateCount else c.counter + c.active.tolerance

/-- An expiry that is due in LOCKED has happened when the close of a window of one tick is judged (R11). -/
def State.openLate (s : State) : State :=
  if s.expiryDue = true ∧ s.cadence.windowed = true then s.takeExpiry else s

/-- The meaning of WINDOW_CLOSE (R12): the ticks up to the close pass (log 2), and the window closes with a
frame start. Only a running cadence in LOCKED has windows (log 3). -/
def execWindowClose (s : State) : Host.Outcome State Fault Refusal :=
  if s.cadence.run = .running ∧ s.cadence.windowed = true then
    let t := (s.elapse s.cadence.ticksToClose).openLate
    .next (if t.closeDue then t.frameStart .close else t)
  else .next s

/-- The meaning of BASE_PERIOD_BOUNDARY (R25): the ticks up to it pass (log 2), and the boundary is taken.
A label that follows the reference has none (log 3). -/
def execBasePeriodBoundary (s : State) : Host.Outcome State Fault Refusal :=
  if s.following then .next s
  else
    let t := s.elapse s.timecode.baseCounter
    .next (if t.boundaryDue then t.baseBoundary else t)

/-! ### The cadence directives (R16 to R19) -/

/-- The mode of a code (R16). -/
def cadenceMode (code : Byte) : Option CadenceMode :=
  if code = 0#8 then some .free else if code = 1#8 then some .locked else none

/-- The polarity of a code (R16). -/
def polarityOf (code : Byte) : Option Polarity :=
  if code = 0#8 then some .rising else if code = 1#8 then some .falling else none

/-- The setting a SET_CADENCE uses (R16): period and tolerance clamped. -/
def settingUsed (period : BitVec 64) (mode : CadenceMode) (polarity : Polarity) (tolerance : Word) :
    CadenceSetting :=
  { period := clampNat 225000 1099511627775 period.toNat, mode := mode, polarity := polarity,
    tolerance := clampNat 0 65535 tolerance.toNat }

/-- The clamp mask of SET_CADENCE (R16). -/
def settingMask (x : CadenceSetting) (period : BitVec 64) (tolerance : Word) : Nat :=
  bit (x.period != period.toNat) 0 + bit (x.tolerance != tolerance.toNat) 1

/-- The result of a SET_CADENCE that is carried out (R16). -/
def settingResult (code : ResultCode) (x : CadenceSetting) (mask : Nat) : DirectiveResult :=
  DirectiveResult.carried code [(0, leBytes 8 x.period), (8, leBytes 4 x.tolerance)] mask

/-- SET_CADENCE with its codes in their sets (R17). -/
def State.useSetting (s : State) (x : CadenceSetting) (mask : Nat) : State × DirectiveResult :=
  match s.cadence.run with
  | .stopped =>
    ({ s with cadence := { s.cadence with active := x } },
      settingResult (if mask = 0 then .none else .clamped) x mask)
  | .running =>
    if s.takeIsOpen && x.differs s.cadence.active then (s, DirectiveResult.refuse .takeOpen)
    else ({ s with cadence := { s.cadence with pending := some x } }, settingResult .pending x mask)

/-- The act of SET_CADENCE (R16, R17). -/
def State.applySetCadence (s : State) (period : BitVec 64) (mode polarity : Byte) (tolerance : Word) :
    State × DirectiveResult :=
  match cadenceMode mode, polarityOf polarity with
  | some m, some p =>
    let x := settingUsed period m p tolerance
    s.useSetting x (settingMask x period tolerance)
  | _, _ => (s, DirectiveResult.refuse .badField)

/-- The cadence starts (R8, R18). -/
def State.startCadence (s : State) : State :=
  let t := { s with
    cadence := { s.cadence with
      run := .running, counter := s.cadence.active.period, lateOpen := false, lateCount := 0,
      edgeLatch := false, measure := measureLimit }
    board := { s.board with mode := .standby } }
  match s.cadence.active.mode with
  | .free => t
  | .locked => t.enterSeeking

/-- The act of START_CADENCE (R18). -/
def State.applyStartCadence (s : State) : State × DirectiveResult :=
  match s.board.mode with
  | .idle => (s.startCadence, DirectiveResult.carried .none [] 0)
  | _ => (s, DirectiveResult.refuse .wrongMode)

/-- The cadence as a stop leaves it, but for the lock state (R8, R19): a pending setting is applied. -/
def Cadence.halt (c : Cadence) : Cadence :=
  { c.zeroCounts with
    run := .stopped, counter := 0, lateOpen := false, lateCount := 0, edgeLatch := false,
    active := c.pending.getD c.active, pending := none }

/-- A label that followed the reference and no longer does takes the boundary its counter held at zero (R25). -/
def State.boundaryAfter (s : State) (followed : Bool) : State :=
  if followed = true ∧ s.timecode.baseCounter = 0 then s.baseBoundary else s

/-- A stop closes an OPEN take (R19, R118). -/
def State.closeForStop (s : State) : State :=
  match s.openTake with
  | none => s
  | some r => s.closeTake r.number .cadenceStopped

/-- A stop activates a pending profile (R19, R113). -/
def State.activatePending (s : State) : State :=
  match s.takes.pendingProfile with
  | none => s
  | some p => s.activateStopped p

/-- The cadence stops (R19). The spec gives no order between the boundary of a label that stops following
(R25) and the take close and profile activation of the same stop: the boundary comes first (log 37). -/
def State.stopCadence (s : State) : State :=
  let t := ({ s with cadence := s.cadence.halt } : State).setLock .unused
  let t := ((t.boundaryAfter s.following).closeForStop).activatePending
  { t with board := { t.board with mode := .idle } }

/-- The act of STOP_CADENCE (R19). -/
def State.applyStopCadence (s : State) : State × DirectiveResult :=
  (s.stopCadence, DirectiveResult.carried .none [] 0)

end Sys2Proof.Machine
end

