-- ==== Sys2Proof/Machine/Directives.lean ====
section
/-! DEFINITION. The twelve directive kinds, their tests (R176, R182) and the directive commands of the table. -/

namespace Sys2Proof.Machine

/-- A directive, its parameters as the record carries them (R171, R182). -/
inductive Directive where
  | setCadence (period : BitVec 64) (mode polarity : Byte) (tolerance : Word)
  | startCadence
  | stopCadence
  | jamTimecode (hh mm ss ff target : Byte)
  | setProfile (params : ProfileParams)
  | openTake (take : Word)
  | closeTake
  | mark (value : BitVec 16)
  | remapApertures (first count : Word)
  | probeAperture (page : Word)
  | snapshot
  | setNotice (count age : Byte)
  deriving DecidableEq, Repr

/-- The kinds accepted in IDLE (R182). -/
def Directive.inIdle : Directive → Bool
  | .setCadence _ _ _ _ => true
  | .startCadence => true
  | .stopCadence => false
  | .jamTimecode _ _ _ _ _ => true
  | .setProfile _ => true
  | .openTake _ => false
  | .closeTake => false
  | .mark _ => false
  | .remapApertures _ _ => true
  | .probeAperture _ => true
  | .snapshot => true
  | .setNotice _ _ => true

/-- The owner applies a directive whole (R176). -/
def State.applyOwner (s : State) : Directive → State × DirectiveResult
  | .setCadence period mode polarity tolerance => s.applySetCadence period mode polarity tolerance
  | .startCadence => s.applyStartCadence
  | .stopCadence => s.applyStopCadence
  | .jamTimecode hh mm ss ff target =>
    s.applyJam hh.toNat mm.toNat ss.toNat ff.toNat target.toNat
  | .setProfile p => s.applySetProfile p
  | .openTake take => s.applyOpenTake take
  | .closeTake => s.applyCloseTake
  | .mark value => s.applyMark value
  | .remapApertures first count => s.applyRemap first.toNat count.toNat
  | .probeAperture page => s.applyProbe page.toNat
  | .snapshot => s.applySnapshot
  | .setNotice count age => s.applySetNotice count.toNat age.toNat

/-- The tests of R176 in their order; none is a kind that is not one of the twelve. -/
def State.judgeDirective (s : State) (d : Option Directive) : State × DirectiveResult :=
  match d with
  | none => (s, DirectiveResult.refuse .unknownKind)
  | some x =>
    if s.board.mode = .idle ∧ x.inIdle = false then (s, DirectiveResult.refuse .wrongMode)
    else s.applyOwner x

/-- A directive is applied, and its result kept (R176, log 10). -/
def State.applyDirective (s : State) (d : Option Directive) : State × DirectiveResult :=
  let (t, r) := s.judgeDirective d
  ({ t with lastResult := some r }, r)

/-- A directive completed REFUSED is counted (R176, R185). -/
def State.countRefusal (s : State) (r : DirectiveResult) : State :=
  if r.status = .refused then
    { s with counters := { s.counters with directivesRefused := bump s.counters.directivesRefused } }
  else s

/-- A directive command of the table: the directive is applied and counted with no record to complete
(log 10). With no Board no directive is applied (section 1.6, R174). -/
def State.direct (s : State) (d : Directive) : State :=
  if s.attached then
    let (t, r) := s.applyDirective (some d)
    t.countRefusal r
  else s

/-- The meaning of SET_CADENCE (R16, R17). -/
def execSetCadence (period : BitVec 64) (mode polarity : Byte) (tolerance : Word) (s : State) :
    Host.Outcome State Fault Refusal :=
  .next (s.direct (.setCadence period mode polarity tolerance))

/-- The meaning of START_CADENCE (R18). -/
def execStartCadence (s : State) : Host.Outcome State Fault Refusal :=
  .next (s.direct .startCadence)

/-- The meaning of STOP_CADENCE (R19). -/
def execStopCadence (s : State) : Host.Outcome State Fault Refusal :=
  .next (s.direct .stopCadence)

/-- The meaning of JAM_TIMECODE (R31). -/
def execJamTimecode (hh mm ss ff target : Byte) (s : State) : Host.Outcome State Fault Refusal :=
  .next (s.direct (.jamTimecode hh mm ss ff target))

/-- The meaning of SET_PROFILE (R112). -/
def execSetProfile (params : ProfileParams) (s : State) : Host.Outcome State Fault Refusal :=
  .next (s.direct (.setProfile params))

/-- The meaning of OPEN_TAKE (R115, R116). -/
def execOpenTake (take : Word) (s : State) : Host.Outcome State Fault Refusal :=
  .next (s.direct (.openTake take))

/-- The meaning of CLOSE_TAKE (R117). -/
def execCloseTake (s : State) : Host.Outcome State Fault Refusal :=
  .next (s.direct .closeTake)

/-- The meaning of MARK (R120). -/
def execMark (value : BitVec 16) (s : State) : Host.Outcome State Fault Refusal :=
  .next (s.direct (.mark value))

/-- The meaning of REMAP_APERTURES (R156 to R158). -/
def execRemapApertures (first count : Word) (s : State) : Host.Outcome State Fault Refusal :=
  .next (s.direct (.remapApertures first count))

/-- The meaning of PROBE_APERTURE (R159). -/
def execProbeAperture (page : Word) (s : State) : Host.Outcome State Fault Refusal :=
  .next (s.direct (.probeAperture page))

/-- The meaning of SNAPSHOT (R189). -/
def execSnapshot (s : State) : Host.Outcome State Fault Refusal :=
  .next (s.direct .snapshot)

/-- The meaning of SET_NOTICE (R188). -/
def execSetNotice (count age : Byte) (s : State) : Host.Outcome State Fault Refusal :=
  .next (s.direct (.setNotice count age))

end Sys2Proof.Machine
end

