-- ==== Sys2Proof/Machine/Chain.lean ====
section
/-! DEFINITION. The completions the Directive Chain and the Aperture Unit take (R155, R157, R173 to R178). -/

namespace Sys2Proof.Machine

/-! ### Records (R171, R173) -/

/-- The k-byte field of a record's parameters, as a bit vector. -/
def param (bytes : List Byte) (offset k : Nat) : BitVec (8 * k) :=
  BitVec.ofNat (8 * k) (fieldAt bytes (16 + offset) k)

/-- The parameters of SET_PROFILE (R171). -/
def profileOf (bytes : List Byte) : ProfileParams :=
  { base := param bytes 0 1, mode := param bytes 1 1, df := param bytes 2 1, scale := param bytes 3 1,
    rateF := param bytes 4 4, rateP := param bytes 8 4, window := param bytes 12 1,
    qminF := param bytes 13 1, qmaxF := param bytes 14 1, startF := param bytes 15 1,
    qminP := param bytes 16 1, qmaxP := param bytes 17 1, startP := param bytes 18 1,
    patience := param bytes 19 1, preroll := param bytes 20 2, width := param bytes 22 2,
    height := param bytes 24 2 }

/-- The directive of a record, or none for a kind that is not one of the twelve (R171, R182). -/
def directiveOf (bytes : List Byte) : Option Directive :=
  match fieldAt bytes 4 1 with
  | 1 => some (.setCadence (param bytes 0 8) (param bytes 8 1) (param bytes 9 1) (param bytes 12 4))
  | 2 => some .startCadence
  | 3 => some .stopCadence
  | 4 => some (.jamTimecode (param bytes 0 1) (param bytes 1 1) (param bytes 2 1) (param bytes 3 1)
      (param bytes 4 1))
  | 5 => some (.setProfile (profileOf bytes))
  | 6 => some (.openTake (param bytes 0 4))
  | 7 => some .closeTake
  | 8 => some (.mark (param bytes 0 2))
  | 9 => some (.remapApertures (param bytes 0 4) (param bytes 4 4))
  | 10 => some (.probeAperture (param bytes 0 4))
  | 11 => some .snapshot
  | 12 => some (.setNotice (param bytes 0 1) (param bytes 1 1))
  | _ => none

/-- A fetched record has Status POSTED (R173). -/
def posted (bytes : List Byte) : Bool :=
  fieldAt bytes 6 1 == 1

/-- The NOTIFY flag of a record (R171). -/
def notifyFlag (bytes : List Byte) : Bool :=
  (BitVec.ofNat 8 (fieldAt bytes 5 1)).getLsbD 0

/-! ### Completion of a record (R175, R176, R178) -/

/-- The engine's part of a record, the Status last and as a write of its own (R176). -/
def State.writeResult (s : State) (host : HostAddr) (r : DirectiveResult) : State :=
  let t := s.post (host + 7#64) (leBytes 1 r.code.code)
  let t := t.post (host + 8#64) (leBytes 4 s.cadence.frameNumber.toNat ++ s.visitLabel.bytes)
  let t := t.post (host + 48#64) r.data
  t.post (host + 6#64) (leBytes 1 r.status.code)

/-- The record becomes the chain anchor and is counted (R175 step 6). -/
def Chain.consume (c : Chain) (addr : Nat) : Chain :=
  { c with anchor := addr, count := c.count + 1 }

/-- A record is completed (R176) and the walk goes on, or ends at the limit (R175 step 7). -/
def State.completeRecord (s : State) (p : PendingResult) (base : HostAddr) : State :=
  let t := (s.writeResult (hostAt base p.addr) p.result).countRefusal p.result
  let t := { t with chain := { t.chain.consume p.addr with
    notify := t.chain.notify || p.notify, stalled := false } }
  if 8 ≤ t.chain.count then t.endVisit true else t.followNext p.next

/-- The translation for a result's write has failed (R178): the directive stays applied, its record is
consumed, and the visit ends with a chain fault. -/
def State.resultFault (s : State) (p : PendingResult) : State :=
  ({ s with chain := s.chain.consume p.addr } : State).chainFault p.addr

/-- A fetched record (R175, steps 5 and 6): applied when published, and completed once its page is
translated. -/
def State.takeRecordBytes (s : State) (addr : Nat) (bytes : List Byte) : State :=
  if posted bytes then
    let (t, r) := s.applyDirective (directiveOf bytes)
    let p : PendingResult :=
      { addr := addr, next := fieldAt bytes 0 4, notify := notifyFlag bytes, result := r }
    match (t.setPhase (.resultPage p)).translate .chain addr with
    | (u, some base) => u.completeRecord p base
    | (u, none) => u
  else s.endVisit false

/-- The meaning of CHAIN_RECORD_FETCH_DONE (R175 to R177). The completion of a read that no visit waits
for is discarded (R179). -/
def execChainRecordFetchDone (tag : Nat) (data : Option (List Byte)) (s : State) :
    Host.Outcome State Fault Refusal :=
  match s.chain.phase with
  | .recordRead t addr =>
    if t = tag then
      match data with
      | none => .next (s.chainFault addr)
      | some bytes => .next (s.takeRecordBytes addr bytes)
    else .next s
  | _ => .next s

/-- The anchor's Next field has been read (R175, R177): 0 clears STALLED. -/
def State.takeNext (s : State) (next : Nat) : State :=
  if next = 0 then ({ s with chain := { s.chain with stalled := false } } : State).followNext 0
  else s.followNext next

/-- The meaning of CHAIN_NEXT_READ_DONE (R175, R177). The completion of a read that no visit waits for is
discarded (R179). -/
def execChainNextReadDone (tag : Nat) (data : Option (List Byte)) (s : State) :
    Host.Outcome State Fault Refusal :=
  match s.chain.phase with
  | .nextRead t =>
    if t = tag then
      match data with
      | none => .next (s.chainFault s.chain.anchor)
      | some bytes => .next (s.takeNext (fieldAt bytes 0 4))
    else .next s
  | _ => .next s

/-! ### Translations (R151, R155) -/

/-- The chain's translation is answered (R175, R177, R178). -/
def State.answerChain (s : State) (a : Answer) : State :=
  match s.chain.phase, a with
  | .anchorPage, .translated base => s.readNext base
  | .anchorPage, _ => s.chainFault s.chain.anchor
  | .recordPage addr, .translated base => s.readRecord addr base
  | .recordPage addr, _ => s.chainFault addr
  | .resultPage p, .translated base => s.completeRecord p base
  | .resultPage p, _ => s.resultFault p
  | _, _ => s

/-- An answer reaches the client of a miss (R151, R155). -/
def State.answerMiss (s : State) (m : Miss) (a : Answer) : State :=
  match m.client with
  | .writer => s.answerWriter m.page a
  | .chain => s.answerChain a

/-- Answers are given in the order of the list (R154). -/
def State.answerAll (s : State) (answers : List (Miss × Answer)) : State :=
  answers.foldl (fun t x => t.answerMiss x.1 x.2) s

/-- A fetch completes (R155, R157): under DISCARD it is begun again, and else it settles its misses. The clients act on
their answers after the next miss's fetch has begun (DESIGN CHOICE, log 50). -/
def State.fetchDone (s : State) (f : Fetch) (data : Option (List Byte)) : State :=
  if f.discard then s.beginFetch f.page
  else
    let (t, answers) := s.settleFetch f.page (fetchAnswer data)
    t.answerAll answers

/-- The meaning of APERTURE_FETCH_DONE (R155, R157). The completion of an abandoned fetch is discarded
(R160). -/
def execApertureFetchDone (tag : Nat) (data : Option (List Byte)) (s : State) :
    Host.Outcome State Fault Refusal :=
  match s.aperture.fetch with
  | none => .next s
  | some f => if f.tag = tag then .next (s.fetchDone f data) else .next s

end Sys2Proof.Machine
end

