-- ==== Sys2Proof/Machine/Board.lean ====
section
/-! DEFINITION. The register window, attachment and the resets (chapter 10), and the Visit Request (R168). -/

namespace Sys2Proof.Machine

/-! ### The register window (R162, R171) -/

/-- The Engine Status (R169, R171). -/
def Board.status (b : Board) : Word :=
  BitVec.ofNat 32 (b.mode.code + 16 * b.result.code + bit b.clamped 8)

/-- The 32-bit word that a read at an offset of the window covers (R162). -/
def State.readRegister (s : State) (offset : Nat) : Word :=
  match offset / 4 with
  | 0 => s.board.anchor.setWidth 32
  | 1 => (s.board.anchor >>> 32).setWidth 32
  | 3 => s.notices.cause.setWidth 32
  | 4 => s.notices.mask.setWidth 32
  | 5 => s.notices.mask.setWidth 32
  | 6 => s.board.status
  | _ => 0#32

/-- A read of any width: the bytes it covers of its word (R162). A read that runs past its word gives the bytes
of that word alone, the model's choice (log 40). -/
def State.readWindow (s : State) (offset width : Nat) : List Byte :=
  ((leBytes 4 (s.readRegister offset).toNat).drop (offset % 4)).take width

/-- The meaning of BOARD_ANCHOR_LOW (R162): the staging word, and nothing else. -/
def execBoardAnchorLow (value : Word) (s : State) : Host.Outcome State Fault Refusal :=
  .next { s with board := { s.board with staging := value } }

/-- The meaning of IGNORED_REGISTER_WRITE (R162): nothing, for a write of more than 32 bits too (DESIGN CHOICE, log 45). -/
def execIgnoredRegisterWrite (_offset : BitVec 12) (_bytes : Nat) (_value : Word) (s : State) :
    Host.Outcome State Fault Refusal :=
  .next s

/-! ### Detach (R166) -/

/-- The Intake after Detach (R52). -/
def Intake.detached (k : Intake) : Intake :=
  { k with slots := k.slots.map (fun x => { x with state := .free }), capture := none, pendingGap := 0,
           pendingMark := none }

/-- An area emptied, at its size (R110). -/
def Area.emptied (a : Area) : Area :=
  { a with head := 0, tail := 0 }

/-- The store after Detach (R110). -/
def Store.detached (st : Store) : Store :=
  { fullArea := st.fullArea.emptied, proxyArea := st.proxyArea.emptied, list := [], pressure := 0 }

/-- A pool after Detach (R147): its chunk is forgotten and its attempt abandoned; size and cursor hold. -/
def PoolState.detached (x : PoolState) : PoolState :=
  { x with chunk := none, attempt := none }

/-- The writer after Detach (R147). -/
def Writer.detached (w : Writer) : Writer :=
  Writer.fresh w.fullPool.detached w.proxyPool.detached w.indexPool.detached

/-- The chain after Detach (R172). -/
def Chain.detached (c : Chain) : Chain :=
  { Chain.reset with anchor := c.anchor }

/-- The notices after Detach (R166, R187, R189): causes clear, counts and age 0, the latch free. -/
def Notices.detached (n : Notices) : Notices :=
  { n.zeroCounts with cause := 0#8, snapshotLatch := false }

/-- The cadence and the labels after Detach (R21, R35): no LOCK, the staged jam discarded first (log 19). -/
def State.detachCadence (s : State) : State :=
  let t : State := { s with
    cadence := { s.cadence.halt with lock := .unused }
    timecode := { s.timecode with jam := none } }
  t.boundaryAfter s.following

/-- Detach (R166), one act. The anchor and the staging word are the caller's. -/
def State.detach (s : State) : State :=
  let t := s.detachCadence
  { t with
    intake := t.intake.detached
    lanes := Lanes.reset
    store := t.store.detached
    takes := { t.takes with pendingProfile := none, table := [] }
    writer := t.writer.detached
    aperture := Aperture.reset
    board := { t.board with mode := .detached, result := .none, clamped := false, headerRead := none }
    chain := t.chain.detached
    notices := t.notices.detached
    faultRecord := { t.faultRecord with latch := false } }

/-- Detach without a new anchor (R166). -/
def State.loseHost (s : State) : State :=
  let t := s.detach
  { t with board := { t.board with staging := 0#32, anchor := 0#64 } }

/-- The meaning of LINK_DOWN (R166). -/
def execLinkDown (s : State) : Host.Outcome State Fault Refusal :=
  .next s.loseHost

/-- The meaning of FUNCTION_LEVEL_RESET (R166). -/
def execFunctionLevelReset (s : State) : Host.Outcome State Fault Refusal :=
  .next s.loseHost

/-! ### Attach (R163 to R165) -/

/-- A failed attach (R164). -/
def State.attachFailed (s : State) (result : AttachResult) : State :=
  ({ s with board := { s.board with mode := .detached, result := result, headerRead := none } } :
    State).raise .attach

/-- The read of the header, 256 bytes at the anchor (R164). -/
def State.readHeader (s : State) : State :=
  let t := s.issueRead s.board.anchor 256
  { t with board := { t.board with
    mode := .attaching, headerRead := some { tag := s.nextTag, anchor := s.board.anchor } } }

/-- A commit of an anchor (R163). -/
def State.commitAnchor (s : State) (anchor : HostAddr) : State :=
  let d := s.detach
  let t := { d with board := { d.board with anchor := anchor } }
  if anchor = 0#64 then t
  else if anchor.toNat % 4096 = 0 then t.readHeader
  else t.attachFailed .misaligned

/-- The meaning of BOARD_ANCHOR_HIGH (R163): the written high word and the staging word. -/
def execBoardAnchorHigh (value : Word) (s : State) : Host.Outcome State Fault Refusal :=
  .next (s.commitAnchor (value ++ s.board.staging))

/-- The format word (R164). -/
def formatWord : Nat :=
  0x64200A01

/-- The full area in MiB for a header value (R91). -/
def fullAreaMiB (x : Nat) : Nat :=
  roundDown 32 (clampNat 512 3520 x)

/-- The proxy area in MiB for a header value and the full area in force (R91). -/
def proxyAreaMiB (full x : Nat) : Nat :=
  roundDown 32 (clampNat 64 (min 1024 (3648 - full)) x)

/-- The chunk size of a pool in MiB for a header value (R128). -/
def chunkMiB (p : Pool) (x : Nat) : Nat :=
  match p with
  | .full => roundDown 2 (clampNat 4 256 x)
  | .proxy => roundDown 2 (clampNat 2 64 x)
  | .index => 2

/-- The entry count of a pool for a header value (R128). -/
def entryCount (p : Pool) (x : Nat) : Nat :=
  match p with
  | .full => clampNat 2 64 x
  | .proxy => clampNat 2 64 x
  | .index => clampNat 2 16 x

/-- A pool as the header's count and chunk size set it (R128, R130). -/
def poolOf (p : Pool) (count chunk : Nat) : PoolState :=
  PoolState.fresh (entryCount p count) (chunkMiB p chunk)

/-- The eight header values, in the order of R171 from offset 8. -/
def headerValues (bytes : List Byte) : List Nat :=
  (List.range 8).map (fun i => fieldAt bytes (8 + 4 * i) 4)

/-- The values in force, in the same order (R91, R128). -/
def valuesInForce (bytes : List Byte) : List Nat :=
  let v := fun i => fieldAt bytes (8 + 4 * i) 4
  let full := fullAreaMiB (v 0)
  [full, proxyAreaMiB full (v 1), entryCount .full (v 2), chunkMiB .full (v 3), entryCount .proxy (v 4),
   chunkMiB .proxy (v 5), entryCount .index (v 6), chunkMiB .index (v 7)]

/-- The store that a header gives (R91). -/
def storeOf (bytes : List Byte) : Store :=
  let full := fullAreaMiB (fieldAt bytes 8 4)
  { fullArea := Area.empty full, proxyArea := Area.empty (proxyAreaMiB full (fieldAt bytes 12 4)),
    list := [], pressure := 0 }

/-- The writer that a header gives (R128, R130). -/
def writerOf (bytes : List Byte) : Writer :=
  let v := fun offset => fieldAt bytes offset 4
  Writer.fresh (poolOf .full (v 16) (v 20)) (poolOf .proxy (v 24) (v 28)) (poolOf .index (v 32) (v 36))

/-- The notices after Attach: the settings and counts of R187, the latch free; causes and mask hold. -/
def Notices.attached (n : Notices) : Notices :=
  { n.zeroCounts with threshold := 1, ageLimit := 0, snapshotLatch := false }

/-- Steps 1 to 5 of a successful attach (R165). -/
def State.setUp (s : State) (bytes : List Byte) : State :=
  let t := s.activate Profile.default
  { t with
    cadence := { t.cadence with frameNumber := 0#32, lastInterval := 0 }
    intake := t.intake.detached
    lanes := Lanes.reset
    takes := { t.takes with table := [] }
    store := storeOf bytes
    writer := writerOf bytes
    aperture := Aperture.reset
    chain := { Chain.reset with anchor := fieldAt bytes 4 4 }
    notices := t.notices.attached
    faultRecord := FaultRecord.reset
    counters := Counters.reset
    reportSequence := 0#32
    board := { t.board with
      mode := .idle, result := .ok, headerRead := none,
      clamped := headerValues bytes != valuesInForce bytes } }

/-- A successful attach (R165): the blocks are set up, the report is written, and ATTACH is raised. -/
def State.attach (s : State) (bytes : List Byte) : State :=
  let t := s.setUp bytes
  (t.frameReport [t] t.timecode.freeRun).raise .attach

/-- The header read has completed (R164). -/
def State.judgeHeader (s : State) (data : Option (List Byte)) : State :=
  match data with
  | none => s.attachFailed .readFailure
  | some bytes =>
    if fieldAt bytes 0 4 = formatWord then s.attach bytes else s.attachFailed .format

/-- The meaning of HEADER_READ_DONE (R164, R165). The completion of an abandoned read is discarded (R163). -/
def execHeaderReadDone (tag : Nat) (data : Option (List Byte)) (s : State) :
    Host.Outcome State Fault Refusal :=
  match s.board.headerRead with
  | none => .next s
  | some h => if h.tag = tag then .next (s.judgeHeader data) else .next s

/-! ### Reset and Visit Request (R167, R168) -/

/-- The meaning of FUNDAMENTAL_RESET (R167). The queue is the commands' own, what was issued stays issued,
and read and job numbers go on (log 21). -/
def execFundamentalReset (s : State) : Host.Outcome State Fault Refusal :=
  .next { State.reset with
    link := s.link, nextTag := s.nextTag, freeIndex := s.freeIndex, pending := s.pending }

/-- A Visit Request taken (R168): the writer retries, the report is written, a visit is asked for (log 8). -/
def State.visitRequest (s : State) : State :=
  let t := s.writerVisit
  (t.frameReport [s, t] t.timecode.freeRun).askVisit false

/-- The meaning of VISIT_REQUEST (R168): ignored in DETACHED and ATTACHING. -/
def execVisitRequest (_value : Word) (s : State) : Host.Outcome State Fault Refusal :=
  if s.attached then .next s.visitRequest else .next s

end Sys2Proof.Machine
end

