-- ==== Sys2Proof/Machine/Idle.lean ====
section
/-! DEFINITION. What happens when no command waits: the block's own event that is due, or one reference tick (log 1). -/

namespace Sys2Proof.Machine

/-- An idle writer with a Board has a piece of work to choose (R133). -/
def State.writerDue (s : State) : Bool :=
  s.attached && s.writer.work.isNone &&
    (s.oldestDrained || (s.headPair.isSome && !s.takes.table.isEmpty))

/-- The event that is due, none when a tick may pass (log 1). -/
def State.due (s : State) : Option Instr :=
  if (s.headTicket .full).isSome then some (.jobStart .full)
  else if (s.headTicket .proxy).isSome then some (.jobStart .proxy)
  else if s.writerDue then some .writerStartWork
  else if s.expiryDue then some .cadenceExpiry
  else if s.closeDue then some .windowClose
  else if s.boundaryDue then some .basePeriodBoundary
  else none

end Sys2Proof.Machine
end

