-- ==== Sys2Proof/Machine/Dispatch.lean ====
section
/-! DEFINITION. The dispatch: one arm per command, each one call of its meaning. -/

namespace Sys2Proof.Machine

def exec (i : Instr) (s : State) : Host.Outcome State Fault Refusal :=
  match i with
  | .fundamentalReset => Sys2Proof.Machine.execFundamentalReset s
  | .linkDown => Sys2Proof.Machine.execLinkDown s
  | .functionLevelReset => Sys2Proof.Machine.execFunctionLevelReset s
  | .boardAnchorLow value => Sys2Proof.Machine.execBoardAnchorLow value s
  | .boardAnchorHigh value => Sys2Proof.Machine.execBoardAnchorHigh value s
  | .visitRequest value => Sys2Proof.Machine.execVisitRequest value s
  | .noticeCause value => Sys2Proof.Machine.execNoticeCause value s
  | .noticeMaskSet value => Sys2Proof.Machine.execNoticeMaskSet value s
  | .noticeMaskClear value => Sys2Proof.Machine.execNoticeMaskClear value s
  | .ignoredRegisterWrite offset bytes value => Sys2Proof.Machine.execIgnoredRegisterWrite offset bytes value s
  | .headerReadDone tag data => Sys2Proof.Machine.execHeaderReadDone tag data s
  | .cadenceExpiry => Sys2Proof.Machine.execCadenceExpiry s
  | .refEdge polarity ticks => Sys2Proof.Machine.execRefEdge polarity ticks s
  | .windowClose => Sys2Proof.Machine.execWindowClose s
  | .basePeriodBoundary => Sys2Proof.Machine.execBasePeriodBoundary s
  | .frameBegin => Sys2Proof.Machine.execFrameBegin s
  | .lineEvent index samples passed => Sys2Proof.Machine.execLineEvent index samples passed s
  | .frameEnd => Sys2Proof.Machine.execFrameEnd s
  | .jobStart lane => Sys2Proof.Machine.execJobStart lane s
  | .pass1End lane tag size => Sys2Proof.Machine.execPass1End lane tag size s
  | .pass2End lane tag size => Sys2Proof.Machine.execPass2End lane tag size s
  | .setCadence period mode polarity tolerance => Sys2Proof.Machine.execSetCadence period mode polarity tolerance s
  | .startCadence => Sys2Proof.Machine.execStartCadence s
  | .stopCadence => Sys2Proof.Machine.execStopCadence s
  | .jamTimecode hh mm ss ff target => Sys2Proof.Machine.execJamTimecode hh mm ss ff target s
  | .setProfile params => Sys2Proof.Machine.execSetProfile params s
  | .openTake take => Sys2Proof.Machine.execOpenTake take s
  | .closeTake => Sys2Proof.Machine.execCloseTake s
  | .mark value => Sys2Proof.Machine.execMark value s
  | .remapApertures first count => Sys2Proof.Machine.execRemapApertures first count s
  | .probeAperture page => Sys2Proof.Machine.execProbeAperture page s
  | .snapshot => Sys2Proof.Machine.execSnapshot s
  | .setNotice count age => Sys2Proof.Machine.execSetNotice count age s
  | .chainNextReadDone tag data => Sys2Proof.Machine.execChainNextReadDone tag data s
  | .chainRecordFetchDone tag data => Sys2Proof.Machine.execChainRecordFetchDone tag data s
  | .apertureFetchDone tag data => Sys2Proof.Machine.execApertureFetchDone tag data s
  | .writerStartWork => Sys2Proof.Machine.execWriterStartWork s
  | .chunkEntryReadDone tag data => Sys2Proof.Machine.execChunkEntryReadDone tag data s
  | .proxySuspended => Sys2Proof.Machine.execProxySuspended s
  | .coalescingAgeLimit => Sys2Proof.Machine.execCoalescingAgeLimit s

end Sys2Proof.Machine
end

