-- ==== Sys2Proof/Safety.lean ====
section
/-! DEFINITION. What counts as a legal state: the ranges and relations the rules give each block. -/

namespace Sys2Proof.Machine

/-- The samples of every raw slot are in canonical form. -/
def State.slotsCanonical (s : State) : Prop :=
  ∀ x ∈ s.intake.slots, x.samples.wf

/-- A stream of the Governor (R71, R72): B within L, and the quantiser within limits that lie in 0..63. -/
structure Stream.Legal (g : Stream) : Prop where
  level : -(g.capacity : Int) ≤ g.level ∧ g.level ≤ g.capacity
  quantiser : g.qmin ≤ g.q ∧ g.q ≤ g.qmax
  start : g.qmin ≤ g.start ∧ g.start ≤ g.qmax
  limit : g.qmax ≤ 63

/-- A profile in range (R72, R111). -/
structure Profile.Legal (p : Profile) : Prop where
  base : p.base ≤ 8
  df : p.df = true → p.base = 7 ∨ p.base = 8
  rateF : 50000 ≤ p.rateF ∧ p.rateF ≤ 3200000
  rateP : 1000 ≤ p.rateP ∧ p.rateP ≤ 50000
  window : 4 ≤ p.window ∧ p.window ≤ 64
  limitsF : p.qminF ≤ p.startF ∧ p.startF ≤ p.qmaxF ∧ p.qmaxF ≤ 63
  limitsP : p.qminP ≤ p.startP ∧ p.startP ≤ p.qmaxP ∧ p.qmaxP ≤ 63
  patience : 1 ≤ p.patience ∧ p.patience ≤ 255
  preroll : p.preroll ≤ 4096 ∧ (p.mode = .recordRun → p.preroll = 0)
  width : 1280 ≤ p.width ∧ p.width ≤ 8192 ∧ p.width % 16 = 0
  height : 720 ≤ p.height ∧ p.height ≤ 4096 ∧ p.height % 16 = 0

/-- Both profiles are in range, and the Governor's streams are legal (R71, R111). -/
structure State.ratesLegal (s : State) : Prop where
  active : s.takes.profile.Legal
  pending : ∀ p, s.takes.pendingProfile = some p → p.Legal
  full : s.governor.full.Legal
  proxy : s.governor.proxy.Legal

/-- A cadence setting in range (R1, R16). -/
def CadenceSetting.Legal (x : CadenceSetting) : Prop :=
  225000 ≤ x.period ∧ x.period ≤ 1099511627775 ∧ x.tolerance ≤ 65535

/-- The Cadence Unit's state (R1, R8, R9, R11, R14): its settings in range, its counts below the values at
which they are used up, a lock state that goes with run state and mode, and a late count only in LOCKED. -/
structure Cadence.Legal (c : Cadence) : Prop where
  active : c.active.Legal
  pending : ∀ x, c.pending = some x → x.Legal
  counter : c.counter ≤ 1099511627775
  measure : c.measure ≤ 268435455 ∧ c.lastInterval ≤ 268435455
  counts : c.good ≤ 2 ∧ c.bad ≤ 1 ∧ c.missed ≤ 1
  latch : c.edgeLatch = true → c.run = .running
  stopped : c.run = .stopped →
    c.counter = 0 ∧ c.lateOpen = false ∧ c.lock = .unused ∧ c.pending = none
  unused : c.lock = .unused ↔ c.run = .stopped ∨ c.active.mode = .free
  late : c.lateOpen = true → c.lock = .locked ∧ c.counter = 0 ∧ c.lateCount ≤ c.active.tolerance

/-- The take table (R114, R115): at most four records, of numbers that are not 0 and differ, none OPEN but
the newest; a drained record is CLOSED (R125), and so is the oldest while the writer ends it (R133). -/
structure State.TakesLegal (s : State) : Prop where
  room : s.takes.table.length ≤ 4
  numbered : ∀ r ∈ s.takes.table, r.number ≠ 0#32
  distinct : (s.takes.table.map TakeRecord.number).Nodup
  newest : ∀ r ∈ s.takes.table.dropLast, r.phase = .closed
  drained : ∀ r ∈ s.takes.table, r.drained = true → r.phase = .closed
  ending : ∀ k, s.writer.work = some k → k.ending = true →
    ∃ r, s.takes.table.head? = some r ∧ r.phase = .closed

/-- The engine mode (R119, R169): RECORDING exactly while a take is OPEN, the cadence running exactly in
STANDBY and RECORDING, and a header read in flight only in ATTACHING. -/
structure State.ModeLegal (s : State) : Prop where
  recording : s.board.mode = .recording ↔ s.takeIsOpen = true
  running : s.cadence.run = .running ↔ s.board.mode = .standby ∨ s.board.mode = .recording
  reading : s.board.headerRead.isSome = true → s.board.mode = .attaching

/-- The Cadence Unit, the take table and the mode together, and a visit under way only with a Board (R172,
R174, R179). -/
structure State.ControlLegal (s : State) : Prop where
  cadence : s.cadence.Legal
  takes : s.TakesLegal
  mode : s.ModeLegal
  visiting : s.chain.phase ≠ .idle → s.attached = true

/-- No set of the translation cache holds a page in two ways (R155). -/
def State.cacheLegal (s : State) : Prop :=
  s.aperture.sets.length = 8 ∧
    ∀ c ∈ s.aperture.sets, c.ways.length = 4 ∧ ((c.ways.filterMap id).map Way.tag).Nodup

/-- The notice settings and counts (R187): after every command the total is below the threshold. -/
structure Notices.Legal (n : Notices) : Prop where
  threshold : 1 ≤ n.threshold ∧ n.threshold ≤ 16
  ageLimit : n.ageLimit ≤ 255
  waiting : n.total < n.threshold

/-! ### Words that the statements share -/

/-- The MSI that a change of the notice registers brings (R186): one, when the set of causes that are
pending and not masked goes from empty to non-empty. -/
def msiFor (before after : Notices) : List LinkItem :=
  if before.cause &&& ~~~before.mask = 0#8 ∧ after.cause &&& ~~~after.mask ≠ 0#8 then [.msi] else []

/-- Causes become pending (R186), with the MSI they bring. -/
def State.withCauses (s : State) (bits : Byte) : State :=
  { s with
    notices := { s.notices with cause := s.notices.cause ||| bits }
    link := s.link ++ msiFor s.notices { s.notices with cause := s.notices.cause ||| bits } }

/-- The answer a directive command leaves when it is refused (R176): its result, and the refusal counted. -/
def State.refusing (s : State) (code : ResultCode) : State :=
  { s with
    lastResult := some { status := .refused, code := code, data := List.replicate 16 0#8 }
    counters := { s.counters with directivesRefused := min 4294967295 (s.counters.directivesRefused + 1) } }

/-- The answer of a directive command that is carried out, with the first bytes of its result data and its clamp
mask (R171, R181). -/
def State.answering (s : State) (code : ResultCode) (first : List Byte) (mask : Nat) : State :=
  let data := first ++ List.replicate (12 - first.length) 0#8 ++ leBytes 4 mask
  let status : Status := if mask = 0 then .done else .doneClamped
  { s with lastResult := some { status := status, code := code, data := data } }

/-! ### A visit of the chain, as R174 to R177 give it -/

/-- The chain issues a read and waits for it (R175, log 4). -/
def State.chainReads (s : State) (phase : ChainPhase) (host : HostAddr) (len : Nat) : State :=
  { s with
    chain := { s.chain with phase := phase }
    link := s.link ++ [.read s.nextTag host len]
    nextTag := s.nextTag + 1 }

/-- The chain asks for the page of an address (R151, R152, R154): with the page in the cache it goes on at the host
address; else its miss joins the list, with a fetch begun when none is in flight, and it waits. -/
def State.chainAsks (s : State) (addr : Nat) (waits : ChainPhase) (goes : State → HostAddr → State) : State :=
  let page := addr / 2097152
  match s.aperture.lookup page with
  | some (way, base) =>
    goes { s with aperture := s.aperture.use page way } (base + BitVec.ofNat 64 (addr % 2097152))
  | none =>
    let t : State := { s with
      chain := { s.chain with phase := waits }
      aperture := { s.aperture with misses := s.aperture.misses ++ [{ client := .chain, page := page }] } }
    if s.aperture.fetch = none then
      { t with
        aperture := { t.aperture with fetch := some { page := page, discard := false, tag := s.nextTag } }
        link := s.link ++ [.read s.nextTag (s.board.anchor + BitVec.ofNat 64 (0x4000 + 8 * page)) 8]
        nextTag := s.nextTag + 1 }
    else t

/-- A visit has begun (R174, R175 step 1): visit again, the count and notify seen are clear, and the anchor's Next is
asked for. -/
def State.visitBegun (s : State) (atFrameStart : Bool) : State :=
  let t : State := { s with chain := { s.chain with
    again := false, count := 0, notify := false, atFrameStart := atFrameStart } }
  t.chainAsks s.chain.anchor .anchorPage (fun u host => u.chainReads (.nextRead u.nextTag) host 4)

/-- A visit has ended (R174, R175): DIRECTIVE with a NOTIFY seen, and with visit again set, or where the visit's end asks
for a visit itself, a new one on Visit Request. -/
def State.visitEnded (s : State) (asks : Bool) : State :=
  let t : State := { s with chain := { s.chain with phase := .idle } }
  let u := if s.chain.notify = true then t.withCauses 0x02#8 else t
  if s.chain.again = true ∨ asks = true then u.visitBegun false else u

/-- A visit has ended with a chain fault on a page, reported unless STALLED is set (R177). -/
def State.visitFaulted (s : State) (page : Nat) : State :=
  let t : State :=
    if s.chain.stalled = true then s
    else { s.reportFault .chainFault s.cadence.frameNumber s.openTakeNumber (BitVec.ofNat 32 page) with
      chain := { s.chain with stalled := true } }
  t.visitEnded false

/-- The walk has gone on from a Next field (R175, steps 2 to 4). -/
def State.nextFollowed (s : State) (next : Nat) : State :=
  if next = 0 then s.visitEnded false
  else if next % 64 ≠ 0 then s.visitFaulted (next / 2097152)
  else s.chainAsks next (.recordPage next) (fun u host => u.chainReads (.recordRead u.nextTag next) host 64)

/-- A record has been completed at its host address (R175 steps 6 and 7, R176, R177): its engine part written, in the
order of log 28 and the Status last, with the frame number and label of the write (log 11); the record made the anchor,
counted, its NOTIFY seen, STALLED clear and a refusal counted; and the walk goes on, or ends at the limit of 8. -/
def State.recordWritten (s : State) (p : PendingResult) (host : HostAddr) : State :=
  let t : State := { s with
    chain := { s.chain with
      anchor := p.addr, count := s.chain.count + 1, notify := s.chain.notify || p.notify, stalled := false }
    link := s.link ++
      [.write (host + 7#64) (leBytes 1 p.result.code.code),
       .write (host + 8#64) (leBytes 4 s.cadence.frameNumber.toNat ++ s.visitLabel.bytes),
       .write (host + 48#64) p.result.data,
       .write (host + 6#64) (leBytes 1 p.result.status.code)]
    counters := { s.counters with directivesRefused :=
      if p.result.status = .refused then min 4294967295 (s.counters.directivesRefused + 1)
      else s.counters.directivesRefused } }
  if s.chain.count < 7 then t.nextFollowed p.next else t.visitEnded (s.cadence.run == .stopped)

/-- The chain's translation has been answered, with the page's host bus address or with none (R175, R177, R178): it reads
on, or the visit faults; a record whose result can not be written is the anchor and counted first (log 12). -/
def State.chainAnswered (s : State) (answer : Option HostAddr) : State :=
  match s.chain.phase, answer with
  | .anchorPage, some base =>
    s.chainReads (.nextRead s.nextTag) (base + BitVec.ofNat 64 (s.chain.anchor % 2097152)) 4
  | .recordPage addr, some base =>
    s.chainReads (.recordRead s.nextTag addr) (base + BitVec.ofNat 64 (addr % 2097152)) 64
  | .resultPage p, some base => s.recordWritten p (base + BitVec.ofNat 64 (p.addr % 2097152))
  | .anchorPage, none => s.visitFaulted (s.chain.anchor / 2097152)
  | .recordPage addr, none => s.visitFaulted (addr / 2097152)
  | .resultPage p, none =>
    State.visitFaulted { s with chain := { s.chain with anchor := p.addr, count := s.chain.count + 1 } }
      (p.addr / 2097152)
  | _, _ => s

/-! ### A fetch of a translation that is done, as R144, R145, R153 and R155 give it -/

/-- The writer's translation has been answered (R144, R145, R148): it goes on at the page's host bus address; an invalid
entry blocks it, and leaves a BLOCKED one as it is; a read that fails has it wait, reported anew by a retry (log 16). -/
def State.writerAnswered (s : State) (page : Nat) (answer : Answer) : State :=
  match answer with
  | .translated base =>
    State.work { s with writer := { s.writer with
      phase := .writing, wait := none, blocked := none
      work := s.writer.work.map (fun k => { k with page := some (page, base) }) } }
  | .invalid =>
    if s.writer.phase = .blocked then s
    else State.reportFault { s with
      writer := { s.writer with phase := .blocked, wait := none, blocked := some (s.nextPosition page) }
      counters := { s.counters with apertureFaults := min 4294967295 (s.counters.apertureFaults + 1) } }
      .apertureFault s.writerFrame (s.writer.take.getD 0#32) (BitVec.ofNat 32 page)
  | .readFailed =>
    State.reportFault { s with writer := { s.writer with
      phase := .waiting, wait := some ((s.nextPosition page).pool, .translationRead)
      blocked := some (s.nextPosition page) } }
      .linkRead s.writerFrame (s.writer.take.getD 0#32) (BitVec.ofNat 32 (page + 2147483648))

/-- The set of a page with a valid entry installed (R153): in the way that holds the page's tag, else in the lowest
invalid way, else in the way the PLRU bits point to; and the bits after its use. -/
def CacheSet.filled (c : CacheSet) (page : Nat) (base : HostAddr) : CacheSet :=
  let way :=
    match c.ways.findIdx? (fun w => (w.map Way.tag) == some (page / 8)) with
    | some i => i
    | none =>
      match c.ways.findIdx? Option.isNone with
      | some i => i
      | none => if c.b0 = true then (if c.b2 = true then 3 else 2) else (if c.b1 = true then 1 else 0)
  { ways := c.ways.set way (some { tag := page / 8, base := base })
    b0 := decide (way < 2)
    b1 := if way = 0 then true else if way = 1 then false else c.b1
    b2 := if way < 2 then c.b2 else decide (way = 2) }

end Sys2Proof.Machine
end

