-- ==== Sys2Proof/Certificates/Slice0/Obligations.lean ====
section
/-! DEFINITION. The statements for the provers. -/

open Sys2Proof Sys2Proof.Machine

/-! ### The queue -/

/-- The block's own law: a step takes the command at the front of the queue and runs it with the rest. -/
def Obligations.StepRunsFrontCommand : Prop :=
  ∀ (s : State) (c : Instr) (rest : List Instr), s.pending = c :: rest →
    step s = exec c { s with pending := rest }

/-- A command changes no waiting command: only `step` touches the queue (the model's choice, log 1). -/
def Obligations.CommandLeavesQueue : Prop :=
  ∀ (c : Instr) (s t : State), exec c s = .next t → t.pending = s.pending

/-- On an empty queue with nothing due, one reference tick passes (the model's choice, log 1): what R1, R5, R6,
R11 and R25 say of a tick, and nothing else. Ticks that pass with a command are such ticks one by one, what falls
on each tick before the next (R2, R11, R12, R25; that they pass with the command is the model's choice, log 2). That the
strobe ends with the tick is the model's choice (log 34). -/
def Obligations.IdleStepIsOneTick : Prop :=
  ∀ s : State,
    let counted : State := { s with
      cadence :=
        if s.cadence.run = .stopped then s.cadence
        else if s.cadence.lateOpen = true then
          { s.cadence with
            measure := min (s.cadence.measure + 1) 268435455
            lateCount := min (s.cadence.lateCount + 1) s.cadence.active.tolerance }
        else
          { s.cadence with
            measure := min (s.cadence.measure + 1) 268435455
            counter := s.cadence.counter - 1 }
      timecode := { s.timecode with baseCounter := s.timecode.baseCounter - 1 }
      intake := { s.intake with strobe := false } }
    (s.pending = [] → s.due = none →
      (s.cadence.edgeLatch = false → step s = .next counted) ∧
      (s.cadence.edgeLatch = true → step s = .next counted.sampleEdge)) ∧
    (s.cadence.edgeLatch = false → s.pass 1 = counted) ∧
    (s.cadence.edgeLatch = true → s.pass 1 = counted.sampleEdge) ∧
    s.elapse 0 = s ∧ (∀ n, s.elapse (n + 1) = (s.settle.pass 1).elapse n) ∧
    (s.expiryDue = false → s.closeDue = false → s.boundaryDue = false → s.settle = s) ∧
    (s.expiryDue = true → s.cadence.active.mode = .free ∨ s.cadence.lock ≠ .locked →
      s.settle = s.frameStart .expiry) ∧
    (s.closeDue = true → s.settle = s.frameStart .close)

/-! ### The register window -/

/-- R162: what a read of each register of the window gives, and 0 elsewhere; the status fields by R171. -/
def Obligations.RegisterReadValues : Prop :=
  ∀ s : State,
    s.readRegister 0x000 = s.board.anchor.setWidth 32 ∧
    s.readRegister 0x004 = (s.board.anchor >>> 32).setWidth 32 ∧
    s.readRegister 0x008 = 0#32 ∧
    (s.readRegister 0x00C).setWidth 8 = s.notices.cause ∧
    (s.readRegister 0x010).setWidth 8 = s.notices.mask ∧
    s.readRegister 0x014 = s.readRegister 0x010 ∧
    (s.readRegister 0x018).toNat =
      s.board.mode.code + 16 * s.board.result.code + (if s.board.clamped then 256 else 0) ∧
    ∀ offset, 0x01C ≤ offset → s.readRegister offset = 0#32

/-- BOARD_ANCHOR_LOW stores the staging word and changes nothing else; an ignored write changes nothing. R162 speaks of
writes of less than 32 bits; that a wider one at an offset of the row changes nothing too is the model's choice (log
45). -/
def Obligations.AnchorLowAndIgnoredWrites : Prop :=
  ∀ (s : State) (value : Word) (offset : BitVec 12) (bytes : Nat),
    exec (.boardAnchorLow value) s = .next { s with board := { s.board with staging := value } } ∧
    exec (.ignoredRegisterWrite offset bytes value) s = .next s

/-- NOTICE_CAUSE clears exactly the causes written as 1; a 1 in SNAPSHOT or FAULT frees that latch; nothing
else changes, and no MSI is sent. -/
def Obligations.NoticeCauseClearsWrittenBits : Prop :=
  ∀ (s : State) (value : Word), ∃ t : State,
    exec (.noticeCause value) s = .next t ∧
    (∀ i < 8, t.notices.cause.getLsbD i = (s.notices.cause.getLsbD i && !value.getLsbD i)) ∧
    t.notices.snapshotLatch = (s.notices.snapshotLatch && !value.getLsbD 6) ∧
    t.faultRecord.latch = (s.faultRecord.latch && !value.getLsbD 4) ∧
    t = { s with
      notices := { s.notices with cause := t.notices.cause, snapshotLatch := t.notices.snapshotLatch }
      faultRecord := { s.faultRecord with latch := t.faultRecord.latch } }

/-- NOTICE_MASK_SET and NOTICE_MASK_CLEAR set and clear exactly the mask bits written as 1; only the clear
can send an MSI, and it does when the signalling set becomes non-empty. -/
def Obligations.NoticeMaskWrites : Prop :=
  ∀ (s : State) (value : Word), ∃ t u : State,
    exec (.noticeMaskSet value) s = .next t ∧
    exec (.noticeMaskClear value) s = .next u ∧
    (∀ i < 8, t.notices.mask.getLsbD i = (s.notices.mask.getLsbD i || value.getLsbD i)) ∧
    (∀ i < 8, u.notices.mask.getLsbD i = (s.notices.mask.getLsbD i && !value.getLsbD i)) ∧
    t = { s with notices := { s.notices with mask := t.notices.mask } } ∧
    u = { s with
      notices := { s.notices with mask := u.notices.mask }
      link := s.link ++ msiFor s.notices { s.notices with mask := u.notices.mask } }

/-- A fault report: with the latch free the record is filled and FAULT raised; with the latch held only MORE
and the later-fault count move. R186 has the MSI follow the record, and only a Frame Report writes that to memory
(R183): that it is sent at the latching, ahead of any such report, is the model's choice (log 52). -/
def Obligations.FaultRecordLatches : Prop :=
  ∀ (s : State) (c : FaultClass) (frame take detail : Word),
    (s.faultRecord.latch = false →
      s.reportFault c frame take detail = State.withCauses { s with
        faultRecord := { cls := some c, frame := frame, take := take, detail := detail, more := false,
                         later := 0, latch := true } } 0x10#8) ∧
    (s.faultRecord.latch = true →
      s.reportFault c frame take detail = { s with
        faultRecord := { s.faultRecord with
          more := true, later := min 4294967295 (s.faultRecord.later + 1) } })

/-! ### Resets and attachment -/

/-- FUNDAMENTAL_RESET: the values of R167 and of the rules it names, written out; the queue, what was
issued, and the model's numbering hold (log 21). -/
def Obligations.FundamentalResetValues : Prop :=
  ∀ s : State, ∃ t : State,
    exec .fundamentalReset s = .next t ∧
    t.board = { staging := 0#32, anchor := 0#64, mode := .detached, result := .none, clamped := false,
                headerRead := none } ∧
    t.cadence =
      { run := .stopped, counter := 0, lateOpen := false, lateCount := 0,
        active := { period := 1080000, mode := .free, polarity := .rising, tolerance := 2700 },
        pending := none, edgeLatch := false, measure := 268435455, lastInterval := 0, lock := .unused,
        good := 0, bad := 0, missed := 0, frameNumber := 0#32 } ∧
    (∀ l ∈ [t.timecode.freeRun, t.timecode.recordRun, t.timecode.latched],
      l = { hh := 0, mm := 0, ss := 0, ff := 0, df := false }) ∧
    t.timecode.baseCounter = 1080000 ∧ t.timecode.base = 1 ∧ t.timecode.df = false ∧
    t.timecode.mode = .freeRun ∧ t.timecode.jam = none ∧
    t.intake.slots.map Slot.state = [.free, .free, .free] ∧ t.intake.capture = none ∧
    t.intake.pendingGap = 0 ∧ t.intake.pendingMark = none ∧ t.intake.strobe = false ∧
    t.lanes.tickets = [] ∧ t.lanes.heldReference = 0#32 ∧
    (∀ l : Lane, t.lanes.lane l = { queue := [], phase := .idle, job := none }) ∧
    t.governor.full = { rate := 600000, qmin := 8, qmax := 40, start := 20, target := 3000000,
                        capacity := 48000000, level := 0, q := 20 } ∧
    t.governor.proxy = { rate := 10000, qmin := 8, qmax := 60, start := 24, target := 50000,
                         capacity := 800000, level := 0, q := 24 } ∧
    t.governor.base = 1 ∧ t.governor.window = 16 ∧
    t.store.fullArea.size = 512 * 1048576 ∧ t.store.proxyArea.size = 64 * 1048576 ∧ t.store.list = [] ∧
    t.store.pressure = 0 ∧
    t.takes.profile = Profile.default ∧ t.takes.pendingProfile = none ∧ t.takes.table = [] ∧
    t.writer.phase = .idle ∧ t.writer.work = none ∧ t.writer.take = none ∧ t.writer.wait = none ∧
    t.writer.proxyWait = 0 ∧ t.writer.suspended = false ∧ t.writer.blocked = none ∧
    (∀ p : Pool, t.writer.pool p =
      { count := 2, chunkSize := (if p = .full then 4 else 2) * 1048576, cursor := 0, chunk := none,
        nextSequence := 0, attempt := none }) ∧
    t.aperture.sets = List.replicate 8
      { ways := [none, none, none, none], b0 := false, b1 := false, b2 := false } ∧
    t.aperture.misses = [] ∧ t.aperture.fetch = none ∧
    t.chain.anchor = 0 ∧ t.chain.phase = .idle ∧ t.chain.again = false ∧ t.chain.count = 0 ∧
    t.chain.notify = false ∧ t.chain.stalled = false ∧
    t.notices = { cause := 0#8, mask := 0xFF#8, threshold := 1, ageLimit := 0, fullCount := 0,
                  proxyCount := 0, indexCount := 0, age := 0, snapshotLatch := false } ∧
    t.faultRecord = { cls := none, frame := 0#32, take := 0#32, detail := 0#32, more := false,
                      later := 0, latch := false } ∧
    t.counters = Counters.reset ∧ t.reportSequence = 0#32 ∧
    t.pending = s.pending ∧ t.link = s.link ∧ t.nextTag = s.nextTag ∧ t.freeIndex = s.freeIndex

/-- R20, whole: the Cadence Unit after fundamental reset. -/
def Obligations.CadenceAfterReset : Prop :=
  ∀ s t : State, exec .fundamentalReset s = .next t →
    t.cadence.run = .stopped ∧ t.cadence.counter = 0 ∧ t.cadence.lateCount = 0 ∧
    t.cadence.active.period = 1080000 ∧ t.cadence.active.mode = .free ∧
    t.cadence.active.polarity = .rising ∧ t.cadence.active.tolerance = 2700 ∧
    t.cadence.pending = none ∧ t.cadence.edgeLatch = false ∧ t.cadence.measure = 2 ^ 28 - 1 ∧
    t.cadence.lastInterval = 0 ∧ t.cadence.lock = .unused ∧ t.cadence.good = 0 ∧ t.cadence.bad = 0 ∧
    t.cadence.missed = 0 ∧ t.cadence.frameNumber = 0#32 ∧
    t.cadence.active.period = (baseRate t.timecode.base).period ∧ t.effectiveMode = .freeRun

/-- The state that Detach leaves (R166 and the rules it names), for LINK_DOWN and FUNCTION_LEVEL_RESET, whole.
A staged jam is discarded before the boundary that the end of following brings (the model's choice, log 19). -/
def Obligations.DetachLeaves : Prop :=
  ∀ s : State, ∃ t : State,
    exec .linkDown s = .next t ∧ exec .functionLevelReset s = .next t ∧
    t = { s with
      board := { staging := 0#32, anchor := 0#64, mode := .detached, result := .none, clamped := false,
                 headerRead := none }
      cadence := { s.cadence with
        run := .stopped, counter := 0, lateOpen := false, lateCount := 0,
        active := s.cadence.pending.getD s.cadence.active, pending := none, edgeLatch := false,
        lock := .unused, good := 0, bad := 0, missed := 0 }
      timecode :=
        if s.following = true ∧ s.timecode.baseCounter = 0 then
          { s.timecode with
            jam := none, freeRun := s.timecode.freeRun.increment s.timecode.base
            baseCounter := (baseRate s.timecode.base).period }
        else { s.timecode with jam := none }
      intake := { s.intake with
        slots := s.intake.slots.map (fun x => { x with state := .free })
        capture := none, pendingGap := 0, pendingMark := none }
      lanes := { tickets := [], full := { queue := [], phase := .idle, job := none },
                 proxy := { queue := [], phase := .idle, job := none }, heldReference := 0#32 }
      store := { fullArea := { size := s.store.fullArea.size, head := 0, tail := 0 },
                 proxyArea := { size := s.store.proxyArea.size, head := 0, tail := 0 }, list := [],
                 pressure := 0 }
      takes := { s.takes with pendingProfile := none, table := [] }
      writer := { phase := .idle, work := none, take := none, wait := none, proxyWait := 0,
                  suspended := false, blocked := none, patienceOut := false
                  fullPool := { s.writer.fullPool with chunk := none, attempt := none }
                  proxyPool := { s.writer.proxyPool with chunk := none, attempt := none }
                  indexPool := { s.writer.indexPool with chunk := none, attempt := none } }
      aperture := Aperture.reset
      chain := { anchor := s.chain.anchor, phase := .idle, again := false, count := 0, notify := false,
                 stalled := false, atFrameStart := false }
      notices := { s.notices with
        cause := 0#8, fullCount := 0, proxyCount := 0, indexCount := 0, age := 0,
        snapshotLatch := false }
      faultRecord := { s.faultRecord with latch := false } }

/-- A commit (R163): Detach, then by the new anchor. Zero leaves the engine DETACHED; a multiple of 4 KiB
begins the header read; any other fails at once with MISALIGNED and raises ATTACH, with no read. -/
def Obligations.CommitOfAnchor : Prop :=
  ∀ (s : State) (value : Word), ∃ d : State, exec .linkDown s = .next d ∧
    ∀ anchor : HostAddr, anchor = value ++ s.board.staging →
    (anchor = 0#64 →
      exec (.boardAnchorHigh value) s =
        .next { d with board := { d.board with staging := s.board.staging } }) ∧
    (anchor ≠ 0#64 → anchor.toNat % 4096 = 0 →
      exec (.boardAnchorHigh value) s = .next { d with
        board := { staging := s.board.staging, anchor := anchor, mode := .attaching, result := .none,
                   clamped := false, headerRead := some { tag := s.nextTag, anchor := anchor } }
        link := s.link ++ [.read s.nextTag anchor 256]
        nextTag := s.nextTag + 1 }) ∧
    (anchor.toNat % 4096 ≠ 0 →
      exec (.boardAnchorHigh value) s = .next (State.withCauses { d with
        board := { staging := s.board.staging, anchor := anchor, mode := .detached,
                   result := .misaligned, clamped := false, headerRead := none } } 0x01#8))

/-- HEADER_READ_DONE that fails (R164), and the completion of an abandoned read, which changes nothing (R163). That a
completion of no read at all changes nothing too is DEDUCED (log 3). -/
def Obligations.HeaderReadFailures : Prop :=
  ∀ (s : State) (tag : Nat) (data : Option (List Byte)),
    ((∀ a, s.board.headerRead ≠ some { tag := tag, anchor := a }) →
      exec (.headerReadDone tag data) s = .next s) ∧
    (∀ a, s.board.headerRead = some { tag := tag, anchor := a } →
      (data = none →
        exec (.headerReadDone tag data) s = .next (State.withCauses { s with
          board := { s.board with mode := .detached, result := .readFailure, headerRead := none } }
          0x01#8)) ∧
      (∀ bytes, data = some bytes → leNat (bytes.take 4) ≠ 0x64200A01 →
        exec (.headerReadDone tag data) s = .next (State.withCauses { s with
          board := { s.board with mode := .detached, result := .format, headerRead := none } }
          0x01#8)))

/-- HEADER_READ_DONE that succeeds (R165): what each block holds, the writer and its three pools among them (R130),
the mode, and the causes; and the attach report of the state it leaves, three writes in their order (R183), with the one
MSI of REPORT and ATTACH after them (R186). -/
def Obligations.AttachSetsUpEngine : Prop :=
  ∀ (s : State) (tag : Nat) (bytes : List Byte) (a : HostAddr),
    s.board.headerRead = some { tag := tag, anchor := a } → leNat (bytes.take 4) = 0x64200A01 →
    ∃ t : State, exec (.headerReadDone tag (some bytes)) s = .next t ∧
      t.board.mode = .idle ∧ t.board.result = .ok ∧ t.board.headerRead = none ∧
      t.board.anchor = s.board.anchor ∧ t.board.staging = s.board.staging ∧
      t.chain = { anchor := fieldAt bytes 4 4, phase := .idle, again := false, count := 0,
                  notify := false, stalled := false, atFrameStart := false } ∧
      t.takes = { profile := Profile.default, pendingProfile := none, table := [] } ∧
      t.timecode = s.timecode.takeProfile Profile.default ∧
      t.governor = Governor.reset ∧
      t.cadence = { s.cadence with frameNumber := 0#32, lastInterval := 0 } ∧
      t.intake.capture = none ∧ t.intake.pendingGap = 0 ∧ t.intake.pendingMark = none ∧
      (∀ x ∈ t.intake.slots, x.state = .free) ∧
      t.lanes = Lanes.reset ∧ t.aperture = Aperture.reset ∧
      t.store.list = [] ∧ t.store.pressure = 0 ∧
      t.writer.phase = .idle ∧ t.writer.work = none ∧ t.writer.take = none ∧
      t.writer.wait = none ∧ t.writer.proxyWait = 0 ∧ t.writer.suspended = false ∧
      t.writer.blocked = none ∧ t.writer.patienceOut = false ∧
      (∀ p : Pool, (t.writer.pool p).cursor = 0 ∧ (t.writer.pool p).chunk = none ∧
        (t.writer.pool p).nextSequence = 0 ∧ (t.writer.pool p).attempt = none) ∧
      t.counters = Counters.reset ∧ t.faultRecord = FaultRecord.reset ∧
      t.reportSequence = 1#32 ∧
      t.notices = { s.notices with
        cause := s.notices.cause ||| 0x81#8, threshold := 1, ageLimit := 0, fullCount := 0,
        proxyCount := 0, indexCount := 0, age := 0, snapshotLatch := false } ∧
      t.link = s.link ++
        [.write (s.board.anchor + 0x100#64) (leBytes 4 1),
         .write (s.board.anchor + 0x104#64) ((t.reportBytes ⟨t, t, t, t, t⟩ t.timecode.freeRun).drop 4),
         .write (s.board.anchor + 0x2FC#64) (leBytes 4 1)] ++ msiFor s.notices t.notices

/-- The sizes a header's values give (R91, R128), whole: each value clamped into its range and rounded down to its
grid, the proxy area after the full one, the two together at most 3,648 MiB; CLAMPED tells exactly whether a value
was changed. -/
def Obligations.AttachClampsSizes : Prop :=
  ∀ (s : State) (tag : Nat) (bytes : List Byte) (a : HostAddr),
    s.board.headerRead = some { tag := tag, anchor := a } → leNat (bytes.take 4) = 0x64200A01 →
    let value : Nat → Nat := fun offset => fieldAt bytes offset 4
    let full := max 512 (min 3520 (value 8)) / 32 * 32
    let proxy := max 64 (min (min 1024 (3648 - full)) (value 12)) / 32 * 32
    let countF := max 2 (min 64 (value 16))
    let countP := max 2 (min 64 (value 24))
    let countI := max 2 (min 16 (value 32))
    let chunkF := max 4 (min 256 (value 20)) / 2 * 2
    let chunkP := max 2 (min 64 (value 28)) / 2 * 2
    full + proxy ≤ 3648 ∧
    ∃ t : State, exec (.headerReadDone tag (some bytes)) s = .next t ∧
      t.store.fullArea = { size := full * 1048576, head := 0, tail := 0 } ∧
      t.store.proxyArea = { size := proxy * 1048576, head := 0, tail := 0 } ∧
      t.writer.fullPool.count = countF ∧ t.writer.fullPool.chunkSize = chunkF * 1048576 ∧
      t.writer.proxyPool.count = countP ∧ t.writer.proxyPool.chunkSize = chunkP * 1048576 ∧
      t.writer.indexPool.count = countI ∧ t.writer.indexPool.chunkSize = 2 * 1048576 ∧
      (t.board.clamped = false ↔
        value 8 = full ∧ value 12 = proxy ∧ value 16 = countF ∧ value 20 = chunkF ∧ value 24 = countP ∧
        value 28 = chunkP ∧ value 32 = countI ∧ value 36 = 2)

/-- VISIT_REQUEST with no Board is ignored; with one, a waiting or blocked writer tries again (R132, R145), a Frame
Report is written under the next sequence, REPORT is raised and a visit is begun or asked for again. That the
retry, the report's writes and the visit's read are issued in this order is the model's choice (log 8): R168 gives
none. The report's fields are those of R184 at the places of R171; the writer detail byte in IDLE and WRITING and
its cause bits in BLOCKED (log 41) and MORE written as 1 (log 42) are the model's choices. The last clauses of the first
part give the command whole for each phase of the writer: the report, which shows a block as it stands before or after the
retry (log 7), and the visit, whose read of an anchor's Next that runs over its page's end is made at that page alone (the
model's choice, log 44). Past 2^64 a Board address goes on at 0, the model's choice (log 51). -/
def Obligations.VisitRequestTaken : Prop :=
  (∀ (s : State) (value : Word),
    (s.board.mode = .detached ∨ s.board.mode = .attaching →
      exec (.visitRequest value) s = .next s) ∧
    (s.board.mode = .idle ∨ s.board.mode = .standby ∨ s.board.mode = .recording →
      (s.writer.phase = .idle ∨ s.writer.phase = .writing →
        ∃ t : State, exec (.visitRequest value) s = .next t ∧
          t.reportSequence = s.reportSequence + 1#32 ∧
          t.notices = { s.notices with cause := s.notices.cause ||| 0x80#8 } ∧
          [.write (s.board.anchor + 0x100#64) (leBytes 4 t.reportSequence.toNat),
            .write (s.board.anchor + 0x104#64)
              ((s.reportBytes ⟨s, s, s, s, s⟩ s.timecode.freeRun).drop 4),
            .write (s.board.anchor + 0x2FC#64) (leBytes 4 t.reportSequence.toNat)] <+:
              t.link.drop s.link.length ∧
          s.link <+: t.link ∧
          (s.chain.phase = .idle →
            t.chain.phase ≠ .idle ∧ t.chain.count = 0 ∧ t.chain.notify = false ∧
            t.chain.atFrameStart = false ∧ t.chain.anchor = s.chain.anchor ∧ t.chain.again = false ∧
            t.chain.stalled = s.chain.stalled) ∧
          (s.chain.phase ≠ .idle → t.chain = { s.chain with again := true }) ∧
          t.cadence = s.cadence ∧ t.timecode = s.timecode ∧ t.intake = s.intake ∧ t.lanes = s.lanes ∧
          t.governor = s.governor ∧ t.store = s.store ∧ t.takes = s.takes ∧ t.writer = s.writer ∧
          t.board = s.board ∧ t.faultRecord = s.faultRecord ∧ t.counters = s.counters ∧
          t.lastResult = s.lastResult) ∧
      (∀ p c, s.writer.phase = .waiting → s.writer.wait = some (p, c) → c ≠ .translationRead →
        (s.writer.pool p).attempt = none →
        let x := s.writer.pool p
        ∃ t : State, exec (.visitRequest value) s = .next t ∧
          t.writer = s.writer.setPool p
            { x with attempt := some { tag := s.nextTag, entry := x.cursor, left := x.count } } ∧
          s.link ++ [.read s.nextTag (s.board.anchor + BitVec.ofNat 64 (p.table + 32 * x.cursor)) 32] <+:
            t.link ∧
          t.reportSequence = s.reportSequence + 1#32 ∧ t.chain.phase ≠ .idle) ∧
      (s.writer.phase = .blocked →
        let page := s.nextAddress / 2097152
        ((∃ m ∈ s.aperture.misses, m.client = .writer) →
          ∃ t : State, exec (.visitRequest value) s = .next t ∧ t.writer = s.writer ∧
            t.reportSequence = s.reportSequence + 1#32 ∧ t.chain.phase ≠ .idle) ∧
        ((∀ m ∈ s.aperture.misses, m.client ≠ .writer) → s.aperture.lookup page = none →
          s.aperture.fetch = none →
          ∃ t : State, exec (.visitRequest value) s = .next t ∧ t.writer = s.writer ∧
            { client := .writer, page := page } ∈ t.aperture.misses ∧
            s.link ++ [.read s.nextTag (s.board.anchor + BitVec.ofNat 64 (0x4000 + 8 * page)) 8] <+:
              t.link ∧
            t.reportSequence = s.reportSequence + 1#32 ∧ t.chain.phase ≠ .idle)) ∧
      let visited : State → Prop := fun u =>
        let t := u.frameReport [s, u] u.timecode.freeRun
        exec (.visitRequest value) s = .next
          (if s.chain.phase = .idle then t.visitBegun false else { t with chain := { t.chain with again := true } })
      (s.writer.phase = .idle ∨ s.writer.phase = .writing → visited s) ∧
      (∀ p c, s.writer.phase = .waiting → s.writer.wait = some (p, c) → c ≠ .translationRead →
        let x := s.writer.pool p
        (x.attempt ≠ none → visited s) ∧
        (x.attempt = none → visited { s with
          writer := s.writer.setPool p
            { x with attempt := some { tag := s.nextTag, entry := x.cursor, left := x.count } }
          link := s.link ++
            [.read s.nextTag (s.board.anchor + BitVec.ofNat 64 (p.table + 32 * x.cursor)) 32]
          nextTag := s.nextTag + 1 })) ∧
      (s.writer.phase = .blocked ∨
          (s.writer.phase = .waiting ∧ ∃ p, s.writer.wait = some (p, .translationRead)) →
        let page := s.nextAddress / 2097152
        let a := { s.aperture with misses := s.aperture.misses ++ [{ client := .writer, page := page }] }
        ((∃ m ∈ s.aperture.misses, m.client = .writer) → visited s) ∧
        ((∀ m ∈ s.aperture.misses, m.client ≠ .writer) →
          (s.aperture.lookup page = none → s.aperture.fetch ≠ none → visited { s with aperture := a }) ∧
          (s.aperture.lookup page = none → s.aperture.fetch = none → visited { s with
            aperture := { a with fetch := some { page := page, discard := false, tag := s.nextTag } }
            link := s.link ++ [.read s.nextTag (s.board.anchor + BitVec.ofNat 64 (0x4000 + 8 * page)) 8]
            nextTag := s.nextTag + 1 }) ∧
          (∀ way base, s.aperture.lookup page = some (way, base) → visited (State.work { s with
            aperture := s.aperture.use page way
            writer := { s.writer with
              phase := .writing, wait := none, blocked := none
              work := s.writer.work.map (fun k => { k with page := some (page, base) }) } })))))) ∧
  (∀ (s : State) (passed : List State) (label : Label),
    let sequence := s.reportSequence + 1#32
    s.frameReport passed label = State.withCauses { s with
      reportSequence := sequence, freeIndex := s.freeIndex + 1
      link := s.link ++
        [.write (s.board.anchor + 0x100#64) (leBytes 4 sequence.toNat),
         .write (s.board.anchor + 0x104#64) ((s.reportBytes (s.reportView passed) label).drop 4),
         .write (s.board.anchor + 0x2FC#64) (leBytes 4 sequence.toNat)] } 0x80#8) ∧
  ∀ (s : State) (v : ReportView) (label : Label),
    let b := s.reportBytes v label
    let w := v.writer.writer
    let st := v.store.store
    let n := v.coalescing.notices
    let f := v.faultRecord.faultRecord
    b.length = 508 ∧
    fieldAt b 4 1 = s.board.mode.code ∧ fieldAt b 5 1 = s.cadence.lock.code ∧
    fieldAt b 6 1 = (if s.cadence.pending = none then 0 else 1) + (if w.suspended = true then 2 else 0) ∧
    fieldAt b 7 1 = st.pressure % 256 ∧
    fieldAt b 8 4 = s.cadence.frameNumber.toNat ∧ fieldAt b 12 4 = s.openTakeNumber.toNat ∧
    (b.drop 16).take 4 = label.bytes ∧ (b.drop 20).take 4 = v.intake.timecode.recordRun.bytes ∧
    fieldAt b 24 8 = s.cadence.active.period % 2 ^ 64 ∧
    (s.cadence.pending = none → fieldAt b 32 8 = 0) ∧
    (∀ x, s.cadence.pending = some x → fieldAt b 32 8 = x.period % 2 ^ 64) ∧
    fieldAt b 40 4 = (BitVec.ofInt 32 s.governor.full.level).toNat ∧
    fieldAt b 44 4 = (BitVec.ofInt 32 s.governor.proxy.level).toNat ∧
    fieldAt b 48 1 = s.governor.full.q % 256 ∧ fieldAt b 49 1 = s.governor.proxy.q % 256 ∧
    fieldAt b 50 1 = w.phase.code ∧
    (w.phase = .idle ∨ w.phase = .writing → fieldAt b 51 1 = 0) ∧
    (∀ p c, w.phase = .waiting → w.wait = some (p, c) → fieldAt b 51 1 = p.code + 4 * c.code) ∧
    (∀ x, w.phase = .blocked → w.blocked = some x → fieldAt b 51 1 = x.pool.code) ∧
    fieldAt b 52 2 = st.records true % 65536 ∧ fieldAt b 54 2 = st.records false % 65536 ∧
    fieldAt b 56 4 = st.liveBytes .full true % 2 ^ 32 ∧ fieldAt b 60 4 = st.liveBytes .full false % 2 ^ 32 ∧
    fieldAt b 64 4 = st.liveBytes .proxy true % 2 ^ 32 ∧
    fieldAt b 68 4 = st.liveBytes .proxy false % 2 ^ 32 ∧
    fieldAt b 72 1 = w.fullPool.cursor % 256 ∧ fieldAt b 73 1 = w.proxyPool.cursor % 256 ∧
    fieldAt b 74 1 = w.indexPool.cursor % 256 ∧
    fieldAt b 76 1 = n.fullCount % 256 ∧ fieldAt b 77 1 = n.proxyCount % 256 ∧
    fieldAt b 78 1 = n.indexCount % 256 ∧
    fieldAt b 80 4 = s.counters.captured % 2 ^ 32 ∧
    fieldAt b 84 4 = v.intake.counters.lostInCapture % 2 ^ 32 ∧
    fieldAt b 88 4 = v.intake.counters.lostNoSlot % 2 ^ 32 ∧
    fieldAt b 92 4 = s.counters.damaged % 2 ^ 32 ∧ fieldAt b 96 4 = s.counters.retimed % 2 ^ 32 ∧
    fieldAt b 100 4 = s.counters.discardedUnbound % 2 ^ 32 ∧ fieldAt b 104 4 = s.counters.held % 2 ^ 32 ∧
    fieldAt b 108 4 = s.counters.absent % 2 ^ 32 ∧ fieldAt b 112 4 = s.counters.clippedF % 2 ^ 32 ∧
    fieldAt b 116 4 = s.counters.clippedP % 2 ^ 32 ∧
    fieldAt b 120 4 = s.counters.apertureFaults % 2 ^ 32 ∧
    fieldAt b 124 4 = s.counters.chunksRejected % 2 ^ 32 ∧
    fieldAt b 128 4 = s.counters.directivesRefused % 2 ^ 32 ∧
    fieldAt b 132 4 = s.counters.badEdges % 2 ^ 32 ∧ fieldAt b 136 4 = s.counters.missedWindows % 2 ^ 32 ∧
    fieldAt b 140 4 = s.counters.strayEvents % 2 ^ 32 ∧
    fieldAt b 144 1 = FaultClass.code f.cls ∧ fieldAt b 145 1 = (if f.more = true then 1 else 0) ∧
    fieldAt b 148 4 = f.frame.toNat ∧ fieldAt b 152 4 = f.take.toNat ∧ fieldAt b 156 4 = f.detail.toNat ∧
    fieldAt b 160 4 = f.later % 2 ^ 32 ∧
    (b.drop 164).take 344 = List.replicate 344 0#8

/-! ### The directive commands -/

/-- With no Board no directive is applied (section 1.6; as commands of their own, log 10). In IDLE the four kinds
that R182 leaves out are refused with WRONG_MODE; only the answer and the refused count move. -/
def Obligations.DirectivesTurnedAway : Prop :=
  ∀ (s : State) (c : Instr),
    c ∈ ([.startCadence, .stopCadence, .closeTake, .snapshot] : List Instr) ∨
      (∃ p m q t, c = .setCadence p m q t) ∨ (∃ h m x f t, c = .jamTimecode h m x f t) ∨
      (∃ p, c = .setProfile p) ∨ (∃ k, c = .openTake k) ∨ (∃ v, c = .mark v) ∨
      (∃ f n, c = .remapApertures f n) ∨ (∃ p, c = .probeAperture p) ∨ (∃ n a, c = .setNotice n a) →
    (s.board.mode = .detached ∨ s.board.mode = .attaching → exec c s = .next s) ∧
    (s.board.mode = .idle →
      c ∈ ([.stopCadence, .closeTake] : List Instr) ∨ (∃ k, c = .openTake k) ∨ (∃ v, c = .mark v) →
      exec c s = .next (s.refusing .wrongMode))

/-- SNAPSHOT (R189): with the latch free the record is written at 0x0300, the latch held and SNAPSHOT raised;
with the latch held nothing is written. Then the record's fields, at the places of R171. The writer detail byte in
IDLE and WRITING, and its cause bits in BLOCKED, are the model's choice (log 41). -/
def Obligations.SnapshotLatches : Prop :=
  ∀ s : State,
    (s.attached = true →
      (s.notices.snapshotLatch = false →
        exec .snapshot s = .next ((State.withCauses { s with
          notices := { s.notices with snapshotLatch := true }
          link := s.link ++ [.write (s.board.anchor + 0x300#64) s.snapshotBytes] } 0x40#8).answering
            .none [] 0)) ∧
      (s.notices.snapshotLatch = true → exec .snapshot s = .next (s.answering .alreadyLatched [] 0))) ∧
    let b := s.snapshotBytes
    b.length = 128 ∧
    fieldAt b 0 4 = s.cadence.frameNumber.toNat ∧
    (b.drop 4).take 4 = s.timecode.freeRun.bytes ∧ (b.drop 8).take 4 = s.timecode.recordRun.bytes ∧
    fieldAt b 12 1 = s.cadence.lock.code ∧
    fieldAt b 13 1 = (if s.cadence.pending = none then 0 else 1) +
      (if s.writer.suspended = true then 2 else 0) ∧
    fieldAt b 14 1 = s.writer.phase.code ∧
    (s.writer.phase = .idle ∨ s.writer.phase = .writing → fieldAt b 15 1 = 0) ∧
    (∀ p c, s.writer.phase = .waiting → s.writer.wait = some (p, c) →
      fieldAt b 15 1 = p.code + 4 * c.code) ∧
    (∀ x, s.writer.phase = .blocked → s.writer.blocked = some x → fieldAt b 15 1 = x.pool.code) ∧
    fieldAt b 16 8 = s.cadence.counter % 2 ^ 64 ∧
    fieldAt b 24 8 = s.cadence.active.period % 2 ^ 64 ∧
    (s.cadence.pending = none → fieldAt b 32 8 = 0) ∧
    (∀ x, s.cadence.pending = some x → fieldAt b 32 8 = x.period % 2 ^ 64) ∧
    fieldAt b 40 4 = s.cadence.lastInterval % 2 ^ 32 ∧
    fieldAt b 44 4 = (BitVec.ofInt 32 s.governor.full.level).toNat ∧
    fieldAt b 48 4 = (BitVec.ofInt 32 s.governor.proxy.level).toNat ∧
    fieldAt b 52 1 = s.governor.full.q % 256 ∧ fieldAt b 53 1 = s.governor.proxy.q % 256 ∧
    fieldAt b 54 1 = s.store.pressure % 256 ∧
    fieldAt b 56 2 = s.store.records true % 65536 ∧
    fieldAt b 58 2 = s.store.records false % 65536 ∧
    fieldAt b 60 4 = s.store.liveBytes .full true % 2 ^ 32 ∧
    fieldAt b 64 4 = s.store.liveBytes .full false % 2 ^ 32 ∧
    fieldAt b 68 4 = s.store.liveBytes .proxy true % 2 ^ 32 ∧
    fieldAt b 72 4 = s.store.liveBytes .proxy false % 2 ^ 32 ∧
    (b.drop 76).take 52 = List.replicate 52 0#8

/-- SET_NOTICE, R188 whole: the clamp, the settings, the answer, and the announcement that the new settings
bring at once. -/
def Obligations.SetNoticeTakesSettings : Prop :=
  ∀ (s : State) (count age : Byte), s.attached = true →
    let c := max 1 (min 16 count.toNat)
    let mask := if c = count.toNat then 0 else 1
    let code : ResultCode := if c = count.toNat then .none else .clamped
    (c ≤ s.notices.fullCount + s.notices.proxyCount + s.notices.indexCount ∨
        (age ≠ 0#8 ∧ age.toNat ≤ s.notices.age) →
      exec (.setNotice count age) s = .next ((State.withCauses { s with notices := { s.notices with
        threshold := c, ageLimit := age.toNat, fullCount := 0, proxyCount := 0, indexCount := 0,
        age := 0 } } 0x04#8).answering code [BitVec.ofNat 8 c, age] mask)) ∧
    (¬ (c ≤ s.notices.fullCount + s.notices.proxyCount + s.notices.indexCount ∨
        (age ≠ 0#8 ∧ age.toNat ≤ s.notices.age)) →
      exec (.setNotice count age) s = .next (State.answering { s with notices := { s.notices with
        threshold := c, ageLimit := age.toNat } } code [BitVec.ofNat 8 c, age] mask))

/-- START_CADENCE, R18 whole: the start in IDLE, the first expiry one period later, and the refusal in STANDBY
and RECORDING. In IDLE the lock state is UNUSED (R8). -/
def Obligations.StartCadenceStarts : Prop :=
  ∀ s : State,
    (s.board.mode = .idle → s.cadence.lock = .unused →
      ∃ t : State, exec .startCadence s = .next t ∧
        (∀ n, n ≤ s.cadence.active.period →
          (t.elapse n).expiryDue = decide (n = s.cadence.active.period)) ∧
        (s.cadence.active.mode = .free →
          t = State.answering { s with
            cadence := { s.cadence with
              run := .running, counter := s.cadence.active.period, lateOpen := false, lateCount := 0,
              edgeLatch := false, measure := 268435455 }
            board := { s.board with mode := .standby } } .none [] 0) ∧
        (s.cadence.active.mode = .locked →
          t = (State.withCauses { s with
            cadence := { s.cadence with
              run := .running, counter := s.cadence.active.period, lateOpen := false, lateCount := 0,
              edgeLatch := false, measure := 268435455, lock := .seeking, good := 0, bad := 0,
              missed := 0 }
            board := { s.board with mode := .standby } } 0x20#8).answering .none [] 0)) ∧
    (s.board.mode = .standby ∨ s.board.mode = .recording →
      exec .startCadence s = .next (s.refusing .wrongMode))

/-- STOP_CADENCE in STANDBY and RECORDING (R19): the cadence, the LOCK cause, the take it closes, the profile it
activates, the mode, and all that it leaves alone. The boundary of a label that stops following (R25) comes before the
take close and the activation, the model's choice (log 37). That a FREE cadence with a LOCKED setting pending, UNUSED before the
stop, raises no LOCK although R19 applies that setting is the model's choice too (DEDUCED, log 25): no lock state is
entered between. -/
def Obligations.StopCadenceStops : Prop :=
  ∀ s : State, s.board.mode = .standby ∨ s.board.mode = .recording → s.TakesLegal →
    ∃ t : State, exec .stopCadence s = .next t ∧
      t.cadence = { s.cadence with
        run := .stopped, counter := 0, lateOpen := false, lateCount := 0, edgeLatch := false,
        active := s.cadence.pending.getD s.cadence.active, pending := none, lock := .unused, good := 0,
        bad := 0, missed := 0 } ∧
      t.board = { s.board with mode := .idle } ∧
      (s.cadence.lock = .unused → t.notices = s.notices ∧ t.link = s.link) ∧
      (s.cadence.lock ≠ .unused → t.notices = (s.withCauses 0x20#8).notices ∧
        t.link = (s.withCauses 0x20#8).link) ∧
      t.takeIsOpen = false ∧
      t.takes.table.map TakeRecord.number = s.takes.table.map TakeRecord.number ∧
      (∀ r, s.openTake = some r →
        ∃ u ∈ t.takes.table, u.number = r.number ∧ u.phase = .closed ∧ u.cause = .cadenceStopped) ∧
      (s.openTake = none → t.takes.table = s.takes.table) ∧
      t.takes.pendingProfile = none ∧
      t.takes.profile = s.takes.pendingProfile.getD s.takes.profile ∧
      (∀ p, s.takes.pendingProfile = some p →
        t.governor = Governor.ofProfile p ∧
        t.store = s.store.trim (if p.mode = .recordRun ∨
          (s.cadence.pending.getD s.cadence.active).period ≠ (baseRate p.base).period then 0
          else min p.preroll 3584) ∧
        (s.following = false ∨ s.timecode.baseCounter ≠ 0 → t.timecode = s.timecode.takeProfile p) ∧
        (s.following = true → s.timecode.baseCounter = 0 →
          t.timecode = s.timecode.boundary.takeProfile p)) ∧
      (s.takes.pendingProfile = none → t.governor = s.governor ∧ t.store = s.store ∧
        (s.following = false ∨ s.timecode.baseCounter ≠ 0 → t.timecode = s.timecode) ∧
        (s.following = true → s.timecode.baseCounter = 0 → t.timecode = s.timecode.boundary)) ∧
      t.lastResult = (s.answering .none [] 0).lastResult ∧
      t.intake = s.intake ∧ t.lanes = s.lanes ∧ t.writer = s.writer ∧ t.aperture = s.aperture ∧
      t.chain = s.chain ∧ t.faultRecord = s.faultRecord ∧ t.counters = s.counters ∧
      t.reportSequence = s.reportSequence ∧ t.nextTag = s.nextTag

/-- SET_CADENCE, R16 whole, with the placing of R17: refused codes, the clamps, the mask, the result data, and
active at once, staged, or refused while a take is OPEN. -/
def Obligations.SetCadenceTakesSetting : Prop :=
  ∀ (s : State) (period : BitVec 64) (mode polarity : Byte) (tolerance : Word), s.attached = true →
    (1 < mode.toNat ∨ 1 < polarity.toNat →
      exec (.setCadence period mode polarity tolerance) s = .next (s.refusing .badField)) ∧
    ∀ (m : CadenceMode) (p : Polarity),
      (mode = 0#8 ∧ m = .free) ∨ (mode = 1#8 ∧ m = .locked) →
      (polarity = 0#8 ∧ p = .rising) ∨ (polarity = 1#8 ∧ p = .falling) →
      let x : CadenceSetting :=
        { period := max 225000 (min (2 ^ 40 - 1) period.toNat), mode := m, polarity := p
          tolerance := min 65535 tolerance.toNat }
      let mask := (if x.period = period.toNat then 0 else 1) +
        (if x.tolerance = tolerance.toNat then 0 else 2)
      let data := leBytes 8 x.period ++ leBytes 4 x.tolerance
      (s.cadence.run = .stopped →
        exec (.setCadence period mode polarity tolerance) s =
          .next (State.answering { s with cadence := { s.cadence with active := x } }
            (if mask = 0 then .none else .clamped) data mask)) ∧
      (s.cadence.run = .running → s.takeIsOpen = true →
        x.period ≠ s.cadence.active.period ∨ x.mode ≠ s.cadence.active.mode →
        exec (.setCadence period mode polarity tolerance) s = .next (s.refusing .takeOpen)) ∧
      (s.cadence.run = .running →
        s.takeIsOpen = false ∨
          (x.period = s.cadence.active.period ∧ x.mode = s.cadence.active.mode) →
        exec (.setCadence period mode polarity tolerance) s =
          .next (State.answering { s with cadence := { s.cadence with pending := some x } }
            .pending data mask))

/-- JAM_TIMECODE (R31): a refused target code, the clamps, a dropped label moved to d, and the staged jam. -/
def Obligations.JamTimecodeStages : Prop :=
  ∀ (s : State) (hh mm ss ff target : Byte), s.attached = true →
    (1 < target.toNat → exec (.jamTimecode hh mm ss ff target) s = .next (s.refusing .badField)) ∧
    ∀ g : JamTarget, (target = 0#8 ∧ g = .free) ∨ (target = 1#8 ∧ g = .record) →
      let l : Label := { hh := min hh.toNat 23, mm := min mm.toNat 59, ss := min ss.toNat 59
                         ff := min ff.toNat ((baseRate s.timecode.base).n - 1), df := s.timecode.df }
      let drops : Bool := l.df && decide (l.ss = 0) && decide (l.ff < (baseRate s.timecode.base).d) &&
        decide (l.mm % 10 ≠ 0)
      let staged := if drops then { l with ff := (baseRate s.timecode.base).d } else l
      exec (.jamTimecode hh mm ss ff target) s = .next (State.answering
        { s with timecode := { s.timecode with jam := some { label := staged, target := g } } }
        (if s.timecode.jam = none then .pending else .replaced) (staged.bytes ++ [target])
        ((if l.hh = hh.toNat then 0 else 1) + (if l.mm = mm.toNat then 0 else 2) +
          (if l.ss = ss.toNat then 0 else 4) + (if l.ff = ff.toNat then 0 else 8) +
          (if drops then 16 else 0)))

/-- SET_PROFILE (R112, R113): refused codes; else the profile is formed field by field, its mask tells each
change, and it activates at once, the store trimmed to the record limit of the new profile (R98, R102), or is staged. -/
def Obligations.SetProfileForms : Prop :=
  ∀ (s : State) (p : ProfileParams), s.attached = true →
    (8 < p.base.toNat ∨ 1 < p.mode.toNat ∨ 1 < p.df.toNat ∨ 1 < p.scale.toNat →
      exec (.setProfile p) s = .next (s.refusing .badField)) ∧
    (p.base.toNat ≤ 8 → p.mode.toNat ≤ 1 → p.df.toNat ≤ 1 → p.scale.toNat ≤ 1 →
      ∃ (q : Profile) (mask : Nat), q.Legal ∧ q.base = p.base.toNat ∧
        (q.mode = .recordRun ↔ p.mode = 1#8) ∧ (q.scale = .quarter ↔ p.scale = 1#8) ∧
        (q.df = true ↔ p.df = 1#8 ∧ (p.base = 7#8 ∨ p.base = 8#8)) ∧
        q.rateF = max 50000 (min 3200000 p.rateF.toNat) ∧
        q.rateP = max 1000 (min 50000 p.rateP.toNat) ∧
        q.window = max 4 (min 64 p.window.toNat) ∧
        q.qminF = min 63 p.qminF.toNat ∧ q.qmaxF = max q.qminF (min 63 p.qmaxF.toNat) ∧
        q.startF = max q.qminF (min q.qmaxF (min 63 p.startF.toNat)) ∧
        q.qminP = min 63 p.qminP.toNat ∧ q.qmaxP = max q.qminP (min 63 p.qmaxP.toNat) ∧
        q.startP = max q.qminP (min q.qmaxP (min 63 p.startP.toNat)) ∧
        q.patience = max 1 (min 255 p.patience.toNat) ∧
        q.preroll = (if p.mode = 1#8 then 0 else min 4096 p.preroll.toNat) ∧
        q.width = max 1280 (min 8192 p.width.toNat) / 16 * 16 ∧
        q.height = max 720 (min 4096 p.height.toNat) / 16 * 16 ∧
        mask < 1024 ∧
        (mask.testBit 0 = true ↔ p.df = 1#8 ∧ q.df = false) ∧
        (mask.testBit 1 = true ↔ q.rateF ≠ p.rateF.toNat) ∧
        (mask.testBit 2 = true ↔ q.rateP ≠ p.rateP.toNat) ∧
        (mask.testBit 3 = true ↔ q.window ≠ p.window.toNat) ∧
        (mask.testBit 4 = true ↔ ¬ (q.qminF = p.qminF.toNat ∧ q.qmaxF = p.qmaxF.toNat ∧
          q.startF = p.startF.toNat)) ∧
        (mask.testBit 5 = true ↔ ¬ (q.qminP = p.qminP.toNat ∧ q.qmaxP = p.qmaxP.toNat ∧
          q.startP = p.startP.toNat)) ∧
        (mask.testBit 6 = true ↔ q.patience ≠ p.patience.toNat) ∧
        (mask.testBit 7 = true ↔ q.preroll ≠ p.preroll.toNat) ∧
        (mask.testBit 8 = true ↔ q.width ≠ p.width.toNat) ∧
        (mask.testBit 9 = true ↔ q.height ≠ p.height.toNat) ∧
        (s.cadence.run = .stopped →
          exec (.setProfile p) s = .next (State.answering { s with
            takes := { s.takes with profile := q, pendingProfile := none }
            timecode := s.timecode.takeProfile q
            governor := Governor.ofProfile q
            store := s.store.trim (if q.mode = .recordRun ∨
              s.cadence.active.period ≠ (baseRate q.base).period then 0 else min q.preroll 3584) }
            (if mask = 0 then .none else .clamped) [] mask)) ∧
        (s.cadence.run = .running →
          exec (.setProfile p) s = .next (State.answering { s with
            takes := { s.takes with pendingProfile := some q } }
            (if s.takes.pendingProfile = none then .pending else .replaced) [] mask)))

/-- OPEN_TAKE's tests, R115 whole: the mode first, then the four tests in their order, a refusal changing nothing
but its answer and its count; and a take number that none of them holds against is opened. -/
def Obligations.OpenTakeRefusals : Prop :=
  ∀ (s : State) (take : Word),
    (s.board.mode = .idle → exec (.openTake take) s = .next (s.refusing .wrongMode)) ∧
    (s.board.mode = .standby ∨ s.board.mode = .recording →
      (take = 0#32 → exec (.openTake take) s = .next (s.refusing .badField)) ∧
      (take ≠ 0#32 → (∃ r ∈ s.takes.table, r.phase = .opened) →
        exec (.openTake take) s = .next (s.refusing .takeOpen)) ∧
      (take ≠ 0#32 → (∀ r ∈ s.takes.table, r.phase ≠ .opened) → 4 ≤ s.takes.table.length →
        exec (.openTake take) s = .next (s.refusing .takeTableFull)) ∧
      (take ≠ 0#32 → (∀ r ∈ s.takes.table, r.phase ≠ .opened) → s.takes.table.length < 4 →
        (∃ r ∈ s.takes.table, r.number = take) →
        exec (.openTake take) s = .next (s.refusing .duplicateTake)) ∧
      (take ≠ 0#32 → (∀ r ∈ s.takes.table, r.phase ≠ .opened ∧ r.number ≠ take) →
        s.takes.table.length < 4 → ∃ t : State, exec (.openTake take) s = .next t ∧
          t.openTakeNumber = take ∧ t.counters.directivesRefused = s.counters.directivesRefused))

/-- OPEN_TAKE that passes its tests (R116): the unbound records and tickets it binds, the pre-roll count, the
new record, what the neighbours reset, the mode, the answer, and the frame. -/
def Obligations.OpenTakeBinds : Prop :=
  ∀ (s : State) (take : Word), s.board.mode = .standby ∨ s.board.mode = .recording →
    take ≠ 0#32 → (∀ r ∈ s.takes.table, r.phase ≠ .opened ∧ r.number ≠ take) →
    s.takes.table.length < 4 →
    ∃ (n : Nat) (store : Store),
      n = (s.store.list.filter (fun r => r.take = 0#32)).length +
        (s.lanes.tickets.filter (fun t => t.take = 0#32 ∧ t.hasRecord = false)).length ∧
      store.list = s.store.list.map (fun r =>
        if r.take = 0#32 then { r with take := take, preroll := true } else r) ∧
      store.fullArea = s.store.fullArea ∧ store.proxyArea = s.store.proxyArea ∧
      store.pressure = store.measured ∧
      exec (.openTake take) s = .next (State.answering { s with
        store := store
        lanes := { s.lanes with
          tickets := s.lanes.tickets.map (fun t =>
            if t.take = 0#32 then { t with take := take, preroll := !t.hasRecord } else t)
          heldReference := 0#32 }
        takes := { s.takes with table := s.takes.table ++
          [{ number := take, phase := .opened, cause := .none
             header := { base := s.takes.profile.base, mode := s.effectiveMode, df := s.timecode.df
                         period := s.cadence.active.period, targetF := s.governor.full.target
                         targetP := s.governor.proxy.target, width := s.takes.profile.width
                         height := s.takes.profile.height, scale := s.takes.profile.scale }
             preroll := n, ordinal := 0, headerWritten := false, startLabel := Label.zero
             endLabel := Label.zero, fullBytes := 0, proxyBytes := 0, held := 0, absent := 0
             clippedF := 0, clippedP := 0, gapFrames := 0, drained := false }] }
        intake := { s.intake with pendingGap := 0 }
        governor := if n = 0 then
            { s.governor with
              full := { s.governor.full with level := 0, q := s.governor.full.start }
              proxy := { s.governor.proxy with level := 0, q := s.governor.proxy.start } }
          else s.governor
        board := { s.board with mode := .recording } } .none (leBytes 4 n) 0)

/-- CLOSE_TAKE in STANDBY and RECORDING (R117, R125): NO_TAKE, or the OPEN record closed by HOST, and every
CLOSED record with no material left drained, one of an empty take with its labels; the mode, the answer, and the
frame, whole. -/
def Obligations.CloseTakeCloses : Prop :=
  ∀ s : State, s.board.mode = .standby ∨ s.board.mode = .recording →
    (s.openTake = none → exec .closeTake s = .next (s.refusing .noTake)) ∧
    ∀ r, s.openTake = some r →
      let closed : TakeRecord → TakeRecord := fun u =>
        if u.number = r.number ∧ u.phase = .opened then { u with phase := .closed, cause := .host } else u
      let bare : Word → Bool := fun take =>
        (s.lanes.tickets.all fun t => t.take != take) && (s.store.list.all fun x => x.take != take)
      let label : TimecodeMode → Label := fun mode =>
        if mode = .freeRun then s.timecode.freeRun else s.timecode.recordRun
      let tested : TakeRecord → TakeRecord := fun u =>
        if u.phase = .closed ∧ u.drained = false ∧ bare u.number = true then
          if u.ordinal = 0 ∧ u.headerWritten = false then
            { u with drained := true, startLabel := label u.header.mode, endLabel := label u.header.mode }
          else { u with drained := true }
        else u
      exec .closeTake s = .next (State.answering { s with
        takes := { s.takes with table := s.takes.table.map (fun u => tested (closed u)) }
        board := { s.board with mode := .standby } } .none (leBytes 4 r.number.toNat) 0)

/-- MARK in STANDBY and RECORDING (R120): 0 is refused, and any other value becomes the pending mark. -/
def Obligations.MarkStages : Prop :=
  ∀ (s : State) (value : BitVec 16), s.board.mode = .standby ∨ s.board.mode = .recording →
    (value = 0#16 → exec (.mark value) s = .next (s.refusing .badField)) ∧
    (value ≠ 0#16 → exec (.mark value) s = .next (State.answering
      { s with intake := { s.intake with pendingMark := some value } }
      (if s.intake.pendingMark = none then .pending else .replaced) [] 0))

/-- REMAP_APERTURES (R156, R157, R158): refused first pages, the range used, the ways that go and those that
stay, a fetch marked DISCARD, and a BLOCKED writer in the range: one whose retry already waits, and one whose retry is
made now, which misses, joins the list and begins a fetch when none is in flight. Either stays BLOCKED. Past 2^64 a
Board address goes on at 0, the model's choice (log 51). -/
def Obligations.RemapInvalidatesRange : Prop :=
  ∀ (s : State) (first count : Word), s.attached = true →
    (2047 < first.toNat → exec (.remapApertures first count) s = .next (s.refusing .badField)) ∧
    (first.toNat ≤ 2047 →
      let n := max 1 (min (2048 - first.toNat) count.toNat)
      let inRange : Nat → Prop := fun page => first.toNat ≤ page ∧ page < first.toNat + n
      ∃ a : Aperture, a.misses = s.aperture.misses ∧
        (∀ page, (inRange page → a.lookup page = none) ∧
          (¬ inRange page → a.lookup page = s.aperture.lookup page)) ∧
        a.sets.map (fun c => (c.b0, c.b1, c.b2)) = s.aperture.sets.map (fun c => (c.b0, c.b1, c.b2)) ∧
        (s.aperture.fetch = none → a.fetch = none) ∧
        (∀ f, s.aperture.fetch = some f →
          (inRange f.page → a.fetch = some { f with discard := true }) ∧
          (¬ inRange f.page → a.fetch = some f)) ∧
        ∀ flags : Nat, (flags % 2 = 1 ↔ ∃ f, s.aperture.fetch = some f ∧ inRange f.page) →
          let answered : State → State := fun u => u.answering
            (if n = count.toNat then .none else .clamped)
            (leBytes 4 first.toNat ++ leBytes 4 n ++
              leBytes 2 (validWays s.aperture.sets - validWays a.sets) ++ [BitVec.ofNat 8 flags])
            (if n = count.toNat then 0 else 1)
          ((s.writer.phase ≠ .blocked ∨ (∀ b, s.writer.blocked = some b → ¬ inRange b.page)) ∧
              flags < 2 ∨
            (s.writer.phase = .blocked ∧ (∃ b, s.writer.blocked = some b ∧ inRange b.page)) ∧
              (∃ m ∈ s.aperture.misses, m.client = .writer) ∧ 2 ≤ flags ∧ flags < 4 →
            exec (.remapApertures first count) s = .next (answered { s with aperture := a })) ∧
          ∀ (b : BlockedPosition) (k : Work) (c : Chunk), 2 ≤ flags → flags < 4 →
            s.writer.phase = .blocked → s.writer.blocked = some b → inRange b.page →
            (∀ m ∈ s.aperture.misses, m.client ≠ .writer) → s.writer.work = some k →
            (s.writer.pool k.step.pool).chunk = some c → (c.addr + c.used) / 2097152 = b.page →
            let waiting : Aperture := { a with
              misses := s.aperture.misses ++ [{ client := .writer, page := b.page }] }
            (s.aperture.fetch ≠ none →
              exec (.remapApertures first count) s = .next (answered { s with aperture := waiting })) ∧
            (s.aperture.fetch = none →
              exec (.remapApertures first count) s = .next (answered { s with
                aperture := { waiting with
                  fetch := some { page := b.page, discard := false, tag := s.nextTag } }
                link := s.link ++
                  [.read s.nextTag (s.board.anchor + BitVec.ofNat 64 (0x4000 + 8 * b.page)) 8]
                nextTag := s.nextTag + 1 })))

/-- PROBE_APERTURE (R159): the answer on a hit and on a miss; nothing but the answer changes. -/
def Obligations.ProbeReadsCache : Prop :=
  ∀ (s : State) (page : Word), s.attached = true →
    (2047 < page.toNat → exec (.probeAperture page) s = .next (s.refusing .badField)) ∧
    (page.toNat ≤ 2047 →
      let c := s.aperture.set (page.toNat % 8)
      let plru := BitVec.ofNat 8 ((if c.b0 then 1 else 0) + (if c.b1 then 2 else 0) +
        (if c.b2 then 4 else 0))
      let busy : Nat := if (s.aperture.fetch.map Fetch.page) = some page.toNat then 2 else 0
      (∀ way base, s.aperture.lookup page.toNat = some (way, base) →
        exec (.probeAperture page) s = .next (s.answering .none
          ([BitVec.ofNat 8 (1 + busy), BitVec.ofNat 8 (page.toNat % 8), BitVec.ofNat 8 way, plru] ++
            leBytes 8 base.toNat) 0)) ∧
      (s.aperture.lookup page.toNat = none →
        exec (.probeAperture page) s = .next (s.answering .none
          [BitVec.ofNat 8 busy, BitVec.ofNat 8 (page.toNat % 8), 0#8, plru] 0)))

/-! ### The cadence -/

/-- CADENCE_EXPIRY (R2, R4, R11): in LOCKED the late count starts and no frame start is made; else, with no
setting pending, a frame start is made, its report carrying the latched label (R27, R183), and the counter loads the
period, which then runs down to the next expiry (R2). A frame start of any cause (R4) is numbered, has its edge handling,
settles a pending setting and loads the counter (R3 puts R10 and R12 ahead of the setting; that an edge in the window is
handled ahead of it too, HOLDOVER for a bad one among it, is the model's choice, DEDUCED in log 24), and is handed on: to Take Control first, whose pending profile activates (R113), and then, in an order
that is the model's choice (log 6), to the labels (R26), the Intake (R38, R39), the store's trim (R102), the writer
(R132, R141, R143), the coalescing age (R187), the report (R183) and the visit (R174). The ticks up to the expiry pass
within the command (the model's choice, log 2), and a stopped cadence or an open late window has none, where
nothing changes (the model's choice, log 3). The MSI of a LOCK raised at a frame start is sent ahead of its report, the
model's choice (log 53). -/
def Obligations.ExpiryMakesFrameStart : Prop :=
  ∀ s : State,
    (s.cadence.run = .stopped ∨ s.cadence.lateOpen = true → exec .cadenceExpiry s = .next s) ∧
    (s.cadence.run = .running → s.cadence.lateOpen = false →
      let u := s.elapse s.cadence.counter
      exec .cadenceExpiry s = .next (if u.expiryDue = true then u.takeExpiry else u)) ∧
    (∀ passed, s.attached = true →
      (s.frameReport passed s.timecode.latched).link <+: (s.boardFrameStart passed).link) ∧
    (∀ cause : FrameCause,
      let numbered : State := { s with
        cadence := { s.cadence with frameNumber := s.cadence.frameNumber + 1#32 }
        counters := { s.counters with
          retimed := if cause = .realign then min 4294967295 (s.counters.retimed + 1)
            else s.counters.retimed } }
      let settled := (numbered.edgeHandling cause).settleCounter cause
      let profiled : State := match settled.takes.pendingProfile with
        | none => settled
        | some p =>
          if settled.takeIsOpen = true then settled
          else { settled with
            takes := { settled.takes with profile := p, pendingProfile := none }
            timecode := settled.timecode.takeProfile p
            governor := Governor.ofProfile p }
      let labelled := profiled.timecodeFrameStart cause
        (decide (profiled.timecode.base ≠ settled.timecode.base))
      let taken := labelled.intakeFrameStart (decide (cause = .realign))
      let trimmed : State := { taken with
        store := taken.store.trim
          (if taken.effectiveMode = .recordRun then 0 else min taken.takes.profile.preroll 3584) }
      let written := trimmed.writerFrameStart
      let aged := written.coalesceFrameStart
      let shown := if s.attached = true then
        aged.frameReport [labelled, taken, trimmed, written, aged] labelled.timecode.latched else aged
      let u := s.frameStart cause
      u = (if s.board.mode = .standby ∨ s.board.mode = .recording then shown.askVisit true else shown) ∧
      u.cadence = settled.cadence ∧ u.governor = profiled.governor ∧ u.timecode = taken.timecode ∧
      u.intake = taken.intake ∧ u.lanes = s.lanes ∧ u.board = s.board ∧ u.lastResult = s.lastResult) ∧
    (s.cadence.pending = none → ∀ cause : FrameCause, s.settleCounter cause = { s with
      cadence := { s.cadence with
        counter := if cause = .close then s.cadence.active.period - s.cadence.active.tolerance
          else s.cadence.active.period
        lateOpen := false, lateCount := 0 } }) ∧
    (s.cadence.Legal → s.cadence.run = .running → s.cadence.lateOpen = false →
      s.cadence.edgeLatch = false →
      (s.cadence.active.mode = .locked → s.cadence.lock = .locked →
        exec .cadenceExpiry s = .next { s.elapse s.cadence.counter with cadence := { s.cadence with
          measure := min (s.cadence.measure + s.cadence.counter) 268435455
          counter := 0, lateOpen := true, lateCount := 0 } }) ∧
      (s.cadence.active.mode = .free ∨ s.cadence.lock ≠ .locked → s.cadence.pending = none →
        (∀ n, n < s.cadence.active.period →
          (s.elapse (s.cadence.counter + 1 + n)).cadence = { s.cadence with
            measure := min (s.cadence.measure + s.cadence.counter + 1 + n) 268435455
            counter := s.cadence.active.period - 1 - n, lateOpen := false, lateCount := 0
            frameNumber := s.cadence.frameNumber + 1#32 }) ∧
        ∃ t : State, exec .cadenceExpiry s = .next t ∧
          t.cadence = { s.cadence with
            measure := min (s.cadence.measure + s.cadence.counter) 268435455
            counter := s.cadence.active.period, lateOpen := false, lateCount := 0
            frameNumber := s.cadence.frameNumber + 1#32 } ∧
          (s.attached = true → t.reportSequence = s.reportSequence + 1#32) ∧
          (s.attached = false → t.reportSequence = s.reportSequence) ∧
          (s.board.mode = .standby ∨ s.board.mode = .recording → t.chain.phase ≠ .idle) ∧
          (s.takeIsOpen = false → t.takes.pendingProfile = none ∧
            t.takes.profile = s.takes.pendingProfile.getD s.takes.profile) ∧
          (s.takeIsOpen = true → t.takes.pendingProfile = s.takes.pendingProfile ∧
            t.takes.profile = s.takes.profile) ∧
          t.counters.retimed = s.counters.retimed ∧ t.lanes = s.lanes ∧ t.board = s.board ∧
          t.intake.pendingMark = s.intake.pendingMark ∧ t.lastResult = s.lastResult))

/-- REF_EDGE (R5, R6, R7, R9, R10): a transition that counts sets the latch, and one while it is set adds nothing;
a transition that does not count only lets its ticks pass. That ticks pass with the command, the first of which
samples the latch, is the model's choice (log 2). In SEEKING and HOLDOVER an edge is measured and judged; the
third good one realigns, with RETIMED and LOCK, a pending setting applied after it (R3), and makes the one frame start of
its tick where the counter reaches zero there too (R10). That any other edge on the tick of an expiry is judged and
counted ahead of that expiry, which is left due, is the model's choice (log 43), and so is the strobe's end with the tick
(log 34). An expiry or a boundary that is due when the transition comes is taken before the tick (R2, R25). -/
def Obligations.EdgeWhileSeeking : Prop :=
  ∀ (s : State) (polarity : Polarity),
    (s.cadence.run = .stopped ∨ s.cadence.active.mode = .free ∨ s.cadence.active.polarity ≠ polarity →
      ∀ ticks, exec (.refEdge polarity ticks) s = .next (s.elapse ticks)) ∧
    (s.cadence.run = .running → s.cadence.active.mode = .locked → s.cadence.active.polarity = polarity →
      ∀ ticks, exec (.refEdge polarity ticks) s =
        .next (State.elapse { s with cadence := { s.cadence with edgeLatch := true } } ticks)) ∧
    (s.cadence.edgeLatch = true → exec (.refEdge polarity 0) s = .next s) ∧
    (s.cadence.run = .running → s.cadence.active.mode = .locked →
      s.cadence.active.polarity = polarity → s.cadence.lock = .seeking ∨ s.cadence.lock = .holdover →
      s.expiryDue = false → s.boundaryDue = false → s.cadence.lateOpen = false →
      let m := min (s.cadence.measure + 1) 268435455
      let good : Prop := m < 268435455 ∧ m ≤ s.cadence.active.period + s.cadence.active.tolerance ∧
        s.cadence.active.period ≤ m + s.cadence.active.tolerance
      let u : State := { s with
        cadence := { s.cadence with
          measure := 0, lastInterval := m, edgeLatch := false, counter := s.cadence.counter - 1 }
        timecode := { s.timecode with baseCounter := s.timecode.baseCounter - 1 }
        intake := { s.intake with strobe := false } }
      (¬ good → exec (.refEdge polarity 1) s = .next { u with
        cadence := { u.cadence with good := 0 }
        counters := { s.counters with badEdges := min 4294967295 (s.counters.badEdges + 1) } }) ∧
      (good → s.cadence.good < 2 → exec (.refEdge polarity 1) s = .next { u with
        cadence := { u.cadence with good := s.cadence.good + 1 } }) ∧
      (good → 2 ≤ s.cadence.good → s.cadence.pending = none →
        ∃ t : State, exec (.refEdge polarity 1) s = .next t ∧
          t.cadence = { u.cadence with
            lock := .locked, good := 0, bad := 0, missed := 0, counter := s.cadence.active.period
            lateOpen := false, lateCount := 0, frameNumber := s.cadence.frameNumber + 1#32 } ∧
          t.notices.cause.getLsbD 5 = true ∧
          t.counters.retimed = min 4294967295 (s.counters.retimed + 1) ∧
          (∀ k, t.intake.capture = some k → k.retimed = true ∧ k.frame = t.cadence.frameNumber) ∧
          t.counters.badEdges = s.counters.badEdges ∧ t.lanes = s.lanes ∧ t.board = s.board) ∧
      (good → 2 ≤ s.cadence.good →
        exec (.refEdge polarity 1) s = .next (u.frameStart .realign) ∧
        let t := u.frameStart .realign
        let realigned := { u.cadence with
          lock := .locked, good := 0, bad := 0, missed := 0, counter := s.cadence.active.period
          lateOpen := false, lateCount := 0, frameNumber := s.cadence.frameNumber + 1#32 }
        t.notices.cause.getLsbD 5 = true ∧
        t.counters.retimed = min 4294967295 (s.counters.retimed + 1) ∧ t.lanes = s.lanes ∧ t.board = s.board ∧
        ∀ x, s.cadence.pending = some x →
          (s.takeIsOpen = true → x.period ≠ s.cadence.active.period ∨ x.mode ≠ .locked →
            t.cadence = realigned) ∧
          (s.takeIsOpen = false ∨ (x.period = s.cadence.active.period ∧ x.mode = .locked) →
            let seeks : Prop := x.mode = .locked ∧
              (x.period ≠ s.cadence.active.period ∨ x.polarity ≠ s.cadence.active.polarity)
            (x.mode = .free → t.cadence = { realigned with
              active := x, pending := none, counter := x.period, lock := .unused }) ∧
            (seeks → t.cadence = { realigned with
              active := x, pending := none, counter := x.period, lock := .seeking, measure := 268435455 }) ∧
            (x.mode = .locked → ¬ seeks →
              t.cadence = { realigned with active := x, pending := none, counter := x.period })))) ∧
    (s.cadence.run = .running → s.cadence.active.mode = .locked →
      s.cadence.active.polarity = polarity → s.cadence.lock = .seeking ∨ s.cadence.lock = .holdover →
      let latched : State := { s with cadence := { s.cadence with edgeLatch := true } }
      (s.expiryDue = true →
        exec (.refEdge polarity 1) s = .next ((latched.frameStart .expiry).pass 1)) ∧
      (s.expiryDue = false → s.boundaryDue = true →
        exec (.refEdge polarity 1) s = .next (latched.baseBoundary.pass 1)))

/-- REF_EDGE in lock state LOCKED (R7, R11, R13, R14), sampled on the next tick (that the tick passes within the
command is the model's choice, log 2): outside the window an edge is bad and makes no frame start; in the window it
makes one; the second bad edge brings HOLDOVER, LOCK and REFERENCE_LOST. On the tick after a window's last tick the
window has closed with a frame start of its own (R12), and the edge is outside. A fault's MSI is sent at its report, the
model's choice (log 52). That the strobe ends with the tick is the model's choice (log 34). -/
def Obligations.EdgeWhileLocked : Prop :=
  ∀ s : State, s.cadence.run = .running →
    s.cadence.active.mode = .locked → s.cadence.lock = .locked → s.cadence.bad ≤ 1 →
    s.cadence.missed ≤ 1 →
    let edge := exec (.refEdge s.cadence.active.polarity 1) s
    let m := min (s.cadence.measure + 1) 268435455
    let good : Prop := m < 268435455 ∧ m ≤ s.cadence.active.period + s.cadence.active.tolerance ∧
      s.cadence.active.period ≤ m + s.cadence.active.tolerance
    let sampled := { s.cadence with measure := 0, lastInterval := m, edgeLatch := false }
    let framed := { sampled with
      counter := s.cadence.active.period, lateOpen := false, lateCount := 0
      frameNumber := s.cadence.frameNumber + 1#32 }
    let badEdges := min 4294967295 (s.counters.badEdges + 1)
    (s.expiryDue = false → s.boundaryDue = false → s.cadence.lateOpen = false →
      s.cadence.active.tolerance + 1 < s.cadence.counter →
      let u : State := { s with
        cadence := { sampled with counter := s.cadence.counter - 1, bad := 1 }
        timecode := { s.timecode with baseCounter := s.timecode.baseCounter - 1 }
        intake := { s.intake with strobe := false }
        counters := { s.counters with badEdges := badEdges } }
      (s.cadence.bad = 0 → edge = .next u) ∧
      (s.cadence.bad = 1 → edge = .next
        ((State.withCauses { u with cadence := { u.cadence with
            lock := .holdover, good := 0, bad := 0, missed := 0 } } 0x20#8).reportFault .referenceLost
          s.cadence.frameNumber s.openTakeNumber s.cadence.frameNumber))) ∧
    (s.expiryDue = false → s.boundaryDue = false →
      (s.cadence.lateOpen = false ∧ s.cadence.counter ≤ s.cadence.active.tolerance + 1) ∨
        (s.cadence.lateOpen = true ∧ s.cadence.lateCount < s.cadence.active.tolerance) →
      s.cadence.pending = none →
      ∃ t : State, edge = .next t ∧
        t.lanes = s.lanes ∧ t.board = s.board ∧ t.counters.retimed = s.counters.retimed ∧
        t.counters.missedWindows = s.counters.missedWindows ∧
        (good → t.cadence = { framed with bad := 0, missed := 0 } ∧
          t.counters.badEdges = s.counters.badEdges) ∧
        (¬ good → t.counters.badEdges = badEdges ∧
          (s.cadence.bad = 0 → t.cadence = { framed with bad := 1 }) ∧
          (s.cadence.bad = 1 →
            t.cadence = { framed with lock := .holdover, good := 0, bad := 0, missed := 0 } ∧
            t.notices.cause.getLsbD 5 = true ∧ t.faultRecord.latch = true))) ∧
    (s.cadence.Legal → s.closeDue = true → s.cadence.pending = none → s.cadence.bad = 0 →
      s.cadence.missed = 0 →
      ∃ t : State, edge = .next t ∧
        t.cadence = { sampled with
          counter := s.cadence.active.period - s.cadence.active.tolerance - 1, lateOpen := false
          lateCount := 0, frameNumber := s.cadence.frameNumber + 1#32, missed := 1, bad := 1 } ∧
        t.counters.missedWindows = min 4294967295 (s.counters.missedWindows + 1) ∧
        t.counters.badEdges = badEdges ∧ t.counters.retimed = s.counters.retimed ∧
        t.lanes = s.lanes ∧ t.board = s.board)

/-- WINDOW_CLOSE (R12, R14): the window closes, a frame start is made, and the counter stays on the grid; the
second missed window brings HOLDOVER, LOCK and REFERENCE_LOST. The ticks to the close pass within the command (the
model's choice, log 2), and outside LOCKED there is no window, where nothing changes (the model's choice, log 3). -/
def Obligations.WindowCloseKeepsGrid : Prop :=
  ∀ s : State,
    let n := if s.cadence.lateOpen = true then s.cadence.active.tolerance - s.cadence.lateCount
      else s.cadence.counter + s.cadence.active.tolerance
    (s.cadence.run = .stopped ∨ s.cadence.active.mode = .free ∨ s.cadence.lock ≠ .locked →
      exec .windowClose s = .next s) ∧
    (s.cadence.run = .running → s.cadence.active.mode = .locked → s.cadence.lock = .locked →
      let u := (s.elapse n).openLate
      exec .windowClose s = .next (if u.closeDue = true then u.frameStart .close else u)) ∧
    (s.cadence.Legal → s.cadence.run = .running → s.cadence.active.mode = .locked →
      s.cadence.lock = .locked → s.cadence.pending = none → s.cadence.edgeLatch = false →
      let framed := { s.cadence with
        measure := min (s.cadence.measure + n) 268435455
        counter := s.cadence.active.period - s.cadence.active.tolerance, lateOpen := false
        lateCount := 0, frameNumber := s.cadence.frameNumber + 1#32 }
      ∃ t : State, exec .windowClose s = .next t ∧
        t.counters.missedWindows = min 4294967295 (s.counters.missedWindows + 1) ∧
        t.counters.badEdges = s.counters.badEdges ∧ t.counters.retimed = s.counters.retimed ∧
        t.lanes = s.lanes ∧ t.board = s.board ∧
        (s.cadence.missed = 0 → t.cadence = { framed with missed := 1 }) ∧
        (s.cadence.missed = 1 →
          t.cadence = { framed with lock := .holdover, good := 0, bad := 0, missed := 0 } ∧
          t.notices.cause.getLsbD 5 = true ∧ t.faultRecord.latch = true))

/-- A pending setting at a frame start (R3): held back by an OPEN take when it changes period or mode; else
applied, with the lock state of R3's table and the counter's load, the cadence given whole for each row of the table: into
UNUSED and into SEEKING the three counts become 0, into SEEKING the latch clears and the measure is 2^28-1 (R8). LOCK's
MSI is sent here, ahead of the frame start's report: the model's choice (log 53). -/
def Obligations.PendingSettingTable : Prop :=
  ∀ (s : State) (cause : FrameCause) (x : CadenceSetting), s.cadence.pending = some x →
    let a := s.cadence.active
    (s.takeIsOpen = true → x.period ≠ a.period ∨ x.mode ≠ a.mode →
      s.settleCounter cause = { s with cadence := { s.cadence with
        counter := if cause = .close then a.period - a.tolerance else a.period
        lateOpen := false, lateCount := 0 } }) ∧
    (s.takeIsOpen = false ∨ (x.period = a.period ∧ x.mode = a.mode) →
      let t := s.settleCounter cause
      t.cadence.active = x ∧ t.cadence.pending = none ∧ t.cadence.lateOpen = false ∧
      t.cadence.lateCount = 0 ∧ t.cadence.frameNumber = s.cadence.frameNumber ∧
      (cause = .close → x.period = a.period → x.mode = a.mode → x.polarity = a.polarity →
        t.cadence.counter = x.period - x.tolerance) ∧
      (cause ≠ .close ∨ x.period ≠ a.period ∨ x.mode ≠ a.mode ∨ x.polarity ≠ a.polarity →
        t.cadence.counter = x.period) ∧
      (x.mode = .free → t.cadence.lock = .unused ∧ t.cadence.measure = s.cadence.measure) ∧
      (x.mode = .locked → a.mode = .free ∨ x.period ≠ a.period ∨ x.polarity ≠ a.polarity →
        t.cadence.lock = .seeking ∧ t.cadence.measure = 2 ^ 28 - 1 ∧ t.cadence.good = 0 ∧
        t.cadence.bad = 0 ∧ t.cadence.missed = 0 ∧ t.cadence.edgeLatch = false) ∧
      (x.mode = .locked → a.mode = .locked → x.period = a.period → x.polarity = a.polarity →
        t.cadence.lock = s.cadence.lock ∧ t.cadence.measure = s.cadence.measure ∧
        t.cadence.good = s.cadence.good ∧ t.cadence.bad = s.cadence.bad ∧
        t.cadence.missed = s.cadence.missed) ∧
      (t.cadence.lock = s.cadence.lock → t = { s with cadence := t.cadence }) ∧
      (t.cadence.lock ≠ s.cadence.lock →
        t = State.withCauses { s with cadence := t.cadence } 0x20#8) ∧
      let same : Prop := x.period = a.period ∧ x.mode = a.mode ∧ x.polarity = a.polarity
      let taken := { s.cadence with
        active := x, pending := none, lateOpen := false, lateCount := 0
        counter := if cause = .close ∧ same then x.period - x.tolerance else x.period }
      let zeroed := { taken with good := 0, bad := 0, missed := 0 }
      (x.mode = .free → t.cadence = { zeroed with lock := .unused }) ∧
      (x.mode = .locked → ¬ same →
        t.cadence = { zeroed with lock := .seeking, measure := 268435455, edgeLatch := false }) ∧
      (x.mode = .locked → same → t.cadence = taken))

/-! ### The labels -/

/-- R24, whole: an increment adds one to the frames since midnight at n frames a second, around the day; a
dropped result takes FF d; and labels in range and not dropped stay so. -/
def Obligations.LabelIncrement : Prop :=
  ∀ (base : Nat) (l : Label),
    let n := (baseRate base).n
    let d := (baseRate base).d
    let inRange : Label → Prop := fun x => x.hh < 24 ∧ x.mm < 60 ∧ x.ss < 60 ∧ x.ff < n
    let dropped : Label → Prop := fun x => x.df = true ∧ x.ss = 0 ∧ x.ff < d ∧ x.mm % 10 ≠ 0
    let count : Label → Nat := fun x => ((x.hh * 60 + x.mm) * 60 + x.ss) * n + x.ff
    inRange l →
      (∃ x : Label, inRange x ∧ x.df = l.df ∧ count x = (count l + 1) % (86400 * n) ∧
        (¬ dropped x → l.increment base = x) ∧
        (dropped x → l.increment base = { x with ff := d })) ∧
      inRange (l.increment base) ∧ ¬ dropped (l.increment base)

/-- BASE_PERIOD_BOUNDARY (R25, R31): the counter runs out, a staged FREE jam takes effect or the free-run label
is incremented, and the counter loads the base period. The ticks to the boundary pass within the command (the
model's choice, log 2); while the label follows there is no boundary, and nothing changes (the model's choice,
log 3). The result is told for a cadence with no event of its own on the way. -/
def Obligations.BasePeriodBoundaryTaken : Prop :=
  ∀ s : State,
    let u := s.elapse s.timecode.baseCounter
    (s.cadence.lock = .locked → s.cadence.active.period = (baseRate s.timecode.base).period →
      exec .basePeriodBoundary s = .next s) ∧
    (s.cadence.lock ≠ .locked ∨ s.cadence.active.period ≠ (baseRate s.timecode.base).period →
      exec .basePeriodBoundary s = .next (if u.boundaryDue = true then u.baseBoundary else u) ∧
      (s.cadence.edgeLatch = false → s.cadence.run = .stopped ∨
          (s.cadence.lateOpen = false ∧ s.timecode.baseCounter ≤ s.cadence.counter) →
        let t := { s.timecode with baseCounter := (baseRate s.timecode.base).period }
        (∀ l, s.timecode.jam = some { label := l, target := .free } →
          exec .basePeriodBoundary s =
            .next { u with timecode := { t with freeRun := l, jam := none } }) ∧
        ((∀ l, s.timecode.jam ≠ some { label := l, target := .free }) →
          exec .basePeriodBoundary s =
            .next { u with timecode := { t with freeRun := t.freeRun.increment t.base } })))

/-- A boundary (R25, R31), a following frame start (R26) and the record-run step of a ticket or a loss (R28, R32),
whole; then every frame start, which latches the label after its step (R27), a boundary that is due on its tick
taken first (that it comes after the activation's conversion is the model's choice, log 23); and the conversion that an
activating profile brings (R33). -/
def Obligations.LabelSteps : Prop :=
  (∀ t : Timecode,
    let period := (baseRate t.base).period
    (∀ l, t.jam = some { label := l, target := .free } →
      t.boundary = { t with freeRun := l, jam := none, baseCounter := period } ∧
      t.followingFrameStart = { t with freeRun := l, jam := none, baseCounter := period } ∧
      t.recordStep = { t with recordRun := t.recordRun.increment t.base }) ∧
    ((∀ l, t.jam ≠ some { label := l, target := .free }) →
      t.boundary = { t with freeRun := t.freeRun.increment t.base, baseCounter := period } ∧
      (2 * t.baseCounter ≤ period →
        t.followingFrameStart = { t with freeRun := t.freeRun.increment t.base, baseCounter := period }) ∧
      (period < 2 * t.baseCounter → t.followingFrameStart = { t with baseCounter := period })) ∧
    (∀ l, t.jam = some { label := l, target := .record } →
      t.recordStep = { t with recordRun := l.increment t.base, jam := none }) ∧
    (t.jam = none → t.recordStep = { t with recordRun := t.recordRun.increment t.base })) ∧
  (∀ (s : State) (cause : FrameCause) (baseChanged : Bool),
    let stepped : Timecode :=
      if cause ≠ .expiry ∧ s.cadence.active.period = (baseRate s.timecode.base).period ∧
          baseChanged = false then s.timecode.followingFrameStart
      else if s.timecode.baseCounter = 0 ∧ (s.cadence.lock ≠ .locked ∨
          s.cadence.active.period ≠ (baseRate s.timecode.base).period) then s.timecode.boundary
      else s.timecode
    s.timecodeFrameStart cause baseChanged =
        { s with timecode := { stepped with latched := stepped.freeRun } } ∧
      (s.frameStart cause).timecode.latched = (s.frameStart cause).timecode.freeRun) ∧
  ∀ (t : Timecode) (p : Profile),
    let converted : Label → Label := fun l =>
      let x : Label := { l with ff := min l.ff ((baseRate p.base).n - 1), df := p.df }
      if x.df = true ∧ x.ss = 0 ∧ x.ff < (baseRate p.base).d ∧ x.mm % 10 ≠ 0 then
        { x with ff := (baseRate p.base).d } else x
    (p.base = t.base → p.df = t.df → t.takeProfile p = { t with mode := p.mode }) ∧
    (p.base ≠ t.base ∨ p.df ≠ t.df → t.takeProfile p = { t with
      freeRun := converted t.freeRun, recordRun := converted t.recordRun
      jam := t.jam.map (fun j => { j with label := converted j.label })
      baseCounter := if p.base = t.base then t.baseCounter else (baseRate p.base).period
      base := p.base, df := p.df, mode := p.mode })

/-! ### The Intake -/

/-- FRAME_BEGIN (R40), and the sensor events that change nothing but the stray count or nothing at all (R41, R42). -/
def Obligations.SensorEvents : Prop :=
  ∀ (s : State) (index : Nat) (samples : List (BitVec 16)) (passed : Bool),
    let stray := { s with counters := { s.counters with
      strayEvents := min 4294967295 (s.counters.strayEvents + 1) } }
    (s.intake.capture = none →
      exec .frameBegin s = .next stray ∧ exec (.lineEvent index samples passed) s = .next s ∧
      exec .frameEnd s = .next stray) ∧
    ∀ c, s.intake.capture = some c →
      (c.phase = .awaitingBegin →
        exec .frameBegin s = .next { s with intake := { s.intake with
          capture := some { c with phase := .receiving } } } ∧
        exec (.lineEvent index samples passed) s = .next s) ∧
      (c.phase = .receiving → exec .frameBegin s = .next stray ∧
        (c.height ≤ index → exec (.lineEvent index samples passed) s = .next s))

/-- A frame start at the Intake (R38, R39), whole: a capture still under way is lost and frees its slot, with
FRAME_LOST of its own frame; then the lowest FREE slot captures with a strobe, or the frame is lost for want of one, with
INTAKE_OVERRUN. Each loss names the OPEN take, and steps the record-run label and the gap count of one (R28, R45). A
fault's MSI is sent at its report, the model's choice (log 52). That the strobe is inactive again where no slot is free
is the model's choice (log 34). -/
def Obligations.FrameStartAtIntake : Prop :=
  ∀ (s : State) (retimed : Bool),
    let t := s.intakeFrameStart retimed
    let i := s.intake
    let slots := match i.capture with
      | none => i.slots
      | some c => i.slots.modify c.slot (fun x => { x with state := .free })
    let lost : State → FaultClass → Word → State := fun u cls frame =>
      { u.reportFault cls frame s.openTakeNumber 0#32 with
        timecode := if s.takeIsOpen = true then u.timecode.recordStep else u.timecode
        intake := { u.intake with
          pendingGap := if s.takeIsOpen = true then min 65535 (u.intake.pendingGap + 1)
            else u.intake.pendingGap } }
    let cut : State := match i.capture with
      | none => s
      | some c => lost { s with
          intake := { i with slots := slots, capture := none }
          counters := { s.counters with
            lostInCapture := min 4294967295 (s.counters.lostInCapture + 1) } } .frameLost c.frame
    (∀ k, (slots.map Slot.state)[k]? = some .free →
      (∀ j < k, (slots.map Slot.state)[j]? ≠ some .free) →
      t = { cut with intake := { cut.intake with
        slots := slots.modify k (fun x => { x with state := .capturing }), strobe := true
        capture := some
          { phase := .awaitingBegin, slot := k, frame := s.cadence.frameNumber, retimed := retimed
            width := s.takes.profile.width, height := s.takes.profile.height
            label := s.timecode.latched, lines := [] } } }) ∧
    ((∀ x ∈ slots, x.state ≠ .free) →
      t = lost { cut with
        intake := { cut.intake with strobe := false }
        counters := { cut.counters with
          lostNoSlot := min 4294967295 (s.counters.lostNoSlot + 1) } }
        .intakeOverrun s.cadence.frameNumber) ∧
    (∀ c, i.capture = some c → (∃ x ∈ slots, x.state = .free) →
      t.faultRecord = (s.reportFault .frameLost c.frame s.openTakeNumber 0#32).faultRecord ∧
      (s.takeIsOpen = true →
        t.timecode = s.timecode.recordStep ∧ t.intake.pendingGap = min 65535 (i.pendingGap + 1))) ∧
    (i.capture = none → t.counters.lostInCapture = s.counters.lostInCapture) ∧
    (i.capture ≠ none → t.faultRecord.latch = true ∧
      t.counters.lostInCapture = min 4294967295 (s.counters.lostInCapture + 1)) ∧
    (∀ k, (slots.map Slot.state)[k]? = some .free →
      (∀ j < k, (slots.map Slot.state)[j]? ≠ some .free) →
      t.intake.capture = some
        { phase := .awaitingBegin, slot := k, frame := s.cadence.frameNumber, retimed := retimed
          width := s.takes.profile.width, height := s.takes.profile.height
          label := s.timecode.latched, lines := [] } ∧
      t.intake.slots = slots.modify k (fun x => { x with state := .capturing }) ∧
      t.intake.strobe = true ∧ t.counters.lostNoSlot = s.counters.lostNoSlot) ∧
    ((∀ x ∈ slots, x.state ≠ .free) → t.intake.capture = none ∧ t.intake.slots = slots ∧
      t.intake.strobe = false ∧ t.faultRecord.latch = true ∧
      t.counters.lostNoSlot = min 4294967295 (s.counters.lostNoSlot + 1) ∧
      (s.takeIsOpen = true → i.capture = none →
        t.timecode = s.timecode.recordStep ∧ t.intake.pendingGap = min 65535 (i.pendingGap + 1))) ∧
    (s.takeIsOpen = false → t.timecode = s.timecode ∧ t.intake.pendingGap = i.pendingGap) ∧
    t.lanes = s.lanes ∧ t.takes = s.takes ∧ t.cadence = s.cadence ∧ t.store = s.store ∧
    t.intake.pendingMark = i.pendingMark ∧ t.board = s.board ∧ t.writer = s.writer ∧
    t.governor = s.governor ∧ t.aperture = s.aperture ∧ t.chain = s.chain ∧
    t.reportSequence = s.reportSequence ∧ t.nextTag = s.nextTag

/-- LINE_EVENT of a receiving capture (R37, R41): the samples lie little-endian at the line's place, up to the
width, and no other byte of any slot changes; the line is marked, and no other; a place above the slot's 64 MiB
does not exist.
Three points are the model's choices: which byte of a sample lies lower (log 38), what a line longer or shorter than
the width stores (log 9), and that a place above the slot, where the spec names no outcome, stops the machine (the
stop slotAddress, NOTES.md, Stops). -/
def Obligations.LineStored : Prop :=
  ∀ (s : State) (c : Capture) (index : Nat) (samples : List (BitVec 16)) (passed : Bool),
    s.intake.capture = some c → c.phase = .receiving → index < c.height →
    (67108864 < (index + 1) * c.width * 2 →
      exec (.lineEvent index samples passed) s = .fault .slotAddress) ∧
    ((index + 1) * c.width * 2 ≤ 67108864 → c.slot < s.intake.slots.length →
      ∃ (m : Memory) (lines : List (Nat × LineMark)),
        exec (.lineEvent index samples passed) s = .next { s with intake := { s.intake with
          slots := s.intake.slots.modify c.slot (fun x => { x with samples := m })
          capture := some { c with lines := lines } } } ∧
        (∀ (k : Nat) (x : BitVec 16), k < c.width → samples[k]? = some x →
          Memory.read m (index * c.width * 2 + 2 * k) = x.setWidth 8 ∧
          Memory.read m (index * c.width * 2 + 2 * k + 1) = (x >>> 8).setWidth 8) ∧
        (∀ a, a < index * c.width * 2 ∨
            index * c.width * 2 + 2 * min samples.length c.width ≤ a →
          Memory.read m a = Memory.read (s.intake.slot c.slot).samples a) ∧
        markOf lines index =
          some (if passed = true ∧ samples.length = c.width then .good else .bad) ∧
        ∀ i, i ≠ index → markOf lines i = markOf c.lines i)

/-- FRAME_END (R42 to R49): a frame with more than half its lines faulty is lost; a usable one is counted, and
repaired and counted damaged when any line is (R43); its ticket is bound to the OPEN take, or kept unbound, or
discarded. A fault's MSI is sent at its report, the model's choice (log 52). -/
def Obligations.FrameEndOutcomes : Prop :=
  ∀ (s : State) (c : Capture), s.intake.capture = some c → c.slot < s.intake.slots.length →
    let faulty := (c.height - c.lines.length) + (c.lines.filter (fun x => x.2 = .bad)).length
    let gap := s.intake.pendingGap
    (c.height < 2 * faulty →
      exec .frameEnd s = .next { s.reportFault .frameLost c.frame s.openTakeNumber 0#32 with
        intake := { s.intake with
          slots := s.intake.slots.modify c.slot (fun x => { x with state := .free })
          capture := none
          pendingGap := if s.takeIsOpen = true then min 65535 (gap + 1) else gap }
        timecode := if s.takeIsOpen = true then s.timecode.recordStep else s.timecode
        counters := { s.counters with lostInCapture := min 4294967295 (s.counters.lostInCapture + 1) } }) ∧
    (2 * faulty ≤ c.height →
      let samples : Memory :=
        if faulty = 0 then (s.intake.slot c.slot).samples else c.repair (s.intake.slot c.slot).samples
      let counted := { s.counters with
        captured := min 4294967295 (s.counters.captured + 1)
        damaged := if faulty = 0 then s.counters.damaged
          else min 4294967295 (s.counters.damaged + 1) }
      let held := s.intake.slots.modify c.slot
        (fun x => { x with state := .heldByLanes, samples := samples })
      let ticket : Ticket :=
        { slot := c.slot, frame := c.frame, damaged := decide (faulty ≠ 0), retimed := c.retimed
          mark := s.intake.pendingMark, preroll := false, width := c.width, height := c.height
          hasRecord := false, fullResult := none, proxyResult := none
          take := s.openTakeNumber, gap := if s.takeIsOpen = true then gap else 0
          label := if s.effectiveMode = .freeRun then c.label
            else if s.takeIsOpen = true then s.timecode.recordStep.recordRun
            else s.timecode.recordRun }
      let joined := { s.lanes with
        tickets := s.lanes.tickets ++ [ticket]
        full := { s.lanes.full with queue := s.lanes.full.queue ++ [c.slot] }
        proxy := { s.lanes.proxy with queue := s.lanes.proxy.queue ++ [c.slot] } }
      (s.takeIsOpen = true → s.openTakeNumber ≠ 0#32 → exec .frameEnd s = .next { s with
        counters := counted
        timecode := s.timecode.recordStep
        intake := { s.intake with slots := held, capture := none, pendingGap := 0
                                  pendingMark := none }
        lanes := joined }) ∧
      (s.takeIsOpen = false → 0 < s.takes.profile.preroll → s.effectiveMode = .freeRun →
        exec .frameEnd s = .next { s with
          counters := counted
          intake := { s.intake with slots := held, capture := none, pendingMark := none }
          lanes := joined }) ∧
      (s.takeIsOpen = false → s.takes.profile.preroll = 0 ∨ s.effectiveMode = .recordRun →
        exec .frameEnd s = .next { s with
          counters := { counted with
            discardedUnbound := min 4294967295 (s.counters.discardedUnbound + 1) }
          intake := { s.intake with
            slots := s.intake.slots.modify c.slot
              (fun x => { x with state := .free, samples := samples })
            capture := none } }))

/-- The repair of a damaged frame (R43): every line that is not GOOD reads as the nearest GOOD line below its
number, or else as the first GOOD line; GOOD lines and bytes outside the frame are unchanged. -/
def Obligations.RepairUsesNearestGood : Prop :=
  ∀ (c : Capture) (m : Memory), c.lines.Pairwise (fun x y => x.1 < y.1) →
    (∀ x ∈ c.lines, x.1 < c.height) →
    (∀ i j k, i < c.height → goodLine c.lines j = true → k < 2 * c.width →
      (j ≤ i ∧ ∀ g, j < g → g ≤ i → goodLine c.lines g = false) ∨
        (i < j ∧ ∀ g < j, goodLine c.lines g = false) →
      Memory.read (c.repair m) (i * c.width * 2 + k) = Memory.read m (j * c.width * 2 + k)) ∧
    (∀ a, c.height * c.width * 2 ≤ a → Memory.read (c.repair m) a = Memory.read m a)

/-! ### The lanes, the Governor and the store -/

/-- JOB_START of the full lane for a ticket without a record (R55 to R59). A bound one: with room the job runs in
PASS_1 on a record and an extent of its own; without, for want of a record or of bytes, the ticket is dropped, its take
closed, and the loss shown. An unbound one (R98, R99): granted, the job runs; else the ticket is discarded and counted,
with no fault. A bound request is judged by R97, and an unbound one evicts head pairs while it fails and one can be
evicted, and is then settled by what it still lacks. A ticket that holds a record already runs its job in that record
when it is granted its bytes, and else goes and gives up all it holds: the record leaves the list, its extents return at the tail,
at the head or as slack (R93, R104; that the tail goes back to the head when no extent remains is the model's choice,
log 14), a job of the proxy lane for it is abandoned, and the HELD reference becomes 0 when a bound ticket's PRESENT proxy
goes with it (R60). The ticket's record is found by its 32-bit capture frame number, every record of the number changed
and the first of them released: the model's choice (log 48). -/
def Obligations.FullJobStart : Prop :=
  (∀ (s : State) (t : Ticket) (i : Nat) (rest : List Nat),
    s.lanes.full.phase = .idle → s.lanes.full.job = none → s.lanes.full.queue = i :: rest →
    s.ticket i = some t → t.hasRecord = true →
    let cap := min (4 * s.governor.full.target / 256 * 256) 67108864
    let answer := s.store.request
      (if s.effectiveMode = .recordRun then 0 else min s.takes.profile.preroll 3584)
      { frame := t.frame, take := t.take, lane := .full, bytes := cap, wantRecord := false }
    let freed : Area → Option Extent → List Extent → List Extent → Area := fun a e before later =>
      if e = none then a
      else match later.head?, before.getLast? with
        | none, none => { a with tail := a.head }
        | none, some y => { a with tail := (y.start + y.len) % a.size }
        | some y, none => { a with head := y.start }
        | some _, some _ => a
    (t.take ≠ 0#32 → s.store.freeRoom .full < cap →
      answer = ({ s.store with pressure := s.store.measured }, .bytesRefused .fullBytes)) ∧
    (t.take ≠ 0#32 → 0 < cap → cap ≤ s.store.freeRoom .full →
      answer.2 = .granted ∧ answer.1.pressure = answer.1.measured ∧
      answer.1.list = s.store.list.map (fun x => if x.frame = t.frame then
        { x with full := some { start := s.store.fullArea.tail, len := cap } } else x) ∧
      answer.1.fullArea = { s.store.fullArea with
        tail := (s.store.fullArea.tail + cap) % s.store.fullArea.size } ∧
      answer.1.proxyArea = s.store.proxyArea) ∧
    (answer.2 = .granted → exec (.jobStart .full) s = .next { s with
      store := answer.1
      lanes := { s.lanes with
        tickets := s.lanes.tickets.map (fun x => if x.slot = i then { x with hasRecord := true } else x)
        full := { queue := s.lanes.full.queue, phase := .pass1
                  job := some { slot := i, tag := s.nextTag, q := s.governor.full.q
                                retryQ := min (s.governor.full.q + 8) 63, cap := cap
                                target := s.governor.full.target, width := t.width
                                height := t.height } } }
      nextTag := s.nextTag + 1 }) ∧
    ∀ (before later : List PairRecord) (x : PairRecord), answer.2 ≠ .granted →
      answer.1.list = before ++ x :: later → x.frame = t.frame → (∀ y ∈ before, y.frame ≠ t.frame) →
      ∃ u : State, exec (.jobStart .full) s = .next u ∧
        u.store.list = before ++ later ∧
        u.store.fullArea = freed answer.1.fullArea x.full (before.filterMap PairRecord.full)
          (later.filterMap PairRecord.full) ∧
        u.store.proxyArea = freed answer.1.proxyArea x.proxy (before.filterMap PairRecord.proxy)
          (later.filterMap PairRecord.proxy) ∧
        u.store.pressure = u.store.measured ∧
        u.lanes.heldReference =
          (if t.take ≠ 0#32 ∧ t.proxyResult.map LaneResult.state = some .present then 0#32
            else s.lanes.heldReference) ∧
        u.lanes.full = { queue := rest.filter (fun j => j ≠ i), phase := .idle, job := none } ∧
        u.lanes.proxy.queue = s.lanes.proxy.queue.filter (fun j => j ≠ i) ∧
        (∀ j, s.lanes.proxy.job = some j → j.slot = i →
          u.lanes.proxy.phase = .idle ∧ u.lanes.proxy.job = none) ∧
        ((∀ j, s.lanes.proxy.job = some j → j.slot ≠ i) →
          u.lanes.proxy.phase = s.lanes.proxy.phase ∧ u.lanes.proxy.job = s.lanes.proxy.job) ∧
        u.intake = { s.intake with
          slots := s.intake.slots.modify i (fun y => { y with state := .free }) } ∧
        (t.take = 0#32 →
          u.lanes.tickets = s.lanes.tickets.filter (fun y => y.slot ≠ i) ∧
          u.counters = { s.counters with
            discardedUnbound := min 4294967295 (s.counters.discardedUnbound + 1) } ∧
          u.faultRecord = s.faultRecord ∧ u.takes = s.takes ∧ u.board = s.board) ∧
        (t.take ≠ 0#32 →
          u.lanes.tickets = (s.lanes.tickets.filter (fun y => y.slot ≠ i)).map (fun y =>
            if rest.find? (fun j => ((s.ticket j).map Ticket.take) = some t.take) = some y.slot then
              { y with gap := min 65535 (y.gap + 1) } else y) ∧
          u.counters = s.counters ∧
          u.faultRecord = (s.reportFault .storeOverrun t.frame t.take 2#32).faultRecord ∧
          ((∃ r ∈ s.takes.table, r.number = t.take ∧ r.phase = .opened) → u.board.mode = .standby ∧
            ∀ r ∈ u.takes.table, r.number = t.take → r.phase = .closed)) ∧
        u.governor = s.governor ∧ u.cadence = s.cadence ∧ u.timecode = s.timecode ∧
        u.writer = s.writer ∧ u.aperture = s.aperture ∧ u.chain = s.chain ∧ u.nextTag = s.nextTag) ∧
  (∀ (st : Store) (limit : Nat) (r : Request),
    let noRecord : Prop := r.wantRecord = true ∧ 4096 ≤ st.list.length
    let reserved := st.addRecord r
    (r.take ≠ 0#32 → noRecord → st.request limit r = (st, .refused .records)) ∧
    (r.take ≠ 0#32 → ¬ noRecord → r.bytes ≤ st.freeRoom r.lane →
      st.request limit r = ({ reserved.place r with pressure := (reserved.place r).measured }, .granted)) ∧
    (r.take ≠ 0#32 → ¬ noRecord → st.freeRoom r.lane < r.bytes →
      st.request limit r =
        ({ reserved with pressure := reserved.measured }, .bytesRefused (byteLack r.lane))) ∧
    (r.wantRecord = false → reserved = st) ∧
    (r.wantRecord = true → reserved = { st with list := st.list ++ [{
      take := r.take, frame := r.frame, preroll := false, full := none, proxy := none, pair := none }] }) ∧
    (r.bytes = 0 → st.place r = st) ∧
    (0 < r.bytes → r.lane = .full → st.place r = { st with
      list := st.list.map (fun x => if x.frame = r.frame then
        { x with full := some { start := st.fullArea.tail, len := r.bytes } } else x)
      fullArea := { st.fullArea with tail := (st.fullArea.tail + r.bytes) % st.fullArea.size } }) ∧
    (0 < r.bytes → r.lane = .proxy → st.place r = { st with
      list := st.list.map (fun x => if x.frame = r.frame then
        { x with proxy := some { start := st.proxyArea.tail, len := r.bytes } } else x)
      proxyArea := { st.proxyArea with tail := (st.proxyArea.tail + r.bytes) % st.proxyArea.size } })) ∧
  (∀ (st : Store) (limit : Nat) (r : Request), r.take = 0#32 →
    let met : Store → Prop := fun x => r.wantRecord = true →
      (x.list.filter (fun y => y.take = 0#32)).length + 1 ≤ limit ∧ x.list.length < 4096
    let fits : Store → Prop := fun x => r.bytes ≤ x.freeRoom r.lane ∧
      8 * (x.liveBytes r.lane false + r.bytes) ≤ 7 * (x.area r.lane).size
    let evictable : Store → Prop := fun x =>
      ∃ y rest, x.list = y :: rest ∧ y.take = 0#32 ∧ y.pair ≠ none
    ∃ n : Nat, n ≤ st.list.length ∧
      (∀ k < n, evictable (Nat.iterate Store.dropHead k st) ∧
        ¬ (met (Nat.iterate Store.dropHead k st) ∧ fits (Nat.iterate Store.dropHead k st))) ∧
      let x := Nat.iterate Store.dropHead n st
      (met x → fits x → st.request limit r = ((x.addRecord r).place r, .granted)) ∧
      (¬ met x → ¬ evictable x ∧ st.request limit r = (x, .refused .records)) ∧
      (met x → ¬ fits x → ¬ evictable x ∧
        st.request limit r = (x.addRecord r, .bytesRefused (byteLack r.lane)))) ∧
  ∀ (s : State) (t : Ticket) (i : Nat) (rest : List Nat),
    s.lanes.full.phase = .idle → s.lanes.full.job = none → s.lanes.full.queue = i :: rest →
    s.ticket i = some t → t.hasRecord = false → (∀ r ∈ s.store.list, r.frame ≠ t.frame) →
    let target := s.governor.full.target
    let cap := min (4 * target / 256 * 256) 67108864
    0 < cap →
    let started : Store → State := fun store => { s with
      store := store
      lanes := { s.lanes with
        tickets := s.lanes.tickets.map (fun x => if x.slot = i then { x with hasRecord := true } else x)
        full := { queue := s.lanes.full.queue, phase := .pass1
                  job := some { slot := i, tag := s.nextTag, q := s.governor.full.q
                                retryQ := min (s.governor.full.q + 8) 63, cap := cap
                                target := target, width := t.width, height := t.height } } }
      nextTag := s.nextTag + 1 }
    (t.take = 0#32 →
      let answer := s.store.request
        (if s.effectiveMode = .recordRun then 0 else min s.takes.profile.preroll 3584)
        { frame := t.frame, take := 0#32, lane := .full, bytes := cap, wantRecord := true }
      (answer.2 = .granted → exec (.jobStart .full) s = .next (started answer.1)) ∧
      (answer.2 ≠ .granted → ∃ u : State, exec (.jobStart .full) s = .next u ∧
        u.lanes.tickets = s.lanes.tickets.filter (fun x => x.slot ≠ i) ∧
        u.lanes.full.queue = rest.filter (fun j => j ≠ i) ∧
        u.lanes.proxy.queue = s.lanes.proxy.queue.filter (fun j => j ≠ i) ∧
        u.intake = { s.intake with
          slots := s.intake.slots.modify i (fun x => { x with state := .free }) } ∧
        u.store.list = answer.1.list.filter (fun x => x.frame ≠ t.frame) ∧
        u.counters = { s.counters with
          discardedUnbound := min 4294967295 (s.counters.discardedUnbound + 1) } ∧
        u.faultRecord = s.faultRecord ∧ u.takes = s.takes ∧ u.board = s.board ∧
        u.governor = s.governor ∧ u.timecode = s.timecode ∧ u.writer = s.writer ∧ u.link = s.link)) ∧
    (t.take ≠ 0#32 →
      let lost : Word → State → Prop := fun detail u =>
        exec (.jobStart .full) s = .next u ∧
        u.lanes.tickets = (s.lanes.tickets.filter (fun x => x.slot ≠ i)).map (fun x =>
          if rest.find? (fun j => ((s.ticket j).map Ticket.take) = some t.take) = some x.slot then
            { x with gap := min 65535 (x.gap + 1) } else x) ∧
        u.lanes.full.queue = rest.filter (fun j => j ≠ i) ∧
        u.lanes.proxy.queue = s.lanes.proxy.queue.filter (fun j => j ≠ i) ∧
        (∀ j, s.lanes.proxy.job = some j → j.slot = i →
          u.lanes.proxy.phase = .idle ∧ u.lanes.proxy.job = none) ∧
        u.intake = { s.intake with
          slots := s.intake.slots.modify i (fun x => { x with state := .free }) } ∧
        u.faultRecord = (s.reportFault .storeOverrun t.frame t.take detail).faultRecord ∧
        ((∃ r ∈ s.takes.table, r.number = t.take ∧ r.phase = .opened) → u.board.mode = .standby ∧
          ∀ r ∈ u.takes.table, r.number = t.take → r.phase = .closed) ∧
        u.governor = s.governor ∧ u.counters = s.counters ∧ u.cadence = s.cadence ∧
        u.timecode = s.timecode ∧ u.writer = s.writer ∧ u.nextTag = s.nextTag
      (4096 ≤ s.store.list.length → ∃ u : State, lost 1#32 u ∧ u.store = s.store) ∧
      (s.store.list.length < 4096 → s.store.freeRoom .full < cap → ∃ u : State, lost 2#32 u ∧
        u.store.list = s.store.list ∧ u.store.fullArea = s.store.fullArea ∧
        u.store.proxyArea = s.store.proxyArea) ∧
      (s.store.list.length < 4096 → cap ≤ s.store.freeRoom .full → ∃ store : Store,
        store.list = s.store.list ++ [{ take := t.take, frame := t.frame, preroll := false
                                        full := some { start := s.store.fullArea.tail, len := cap }
                                        proxy := none, pair := none }] ∧
        store.fullArea = { s.store.fullArea with
          tail := (s.store.fullArea.tail + cap) % s.store.fullArea.size } ∧
        store.proxyArea = s.store.proxyArea ∧ store.pressure = store.measured ∧
        exec (.jobStart .full) s = .next (started store)))

/-- JOB_START of the proxy lane for a ticket, bound or unbound, with a record or without (R57, R60, R61, R62, R66, R82):
by the store's answer (O44 says how it judges, R97 to R99) HELD, a job at min(A, 63), ABSENT for want of bytes, or, for
want of a record, the failure of R58. HELD and ABSENT complete the lane's result: with the full result already there they
commit the pair, and the ticket is gone and its slot FREE (R65, R67). Of a ticket that fails and stands in the full lane's
queue no more, every ticket there is a later one: that is the model's choice (DEDUCED, log 29). Then each written out for
a bound ticket that holds a record. The ticket's record is found by its 32-bit capture frame number, every record of the
number changed: the model's choice (log 48). -/
def Obligations.ProxyJobStart : Prop :=
  (∀ (s : State) (t : Ticket) (i : Nat) (rest : List Nat),
    s.lanes.proxy.phase = .idle → s.lanes.proxy.queue = i :: rest → s.ticket i = some t →
    let a := s.governor.proxy.q + 8 * s.store.pressure
    let target := s.governor.proxy.target
    let cap := min (min (4 * target / 256 * 256) 4194304) s.writer.proxyPool.chunkSize
    let factor := if s.takes.profile.scale = .half then 2 else 4
    let repeats : Prop := 70 < a ∧ t.take ≠ 0#32 ∧ s.lanes.heldReference = t.take
    ∀ bytes : Nat, (repeats → bytes = 0) → (¬ repeats → bytes = cap) →
    let answer := s.store.request
      (if s.effectiveMode = .recordRun then 0 else min s.takes.profile.preroll 3584)
      { frame := t.frame, take := t.take, lane := .proxy, bytes := bytes, wantRecord := !t.hasRecord }
    let ended : ProxyState → Counters → State := fun state counters => { s with
      lanes := { s.lanes with
        tickets := s.lanes.tickets.map (fun x => if x.slot = i then
          { x with hasRecord := true
                   proxyResult := some { state := state, size := 0, q := 0, clipped := false } }
          else x)
        proxy := { queue := s.lanes.proxy.queue.filter (fun j => j ≠ i), phase := .idle, job := none } }
      store := answer.1
      governor := { s.governor with proxy := s.governor.proxy.update target 0 }
      counters := counters }
    let paired : LaneResult → ProxyState → Counters → State := fun f state counters => { s with
      lanes := { s.lanes with
        tickets := s.lanes.tickets.filter (fun x => x.slot ≠ i)
        proxy := { queue := s.lanes.proxy.queue.filter (fun j => j ≠ i), phase := .idle, job := none } }
      intake := { s.intake with
        slots := s.intake.slots.modify i (fun x => { x with state := .free }) }
      store := { answer.1 with list := answer.1.list.map (fun r => if r.frame = t.frame then
        { r with take := t.take, preroll := r.preroll || t.preroll
                 pair := some { label := t.label, damaged := t.damaged, retimed := t.retimed
                                gap := t.gap, mark := t.mark, fullQ := f.q, fullClipped := f.clipped
                                proxyState := state, proxyQ := 0, proxyClipped := false } }
        else r) }
      governor := { s.governor with proxy := s.governor.proxy.update target 0 }
      counters := counters }
    let completes : ProxyState → Counters → Prop := fun state counters =>
      (t.fullResult = none → exec (.jobStart .proxy) s = .next (ended state counters)) ∧
      ∀ f, t.fullResult = some f → exec (.jobStart .proxy) s = .next (paired f state counters)
    (answer.2 = .granted → repeats →
      completes .held { s.counters with held := min 4294967295 (s.counters.held + 1) }) ∧
    (answer.2 = .granted → ¬ repeats → exec (.jobStart .proxy) s = .next { s with
      store := answer.1
      lanes := { s.lanes with
        tickets := s.lanes.tickets.map (fun x => if x.slot = i then { x with hasRecord := true } else x)
        proxy := { queue := s.lanes.proxy.queue, phase := .pass1
                   job := some { slot := i, tag := s.nextTag, q := min a 63
                                 retryQ := min (min a 63 + 8) 63, cap := cap, target := target
                                 width := t.width / factor / 16 * 16
                                 height := t.height / factor / 16 * 16 } } }
      nextTag := s.nextTag + 1 }) ∧
    (∀ lack, answer.2 = .bytesRefused lack →
      completes .absent { s.counters with absent := min 4294967295 (s.counters.absent + 1) }) ∧
    (∀ lack, answer.2 = .refused lack → lack = .records ∧ t.hasRecord = false ∧
      ∃ u : State, exec (.jobStart .proxy) s = .next u ∧ u.store = answer.1 ∧
        u.lanes.proxy.queue = rest.filter (fun j => j ≠ i) ∧ u.lanes.proxy.phase = .idle ∧
        u.lanes.full.queue = s.lanes.full.queue.filter (fun j => j ≠ i) ∧
        (∀ j, s.lanes.full.job = some j → j.slot = i →
          u.lanes.full.phase = .idle ∧ u.lanes.full.job = none) ∧
        ((∀ j, s.lanes.full.job = some j → j.slot ≠ i) →
          u.lanes.full.phase = s.lanes.full.phase ∧ u.lanes.full.job = s.lanes.full.job) ∧
        u.lanes.heldReference =
          (if t.take ≠ 0#32 ∧ t.proxyResult.map LaneResult.state = some .present then 0#32
            else s.lanes.heldReference) ∧
        u.intake = { s.intake with
          slots := s.intake.slots.modify i (fun x => { x with state := .free }) } ∧
        (t.take = 0#32 →
          u.lanes.tickets = s.lanes.tickets.filter (fun x => x.slot ≠ i) ∧
          u.counters = { s.counters with
            discardedUnbound := min 4294967295 (s.counters.discardedUnbound + 1) } ∧
          u.faultRecord = s.faultRecord ∧ u.takes = s.takes ∧ u.board = s.board) ∧
        (t.take ≠ 0#32 →
          let later := if i ∈ s.lanes.full.queue then
            (s.lanes.full.queue.dropWhile (fun j => decide (j ≠ i))).drop 1 else s.lanes.full.queue
          u.lanes.tickets = (s.lanes.tickets.filter (fun x => x.slot ≠ i)).map (fun x =>
            if later.find? (fun j => ((s.ticket j).map Ticket.take) = some t.take) = some x.slot then
              { x with gap := min 65535 (x.gap + 1) } else x) ∧
          u.counters = s.counters ∧
          u.faultRecord = (s.reportFault .storeOverrun t.frame t.take 1#32).faultRecord ∧
          ((∃ r ∈ s.takes.table, r.number = t.take ∧ r.phase = .opened) → u.board.mode = .standby ∧
            ∀ r ∈ u.takes.table, r.number = t.take → r.phase = .closed)) ∧
        u.governor = s.governor ∧ u.cadence = s.cadence ∧ u.timecode = s.timecode ∧
        u.writer = s.writer ∧ u.nextTag = s.nextTag)) ∧
  ∀ (s : State) (t : Ticket) (i : Nat) (rest : List Nat),
    s.lanes.proxy.phase = .idle → s.lanes.proxy.queue = i :: rest → s.ticket i = some t →
    t.take ≠ 0#32 → t.hasRecord = true → t.fullResult = none →
    let a := s.governor.proxy.q + 8 * s.store.pressure
    let target := s.governor.proxy.target
    let cap := min (min (4 * target / 256 * 256) 4194304) s.writer.proxyPool.chunkSize
    let factor := if s.takes.profile.scale = .half then 2 else 4
    let ended : ProxyState → Counters → State := fun state counters => { s with
      lanes := { s.lanes with
        tickets := s.lanes.tickets.map (fun x => if x.slot = i then
          { x with hasRecord := true
                   proxyResult := some { state := state, size := 0, q := 0, clipped := false } }
          else x)
        proxy := { queue := s.lanes.proxy.queue.filter (fun j => j ≠ i), phase := .idle, job := none } }
      store := { s.store with pressure := s.store.measured }
      governor := { s.governor with proxy := s.governor.proxy.update target 0 }
      counters := counters }
    (70 < a → s.lanes.heldReference = t.take →
      exec (.jobStart .proxy) s = .next (ended .held
        { s.counters with held := min 4294967295 (s.counters.held + 1) })) ∧
    (a ≤ 70 ∨ s.lanes.heldReference ≠ t.take →
      (s.store.freeRoom .proxy < cap →
        exec (.jobStart .proxy) s = .next (ended .absent
          { s.counters with absent := min 4294967295 (s.counters.absent + 1) })) ∧
      (cap ≤ s.store.freeRoom .proxy → ∃ store : Store,
        exec (.jobStart .proxy) s = .next { s with
          store := store
          lanes := { s.lanes with
            tickets := s.lanes.tickets.map (fun x =>
              if x.slot = i then { x with hasRecord := true } else x)
            proxy := { queue := s.lanes.proxy.queue, phase := .pass1
                       job := some { slot := i, tag := s.nextTag, q := min a 63
                                     retryQ := min (min a 63 + 8) 63, cap := cap, target := target
                                     width := t.width / factor / 16 * 16
                                     height := t.height / factor / 16 * 16 } } }
          nextTag := s.nextTag + 1 } ∧
        store.pressure = store.measured ∧ store.fullArea = s.store.fullArea ∧
        (0 < cap →
          store.list = s.store.list.map (fun r => if r.frame = t.frame then
            { r with proxy := some { start := s.store.proxyArea.tail, len := cap } } else r) ∧
          store.proxyArea.tail = (s.store.proxyArea.tail + cap) % s.store.proxyArea.size)))

/-- PASS_1_END and PASS_2_END (R63, R64, R65, R69) while the other lane is still to complete the ticket: a
fitting picture, the retry, a CLIPPED picture; the end of any other job is discarded. What the picture leaves of its
reservation returns at the tail of the lane's area when no later record holds an extent there, and is slack behind the
shortened extent otherwise (R93, R103). The ticket's record is found by its 32-bit capture frame number, every record of
the number shortened and the area's tail taken from the first of them: the model's choice (log 48). That the end of a
job that never was changes nothing too is DEDUCED (log 3). -/
def Obligations.PassEnds : Prop :=
  ∀ (s : State) (lane : Lane) (tag size : Nat), 0 < size →
    ((∀ j, (s.lanes.lane lane).job = some j → j.tag ≠ tag) →
      exec (.pass1End lane tag size) s = .next s ∧ exec (.pass2End lane tag size) s = .next s) ∧
    ∀ (j : Job) (t : Ticket), (s.lanes.lane lane).job = some j → j.tag = tag →
      s.ticket j.slot = some t → t.result (otherLane lane) = none →
      let padded := (size + 255) / 256 * 256
      let ended : LaneResult → Host.Outcome State Fault Refusal → Prop := fun r o =>
        ∃ u : State, o = .next u ∧
          u.lanes.lane lane = { queue := (s.lanes.lane lane).queue.filter (fun k => k ≠ j.slot)
                                phase := .idle, job := none } ∧
          u.lanes.lane (otherLane lane) = s.lanes.lane (otherLane lane) ∧
          u.lanes.tickets = s.lanes.tickets.map (fun x =>
            if x.slot = j.slot then x.attach lane r else x) ∧
          u.lanes.heldReference =
            (if lane = .proxy ∧ t.take ≠ 0#32 then t.take else s.lanes.heldReference) ∧
          u.governor = s.governor.update lane j.target r.size ∧
          u.counters = { s.counters with
            clippedF := if lane = .full ∧ r.clipped = true then
              min 4294967295 (s.counters.clippedF + 1) else s.counters.clippedF
            clippedP := if lane = .proxy ∧ r.clipped = true then
              min 4294967295 (s.counters.clippedP + 1) else s.counters.clippedP } ∧
          u.store.list = s.store.list.map (fun x => if x.frame = t.frame then
            x.setExtent lane ((x.extent lane).map (fun e => { e with len := r.size })) else x) ∧
          u.store.area (otherLane lane) = s.store.area (otherLane lane) ∧
          (∀ (before later : List PairRecord) (x : PairRecord) (e : Extent),
            s.store.list = before ++ x :: later → x.frame = t.frame →
            (∀ y ∈ before, y.frame ≠ t.frame) → x.extent lane = some e →
            ((∀ y ∈ later, y.extent lane = none) → u.store.area lane = { s.store.area lane with
              tail := (e.start + r.size) % (s.store.area lane).size }) ∧
            ((∃ y ∈ later, y.extent lane ≠ none) → u.store.area lane = s.store.area lane)) ∧
          u.store.pressure = u.store.measured ∧
          u.intake = s.intake ∧ u.takes = s.takes ∧ u.cadence = s.cadence ∧ u.writer = s.writer ∧
          u.notices = s.notices ∧ u.link = s.link
      let fits : Nat → LaneResult := fun q =>
        { state := .present, size := padded, q := q, clipped := false }
      let clips : Nat → LaneResult := fun q =>
        { state := .present, size := j.cap, q := q, clipped := true }
      ((s.lanes.lane lane).phase = .pass1 →
        (padded ≤ j.cap → ended (fits j.q) (exec (.pass1End lane tag size) s)) ∧
        (j.cap < padded → j.q < 63 → exec (.pass1End lane tag size) s = .next { s with
          lanes := s.lanes.setLane lane { s.lanes.lane lane with phase := .pass2 } }) ∧
        (j.cap < padded → 63 ≤ j.q → ended (clips 63) (exec (.pass1End lane tag size) s))) ∧
      ((s.lanes.lane lane).phase = .pass2 →
        (padded ≤ j.cap → ended (fits j.retryQ) (exec (.pass2End lane tag size) s)) ∧
        (j.cap < padded → ended (clips j.retryQ) (exec (.pass2End lane tag size) s)))

/-- The second lane to complete a ticket commits its pair (R67, R103), at the end of either pass, fitting or CLIPPED (R63,
R64): the record takes the ticket's fields and both results, in its place in the list; the ticket is gone and its slot
FREE; the lane is idle and the other lane as it was; and the Governor, the counters, the HELD reference (R60), the two
areas (R93, R103) and P (R108) are as at every completion. The ticket's record is found by its 32-bit capture frame
number, every record of the number filled and the area's tail taken from the first of them: the model's choice (log
48). -/
def Obligations.PairCommits : Prop :=
  ∀ (s : State) (lane : Lane) (j : Job) (t : Ticket) (size : Nat) (other : LaneResult), 0 < size →
    (s.lanes.lane lane).job = some j →
    s.ticket j.slot = some t → t.result (otherLane lane) = some other →
    let padded := (size + 255) / 256 * 256
    let commits : LaneResult → Host.Outcome State Fault Refusal → Prop := fun made o =>
      let full := if lane = .full then made else other
      let proxy := if lane = .full then other else made
      ∃ u : State, o = .next u ∧
        u.lanes.tickets = s.lanes.tickets.filter (fun x => x.slot ≠ j.slot) ∧
        u.lanes.lane lane = { queue := (s.lanes.lane lane).queue.filter (fun k => k ≠ j.slot)
                              phase := .idle, job := none } ∧
        u.lanes.lane (otherLane lane) = s.lanes.lane (otherLane lane) ∧
        u.lanes.heldReference =
          (if lane = .proxy ∧ t.take ≠ 0#32 then t.take else s.lanes.heldReference) ∧
        u.store.list = s.store.list.map (fun x => if x.frame = t.frame then
          { x.setExtent lane ((x.extent lane).map (fun e => { e with len := made.size })) with
            take := t.take, preroll := x.preroll || t.preroll
            pair := some { label := t.label, damaged := t.damaged, retimed := t.retimed, gap := t.gap
                           mark := t.mark, fullQ := full.q, fullClipped := full.clipped
                           proxyState := proxy.state, proxyQ := proxy.q
                           proxyClipped := proxy.clipped } }
          else x) ∧
        u.store.area (otherLane lane) = s.store.area (otherLane lane) ∧
        (∀ (before later : List PairRecord) (x : PairRecord) (e : Extent),
          s.store.list = before ++ x :: later → x.frame = t.frame →
          (∀ y ∈ before, y.frame ≠ t.frame) → x.extent lane = some e →
          ((∀ y ∈ later, y.extent lane = none) → u.store.area lane = { s.store.area lane with
            tail := (e.start + made.size) % (s.store.area lane).size }) ∧
          ((∃ y ∈ later, y.extent lane ≠ none) → u.store.area lane = s.store.area lane)) ∧
        u.store.pressure = (s.store.shorten t.frame lane made.size).measured ∧
        ((∀ x ∈ s.store.list, x.frame = t.frame → x.take = t.take) →
          u.store.pressure = u.store.measured) ∧
        u = { s with
          lanes := u.lanes, store := u.store
          intake := { s.intake with
            slots := s.intake.slots.modify j.slot (fun x => { x with state := .free }) }
          governor := s.governor.update lane j.target made.size
          counters := { s.counters with
            clippedF := if lane = .full ∧ made.clipped = true then
              min 4294967295 (s.counters.clippedF + 1) else s.counters.clippedF
            clippedP := if lane = .proxy ∧ made.clipped = true then
              min 4294967295 (s.counters.clippedP + 1) else s.counters.clippedP } }
    let fits : Nat → LaneResult := fun q =>
      { state := .present, size := padded, q := q, clipped := false }
    let clips : Nat → LaneResult := fun q =>
      { state := .present, size := j.cap, q := q, clipped := true }
    ((s.lanes.lane lane).phase = .pass1 →
      (padded ≤ j.cap → commits (fits j.q) (exec (.pass1End lane j.tag size) s)) ∧
      (j.cap < padded → 63 ≤ j.q → commits (clips 63) (exec (.pass1End lane j.tag size) s))) ∧
    ((s.lanes.lane lane).phase = .pass2 →
      (padded ≤ j.cap → commits (fits j.retryQ) (exec (.pass2End lane j.tag size) s)) ∧
      (j.cap < padded → commits (clips j.retryQ) (exec (.pass2End lane j.tag size) s)))

/-- The Governor's update (R78, R79, R80): the level is clamped into the bucket, the step read off the new
level, the quantiser clamped into its limits; and legal streams stay legal. -/
def Obligations.GovernorUpdate : Prop :=
  ∀ (g : Stream) (target size : Nat),
    let l : Int := g.capacity
    let b := max (-l) (min l (g.level + target - size))
    let become : Int → Prop := fun step => g.update target size =
      { g with level := b, q := (max (g.qmin : Int) (min g.qmax (g.q + step))).toNat }
    (2 * b < -l → become 2) ∧
    (-l ≤ 2 * b → 8 * b < -l → become 1) ∧
    (-l ≤ 8 * b → 8 * b ≤ l → become 0) ∧
    (l < 8 * b → 2 * b ≤ l → become (-1)) ∧
    (l < 2 * b → become (-2)) ∧
    (g.Legal → (g.update target size).Legal)

/-- R107 whole, and R108: P is the largest of the levels of three measures of the bound material, and the store
recomputes it whenever bound usage changes. -/
def Obligations.PressureLevels : Prop :=
  ∀ st : Store,
    let bound := st.list.filter (fun r => r.take ≠ 0#32)
    let records := bound.length
    let full := ((bound.filterMap PairRecord.full).map Extent.len).sum
    let proxy := ((bound.filterMap PairRecord.proxy).map Extent.len).sum
    let level : Nat → Nat → Nat := fun u c =>
      if 2 * u < c then 0 else if 4 * u < 3 * c then 1 else if 10 * u < 9 * c then 2 else 3
    st.measured = max (level records 4096)
      (max (level full st.fullArea.size) (level proxy st.proxyArea.size)) ∧
    (∀ r : Request, r.take ≠ 0#32 → ∀ v, (st.requestBound r).2 = v → (∀ k, v ≠ .refused k) →
      (st.requestBound r).1.pressure = (st.requestBound r).1.measured) ∧
    (∀ frame lane size, (st.shorten frame lane size).pressure = (st.shorten frame lane size).measured) ∧
    (∀ take, (st.bindAll take).pressure = (st.bindAll take).measured) ∧
    (∀ frame, (∃ r ∈ st.list, r.frame = frame) →
      (st.release frame).pressure = (st.release frame).measured) ∧
    st.remove.pressure = st.remove.measured

/-- Trimming (R102): head pairs leave one at a time, each committed and unbound, and each only while a limit of
R98 is exceeded; it ends as soon as the limits hold or the head cannot be evicted. A head record that leaves frees the
extent it holds from the head of each area (R93, R100); that the head goes to the tail when no extent remains is the
model's choice (log 14). -/
def Obligations.TrimEvictsHeads : Prop :=
  ∀ (st : Store) (limit : Nat),
    let exceeds : Store → Prop := fun x =>
      limit < (x.list.filter (fun r => r.take = 0#32)).length ∨
      7 * x.fullArea.size < 8 * x.liveBytes .full false ∨
      7 * x.proxyArea.size < 8 * x.liveBytes .proxy false
    let evictable : Store → Prop := fun x =>
      ∃ r rest, x.list = r :: rest ∧ r.take = 0#32 ∧ r.pair ≠ none
    (∃ n : Nat, st.trim limit = Nat.iterate Store.dropHead n st ∧
      ∀ k < n, exceeds (Nat.iterate Store.dropHead k st) ∧ evictable (Nat.iterate Store.dropHead k st)) ∧
    ¬ (exceeds (st.trim limit) ∧ evictable (st.trim limit)) ∧
    (∃ gone : List PairRecord, st.list = gone ++ (st.trim limit).list ∧
      ∀ r ∈ gone, r.take = 0#32 ∧ r.pair ≠ none) ∧
    (st.trim limit).fullArea.size = st.fullArea.size ∧
    (st.trim limit).fullArea.tail = st.fullArea.tail ∧
    (st.trim limit).proxyArea.size = st.proxyArea.size ∧
    (st.trim limit).proxyArea.tail = st.proxyArea.tail ∧ (st.trim limit).pressure = st.pressure ∧
    ∀ r rest, st.list = r :: rest → st.dropHead = { st with
      list := rest
      fullArea := if r.full = none then st.fullArea else { st.fullArea with
        head := ((rest.filterMap PairRecord.full).head?.map Extent.start).getD st.fullArea.tail }
      proxyArea := if r.proxy = none then st.proxyArea else { st.proxyArea with
        head := ((rest.filterMap PairRecord.proxy).head?.map Extent.start).getD st.proxyArea.tail } }

/-! ### The writer, the Aperture Unit and the chain -/

/-- WRITER_START_WORK (R131, R133, R134, R140): no choice with work in hand or no Board; IDLE when the oldest take has
not drained and the head pair is not committed and bound, or there is none; else the head pair at its header or its full
picture, or an ended empty take at its header, each reading a chunk table entry first. A full picture with a chunk held
goes on in it, at its page's translation, asks for that, or closes a chunk with no room and seeks another; an ended take
whose header is written waits for a PROXY attempt or closes its chunks. Then how a piece ends: a written Pair Entry is
counted and its pair removed (R124, R137), and a take ends with its chunks closed, its trailer written and its record
gone (R140), a PROXY attempt that began meanwhile waited for and the chunk it took closed too (the model's choice, log
36). That the ordinal wraps at 2^32 and the byte totals at 2^64 is the model's choice (log 18). Then each step
between: a full picture is placed (R135); a HELD or ABSENT pair writes no proxy bytes, nor does a PRESENT one while
SUSPENDED is set, which is recorded ABSENT, and else the picture goes whole into one PROXY chunk, a chunk too short for it
closed first (R136, R142); an index record is placed as 64 bytes; and the steps follow one another until the writer must
wait (at most 256 of them at a time, DEDUCED, log 33). Last the bytes of the three index records (R121, R122, R126,
R171). That the command changes nothing with work in hand or no Board is DEDUCED (log 3). Past 2^64 a Board address goes
on at 0, the model's choice (log 51). -/
def Obligations.WriterStartsWork : Prop :=
  (∀ s : State,
    (s.writer.work ≠ none ∨ s.attached = false → exec .writerStartWork s = .next s) ∧
    (s.writer.work = none → s.attached = true →
      (∀ k, s.takes.table.head? = some k → k.drained = false) →
      (∀ r, s.store.list.head? = some r → r.pair = none ∨ r.take = 0#32) →
      exec .writerStartWork s = .next { s with writer := { s.writer with phase := .idle } }) ∧
    ∀ (k : TakeRecord) (others : List TakeRecord), s.writer.work = none → s.attached = true →
      s.takes.table = k :: others →
      let made : WriterStep → Word → Bool → Work := fun step frame ending =>
        { ending := ending, step := step, frame := frame, written := 0, fullOffset := 0
          proxyOffset := 0, proxyState := .absent, closed := false, page := none }
      let current : Writer := { s.writer with
        take := some k.number, phase := .writing
        fullPool := { s.writer.fullPool with nextSequence := 0 }
        proxyPool := { s.writer.proxyPool with nextSequence := 0 }
        indexPool := { s.writer.indexPool with
          nextSequence := 0
          attempt := some { tag := s.nextTag, entry := s.writer.indexPool.cursor
                            left := s.writer.indexPool.count } } }
      let indexRead : LinkItem := .read s.nextTag
        (s.board.anchor + BitVec.ofNat 64 (0x1400 + 32 * s.writer.indexPool.cursor)) 32
      (k.drained = true → k.headerWritten = false → s.writer.indexPool.chunk = none →
        s.writer.indexPool.attempt = none →
        exec .writerStartWork s = .next { s with
          writer := { current with work := some (made .header 0#32 true) }
          link := s.link ++ [indexRead], nextTag := s.nextTag + 1 }) ∧
      (k.drained = true → k.headerWritten = true →
        let begun : State := { s with writer := { s.writer with
          phase := .writing, work := some (made .trailer 0#32 true) } }
        (s.writer.proxyPool.attempt ≠ none → exec .writerStartWork s = .next begun) ∧
        (s.writer.proxyPool.attempt = none → ∃ u : State, exec .writerStartWork s = .next u ∧
          ((begun.closeChunk .full true).closeChunk .proxy true).link <+: u.link)) ∧
      ∀ (r : PairRecord) (d : PairData) (rest : List PairRecord), k.drained = false →
        s.store.list = r :: rest → r.pair = some d → r.take = k.number → k.number ≠ 0#32 →
        (k.headerWritten = true → ∀ (e : Extent) (c : Chunk), r.full = some e → 0 < e.len →
          s.writer.fullPool.chunk = some c →
          let begun : State := { s with writer := { s.writer with
            phase := .writing, work := some (made .full r.frame false) } }
          let page := (c.addr + c.used) / 2097152
          let inPage := (c.addr + c.used) % 2097152
          let waiting : List Miss := s.aperture.misses ++ [{ client := .writer, page := page }]
          (c.used < s.writer.fullPool.chunkSize →
            (∀ way base, s.aperture.lookup page = some (way, base) →
              ∃ u : State, exec .writerStartWork s = .next u ∧
                s.link ++ [.payload (base + BitVec.ofNat 64 inPage) .full
                  (e.start % s.store.fullArea.size)
                  (min e.len (min (s.writer.fullPool.chunkSize - c.used) (2097152 - inPage)))]
                  <+: u.link) ∧
            (s.aperture.lookup page = none → s.aperture.fetch ≠ none →
              exec .writerStartWork s = .next { begun with
                aperture := { s.aperture with misses := waiting } }) ∧
            (s.aperture.lookup page = none → s.aperture.fetch = none →
              exec .writerStartWork s = .next { begun with
                aperture := { s.aperture with
                  misses := waiting
                  fetch := some { page := page, discard := false, tag := s.nextTag } }
                link := s.link ++
                  [.read s.nextTag (s.board.anchor + BitVec.ofNat 64 (0x4000 + 8 * page)) 8]
                nextTag := s.nextTag + 1 })) ∧
          (s.writer.fullPool.chunkSize ≤ c.used → s.writer.fullPool.attempt = none →
            let z := begun.closeChunk .full false
            exec .writerStartWork s = .next { z with
              writer := { z.writer with fullPool := { s.writer.fullPool with
                chunk := none
                attempt := some { tag := s.nextTag, entry := s.writer.fullPool.cursor
                                  left := s.writer.fullPool.count } } }
              link := z.link ++ [.read s.nextTag (s.board.anchor +
                BitVec.ofNat 64 (0x0400 + 32 * s.writer.fullPool.cursor)) 32]
              nextTag := s.nextTag + 1 })) ∧
        (k.headerWritten = false → s.writer.indexPool.chunk = none →
          s.writer.indexPool.attempt = none →
          exec .writerStartWork s = .next { s with
            writer := { current with work := some (made .header r.frame false) }
            takes := { s.takes with table := s.takes.table.map (fun x =>
              if x.number = k.number then { x with startLabel := d.label } else x) }
            link := s.link ++ [indexRead], nextTag := s.nextTag + 1 }) ∧
        (k.headerWritten = true → ∀ e, r.full = some e → 0 < e.len →
          s.writer.fullPool.chunk = none → s.writer.fullPool.attempt = none →
          exec .writerStartWork s = .next { s with
            writer := { s.writer with
              phase := .writing, work := some (made .full r.frame false)
              fullPool := { s.writer.fullPool with
                attempt := some { tag := s.nextTag, entry := s.writer.fullPool.cursor
                                  left := s.writer.fullPool.count } } }
            link := s.link ++ [.read s.nextTag (s.board.anchor +
              BitVec.ofNat 64 (0x0400 + 32 * s.writer.fullPool.cursor)) 32]
            nextTag := s.nextTag + 1 })) ∧
  (∀ (s : State) (k : Work) (r : PairRecord) (d : PairData), 64 ≤ k.written →
    let present : Bool := k.proxyState == .present
    let fullLen := (r.full.map Extent.len).getD 0
    let proxyLen := if present then (r.proxy.map Extent.len).getD 0 else 0
    let counted : TakeRecord → TakeRecord := fun x => { x with
      ordinal := (x.ordinal + 1) % 2 ^ 32, endLabel := d.label
      fullBytes := (x.fullBytes + fullLen) % 2 ^ 64, proxyBytes := (x.proxyBytes + proxyLen) % 2 ^ 64
      held := min 4294967295 (x.held + if k.proxyState = .held then 1 else 0)
      absent := min 4294967295 (x.absent + if k.proxyState = .absent then 1 else 0)
      clippedF := min 4294967295 (x.clippedF + if d.fullClipped = true then 1 else 0)
      clippedP := min 4294967295 (x.clippedP + if present = true ∧ d.proxyClipped = true then 1 else 0)
      gapFrames := min 4294967295 (x.gapFrames + d.gap) }
    s.entryStep k r d = ((State.settleDrained { s with
      store := { s.store.dropHead with pressure := s.store.dropHead.measured }
      takes := { s.takes with table := s.takes.table.map (fun x =>
        if x.number = r.take then counted x else x) } }).finishPiece, false)) ∧
  (∀ (s : State) (k : Work) (r : TakeRecord),
    (64 ≤ k.written → s.headerStep k r = ({ s with
      takes := { s.takes with table := s.takes.table.map (fun x =>
        if x.number = r.number then { x with headerWritten := true } else x) }
      writer := { s.writer with work := some { k with
        step := if k.ending = true then .trailer else .full, written := 0, page := none } } }, true)) ∧
    (k.closed = false → s.writer.proxyPool.attempt ≠ none → s.trailerStep k r = (s, false)) ∧
    (k.closed = false → s.writer.proxyPool.attempt = none →
      s.trailerStep k r = (((s.closeChunk .full true).closeChunk .proxy true).setWork
        { k with closed := true }, true)) ∧
    (k.closed = true → 64 ≤ k.written → s.writer.proxyPool.attempt ≠ none →
      s.trailerStep k r = (s, false)) ∧
    (k.closed = true → 64 ≤ k.written → s.writer.proxyPool.attempt = none →
      let c := (s.closeChunk .proxy true).closeChunk .index true
      let u := (s.trailerStep k r).1
      (s.trailerStep k r).2 = false ∧
      u.takes = { s.takes with table := s.takes.table.drop 1 } ∧
      u.notices.fullCount = 0 ∧ u.notices.proxyCount = 0 ∧ u.notices.indexCount = 0 ∧
      u.notices.age = 0 ∧ u.notices.cause = s.notices.cause ||| 0x0C#8 ∧ c.link <+: u.link ∧
      (∀ q : Pool, u.writer.pool q = { c.writer.pool q with nextSequence := 0 }) ∧
      u.writer.proxyPool.chunk = none ∧ u.writer.indexPool.chunk = none ∧
      u.writer.work = none ∧ u.writer.take = none ∧ u.writer.suspended = s.writer.suspended ∧
      u.store = s.store ∧ u.lanes = s.lanes ∧ u.cadence = s.cadence ∧ u.counters = s.counters ∧
      u.board = s.board)) ∧
  (∀ (s : State) (k : Work) (r : PairRecord) (d : PairData),
    let moves : WriterStep → ProxyState → State × Bool := fun step state => ({ s with
      writer := { s.writer with work := some { k with
        step := step, written := 0, page := none, proxyState := state } } }, true)
    (r.full = none → s.fullStep k r = moves .proxy k.proxyState) ∧
    (∀ e, r.full = some e →
      (e.len ≤ k.written → s.fullStep k r = moves .proxy k.proxyState) ∧
      (k.written < e.len → s.fullStep k r =
        s.placeBytes .full k (.picture .full e.start s.store.fullArea.size) e.len)) ∧
    (d.proxyState ≠ .present → s.proxyStep k r d = moves .entry d.proxyState) ∧
    (d.proxyState = .present → ∀ e, r.proxy = some e → 0 < e.len →
      let room : Chunk → Prop := fun c => c.used + e.len ≤ s.writer.proxyPool.chunkSize
      let places := s.placeBytes .proxy k (.picture .proxy e.start s.store.proxyArea.size) e.len
      (k.written = 0 → s.writer.suspended = true → s.proxyStep k r d = moves .entry .absent) ∧
      (k.written = 0 → s.writer.suspended = false →
        (∀ c, s.writer.proxyPool.chunk = some c → ¬ room c →
          s.proxyStep k r d = (s.closeChunk .proxy false, true)) ∧
        (∀ c, s.writer.proxyPool.chunk = some c → room c → s.proxyStep k r d = places) ∧
        (s.writer.proxyPool.chunk = none → s.proxyStep k r d = (s.attempt .proxy, false))) ∧
      (0 < k.written → k.written < e.len → s.proxyStep k r d = places) ∧
      (e.len ≤ k.written → s.proxyStep k r d = moves .entry .present)) ∧
    (k.written < 64 → s.entryStep k r d = s.placeBytes .index k
      (.record (pairEntry r d k ((s.takes.table.find? (fun x => x.number = r.take)).elim 0
        TakeRecord.ordinal)).bytes) 64)) ∧
  (∀ (s : State),
    (s.writer.work = none → s.writerStep = (s, false)) ∧
    (∀ (k : Work) (t : TakeRecord) (others : List TakeRecord), s.writer.work = some k →
      s.takes.table = t :: others →
      (k.written < 64 → s.headerStep k t = s.placeBytes .index k (.record t.headerBytes) 64) ∧
      (k.closed = true → k.written < 64 →
        s.trailerStep k t = s.placeBytes .index k (.record t.trailerBytes) 64) ∧
      (k.ending = true →
        s.writerStep = if k.step = .header then s.headerStep k t else s.trailerStep k t) ∧
      ∀ (r : PairRecord) (d : PairData) (later : List PairRecord), k.ending = false →
        s.store.list = r :: later → r.pair = some d → r.take ≠ 0#32 →
        (k.step = .header → s.writerStep = s.headerStep k t) ∧
        (k.step = .full → s.writerStep = s.fullStep k r) ∧
        (k.step = .proxy → s.writerStep = s.proxyStep k r d) ∧
        (k.step = .entry → s.writerStep = s.entryStep k r d)) ∧
    s.work = s.runWriter 256 ∧ s.runWriter 0 = s ∧
    ∀ n, s.runWriter (n + 1) = if s.writerStep.2 = true then s.writerStep.1.runWriter n else s.writerStep.1) ∧
  (∀ r : TakeRecord,
    let h := r.headerBytes
    let t := r.trailerBytes
    h.length = 64 ∧ fieldAt h 0 1 = 1 ∧ fieldAt h 1 1 = r.header.base % 256 ∧
    fieldAt h 2 1 = (if r.header.mode = .recordRun then 1 else 0) + (if r.header.df = true then 2 else 0) ∧
    fieldAt h 3 1 = r.header.scale.code ∧ fieldAt h 4 4 = r.number.toNat ∧
    fieldAt h 8 8 = r.header.period % 2 ^ 64 ∧ fieldAt h 16 4 = r.header.targetF % 2 ^ 32 ∧
    fieldAt h 20 4 = r.header.targetP % 2 ^ 32 ∧ fieldAt h 24 2 = r.header.width % 65536 ∧
    fieldAt h 26 2 = r.header.height % 65536 ∧ fieldAt h 28 4 = r.preroll % 2 ^ 32 ∧
    (h.drop 32).take 4 = r.startLabel.bytes ∧ (h.drop 36).take 28 = List.replicate 28 0#8 ∧
    t.length = 64 ∧ fieldAt t 0 1 = 3 ∧ fieldAt t 1 1 = r.cause.code ∧ fieldAt t 4 4 = r.number.toNat ∧
    fieldAt t 8 4 = r.ordinal % 2 ^ 32 ∧ (t.drop 12).take 4 = r.endLabel.bytes ∧
    fieldAt t 16 4 = r.held % 2 ^ 32 ∧ fieldAt t 20 4 = r.absent % 2 ^ 32 ∧
    fieldAt t 24 4 = r.clippedF % 2 ^ 32 ∧ fieldAt t 28 4 = r.clippedP % 2 ^ 32 ∧
    fieldAt t 32 4 = r.gapFrames % 2 ^ 32 ∧ fieldAt t 40 8 = r.fullBytes % 2 ^ 64 ∧
    fieldAt t 48 8 = r.proxyBytes % 2 ^ 64 ∧ (t.drop 56).take 8 = List.replicate 8 0#8) ∧
  ∀ (r : PairRecord) (d : PairData) (k : Work) (ordinal : Nat),
    let b := (pairEntry r d k ordinal).bytes
    let present : Bool := k.proxyState == .present
    b.length = 64 ∧ fieldAt b 0 1 = 2 ∧
    fieldAt b 1 1 = (if d.damaged = true then 1 else 0) + (if d.retimed = true then 2 else 0) +
      (if r.preroll = true then 4 else 0) + (if d.fullClipped = true then 8 else 0) +
      (if present = true ∧ d.proxyClipped = true then 16 else 0) ∧
    fieldAt b 2 2 = d.gap % 65536 ∧ fieldAt b 4 4 = ordinal % 2 ^ 32 ∧ fieldAt b 8 4 = r.frame.toNat ∧
    (b.drop 12).take 4 = d.label.bytes ∧ fieldAt b 16 2 = (d.mark.map BitVec.toNat).getD 0 ∧
    fieldAt b 18 1 = d.fullQ % 256 ∧ fieldAt b 19 1 = (if present then d.proxyQ % 256 else 0) ∧
    fieldAt b 20 1 = k.proxyState.code ∧ fieldAt b 24 8 = k.fullOffset % 2 ^ 64 ∧
    fieldAt b 32 4 = (r.full.map Extent.len).getD 0 % 2 ^ 32 ∧
    fieldAt b 36 4 = (if present then (r.proxy.map Extent.len).getD 0 % 2 ^ 32 else 0) ∧
    fieldAt b 40 8 = (if present then k.proxyOffset % 2 ^ 64 else 0) ∧ fieldAt b 48 4 = r.take.toNat ∧
    (b.drop 52).take 12 = List.replicate 12 0#8

/-- CHUNK_ENTRY_READ_DONE (R131, R132, R138, R143, R147): an abandoned read; no completion; an entry passed over; a
scan that fails, while the writer is SUSPENDED too; a rejected address, also at a scan's last entry; and an entry taken,
written FILLING before anything else, the take number 0 where no take is current, which no run reaches (the model's
choice, log 36); the next sequence wraps at 2^32 (the model's choice, log 18). A FULL or INDEX attempt that fails has
the writer wait, SUSPENDED or not; a suspension attempt leaves the writer and its work alone, in a BLOCKED writer too (the
model's choice, log 49), but that an ending take which waited for its end goes on (R140, R143; with its trailer written it
waits too, the model's choice, log 36). With a chunk taken the wait ends and the proxy wait
count of a PROXY one is 0, or SUSPENDED is cleared (R132, R141, R143). A full picture goes on into the chunk, at the
translation it holds when the byte before lay on the same page, and else at a new one that hits (R151). Then how the
writer places bytes (R131, R135, R138, R151): it seeks a chunk, closes a full one, asks for a page, or writes as many
bytes as chunk and page hold; and what a close writes (R129, R138). That a completion of no read at all changes nothing
is DEDUCED (log 3). A fault's MSI is sent at its report, the model's choice (log 52). Past 2^64 a Board address goes on
at 0, the model's choice (log 51). -/
def Obligations.ChunkEntryRead : Prop :=
  (∀ (s : State) (tag : Nat) (data : Option (List Byte)),
    ((∀ p a, (s.writer.pool p).attempt = some a → a.tag ≠ tag) →
      exec (.chunkEntryReadDone tag data) s = .next s) ∧
    ∀ (p : Pool) (a : Attempt), (s.writer.pool p).attempt = some a → a.tag = tag →
      (∀ q b, q ≠ p → (s.writer.pool q).attempt = some b → b.tag ≠ tag) →
      let x := s.writer.pool p
      let next := (a.entry + 1) % x.count
      let entry : Nat → HostAddr := fun i => s.board.anchor + BitVec.ofNat 64 (p.table + 32 * i)
      let waits : WaitCause → Writer := fun c =>
        { s.writer.setPool p { x with attempt := none } with
          phase := .waiting, wait := some (p, c)
          patienceOut := if s.writer.waitsProxy = true then s.writer.patienceOut else false
          proxyWait := if s.writer.waitsProxy = true then s.writer.proxyWait else 0 }
      let frame := match s.writer.work with
        | none => s.cadence.frameNumber
        | some k => if k.ending then s.cadence.frameNumber else k.frame
      let take := s.writer.take.getD 0#32
      let detail := BitVec.ofNat 32 (a.entry % 256 + 256 * p.code)
      let scanned : State := { s with
        writer := s.writer.setPool p
          { x with attempt := some { tag := s.nextTag, entry := next, left := a.left - 1 } }
        link := s.link ++ [.read s.nextTag (entry next) 32], nextTag := s.nextTag + 1 }
      let resumed : State → State := fun t => match s.writer.work with
        | none => t
        | some k =>
          if k.ending = true ∧ k.step = .trailer ∧ (k.closed = false ∨ 64 ≤ k.written) then t.work else t
      (p ≠ .proxy ∨ (s.writer.suspended = false ∧ s.writer.patienceOut = false) →
        (data = none → exec (.chunkEntryReadDone tag data) s = .next
          { s.reportFault .linkRead frame take detail with writer := waits .entryRead }) ∧
        (∀ bytes, data = some bytes → fieldAt bytes 4 1 ≠ 1 → a.left ≤ 1 →
          exec (.chunkEntryReadDone tag data) s = .next { s with writer := waits .noChunk })) ∧
      (p = .proxy → s.writer.suspended = true →
        let idle : Writer := { s.writer with proxyPool := { x with attempt := none } }
        (data = none → exec (.chunkEntryReadDone tag data) s = .next
          (resumed { s.reportFault .linkRead frame take detail with writer := idle })) ∧
        (∀ bytes, data = some bytes → fieldAt bytes 4 1 ≠ 1 → a.left ≤ 1 →
          exec (.chunkEntryReadDone tag data) s = .next (resumed { s with writer := idle }))) ∧
      (s.writer.suspended = false → s.writer.patienceOut = false →
        (data = none → exec (.chunkEntryReadDone tag data) s = .next
          { s.reportFault .linkRead frame take detail with writer := waits .entryRead }) ∧
        (∀ bytes, data = some bytes → fieldAt bytes 4 1 ≠ 1 → a.left ≤ 1 →
          exec (.chunkEntryReadDone tag data) s = .next { s with writer := waits .noChunk })) ∧
      (p = .proxy → s.writer.suspended = true → s.writer.work = none →
        (data = none → exec (.chunkEntryReadDone tag data) s = .next
          { s.reportFault .linkRead frame take detail with
            writer := { s.writer with proxyPool := { x with attempt := none } } }) ∧
        (∀ bytes, data = some bytes → fieldAt bytes 4 1 ≠ 1 → a.left ≤ 1 →
          exec (.chunkEntryReadDone tag data) s = .next { s with
            writer := { s.writer with proxyPool := { x with attempt := none } } })) ∧
      (∀ bytes, data = some bytes → fieldAt bytes 4 1 ≠ 1 → 1 < a.left →
        exec (.chunkEntryReadDone tag data) s = .next scanned) ∧
      (∀ bytes, data = some bytes → fieldAt bytes 4 1 = 1 →
        fieldAt bytes 0 4 % 2097152 ≠ 0 ∨ 4294967296 < fieldAt bytes 0 4 + x.chunkSize →
        let rejected := State.reportFault { s with
          counters := { s.counters with
            chunksRejected := min 4294967295 (s.counters.chunksRejected + 1) }
          link := s.link ++ [.write (entry a.entry + 4#64) [4#8]] } .chunkRejected frame take detail
        (1 < a.left → exec (.chunkEntryReadDone tag data) s = .next { rejected with
          writer := scanned.writer, nextTag := s.nextTag + 1
          link := rejected.link ++ [.read s.nextTag (entry next) 32] }) ∧
        (a.left ≤ 1 → p ≠ .proxy ∨ (s.writer.suspended = false ∧ s.writer.patienceOut = false) →
          exec (.chunkEntryReadDone tag data) s = .next { rejected with writer := waits .noChunk }) ∧
        (a.left ≤ 1 → p = .proxy → s.writer.suspended = true →
          exec (.chunkEntryReadDone tag data) s = .next (resumed { rejected with
            writer := { s.writer with proxyPool := { x with attempt := none } } }))) ∧
      (∀ bytes, data = some bytes → fieldAt bytes 4 1 = 1 → fieldAt bytes 0 4 % 2097152 = 0 →
        fieldAt bytes 0 4 + x.chunkSize ≤ 4294967296 →
        let filling : LinkItem := .write (entry a.entry + 4#64)
          ([2#8, 0#8, 0#8, 0#8] ++ leBytes 4 take.toNat ++ leBytes 4 x.nextSequence ++
            leBytes 8 (x.nextSequence * x.chunkSize) ++ List.replicate 8 0#8)
        let taken := { x with
          chunk := some { entry := a.entry, addr := fieldAt bytes 0 4, take := take
                          sequence := x.nextSequence, offset := x.nextSequence * x.chunkSize
                          used := 0 }
          attempt := none, cursor := next, nextSequence := (x.nextSequence + 1) % 4294967296 }
        ∃ u : State, exec (.chunkEntryReadDone tag data) s = .next u ∧
          s.link ++ [filling] <+: u.link ∧
          (∀ (k : Work) (t : TakeRecord) (others : List TakeRecord) (r : PairRecord) (d : PairData)
              (later : List PairRecord) (e : Extent) (base : HostAddr),
            let page := fieldAt bytes 0 4 / 2097152
            p = .full → s.writer.work = some k → k.ending = false → k.step = .full →
            k.written < e.len → s.takes.table = t :: others → s.store.list = r :: later →
            r.pair = some d → r.take ≠ 0#32 → r.full = some e → 0 < x.chunkSize →
            k.page = some (page, base) ∨
              ((∀ b, k.page ≠ some (page, b)) ∧ ∃ way, s.aperture.lookup page = some (way, base)) →
            s.link ++ [filling, .payload base .full ((e.start + k.written) % s.store.fullArea.size)
              (min (e.len - k.written) (min x.chunkSize 2097152))] <+: u.link) ∧
          (u.writer.pool p).cursor = next ∧
          u.cadence = s.cadence ∧ u.lanes = s.lanes ∧ u.board = s.board ∧
          (p ≠ .proxy ∨ s.writer.suspended = false → u.writer.wait = none ∧
            u.writer.suspended = s.writer.suspended ∧
            u.writer.proxyWait = if p = .proxy then 0 else s.writer.proxyWait) ∧
          (p = .proxy → s.writer.suspended = true → u.writer.wait = s.writer.wait ∧
            u.writer.suspended = false) ∧
          (p = .proxy → s.writer.suspended = true → s.writer.work = none →
            u = { s with
              writer := { s.writer with proxyPool := taken, suspended := false }
              link := s.link ++ [filling] }) ∧
          (p = .proxy → s.writer.suspended = true →
            u = resumed { s with
              writer := { s.writer with proxyPool := taken, suspended := false }
              link := s.link ++ [filling] }))) ∧
  (∀ (s : State) (p : Pool) (k : Work) (src : Source) (total : Nat),
    let x := s.writer.pool p
    (x.chunk = none → s.placeBytes p k src total = (s.attempt p, false)) ∧
    ∀ c : Chunk, x.chunk = some c →
      let page := (c.addr + c.used) / 2097152
      let inPage := (c.addr + c.used) % 2097152
      (x.chunkSize ≤ c.used → s.placeBytes p k src total = (s.closeChunk p false, true)) ∧
      (c.used < x.chunkSize →
        ((∀ base, k.page ≠ some (page, base)) →
          (∀ way base, s.aperture.lookup page = some (way, base) →
            s.placeBytes p k src total = (State.setWork { s with aperture := s.aperture.use page way }
              { k with page := some (page, base) }, true)) ∧
          (s.aperture.lookup page = none → s.aperture.fetch ≠ none →
            s.placeBytes p k src total = ({ s with aperture := { s.aperture with
              misses := s.aperture.misses ++ [{ client := .writer, page := page }] } }, false)) ∧
          (s.aperture.lookup page = none → s.aperture.fetch = none →
            s.placeBytes p k src total = ({ s with
              aperture := { s.aperture with
                misses := s.aperture.misses ++ [{ client := .writer, page := page }]
                fetch := some { page := page, discard := false, tag := s.nextTag } }
              link := s.link ++
                [.read s.nextTag (s.board.anchor + BitVec.ofNat 64 (0x4000 + 8 * page)) 8]
              nextTag := s.nextTag + 1 }, false))) ∧
        (∀ base, k.page = some (page, base) →
          let len := min (total - k.written) (min (x.chunkSize - c.used) (2097152 - inPage))
          let addr := base + BitVec.ofNat 64 inPage
          let item : LinkItem := match src with
            | .record bytes => .write addr ((bytes.drop k.written).take len)
            | .picture lane start size => .payload addr lane ((start + k.written) % size) len
          s.placeBytes p k src total = ({ s with
            link := s.link ++ [item]
            writer := { s.writer.setPool p { x with chunk := some { c with used := c.used + len } } with
              work := some { k with
                written := k.written + len
                fullOffset := if k.written = 0 ∧ p = .full then c.offset + c.used else k.fullOffset
                proxyOffset := if k.written = 0 ∧ p = .proxy then c.offset + c.used
                  else k.proxyOffset } } }, true)))) ∧
  ∀ (s : State) (p : Pool) (last : Bool),
    let x := s.writer.pool p
    (x.chunk = none → s.closeChunk p last = s) ∧
    ∀ c : Chunk, x.chunk = some c →
      s.closeChunk p last = State.countClose { s with
        writer := s.writer.setPool p { x with chunk := none }
        link := s.link ++ [.write (s.board.anchor + BitVec.ofNat 64 (p.table + 32 * c.entry) + 4#64)
          ([3#8, BitVec.ofNat 8 ((if c.used < x.chunkSize then 1 else 0) + (if last = true then 2 else 0)),
            0#8, 0#8] ++ leBytes 4 c.take.toNat ++ leBytes 4 c.sequence ++ leBytes 8 c.offset ++
            leBytes 4 c.used ++ List.replicate 4 0#8)] } p

/-- PROXY_SUSPENDED (R141, R142): at the patience the wait ends, the fault is reported, the pair's proxy is recorded
ABSENT and the writer goes on to its Pair Entry. COALESCING_AGE_LIMIT (R187): chunks of the age limit are
announced. Elsewhere neither does anything, for both are commands of the table (the model's choice, log 26). Then what
moves the count and the age: a frame start at a writer that waits for a FULL or INDEX chunk begins an attempt unless one
is in flight (R132); at one that waits for a PROXY chunk it moves the count, with a new attempt below the patience,
suspension at it, or, with an attempt in flight, suspension when that has ended without a chunk (R141; the comparison is
the frame start's, DEDUCED, log 17; that a failed read is such an end too, after its LINK_READ, is the model's choice,
log 46); at one that waits for a translation it asks again (R145). A SUSPENDED writer with a current take makes one PROXY
attempt beside its work (R143; not at the frame start that suspends it: DEDUCED, log 15; in a BLOCKED writer too, the
model's choice, log 49). The age grows with each frame
start while chunks wait, and announces at its limit (R187). That the count stops at 255 and the age at 2^32-1 is the
model's choice (log 47). A fault's MSI is sent at its report, the model's choice (log 52). Past 2^64 a Board address
goes on at 0, the model's choice (log 51). -/
def Obligations.PatienceAndAge : Prop :=
  ∀ s : State,
    let reads : State → Pool → State := fun t p =>
      let x := t.writer.pool p
      if x.attempt ≠ none then t
      else { t with
        writer := t.writer.setPool p
          { x with attempt := some { tag := t.nextTag, entry := x.cursor, left := x.count } }
        link := t.link ++ [.read t.nextTag (t.board.anchor + BitVec.ofNat 64 (p.table + 32 * x.cursor)) 32]
        nextTag := t.nextTag + 1 }
    let frame := match s.writer.work with
      | none => s.cadence.frameNumber
      | some k => if k.ending then s.cadence.frameNumber else k.frame
    let take := s.writer.take.getD 0#32
    let waited := s.writerWaitFrameStart
    let suspends : State → State := fun t =>
      let f := t.reportFault .proxySuspended frame take 0x100#32
      State.work { f with writer := { t.writer with
        phase := .writing, wait := none, proxyWait := 0, suspended := true, patienceOut := false
        work := t.writer.work.map (fun k =>
          { k with step := .entry, written := 0, page := none, proxyState := .absent }) } }
    (∀ c : WaitCause, s.writer.wait = some (.proxy, c) → c ≠ .translationRead →
      s.writer.proxyPool.attempt = none → s.takes.profile.patience ≤ s.writer.proxyWait →
      exec .proxySuspended s = .next (suspends s) ∧
      ∀ (k : Work) (r : PairRecord) (d : PairData) (rest : List PairRecord), s.writer.work = some k →
        k.ending = false → s.takes.table ≠ [] → s.store.list = r :: rest → r.pair = some d →
        r.take ≠ 0#32 → s.writer.indexPool.chunk = none → s.writer.indexPool.attempt = none →
        let f := s.reportFault .proxySuspended k.frame take 0x100#32
        suspends s = { f with
          writer := { s.writer with
            phase := .writing, wait := none, proxyWait := 0, suspended := true, patienceOut := false
            work := some { k with step := .entry, written := 0, page := none, proxyState := .absent }
            indexPool := { s.writer.indexPool with
              attempt := some { tag := s.nextTag, entry := s.writer.indexPool.cursor
                                left := s.writer.indexPool.count } } }
          link := f.link ++ [.read s.nextTag
            (s.board.anchor + BitVec.ofNat 64 (0x1400 + 32 * s.writer.indexPool.cursor)) 32]
          nextTag := s.nextTag + 1 }) ∧
    ((∀ c, s.writer.wait = some (.proxy, c) → c = .translationRead) ∨
        s.writer.proxyPool.attempt ≠ none ∨ s.writer.proxyWait < s.takes.profile.patience →
      exec .proxySuspended s = .next s) ∧
    s.writerFrameStart = (if s.writer.suspended = true ∧ waited.writer.suspended = true ∧
        waited.writer.take ≠ none then reads waited .proxy else waited) ∧
    (s.writer.phase ≠ .waiting ∨ s.writer.wait = none → s.writerWaitFrameStart = s) ∧
    (s.writer.phase = .waiting → ∀ (p : Pool) (c : WaitCause), s.writer.wait = some (p, c) →
      (p ≠ .proxy → c ≠ .translationRead → s.writerWaitFrameStart = reads s p) ∧
      (p = .proxy → c ≠ .translationRead →
        let count := min 255 (s.writer.proxyWait + 1)
        let counted : State := { s with writer := { s.writer with
          proxyWait := count, patienceOut := decide (s.takes.profile.patience ≤ count) } }
        (count < s.takes.profile.patience → s.writerWaitFrameStart = reads counted .proxy) ∧
        (s.takes.profile.patience ≤ count → s.writer.proxyPool.attempt = none →
          s.writerWaitFrameStart = suspends counted) ∧
        (s.takes.profile.patience ≤ count → s.writer.proxyPool.attempt ≠ none →
          s.writerWaitFrameStart = counted)) ∧
      (c = .translationRead → (∃ m ∈ s.aperture.misses, m.client = .writer) → s.writerWaitFrameStart = s) ∧
      (c = .translationRead → (∀ m ∈ s.aperture.misses, m.client ≠ .writer) → ∀ (k : Work) (x : Chunk),
        s.writer.work = some k → (s.writer.pool k.step.pool).chunk = some x →
        let page := (x.addr + x.used) / 2097152
        let waiting : List Miss := s.aperture.misses ++ [{ client := .writer, page := page }]
        (∀ way base, s.aperture.lookup page = some (way, base) →
          s.writerWaitFrameStart = State.work { s with
            aperture := s.aperture.use page way
            writer := { s.writer with
              phase := .writing, wait := none, blocked := none
              work := some { k with page := some (page, base) } } }) ∧
        (s.aperture.lookup page = none → s.aperture.fetch ≠ none →
          s.writerWaitFrameStart = { s with aperture := { s.aperture with misses := waiting } }) ∧
        (s.aperture.lookup page = none → s.aperture.fetch = none →
          s.writerWaitFrameStart = { s with
            aperture := { s.aperture with
              misses := waiting
              fetch := some { page := page, discard := false, tag := s.nextTag } }
            link := s.link ++ [.read s.nextTag (s.board.anchor + BitVec.ofNat 64 (0x4000 + 8 * page)) 8]
            nextTag := s.nextTag + 1 }))) ∧
    (∀ (a : Attempt) (tag : Nat), s.writer.proxyPool.attempt = some a → a.tag = tag →
      (∀ q b, q ≠ .proxy → (s.writer.pool q).attempt = some b → b.tag ≠ tag) →
      s.writer.suspended = false → s.writer.patienceOut = true →
      let ended : State → State := fun t => { t with
        writer := { s.writer with proxyPool := { s.writer.proxyPool with attempt := none } } }
      let detail := BitVec.ofNat 32 (a.entry % 256 + 256)
      (∀ bytes, fieldAt bytes 4 1 ≠ 1 → a.left ≤ 1 →
        exec (.chunkEntryReadDone tag (some bytes)) s = .next (suspends (ended s))) ∧
      (∀ bytes, fieldAt bytes 4 1 = 1 → a.left ≤ 1 → fieldAt bytes 0 4 % 2097152 ≠ 0 ∨
          4294967296 < fieldAt bytes 0 4 + s.writer.proxyPool.chunkSize →
        exec (.chunkEntryReadDone tag (some bytes)) s = .next (suspends (ended (State.reportFault { s with
          counters := { s.counters with
            chunksRejected := min 4294967295 (s.counters.chunksRejected + 1) }
          link := s.link ++ [.write (s.board.anchor + BitVec.ofNat 64 (0x0C00 + 32 * a.entry) + 4#64) [4#8]] }
          .chunkRejected frame take detail)))) ∧
      exec (.chunkEntryReadDone tag none) s = .next
        (suspends (ended (s.reportFault .linkRead frame take detail)))) ∧
    let total := s.notices.fullCount + s.notices.proxyCount + s.notices.indexCount
    let age := min 4294967295 (s.notices.age + 1)
    let announced := State.withCauses { s with notices := { s.notices with
      fullCount := 0, proxyCount := 0, indexCount := 0, age := 0 } } 0x04#8
    (total = 0 → s.coalesceFrameStart = s) ∧
    (0 < total → s.notices.ageLimit ≠ 0 → s.notices.ageLimit ≤ age → s.coalesceFrameStart = announced) ∧
    (0 < total → s.notices.ageLimit = 0 ∨ age < s.notices.ageLimit →
      s.coalesceFrameStart = { s with notices := { s.notices with age := age } }) ∧
    (0 < total → s.notices.ageLimit ≠ 0 → s.notices.ageLimit ≤ s.notices.age →
      exec .coalescingAgeLimit s = .next announced) ∧
    (total = 0 ∨ s.notices.ageLimit = 0 ∨ s.notices.age < s.notices.ageLimit →
      exec .coalescingAgeLimit s = .next s)

/-- APERTURE_FETCH_DONE (R154, R155, R157, R144): an abandoned fetch; a refetch under DISCARD; no data, with which the
writer that asked alone is WAITING with cause TRANSLATION_READ at its position, LINK_READ reported with bit 31 of its
detail set (R145, R148), and a chain's visit ends in a chain fault (R177, R178); a valid entry, which from then on hits
and leaves no miss of its page; and an invalid one that blocks the writer, or leaves a BLOCKED one as it stands, with no
new fault (R145, R158), or ends a chain's visit in a chain fault. A translation that the writer waited for sets it going
again, its next bytes written at the page's address (R144, R145, R151); one that the chain waited for has it read the
anchor's Next, fetch its record, or write its result and end (R175, R176, R178; the order of a result's writes is the
model's choice, log 28, that its frame number and label are those at the write DEDUCED, log 11; that a result fault
consumes its record with no more done DEDUCED, log 12; the page a chain fault names DEDUCED, log 27). That a retry which
fails again reports LINK_READ anew, and one answered INVALID from a translation read wait blocks with its fault, is DEDUCED
(log 16). A root anchor's Next that runs over its page's end is read at that page alone, the model's choice (log 44).
The first clause after the abandoned fetch gives every fetch that is done: the way that is filled (R153), the answers to
the misses of its page in the order of the list, of one client or of both, in any phase and with visit again, NOTIFY or
STALLED set (a visit that ends at the limit with visit again set brings one new visit, DEDUCED, log 13), and the fetch of
the miss behind them, begun before the answered clients act (the model's choice, log 50). That a completion of no read
at all changes nothing is DEDUCED (log 3). A fault's MSI is sent at its report, the model's choice (log 52). Past 2^64 a
Board address goes on at 0, the model's choice (log 51). -/
def Obligations.ApertureFetch : Prop :=
  ∀ (s : State) (tag : Nat) (data : Option (List Byte)),
    ((∀ f, s.aperture.fetch = some f → f.tag ≠ tag) →
      exec (.apertureFetchDone tag data) s = .next s) ∧
    (∀ f : Fetch, s.aperture.fetch = some f → f.tag = tag → f.discard = false →
      let answer : Answer := match data with
        | none => .readFailed
        | some bytes =>
          let entry := BitVec.ofNat 64 (fieldAt bytes 0 8)
          if entry.getLsbD 0 = true then .translated ((entry >>> 21) <<< 21) else .invalid
      let sets := match answer with
        | .translated base =>
          s.aperture.sets.set (f.page % 8) ((s.aperture.set (f.page % 8)).filled f.page base)
        | _ => s.aperture.sets
      let left := s.aperture.misses.filter (fun m => m.page != f.page)
      let settled : State := match left with
        | [] => { s with aperture := { sets := sets, misses := [], fetch := none } }
        | m :: _ => { s with
          aperture := { sets := sets, misses := left
                        fetch := some { page := m.page, discard := false, tag := s.nextTag } }
          link := s.link ++ [.read s.nextTag (s.board.anchor + BitVec.ofNat 64 (0x4000 + 8 * m.page)) 8]
          nextTag := s.nextTag + 1 }
      let host : Option HostAddr := match answer with
        | .translated base => some base
        | _ => none
      (∀ m, left.head? = some m →
        Aperture.lookup { sets := sets, misses := left, fetch := none } m.page = none) →
      exec (.apertureFetchDone tag data) s = .next
        ((s.aperture.misses.filter (fun m => m.page == f.page)).foldl (fun u m =>
          match m.client with
          | .writer => u.writerAnswered m.page answer
          | .chain => u.chainAnswered host) settled)) ∧
    ∀ f : Fetch, s.aperture.fetch = some f → f.tag = tag →
      (f.discard = true → exec (.apertureFetchDone tag data) s = .next { s with
        aperture := { s.aperture with fetch := some { page := f.page, discard := false, tag := s.nextTag } }
        link := s.link ++ [.read s.nextTag (s.board.anchor + BitVec.ofNat 64 (0x4000 + 8 * f.page)) 8]
        nextTag := s.nextTag + 1 }) ∧
      (f.discard = false → data = none →
        let freed : Aperture := { s.aperture with misses := [], fetch := none }
        (∀ (k : Work) (c : Chunk), s.aperture.misses = [{ client := .writer, page := f.page }] →
          s.writer.work = some k → (s.writer.pool k.step.pool).chunk = some c →
          exec (.apertureFetchDone tag data) s = .next (State.reportFault { s with
            aperture := freed
            writer := { s.writer with
              phase := .waiting, wait := some (k.step.pool, .translationRead)
              blocked := some { pool := k.step.pool, offset := c.used, page := f.page } } } .linkRead
              (if k.ending = true then s.cadence.frameNumber else k.frame) (s.writer.take.getD 0#32)
              (BitVec.ofNat 32 (f.page + 2147483648)))) ∧
        (∀ p : PendingResult, s.aperture.misses = [{ client := .chain, page := f.page }] →
          s.chain.phase = .resultPage p → s.chain.again = false → s.chain.notify = false →
          s.chain.stalled = false → exec (.apertureFetchDone tag data) s = .next
            { s.reportFault .chainFault s.cadence.frameNumber s.openTakeNumber
                (BitVec.ofNat 32 (p.addr / 2097152)) with
              aperture := freed
              chain := { s.chain with
                phase := .idle, anchor := p.addr, count := s.chain.count + 1, stalled := true } })) ∧
      (f.discard = false → s.aperture.misses = [{ client := .chain, page := f.page }] →
        (∀ bytes, data = some bytes → (BitVec.ofNat 64 (fieldAt bytes 0 8)).getLsbD 0 = false) →
        s.chain.again = false → s.chain.notify = false → ∀ addr : Nat,
        (s.chain.phase = .anchorPage ∧ addr = s.chain.anchor) ∨ s.chain.phase = .recordPage addr →
        let freed : Aperture := { s.aperture with misses := [], fetch := none }
        (s.chain.stalled = true → exec (.apertureFetchDone tag data) s = .next
          { s with aperture := freed, chain := { s.chain with phase := .idle } }) ∧
        (s.chain.stalled = false → exec (.apertureFetchDone tag data) s = .next
          { s.reportFault .chainFault s.cadence.frameNumber s.openTakeNumber
              (BitVec.ofNat 32 (addr / 2097152)) with
            aperture := freed, chain := { s.chain with stalled := true, phase := .idle } })) ∧
      (f.discard = false → s.aperture.misses = [{ client := .chain, page := f.page }] → s.cacheLegal →
        ∀ bytes, data = some bytes → (BitVec.ofNat 64 (fieldAt bytes 0 8)).getLsbD 0 = true →
        let base := (BitVec.ofNat 64 (fieldAt bytes 0 8) >>> 21) <<< 21
        ∃ (a : Aperture) (way : Nat), a.misses = [] ∧ a.fetch = none ∧
          a.lookup f.page = some (way, base) ∧
          (s.chain.phase = .anchorPage → exec (.apertureFetchDone tag data) s = .next { s with
            aperture := a
            chain := { s.chain with phase := .nextRead s.nextTag }
            link := s.link ++ [.read s.nextTag (base + BitVec.ofNat 64 (s.chain.anchor % 2097152)) 4]
            nextTag := s.nextTag + 1 }) ∧
          (∀ addr, s.chain.phase = .recordPage addr → exec (.apertureFetchDone tag data) s = .next { s with
            aperture := a
            chain := { s.chain with phase := .recordRead s.nextTag addr }
            link := s.link ++ [.read s.nextTag (base + BitVec.ofNat 64 (addr % 2097152)) 64]
            nextTag := s.nextTag + 1 }) ∧
          (∀ p : PendingResult, s.chain.phase = .resultPage p → s.chain.again = false →
            s.chain.count < 7 → p.next = 0 →
            let host := base + BitVec.ofNat 64 (p.addr % 2097152)
            let notify := s.chain.notify || p.notify
            let done : State := { s with
              aperture := a
              chain := { s.chain with
                phase := .idle, anchor := p.addr, count := s.chain.count + 1, notify := notify
                stalled := false }
              link := s.link ++
                [.write (host + 7#64) (leBytes 1 p.result.code.code),
                 .write (host + 8#64) (leBytes 4 s.cadence.frameNumber.toNat ++ s.visitLabel.bytes),
                 .write (host + 48#64) p.result.data,
                 .write (host + 6#64) (leBytes 1 p.result.status.code)]
              counters := { s.counters with directivesRefused :=
                if p.result.status = .refused then min 4294967295 (s.counters.directivesRefused + 1)
                else s.counters.directivesRefused } }
            exec (.apertureFetchDone tag data) s = .next
              (if notify = true then done.withCauses 0x02#8 else done))) ∧
      (f.discard = false → ∀ bytes, data = some bytes →
        let entry := BitVec.ofNat 64 (fieldAt bytes 0 8)
        (s.cacheLegal → entry.getLsbD 0 = true →
          ∃ (u : State) (way : Nat), exec (.apertureFetchDone tag data) s = .next u ∧
            u.aperture.lookup f.page = some (way, (entry >>> 21) <<< 21) ∧
            (∀ m ∈ u.aperture.misses, m.page ≠ f.page) ∧
            u.cadence = s.cadence ∧ u.lanes = s.lanes ∧ u.board = s.board ∧
            (∀ (k : Work) (t : TakeRecord) (others : List TakeRecord) (r : PairRecord) (d : PairData)
                (later : List PairRecord) (e : Extent) (c : Chunk),
              s.aperture.misses = [{ client := .writer, page := f.page }] →
              s.writer.work = some k → k.ending = false → k.step = .full → k.written < e.len →
              s.takes.table = t :: others → s.store.list = r :: later → r.pair = some d →
              r.take ≠ 0#32 → r.full = some e → s.writer.fullPool.chunk = some c →
              c.used < s.writer.fullPool.chunkSize → (c.addr + c.used) / 2097152 = f.page →
              let inPage := (c.addr + c.used) % 2097152
              s.link ++ [.payload ((entry >>> 21) <<< 21 + BitVec.ofNat 64 inPage) .full
                ((e.start + k.written) % s.store.fullArea.size)
                (min (e.len - k.written)
                  (min (s.writer.fullPool.chunkSize - c.used) (2097152 - inPage)))] <+: u.link)) ∧
        (entry.getLsbD 0 = false → s.aperture.misses = [{ client := .writer, page := f.page }] →
          s.writer.phase = .blocked → exec (.apertureFetchDone tag data) s = .next { s with
            aperture := { s.aperture with misses := [], fetch := none } }) ∧
        (entry.getLsbD 0 = false → s.aperture.misses = [{ client := .writer, page := f.page }] →
          s.writer.phase = .writing → ∀ (k : Work) (c : Chunk), s.writer.work = some k →
          k.ending = false → (s.writer.pool k.step.pool).chunk = some c →
          exec (.apertureFetchDone tag data) s = .next (State.reportFault { s with
            aperture := { s.aperture with misses := [], fetch := none }
            writer := { s.writer with
              phase := .blocked, wait := none
              blocked := some { pool := k.step.pool, offset := c.used, page := f.page } }
            counters := { s.counters with
              apertureFaults := min 4294967295 (s.counters.apertureFaults + 1) } } .apertureFault
              k.frame (s.writer.take.getD 0#32) (BitVec.ofNat 32 f.page))))

/-- CHAIN_NEXT_READ_DONE (R175, R177, R179): a read that no visit waits for; an end of the chain, which clears
STALLED; a misaligned Next, and a read that fails, as one chain fault; and the fetch of the record. That the detail is
a misaligned Next's own page, and the anchor's page for a failed read of Next, is DEDUCED (log 27). The last clauses say
the same of every state: with a record's page that misses, with STALLED or a NOTIFY there at a chain fault, and with
visit again set, where the end begins a new visit and clears it (R174). A new visit reads an anchor's Next that runs over
its page's end at that page alone, the model's choice (log 44). That a completion of no read at all changes nothing is
DEDUCED (log 3). A fault's MSI is sent at its report, the model's choice (log 52). Past 2^64 a Board address goes on at
0, the model's choice (log 51). -/
def Obligations.ChainNextRead : Prop :=
  ∀ (s : State) (tag : Nat) (data : Option (List Byte)),
    (s.chain.phase ≠ .nextRead tag → exec (.chainNextReadDone tag data) s = .next s) ∧
    (s.chain.phase = .nextRead tag → s.chain.again = false →
      (data = none → s.chain.stalled = false → s.chain.notify = false →
        exec (.chainNextReadDone tag data) s = .next
          { s.reportFault .chainFault s.cadence.frameNumber s.openTakeNumber
              (BitVec.ofNat 32 (s.chain.anchor / 2097152)) with
            chain := { s.chain with stalled := true, phase := .idle } }) ∧
      ∀ bytes, data = some bytes →
        let next := fieldAt bytes 0 4
        (next = 0 → s.chain.notify = false → exec (.chainNextReadDone tag data) s = .next
          { s with chain := { s.chain with phase := .idle, stalled := false } }) ∧
        (next = 0 → s.chain.notify = true → exec (.chainNextReadDone tag data) s = .next
          (State.withCauses { s with chain := { s.chain with phase := .idle, stalled := false } } 0x02#8)) ∧
        (next % 64 ≠ 0 → s.chain.notify = false → s.chain.stalled = true →
          exec (.chainNextReadDone tag data) s = .next
            { s with chain := { s.chain with phase := .idle } }) ∧
        (next % 64 ≠ 0 → s.chain.notify = false → s.chain.stalled = false →
          exec (.chainNextReadDone tag data) s = .next
            { s.reportFault .chainFault s.cadence.frameNumber s.openTakeNumber
                (BitVec.ofNat 32 (next / 2097152)) with
              chain := { s.chain with stalled := true, phase := .idle } }) ∧
        (next ≠ 0 → next % 64 = 0 → ∀ way base,
          s.aperture.lookup (next / 2097152) = some (way, base) →
          exec (.chainNextReadDone tag data) s = .next { s with
            aperture := s.aperture.use (next / 2097152) way
            chain := { s.chain with phase := .recordRead s.nextTag next }
            link := s.link ++ [.read s.nextTag (base + BitVec.ofNat 64 (next % 2097152)) 64]
            nextTag := s.nextTag + 1 })) ∧
    (s.chain.phase = .nextRead tag →
      (data = none →
        exec (.chainNextReadDone tag data) s = .next (s.visitFaulted (s.chain.anchor / 2097152))) ∧
      ∀ bytes, data = some bytes →
        (fieldAt bytes 0 4 = 0 → exec (.chainNextReadDone tag data) s = .next
          (State.visitEnded { s with chain := { s.chain with stalled := false } } false)) ∧
        (fieldAt bytes 0 4 ≠ 0 →
          exec (.chainNextReadDone tag data) s = .next (s.nextFollowed (fieldAt bytes 0 4))))

/-- CHAIN_RECORD_FETCH_DONE (R175 to R179): a fetch that no visit waits for; no data, a chain fault; a record not
POSTED, which ends the visit; and a POSTED one, applied whole as the directive its bytes spell (R171), its result
written with the Status last, the record made the anchor and the refusal counted. That code, frame number with label,
and data go out in this order ahead of the Status is the model's choice (log 28). Then the walk ends, with DIRECTIVE
for a NOTIFY, goes on with the next record, or ends at the limit, where a stopped cadence brings a new visit. A
result page that misses waits for its fetch, and one that is invalid consumes the record with a chain fault (R178); that
its NOTIFY is then not seen, its refusal not counted and STALLED not cleared first is DEDUCED (log 12). That frame number
and label are those at the write is DEDUCED (log 11). A kind that is none of the twelve is refused with UNKNOWN_KIND.
The second part says the same of every state: any Next, its page in the cache or not, with STALLED or a NOTIFY there at a
chain fault (whose page is DEDUCED, log 27), and with visit again set, where the end of the visit begins a new one and
clears it (R174); both that and the limit bring one new visit (DEDUCED, log 13), which reads an anchor's Next that runs
over its page's end at that page alone (the model's choice, log 44). The third part: a record of a kind is applied as
that kind's command of the table is, but for the count of a refusal, which a record moves when its result is written
(that a command applies its directive with no record to complete is the model's choice, log 10). That a completion of no
read at all changes nothing is DEDUCED (log 3). A fault's MSI is sent at its report, the model's choice (log 52). Past
2^64 a Board address goes on at 0, the model's choice (log 51). A LOCK that a record raises has its MSI ahead of the
record's result, the model's choice (log 53). -/
def Obligations.ChainRecordFetch : Prop :=
  (∀ (s : State) (tag : Nat) (data : Option (List Byte)),
    ((∀ addr, s.chain.phase ≠ .recordRead tag addr) →
      exec (.chainRecordFetchDone tag data) s = .next s) ∧
    ∀ addr, s.chain.phase = .recordRead tag addr → s.chain.again = false → s.chain.notify = false →
      (data = none → s.chain.stalled = false → exec (.chainRecordFetchDone tag data) s = .next
        { s.reportFault .chainFault s.cadence.frameNumber s.openTakeNumber
            (BitVec.ofNat 32 (addr / 2097152)) with
          chain := { s.chain with stalled := true, phase := .idle } }) ∧
      (data = none → s.chain.stalled = true → exec (.chainRecordFetchDone tag data) s = .next
        { s with chain := { s.chain with phase := .idle } }) ∧
      ∀ bytes, data = some bytes →
      (fieldAt bytes 6 1 ≠ 1 → exec (.chainRecordFetchDone tag data) s = .next
        { s with chain := { s.chain with phase := .idle } }) ∧
      (fieldAt bytes 6 1 = 1 →
        let r := s.applyDirective (directiveOf bytes)
        let t := r.1
        let next := fieldAt bytes 0 4
        let notify := (BitVec.ofNat 8 (fieldAt bytes 5 1)).getLsbD 0
        let page := addr / 2097152
        let unknown : DirectiveResult :=
          { status := .refused, code := .unknownKind, data := List.replicate 16 0#8 }
        (fieldAt bytes 4 1 = 0 ∨ 12 < fieldAt bytes 4 1 → t = { s with lastResult := some unknown }) ∧
        t.lastResult = some r.2 ∧ t.chain = s.chain ∧
        (∀ way base, t.aperture.lookup page = some (way, base) →
          let host := base + BitVec.ofNat 64 (addr % 2097152)
          let refused := if r.2.status = .refused then min 4294967295 (t.counters.directivesRefused + 1)
            else t.counters.directivesRefused
          let done : State := { t with
            aperture := t.aperture.use page way
            chain := { s.chain with
              phase := .idle, anchor := addr, count := s.chain.count + 1, notify := notify
              stalled := false }
            link := t.link ++
              [.write (host + 7#64) (leBytes 1 r.2.code.code),
               .write (host + 8#64) (leBytes 4 t.cadence.frameNumber.toNat ++ t.visitLabel.bytes),
               .write (host + 48#64) r.2.data,
               .write (host + 6#64) (leBytes 1 r.2.status.code)]
            counters := { t.counters with directivesRefused := refused } }
          (s.chain.count < 7 → next = 0 → notify = false →
            exec (.chainRecordFetchDone tag data) s = .next done) ∧
          (s.chain.count < 7 → next = 0 → notify = true →
            exec (.chainRecordFetchDone tag data) s = .next (done.withCauses 0x02#8)) ∧
          (∀ w b, s.chain.count < 7 → next ≠ 0 → next % 64 = 0 →
            t.aperture.lookup (next / 2097152) = some (w, b) →
            exec (.chainRecordFetchDone tag data) s = .next { done with
              aperture := done.aperture.use (next / 2097152) w
              chain := { done.chain with phase := .recordRead t.nextTag next }
              link := done.link ++ [.read t.nextTag (b + BitVec.ofNat 64 (next % 2097152)) 64]
              nextTag := t.nextTag + 1 }) ∧
          (7 ≤ s.chain.count → notify = false → t.cadence.run = .running →
            exec (.chainRecordFetchDone tag data) s = .next done) ∧
          (7 ≤ s.chain.count → notify = false → t.cadence.run = .stopped →
            ∃ u : State, exec (.chainRecordFetchDone tag data) s = .next u ∧
              u.chain = { done.chain with
                phase := .nextRead t.nextTag, count := 0, notify := false, again := false
                atFrameStart := false } ∧
              u.link = done.link ++ [.read t.nextTag host 4])) ∧
        (t.aperture.lookup page = none → t.aperture.fetch = none →
          exec (.chainRecordFetchDone tag data) s = .next { t with
            aperture := { t.aperture with
              misses := t.aperture.misses ++ [{ client := .chain, page := page }]
              fetch := some { page := page, discard := false, tag := t.nextTag } }
            chain := { s.chain with
              phase := .resultPage { addr := addr, next := next, notify := notify, result := r.2 } }
            link := t.link ++ [.read t.nextTag (t.board.anchor + BitVec.ofNat 64 (0x4000 + 8 * page)) 8]
            nextTag := t.nextTag + 1 }))) ∧
  (∀ (s : State) (tag : Nat) (data : Option (List Byte)) (addr : Nat),
    s.chain.phase = .recordRead tag addr →
      (data = none → exec (.chainRecordFetchDone tag data) s = .next (s.visitFaulted (addr / 2097152))) ∧
      ∀ bytes, data = some bytes →
        (fieldAt bytes 6 1 ≠ 1 → exec (.chainRecordFetchDone tag data) s = .next (s.visitEnded false)) ∧
        (fieldAt bytes 6 1 = 1 →
          let r := s.applyDirective (directiveOf bytes)
          let p : PendingResult :=
            { addr := addr, next := fieldAt bytes 0 4
              notify := (BitVec.ofNat 8 (fieldAt bytes 5 1)).getLsbD 0, result := r.2 }
          exec (.chainRecordFetchDone tag data) s = .next
            (r.1.chainAsks addr (.resultPage p) (fun u host => u.recordWritten p host)))) ∧
  (∀ s : State, s.attached = true →
    let same : Instr → Directive → Prop := fun c d =>
      let r := s.applyDirective (some d)
      exec c s = .next { r.1 with
        counters := { r.1.counters with directivesRefused :=
          if r.2.status = .refused then min 4294967295 (r.1.counters.directivesRefused + 1)
          else r.1.counters.directivesRefused } }
    (∀ t m p w, same (.setCadence t m p w) (.setCadence t m p w)) ∧
    same .startCadence .startCadence ∧ same .stopCadence .stopCadence ∧
    (∀ hh mm ss ff target, same (.jamTimecode hh mm ss ff target) (.jamTimecode hh mm ss ff target)) ∧
    (∀ p, same (.setProfile p) (.setProfile p)) ∧ (∀ take, same (.openTake take) (.openTake take)) ∧
    same .closeTake .closeTake ∧ (∀ value, same (.mark value) (.mark value)) ∧
    (∀ first count, same (.remapApertures first count) (.remapApertures first count)) ∧
    (∀ page, same (.probeAperture page) (.probeAperture page)) ∧ same .snapshot .snapshot ∧
    ∀ count age, same (.setNotice count age) (.setNotice count age)) ∧
  (∀ (s : State) (tag : Nat) (bytes : List Byte) (p : PendingResult) (f : Fetch),
    s.chain.phase = .resultPage p → s.chain.again = false → s.chain.notify = false →
    s.chain.stalled = false → s.aperture.fetch = some f → f.tag = tag → f.discard = false →
    s.aperture.misses = [{ client := .chain, page := f.page }] →
    (BitVec.ofNat 64 (fieldAt bytes 0 8)).getLsbD 0 = false →
    exec (.apertureFetchDone tag (some bytes)) s = .next
      { s.reportFault .chainFault s.cadence.frameNumber s.openTakeNumber
          (BitVec.ofNat 32 (p.addr / 2097152)) with
        aperture := { s.aperture with misses := [], fetch := none }
        chain := { s.chain with
          phase := .idle, anchor := p.addr, count := s.chain.count + 1, stalled := true } }) ∧
  ∀ bytes : List Byte,
    let kind := fieldAt bytes 4 1
    let byte : Nat → Byte := fun offset => BitVec.ofNat 8 (fieldAt bytes (16 + offset) 1)
    let half : Nat → BitVec 16 := fun offset => BitVec.ofNat 16 (fieldAt bytes (16 + offset) 2)
    let word : Nat → Word := fun offset => BitVec.ofNat 32 (fieldAt bytes (16 + offset) 4)
    (kind = 1 → directiveOf bytes = some
      (.setCadence (BitVec.ofNat 64 (fieldAt bytes 16 8)) (byte 8) (byte 9) (word 12))) ∧
    (kind = 2 → directiveOf bytes = some .startCadence) ∧
    (kind = 3 → directiveOf bytes = some .stopCadence) ∧
    (kind = 4 → directiveOf bytes = some (.jamTimecode (byte 0) (byte 1) (byte 2) (byte 3) (byte 4))) ∧
    (kind = 5 → directiveOf bytes = some (.setProfile
      { base := byte 0, mode := byte 1, df := byte 2, scale := byte 3, rateF := word 4, rateP := word 8
        window := byte 12, qminF := byte 13, qmaxF := byte 14, startF := byte 15, qminP := byte 16
        qmaxP := byte 17, startP := byte 18, patience := byte 19, preroll := half 20, width := half 22
        height := half 24 })) ∧
    (kind = 6 → directiveOf bytes = some (.openTake (word 0))) ∧
    (kind = 7 → directiveOf bytes = some .closeTake) ∧
    (kind = 8 → directiveOf bytes = some (.mark (half 0))) ∧
    (kind = 9 → directiveOf bytes = some (.remapApertures (word 0) (word 4))) ∧
    (kind = 10 → directiveOf bytes = some (.probeAperture (word 0))) ∧
    (kind = 11 → directiveOf bytes = some .snapshot) ∧
    (kind = 12 → directiveOf bytes = some (.setNotice (byte 0) (byte 1)))

/-! ### Invariants -/

/-- After fundamental reset every invariant holds; the values the spec gives no reset for are the model's (log 22). -/
def Obligations.ResetIsLegal : Prop :=
  State.reset.ControlLegal ∧ State.reset.slotsCanonical ∧ State.reset.ratesLegal ∧
    State.reset.cacheLegal ∧ State.reset.notices.Legal

/-- The Cadence Unit, the take table and the engine mode stay legal, and with each other (R1, R8, R114, R115,
R119, R169), and a visit of the chain is under way only with a Board (R172, R174, R179). -/
def Obligations.StepKeepsControl : Prop :=
  ∀ s t : State, s.ControlLegal → step s = .next t → t.ControlLegal

/-- The profiles stay in range, with no pre-roll in RECORD_RUN, and each bucket level and quantiser stays within
its limits (R71, R72, R78, R80, R111). -/
def Obligations.StepKeepsRates : Prop :=
  ∀ s t : State, s.ratesLegal → step s = .next t → t.ratesLegal

/-- The samples of the raw slots keep their canonical form (log 9), no set of the translation cache ever holds a
page twice (R155), and the notice settings stay in range with fewer chunks waiting than the threshold (R187, R188). -/
def Obligations.StepKeepsForms : Prop :=
  ∀ s t : State, step s = .next t →
    (s.slotsCanonical → t.slotsCanonical) ∧ (s.cacheLegal → t.cacheLegal) ∧
    (s.notices.Legal → t.notices.Legal)
end

