-- ==== Sys2Proof/Laws/State.lean ====
section
/-! SUPPORT. What the shared updates of State leave alone: one lemma per field per update. -/

namespace Sys2Proof.Machine

variable (s : State)

@[simp] theorem State.emit_cadence (x : LinkItem) : (s.emit x).cadence = s.cadence := rfl
@[simp] theorem State.emit_timecode (x : LinkItem) : (s.emit x).timecode = s.timecode := rfl
@[simp] theorem State.emit_intake (x : LinkItem) : (s.emit x).intake = s.intake := rfl
@[simp] theorem State.emit_lanes (x : LinkItem) : (s.emit x).lanes = s.lanes := rfl
@[simp] theorem State.emit_governor (x : LinkItem) : (s.emit x).governor = s.governor := rfl
@[simp] theorem State.emit_store (x : LinkItem) : (s.emit x).store = s.store := rfl
@[simp] theorem State.emit_takes (x : LinkItem) : (s.emit x).takes = s.takes := rfl
@[simp] theorem State.emit_writer (x : LinkItem) : (s.emit x).writer = s.writer := rfl
@[simp] theorem State.emit_aperture (x : LinkItem) : (s.emit x).aperture = s.aperture := rfl
@[simp] theorem State.emit_board (x : LinkItem) : (s.emit x).board = s.board := rfl
@[simp] theorem State.emit_chain (x : LinkItem) : (s.emit x).chain = s.chain := rfl
@[simp] theorem State.emit_notices (x : LinkItem) : (s.emit x).notices = s.notices := rfl
@[simp] theorem State.emit_faultRecord (x : LinkItem) : (s.emit x).faultRecord = s.faultRecord := rfl
@[simp] theorem State.emit_counters (x : LinkItem) : (s.emit x).counters = s.counters := rfl
@[simp] theorem State.emit_reportSequence (x : LinkItem) : (s.emit x).reportSequence = s.reportSequence := rfl
@[simp] theorem State.emit_nextTag (x : LinkItem) : (s.emit x).nextTag = s.nextTag := rfl
@[simp] theorem State.emit_freeIndex (x : LinkItem) : (s.emit x).freeIndex = s.freeIndex := rfl
@[simp] theorem State.emit_lastResult (x : LinkItem) : (s.emit x).lastResult = s.lastResult := rfl
@[simp] theorem State.emit_pending (x : LinkItem) : (s.emit x).pending = s.pending := rfl

@[simp] theorem State.post_cadence (a : HostAddr) (d : List Byte) : (s.post a d).cadence = s.cadence := rfl
@[simp] theorem State.post_timecode (a : HostAddr) (d : List Byte) : (s.post a d).timecode = s.timecode := rfl
@[simp] theorem State.post_intake (a : HostAddr) (d : List Byte) : (s.post a d).intake = s.intake := rfl
@[simp] theorem State.post_lanes (a : HostAddr) (d : List Byte) : (s.post a d).lanes = s.lanes := rfl
@[simp] theorem State.post_governor (a : HostAddr) (d : List Byte) : (s.post a d).governor = s.governor := rfl
@[simp] theorem State.post_store (a : HostAddr) (d : List Byte) : (s.post a d).store = s.store := rfl
@[simp] theorem State.post_takes (a : HostAddr) (d : List Byte) : (s.post a d).takes = s.takes := rfl
@[simp] theorem State.post_writer (a : HostAddr) (d : List Byte) : (s.post a d).writer = s.writer := rfl
@[simp] theorem State.post_aperture (a : HostAddr) (d : List Byte) : (s.post a d).aperture = s.aperture := rfl
@[simp] theorem State.post_board (a : HostAddr) (d : List Byte) : (s.post a d).board = s.board := rfl
@[simp] theorem State.post_chain (a : HostAddr) (d : List Byte) : (s.post a d).chain = s.chain := rfl
@[simp] theorem State.post_notices (a : HostAddr) (d : List Byte) : (s.post a d).notices = s.notices := rfl
@[simp] theorem State.post_faultRecord (a : HostAddr) (d : List Byte) : (s.post a d).faultRecord = s.faultRecord := rfl
@[simp] theorem State.post_counters (a : HostAddr) (d : List Byte) : (s.post a d).counters = s.counters := rfl
@[simp] theorem State.post_reportSequence (a : HostAddr) (d : List Byte) : (s.post a d).reportSequence = s.reportSequence := rfl
@[simp] theorem State.post_nextTag (a : HostAddr) (d : List Byte) : (s.post a d).nextTag = s.nextTag := rfl
@[simp] theorem State.post_freeIndex (a : HostAddr) (d : List Byte) : (s.post a d).freeIndex = s.freeIndex := rfl
@[simp] theorem State.post_lastResult (a : HostAddr) (d : List Byte) : (s.post a d).lastResult = s.lastResult := rfl
@[simp] theorem State.post_pending (a : HostAddr) (d : List Byte) : (s.post a d).pending = s.pending := rfl

@[simp] theorem State.issueRead_cadence (a : HostAddr) (n : Nat) : (s.issueRead a n).cadence = s.cadence := rfl
@[simp] theorem State.issueRead_timecode (a : HostAddr) (n : Nat) : (s.issueRead a n).timecode = s.timecode := rfl
@[simp] theorem State.issueRead_intake (a : HostAddr) (n : Nat) : (s.issueRead a n).intake = s.intake := rfl
@[simp] theorem State.issueRead_lanes (a : HostAddr) (n : Nat) : (s.issueRead a n).lanes = s.lanes := rfl
@[simp] theorem State.issueRead_governor (a : HostAddr) (n : Nat) : (s.issueRead a n).governor = s.governor := rfl
@[simp] theorem State.issueRead_store (a : HostAddr) (n : Nat) : (s.issueRead a n).store = s.store := rfl
@[simp] theorem State.issueRead_takes (a : HostAddr) (n : Nat) : (s.issueRead a n).takes = s.takes := rfl
@[simp] theorem State.issueRead_writer (a : HostAddr) (n : Nat) : (s.issueRead a n).writer = s.writer := rfl
@[simp] theorem State.issueRead_aperture (a : HostAddr) (n : Nat) : (s.issueRead a n).aperture = s.aperture := rfl
@[simp] theorem State.issueRead_board (a : HostAddr) (n : Nat) : (s.issueRead a n).board = s.board := rfl
@[simp] theorem State.issueRead_chain (a : HostAddr) (n : Nat) : (s.issueRead a n).chain = s.chain := rfl
@[simp] theorem State.issueRead_notices (a : HostAddr) (n : Nat) : (s.issueRead a n).notices = s.notices := rfl
@[simp] theorem State.issueRead_faultRecord (a : HostAddr) (n : Nat) : (s.issueRead a n).faultRecord = s.faultRecord := rfl
@[simp] theorem State.issueRead_counters (a : HostAddr) (n : Nat) : (s.issueRead a n).counters = s.counters := rfl
@[simp] theorem State.issueRead_reportSequence (a : HostAddr) (n : Nat) : (s.issueRead a n).reportSequence = s.reportSequence := rfl
@[simp] theorem State.issueRead_freeIndex (a : HostAddr) (n : Nat) : (s.issueRead a n).freeIndex = s.freeIndex := rfl
@[simp] theorem State.issueRead_lastResult (a : HostAddr) (n : Nat) : (s.issueRead a n).lastResult = s.lastResult := rfl
@[simp] theorem State.issueRead_pending (a : HostAddr) (n : Nat) : (s.issueRead a n).pending = s.pending := rfl

@[simp] theorem State.signal_cadence (n : Notices) : (s.signal n).cadence = s.cadence := by unfold State.signal; split <;> rfl
@[simp] theorem State.signal_timecode (n : Notices) : (s.signal n).timecode = s.timecode := by unfold State.signal; split <;> rfl
@[simp] theorem State.signal_intake (n : Notices) : (s.signal n).intake = s.intake := by unfold State.signal; split <;> rfl
@[simp] theorem State.signal_lanes (n : Notices) : (s.signal n).lanes = s.lanes := by unfold State.signal; split <;> rfl
@[simp] theorem State.signal_governor (n : Notices) : (s.signal n).governor = s.governor := by unfold State.signal; split <;> rfl
@[simp] theorem State.signal_store (n : Notices) : (s.signal n).store = s.store := by unfold State.signal; split <;> rfl
@[simp] theorem State.signal_takes (n : Notices) : (s.signal n).takes = s.takes := by unfold State.signal; split <;> rfl
@[simp] theorem State.signal_writer (n : Notices) : (s.signal n).writer = s.writer := by unfold State.signal; split <;> rfl
@[simp] theorem State.signal_aperture (n : Notices) : (s.signal n).aperture = s.aperture := by unfold State.signal; split <;> rfl
@[simp] theorem State.signal_board (n : Notices) : (s.signal n).board = s.board := by unfold State.signal; split <;> rfl
@[simp] theorem State.signal_chain (n : Notices) : (s.signal n).chain = s.chain := by unfold State.signal; split <;> rfl
@[simp] theorem State.signal_faultRecord (n : Notices) : (s.signal n).faultRecord = s.faultRecord := by unfold State.signal; split <;> rfl
@[simp] theorem State.signal_counters (n : Notices) : (s.signal n).counters = s.counters := by unfold State.signal; split <;> rfl
@[simp] theorem State.signal_reportSequence (n : Notices) : (s.signal n).reportSequence = s.reportSequence := by unfold State.signal; split <;> rfl
@[simp] theorem State.signal_nextTag (n : Notices) : (s.signal n).nextTag = s.nextTag := by unfold State.signal; split <;> rfl
@[simp] theorem State.signal_freeIndex (n : Notices) : (s.signal n).freeIndex = s.freeIndex := by unfold State.signal; split <;> rfl
@[simp] theorem State.signal_lastResult (n : Notices) : (s.signal n).lastResult = s.lastResult := by unfold State.signal; split <;> rfl
@[simp] theorem State.signal_pending (n : Notices) : (s.signal n).pending = s.pending := by unfold State.signal; split <;> rfl

@[simp] theorem State.raise_cadence (c : Notice) : (s.raise c).cadence = s.cadence := by simp [State.raise]
@[simp] theorem State.raise_timecode (c : Notice) : (s.raise c).timecode = s.timecode := by simp [State.raise]
@[simp] theorem State.raise_intake (c : Notice) : (s.raise c).intake = s.intake := by simp [State.raise]
@[simp] theorem State.raise_lanes (c : Notice) : (s.raise c).lanes = s.lanes := by simp [State.raise]
@[simp] theorem State.raise_governor (c : Notice) : (s.raise c).governor = s.governor := by simp [State.raise]
@[simp] theorem State.raise_store (c : Notice) : (s.raise c).store = s.store := by simp [State.raise]
@[simp] theorem State.raise_takes (c : Notice) : (s.raise c).takes = s.takes := by simp [State.raise]
@[simp] theorem State.raise_writer (c : Notice) : (s.raise c).writer = s.writer := by simp [State.raise]
@[simp] theorem State.raise_aperture (c : Notice) : (s.raise c).aperture = s.aperture := by simp [State.raise]
@[simp] theorem State.raise_board (c : Notice) : (s.raise c).board = s.board := by simp [State.raise]
@[simp] theorem State.raise_chain (c : Notice) : (s.raise c).chain = s.chain := by simp [State.raise]
@[simp] theorem State.raise_faultRecord (c : Notice) : (s.raise c).faultRecord = s.faultRecord := by simp [State.raise]
@[simp] theorem State.raise_counters (c : Notice) : (s.raise c).counters = s.counters := by simp [State.raise]
@[simp] theorem State.raise_reportSequence (c : Notice) : (s.raise c).reportSequence = s.reportSequence := by simp [State.raise]
@[simp] theorem State.raise_nextTag (c : Notice) : (s.raise c).nextTag = s.nextTag := by simp [State.raise]
@[simp] theorem State.raise_freeIndex (c : Notice) : (s.raise c).freeIndex = s.freeIndex := by simp [State.raise]
@[simp] theorem State.raise_lastResult (c : Notice) : (s.raise c).lastResult = s.lastResult := by simp [State.raise]
@[simp] theorem State.raise_pending (c : Notice) : (s.raise c).pending = s.pending := by simp [State.raise]

@[simp] theorem State.reportFault_cadence (c : FaultClass) (f k d : Word) : (s.reportFault c f k d).cadence = s.cadence := by unfold State.reportFault; split <;> simp
@[simp] theorem State.reportFault_timecode (c : FaultClass) (f k d : Word) : (s.reportFault c f k d).timecode = s.timecode := by unfold State.reportFault; split <;> simp
@[simp] theorem State.reportFault_intake (c : FaultClass) (f k d : Word) : (s.reportFault c f k d).intake = s.intake := by unfold State.reportFault; split <;> simp
@[simp] theorem State.reportFault_lanes (c : FaultClass) (f k d : Word) : (s.reportFault c f k d).lanes = s.lanes := by unfold State.reportFault; split <;> simp
@[simp] theorem State.reportFault_governor (c : FaultClass) (f k d : Word) : (s.reportFault c f k d).governor = s.governor := by unfold State.reportFault; split <;> simp
@[simp] theorem State.reportFault_store (c : FaultClass) (f k d : Word) : (s.reportFault c f k d).store = s.store := by unfold State.reportFault; split <;> simp
@[simp] theorem State.reportFault_takes (c : FaultClass) (f k d : Word) : (s.reportFault c f k d).takes = s.takes := by unfold State.reportFault; split <;> simp
@[simp] theorem State.reportFault_writer (c : FaultClass) (f k d : Word) : (s.reportFault c f k d).writer = s.writer := by unfold State.reportFault; split <;> simp
@[simp] theorem State.reportFault_aperture (c : FaultClass) (f k d : Word) : (s.reportFault c f k d).aperture = s.aperture := by unfold State.reportFault; split <;> simp
@[simp] theorem State.reportFault_board (c : FaultClass) (f k d : Word) : (s.reportFault c f k d).board = s.board := by unfold State.reportFault; split <;> simp
@[simp] theorem State.reportFault_chain (c : FaultClass) (f k d : Word) : (s.reportFault c f k d).chain = s.chain := by unfold State.reportFault; split <;> simp
@[simp] theorem State.reportFault_counters (c : FaultClass) (f k d : Word) : (s.reportFault c f k d).counters = s.counters := by unfold State.reportFault; split <;> simp
@[simp] theorem State.reportFault_reportSequence (c : FaultClass) (f k d : Word) : (s.reportFault c f k d).reportSequence = s.reportSequence := by unfold State.reportFault; split <;> simp
@[simp] theorem State.reportFault_nextTag (c : FaultClass) (f k d : Word) : (s.reportFault c f k d).nextTag = s.nextTag := by unfold State.reportFault; split <;> simp
@[simp] theorem State.reportFault_freeIndex (c : FaultClass) (f k d : Word) : (s.reportFault c f k d).freeIndex = s.freeIndex := by unfold State.reportFault; split <;> simp
@[simp] theorem State.reportFault_lastResult (c : FaultClass) (f k d : Word) : (s.reportFault c f k d).lastResult = s.lastResult := by unfold State.reportFault; split <;> simp
@[simp] theorem State.reportFault_pending (c : FaultClass) (f k d : Word) : (s.reportFault c f k d).pending = s.pending := by unfold State.reportFault; split <;> simp

@[simp] theorem State.announce_cadence : (s.announce).cadence = s.cadence := by simp [State.announce]
@[simp] theorem State.announce_timecode : (s.announce).timecode = s.timecode := by simp [State.announce]
@[simp] theorem State.announce_intake : (s.announce).intake = s.intake := by simp [State.announce]
@[simp] theorem State.announce_lanes : (s.announce).lanes = s.lanes := by simp [State.announce]
@[simp] theorem State.announce_governor : (s.announce).governor = s.governor := by simp [State.announce]
@[simp] theorem State.announce_store : (s.announce).store = s.store := by simp [State.announce]
@[simp] theorem State.announce_takes : (s.announce).takes = s.takes := by simp [State.announce]
@[simp] theorem State.announce_writer : (s.announce).writer = s.writer := by simp [State.announce]
@[simp] theorem State.announce_aperture : (s.announce).aperture = s.aperture := by simp [State.announce]
@[simp] theorem State.announce_board : (s.announce).board = s.board := by simp [State.announce]
@[simp] theorem State.announce_chain : (s.announce).chain = s.chain := by simp [State.announce]
@[simp] theorem State.announce_faultRecord : (s.announce).faultRecord = s.faultRecord := by simp [State.announce]
@[simp] theorem State.announce_counters : (s.announce).counters = s.counters := by simp [State.announce]
@[simp] theorem State.announce_reportSequence : (s.announce).reportSequence = s.reportSequence := by simp [State.announce]
@[simp] theorem State.announce_nextTag : (s.announce).nextTag = s.nextTag := by simp [State.announce]
@[simp] theorem State.announce_freeIndex : (s.announce).freeIndex = s.freeIndex := by simp [State.announce]
@[simp] theorem State.announce_lastResult : (s.announce).lastResult = s.lastResult := by simp [State.announce]
@[simp] theorem State.announce_pending : (s.announce).pending = s.pending := by simp [State.announce]

@[simp] theorem State.countClose_cadence (p : Pool) : (s.countClose p).cadence = s.cadence := by unfold State.countClose; dsimp only; split <;> split <;> simp
@[simp] theorem State.countClose_timecode (p : Pool) : (s.countClose p).timecode = s.timecode := by unfold State.countClose; dsimp only; split <;> split <;> simp
@[simp] theorem State.countClose_intake (p : Pool) : (s.countClose p).intake = s.intake := by unfold State.countClose; dsimp only; split <;> split <;> simp
@[simp] theorem State.countClose_lanes (p : Pool) : (s.countClose p).lanes = s.lanes := by unfold State.countClose; dsimp only; split <;> split <;> simp
@[simp] theorem State.countClose_governor (p : Pool) : (s.countClose p).governor = s.governor := by unfold State.countClose; dsimp only; split <;> split <;> simp
@[simp] theorem State.countClose_store (p : Pool) : (s.countClose p).store = s.store := by unfold State.countClose; dsimp only; split <;> split <;> simp
@[simp] theorem State.countClose_takes (p : Pool) : (s.countClose p).takes = s.takes := by unfold State.countClose; dsimp only; split <;> split <;> simp
@[simp] theorem State.countClose_writer (p : Pool) : (s.countClose p).writer = s.writer := by unfold State.countClose; dsimp only; split <;> split <;> simp
@[simp] theorem State.countClose_aperture (p : Pool) : (s.countClose p).aperture = s.aperture := by unfold State.countClose; dsimp only; split <;> split <;> simp
@[simp] theorem State.countClose_board (p : Pool) : (s.countClose p).board = s.board := by unfold State.countClose; dsimp only; split <;> split <;> simp
@[simp] theorem State.countClose_chain (p : Pool) : (s.countClose p).chain = s.chain := by unfold State.countClose; dsimp only; split <;> split <;> simp
@[simp] theorem State.countClose_faultRecord (p : Pool) : (s.countClose p).faultRecord = s.faultRecord := by unfold State.countClose; dsimp only; split <;> split <;> simp
@[simp] theorem State.countClose_counters (p : Pool) : (s.countClose p).counters = s.counters := by unfold State.countClose; dsimp only; split <;> split <;> simp
@[simp] theorem State.countClose_reportSequence (p : Pool) : (s.countClose p).reportSequence = s.reportSequence := by unfold State.countClose; dsimp only; split <;> split <;> simp
@[simp] theorem State.countClose_nextTag (p : Pool) : (s.countClose p).nextTag = s.nextTag := by unfold State.countClose; dsimp only; split <;> split <;> simp
@[simp] theorem State.countClose_freeIndex (p : Pool) : (s.countClose p).freeIndex = s.freeIndex := by unfold State.countClose; dsimp only; split <;> split <;> simp
@[simp] theorem State.countClose_lastResult (p : Pool) : (s.countClose p).lastResult = s.lastResult := by unfold State.countClose; dsimp only; split <;> split <;> simp
@[simp] theorem State.countClose_pending (p : Pool) : (s.countClose p).pending = s.pending := by unfold State.countClose; dsimp only; split <;> split <;> simp

@[simp] theorem State.coalesceFrameStart_cadence : (s.coalesceFrameStart).cadence = s.cadence := by unfold State.coalesceFrameStart; split <;> [rfl; (dsimp only; split <;> simp)]
@[simp] theorem State.coalesceFrameStart_timecode : (s.coalesceFrameStart).timecode = s.timecode := by unfold State.coalesceFrameStart; split <;> [rfl; (dsimp only; split <;> simp)]
@[simp] theorem State.coalesceFrameStart_intake : (s.coalesceFrameStart).intake = s.intake := by unfold State.coalesceFrameStart; split <;> [rfl; (dsimp only; split <;> simp)]
@[simp] theorem State.coalesceFrameStart_lanes : (s.coalesceFrameStart).lanes = s.lanes := by unfold State.coalesceFrameStart; split <;> [rfl; (dsimp only; split <;> simp)]
@[simp] theorem State.coalesceFrameStart_governor : (s.coalesceFrameStart).governor = s.governor := by unfold State.coalesceFrameStart; split <;> [rfl; (dsimp only; split <;> simp)]
@[simp] theorem State.coalesceFrameStart_store : (s.coalesceFrameStart).store = s.store := by unfold State.coalesceFrameStart; split <;> [rfl; (dsimp only; split <;> simp)]
@[simp] theorem State.coalesceFrameStart_takes : (s.coalesceFrameStart).takes = s.takes := by unfold State.coalesceFrameStart; split <;> [rfl; (dsimp only; split <;> simp)]
@[simp] theorem State.coalesceFrameStart_writer : (s.coalesceFrameStart).writer = s.writer := by unfold State.coalesceFrameStart; split <;> [rfl; (dsimp only; split <;> simp)]
@[simp] theorem State.coalesceFrameStart_aperture : (s.coalesceFrameStart).aperture = s.aperture := by unfold State.coalesceFrameStart; split <;> [rfl; (dsimp only; split <;> simp)]
@[simp] theorem State.coalesceFrameStart_board : (s.coalesceFrameStart).board = s.board := by unfold State.coalesceFrameStart; split <;> [rfl; (dsimp only; split <;> simp)]
@[simp] theorem State.coalesceFrameStart_chain : (s.coalesceFrameStart).chain = s.chain := by unfold State.coalesceFrameStart; split <;> [rfl; (dsimp only; split <;> simp)]
@[simp] theorem State.coalesceFrameStart_faultRecord : (s.coalesceFrameStart).faultRecord = s.faultRecord := by unfold State.coalesceFrameStart; split <;> [rfl; (dsimp only; split <;> simp)]
@[simp] theorem State.coalesceFrameStart_counters : (s.coalesceFrameStart).counters = s.counters := by unfold State.coalesceFrameStart; split <;> [rfl; (dsimp only; split <;> simp)]
@[simp] theorem State.coalesceFrameStart_reportSequence : (s.coalesceFrameStart).reportSequence = s.reportSequence := by unfold State.coalesceFrameStart; split <;> [rfl; (dsimp only; split <;> simp)]
@[simp] theorem State.coalesceFrameStart_nextTag : (s.coalesceFrameStart).nextTag = s.nextTag := by unfold State.coalesceFrameStart; split <;> [rfl; (dsimp only; split <;> simp)]
@[simp] theorem State.coalesceFrameStart_freeIndex : (s.coalesceFrameStart).freeIndex = s.freeIndex := by unfold State.coalesceFrameStart; split <;> [rfl; (dsimp only; split <;> simp)]
@[simp] theorem State.coalesceFrameStart_lastResult : (s.coalesceFrameStart).lastResult = s.lastResult := by unfold State.coalesceFrameStart; split <;> [rfl; (dsimp only; split <;> simp)]
@[simp] theorem State.coalesceFrameStart_pending : (s.coalesceFrameStart).pending = s.pending := by unfold State.coalesceFrameStart; split <;> [rfl; (dsimp only; split <;> simp)]

@[simp] theorem State.setPhase_cadence (p : ChainPhase) : (s.setPhase p).cadence = s.cadence := rfl
@[simp] theorem State.setPhase_timecode (p : ChainPhase) : (s.setPhase p).timecode = s.timecode := rfl
@[simp] theorem State.setPhase_intake (p : ChainPhase) : (s.setPhase p).intake = s.intake := rfl
@[simp] theorem State.setPhase_lanes (p : ChainPhase) : (s.setPhase p).lanes = s.lanes := rfl
@[simp] theorem State.setPhase_governor (p : ChainPhase) : (s.setPhase p).governor = s.governor := rfl
@[simp] theorem State.setPhase_store (p : ChainPhase) : (s.setPhase p).store = s.store := rfl
@[simp] theorem State.setPhase_takes (p : ChainPhase) : (s.setPhase p).takes = s.takes := rfl
@[simp] theorem State.setPhase_writer (p : ChainPhase) : (s.setPhase p).writer = s.writer := rfl
@[simp] theorem State.setPhase_aperture (p : ChainPhase) : (s.setPhase p).aperture = s.aperture := rfl
@[simp] theorem State.setPhase_board (p : ChainPhase) : (s.setPhase p).board = s.board := rfl
@[simp] theorem State.setPhase_notices (p : ChainPhase) : (s.setPhase p).notices = s.notices := rfl
@[simp] theorem State.setPhase_faultRecord (p : ChainPhase) : (s.setPhase p).faultRecord = s.faultRecord := rfl
@[simp] theorem State.setPhase_counters (p : ChainPhase) : (s.setPhase p).counters = s.counters := rfl
@[simp] theorem State.setPhase_reportSequence (p : ChainPhase) : (s.setPhase p).reportSequence = s.reportSequence := rfl
@[simp] theorem State.setPhase_link (p : ChainPhase) : (s.setPhase p).link = s.link := rfl
@[simp] theorem State.setPhase_nextTag (p : ChainPhase) : (s.setPhase p).nextTag = s.nextTag := rfl
@[simp] theorem State.setPhase_freeIndex (p : ChainPhase) : (s.setPhase p).freeIndex = s.freeIndex := rfl
@[simp] theorem State.setPhase_lastResult (p : ChainPhase) : (s.setPhase p).lastResult = s.lastResult := rfl
@[simp] theorem State.setPhase_pending (p : ChainPhase) : (s.setPhase p).pending = s.pending := rfl

@[simp] theorem State.setWriter_cadence (w : Writer) : (s.setWriter w).cadence = s.cadence := rfl
@[simp] theorem State.setWriter_timecode (w : Writer) : (s.setWriter w).timecode = s.timecode := rfl
@[simp] theorem State.setWriter_intake (w : Writer) : (s.setWriter w).intake = s.intake := rfl
@[simp] theorem State.setWriter_lanes (w : Writer) : (s.setWriter w).lanes = s.lanes := rfl
@[simp] theorem State.setWriter_governor (w : Writer) : (s.setWriter w).governor = s.governor := rfl
@[simp] theorem State.setWriter_store (w : Writer) : (s.setWriter w).store = s.store := rfl
@[simp] theorem State.setWriter_takes (w : Writer) : (s.setWriter w).takes = s.takes := rfl
@[simp] theorem State.setWriter_aperture (w : Writer) : (s.setWriter w).aperture = s.aperture := rfl
@[simp] theorem State.setWriter_board (w : Writer) : (s.setWriter w).board = s.board := rfl
@[simp] theorem State.setWriter_chain (w : Writer) : (s.setWriter w).chain = s.chain := rfl
@[simp] theorem State.setWriter_notices (w : Writer) : (s.setWriter w).notices = s.notices := rfl
@[simp] theorem State.setWriter_faultRecord (w : Writer) : (s.setWriter w).faultRecord = s.faultRecord := rfl
@[simp] theorem State.setWriter_counters (w : Writer) : (s.setWriter w).counters = s.counters := rfl
@[simp] theorem State.setWriter_reportSequence (w : Writer) : (s.setWriter w).reportSequence = s.reportSequence := rfl
@[simp] theorem State.setWriter_link (w : Writer) : (s.setWriter w).link = s.link := rfl
@[simp] theorem State.setWriter_nextTag (w : Writer) : (s.setWriter w).nextTag = s.nextTag := rfl
@[simp] theorem State.setWriter_freeIndex (w : Writer) : (s.setWriter w).freeIndex = s.freeIndex := rfl
@[simp] theorem State.setWriter_lastResult (w : Writer) : (s.setWriter w).lastResult = s.lastResult := rfl
@[simp] theorem State.setWriter_pending (w : Writer) : (s.setWriter w).pending = s.pending := rfl

@[simp] theorem State.setPool_cadence (p : Pool) (x : PoolState) : (s.setPool p x).cadence = s.cadence := rfl
@[simp] theorem State.setPool_timecode (p : Pool) (x : PoolState) : (s.setPool p x).timecode = s.timecode := rfl
@[simp] theorem State.setPool_intake (p : Pool) (x : PoolState) : (s.setPool p x).intake = s.intake := rfl
@[simp] theorem State.setPool_lanes (p : Pool) (x : PoolState) : (s.setPool p x).lanes = s.lanes := rfl
@[simp] theorem State.setPool_governor (p : Pool) (x : PoolState) : (s.setPool p x).governor = s.governor := rfl
@[simp] theorem State.setPool_store (p : Pool) (x : PoolState) : (s.setPool p x).store = s.store := rfl
@[simp] theorem State.setPool_takes (p : Pool) (x : PoolState) : (s.setPool p x).takes = s.takes := rfl
@[simp] theorem State.setPool_aperture (p : Pool) (x : PoolState) : (s.setPool p x).aperture = s.aperture := rfl
@[simp] theorem State.setPool_board (p : Pool) (x : PoolState) : (s.setPool p x).board = s.board := rfl
@[simp] theorem State.setPool_chain (p : Pool) (x : PoolState) : (s.setPool p x).chain = s.chain := rfl
@[simp] theorem State.setPool_notices (p : Pool) (x : PoolState) : (s.setPool p x).notices = s.notices := rfl
@[simp] theorem State.setPool_faultRecord (p : Pool) (x : PoolState) : (s.setPool p x).faultRecord = s.faultRecord := rfl
@[simp] theorem State.setPool_counters (p : Pool) (x : PoolState) : (s.setPool p x).counters = s.counters := rfl
@[simp] theorem State.setPool_reportSequence (p : Pool) (x : PoolState) : (s.setPool p x).reportSequence = s.reportSequence := rfl
@[simp] theorem State.setPool_link (p : Pool) (x : PoolState) : (s.setPool p x).link = s.link := rfl
@[simp] theorem State.setPool_nextTag (p : Pool) (x : PoolState) : (s.setPool p x).nextTag = s.nextTag := rfl
@[simp] theorem State.setPool_freeIndex (p : Pool) (x : PoolState) : (s.setPool p x).freeIndex = s.freeIndex := rfl
@[simp] theorem State.setPool_lastResult (p : Pool) (x : PoolState) : (s.setPool p x).lastResult = s.lastResult := rfl
@[simp] theorem State.setPool_pending (p : Pool) (x : PoolState) : (s.setPool p x).pending = s.pending := rfl

@[simp] theorem State.setWork_cadence (k : Work) : (s.setWork k).cadence = s.cadence := rfl
@[simp] theorem State.setWork_timecode (k : Work) : (s.setWork k).timecode = s.timecode := rfl
@[simp] theorem State.setWork_intake (k : Work) : (s.setWork k).intake = s.intake := rfl
@[simp] theorem State.setWork_lanes (k : Work) : (s.setWork k).lanes = s.lanes := rfl
@[simp] theorem State.setWork_governor (k : Work) : (s.setWork k).governor = s.governor := rfl
@[simp] theorem State.setWork_store (k : Work) : (s.setWork k).store = s.store := rfl
@[simp] theorem State.setWork_takes (k : Work) : (s.setWork k).takes = s.takes := rfl
@[simp] theorem State.setWork_aperture (k : Work) : (s.setWork k).aperture = s.aperture := rfl
@[simp] theorem State.setWork_board (k : Work) : (s.setWork k).board = s.board := rfl
@[simp] theorem State.setWork_chain (k : Work) : (s.setWork k).chain = s.chain := rfl
@[simp] theorem State.setWork_notices (k : Work) : (s.setWork k).notices = s.notices := rfl
@[simp] theorem State.setWork_faultRecord (k : Work) : (s.setWork k).faultRecord = s.faultRecord := rfl
@[simp] theorem State.setWork_counters (k : Work) : (s.setWork k).counters = s.counters := rfl
@[simp] theorem State.setWork_reportSequence (k : Work) : (s.setWork k).reportSequence = s.reportSequence := rfl
@[simp] theorem State.setWork_link (k : Work) : (s.setWork k).link = s.link := rfl
@[simp] theorem State.setWork_nextTag (k : Work) : (s.setWork k).nextTag = s.nextTag := rfl
@[simp] theorem State.setWork_freeIndex (k : Work) : (s.setWork k).freeIndex = s.freeIndex := rfl
@[simp] theorem State.setWork_lastResult (k : Work) : (s.setWork k).lastResult = s.lastResult := rfl
@[simp] theorem State.setWork_pending (k : Work) : (s.setWork k).pending = s.pending := rfl

@[simp] theorem State.setLane_cadence (l : Lane) (x : LaneState) : (s.setLane l x).cadence = s.cadence := rfl
@[simp] theorem State.setLane_timecode (l : Lane) (x : LaneState) : (s.setLane l x).timecode = s.timecode := rfl
@[simp] theorem State.setLane_intake (l : Lane) (x : LaneState) : (s.setLane l x).intake = s.intake := rfl
@[simp] theorem State.setLane_governor (l : Lane) (x : LaneState) : (s.setLane l x).governor = s.governor := rfl
@[simp] theorem State.setLane_store (l : Lane) (x : LaneState) : (s.setLane l x).store = s.store := rfl
@[simp] theorem State.setLane_takes (l : Lane) (x : LaneState) : (s.setLane l x).takes = s.takes := rfl
@[simp] theorem State.setLane_writer (l : Lane) (x : LaneState) : (s.setLane l x).writer = s.writer := rfl
@[simp] theorem State.setLane_aperture (l : Lane) (x : LaneState) : (s.setLane l x).aperture = s.aperture := rfl
@[simp] theorem State.setLane_board (l : Lane) (x : LaneState) : (s.setLane l x).board = s.board := rfl
@[simp] theorem State.setLane_chain (l : Lane) (x : LaneState) : (s.setLane l x).chain = s.chain := rfl
@[simp] theorem State.setLane_notices (l : Lane) (x : LaneState) : (s.setLane l x).notices = s.notices := rfl
@[simp] theorem State.setLane_faultRecord (l : Lane) (x : LaneState) : (s.setLane l x).faultRecord = s.faultRecord := rfl
@[simp] theorem State.setLane_counters (l : Lane) (x : LaneState) : (s.setLane l x).counters = s.counters := rfl
@[simp] theorem State.setLane_reportSequence (l : Lane) (x : LaneState) : (s.setLane l x).reportSequence = s.reportSequence := rfl
@[simp] theorem State.setLane_link (l : Lane) (x : LaneState) : (s.setLane l x).link = s.link := rfl
@[simp] theorem State.setLane_nextTag (l : Lane) (x : LaneState) : (s.setLane l x).nextTag = s.nextTag := rfl
@[simp] theorem State.setLane_freeIndex (l : Lane) (x : LaneState) : (s.setLane l x).freeIndex = s.freeIndex := rfl
@[simp] theorem State.setLane_lastResult (l : Lane) (x : LaneState) : (s.setLane l x).lastResult = s.lastResult := rfl
@[simp] theorem State.setLane_pending (l : Lane) (x : LaneState) : (s.setLane l x).pending = s.pending := rfl

@[simp] theorem State.mapTicket_cadence (i : Nat) (f : Ticket → Ticket) : (s.mapTicket i f).cadence = s.cadence := rfl
@[simp] theorem State.mapTicket_timecode (i : Nat) (f : Ticket → Ticket) : (s.mapTicket i f).timecode = s.timecode := rfl
@[simp] theorem State.mapTicket_intake (i : Nat) (f : Ticket → Ticket) : (s.mapTicket i f).intake = s.intake := rfl
@[simp] theorem State.mapTicket_governor (i : Nat) (f : Ticket → Ticket) : (s.mapTicket i f).governor = s.governor := rfl
@[simp] theorem State.mapTicket_store (i : Nat) (f : Ticket → Ticket) : (s.mapTicket i f).store = s.store := rfl
@[simp] theorem State.mapTicket_takes (i : Nat) (f : Ticket → Ticket) : (s.mapTicket i f).takes = s.takes := rfl
@[simp] theorem State.mapTicket_writer (i : Nat) (f : Ticket → Ticket) : (s.mapTicket i f).writer = s.writer := rfl
@[simp] theorem State.mapTicket_aperture (i : Nat) (f : Ticket → Ticket) : (s.mapTicket i f).aperture = s.aperture := rfl
@[simp] theorem State.mapTicket_board (i : Nat) (f : Ticket → Ticket) : (s.mapTicket i f).board = s.board := rfl
@[simp] theorem State.mapTicket_chain (i : Nat) (f : Ticket → Ticket) : (s.mapTicket i f).chain = s.chain := rfl
@[simp] theorem State.mapTicket_notices (i : Nat) (f : Ticket → Ticket) : (s.mapTicket i f).notices = s.notices := rfl
@[simp] theorem State.mapTicket_faultRecord (i : Nat) (f : Ticket → Ticket) : (s.mapTicket i f).faultRecord = s.faultRecord := rfl
@[simp] theorem State.mapTicket_counters (i : Nat) (f : Ticket → Ticket) : (s.mapTicket i f).counters = s.counters := rfl
@[simp] theorem State.mapTicket_reportSequence (i : Nat) (f : Ticket → Ticket) : (s.mapTicket i f).reportSequence = s.reportSequence := rfl
@[simp] theorem State.mapTicket_link (i : Nat) (f : Ticket → Ticket) : (s.mapTicket i f).link = s.link := rfl
@[simp] theorem State.mapTicket_nextTag (i : Nat) (f : Ticket → Ticket) : (s.mapTicket i f).nextTag = s.nextTag := rfl
@[simp] theorem State.mapTicket_freeIndex (i : Nat) (f : Ticket → Ticket) : (s.mapTicket i f).freeIndex = s.freeIndex := rfl
@[simp] theorem State.mapTicket_lastResult (i : Nat) (f : Ticket → Ticket) : (s.mapTicket i f).lastResult = s.lastResult := rfl
@[simp] theorem State.mapTicket_pending (i : Nat) (f : Ticket → Ticket) : (s.mapTicket i f).pending = s.pending := rfl

@[simp] theorem State.endTicket_cadence (i : Nat) : (s.endTicket i).cadence = s.cadence := rfl
@[simp] theorem State.endTicket_timecode (i : Nat) : (s.endTicket i).timecode = s.timecode := rfl
@[simp] theorem State.endTicket_governor (i : Nat) : (s.endTicket i).governor = s.governor := rfl
@[simp] theorem State.endTicket_store (i : Nat) : (s.endTicket i).store = s.store := rfl
@[simp] theorem State.endTicket_takes (i : Nat) : (s.endTicket i).takes = s.takes := rfl
@[simp] theorem State.endTicket_writer (i : Nat) : (s.endTicket i).writer = s.writer := rfl
@[simp] theorem State.endTicket_aperture (i : Nat) : (s.endTicket i).aperture = s.aperture := rfl
@[simp] theorem State.endTicket_board (i : Nat) : (s.endTicket i).board = s.board := rfl
@[simp] theorem State.endTicket_chain (i : Nat) : (s.endTicket i).chain = s.chain := rfl
@[simp] theorem State.endTicket_notices (i : Nat) : (s.endTicket i).notices = s.notices := rfl
@[simp] theorem State.endTicket_faultRecord (i : Nat) : (s.endTicket i).faultRecord = s.faultRecord := rfl
@[simp] theorem State.endTicket_counters (i : Nat) : (s.endTicket i).counters = s.counters := rfl
@[simp] theorem State.endTicket_reportSequence (i : Nat) : (s.endTicket i).reportSequence = s.reportSequence := rfl
@[simp] theorem State.endTicket_link (i : Nat) : (s.endTicket i).link = s.link := rfl
@[simp] theorem State.endTicket_nextTag (i : Nat) : (s.endTicket i).nextTag = s.nextTag := rfl
@[simp] theorem State.endTicket_freeIndex (i : Nat) : (s.endTicket i).freeIndex = s.freeIndex := rfl
@[simp] theorem State.endTicket_lastResult (i : Nat) : (s.endTicket i).lastResult = s.lastResult := rfl
@[simp] theorem State.endTicket_pending (i : Nat) : (s.endTicket i).pending = s.pending := rfl

@[simp] theorem State.mapTake_cadence (n : Word) (f : TakeRecord → TakeRecord) : (s.mapTake n f).cadence = s.cadence := rfl
@[simp] theorem State.mapTake_timecode (n : Word) (f : TakeRecord → TakeRecord) : (s.mapTake n f).timecode = s.timecode := rfl
@[simp] theorem State.mapTake_intake (n : Word) (f : TakeRecord → TakeRecord) : (s.mapTake n f).intake = s.intake := rfl
@[simp] theorem State.mapTake_lanes (n : Word) (f : TakeRecord → TakeRecord) : (s.mapTake n f).lanes = s.lanes := rfl
@[simp] theorem State.mapTake_governor (n : Word) (f : TakeRecord → TakeRecord) : (s.mapTake n f).governor = s.governor := rfl
@[simp] theorem State.mapTake_store (n : Word) (f : TakeRecord → TakeRecord) : (s.mapTake n f).store = s.store := rfl
@[simp] theorem State.mapTake_writer (n : Word) (f : TakeRecord → TakeRecord) : (s.mapTake n f).writer = s.writer := rfl
@[simp] theorem State.mapTake_aperture (n : Word) (f : TakeRecord → TakeRecord) : (s.mapTake n f).aperture = s.aperture := rfl
@[simp] theorem State.mapTake_board (n : Word) (f : TakeRecord → TakeRecord) : (s.mapTake n f).board = s.board := rfl
@[simp] theorem State.mapTake_chain (n : Word) (f : TakeRecord → TakeRecord) : (s.mapTake n f).chain = s.chain := rfl
@[simp] theorem State.mapTake_notices (n : Word) (f : TakeRecord → TakeRecord) : (s.mapTake n f).notices = s.notices := rfl
@[simp] theorem State.mapTake_faultRecord (n : Word) (f : TakeRecord → TakeRecord) : (s.mapTake n f).faultRecord = s.faultRecord := rfl
@[simp] theorem State.mapTake_counters (n : Word) (f : TakeRecord → TakeRecord) : (s.mapTake n f).counters = s.counters := rfl
@[simp] theorem State.mapTake_reportSequence (n : Word) (f : TakeRecord → TakeRecord) : (s.mapTake n f).reportSequence = s.reportSequence := rfl
@[simp] theorem State.mapTake_link (n : Word) (f : TakeRecord → TakeRecord) : (s.mapTake n f).link = s.link := rfl
@[simp] theorem State.mapTake_nextTag (n : Word) (f : TakeRecord → TakeRecord) : (s.mapTake n f).nextTag = s.nextTag := rfl
@[simp] theorem State.mapTake_freeIndex (n : Word) (f : TakeRecord → TakeRecord) : (s.mapTake n f).freeIndex = s.freeIndex := rfl
@[simp] theorem State.mapTake_lastResult (n : Word) (f : TakeRecord → TakeRecord) : (s.mapTake n f).lastResult = s.lastResult := rfl
@[simp] theorem State.mapTake_pending (n : Word) (f : TakeRecord → TakeRecord) : (s.mapTake n f).pending = s.pending := rfl

@[simp] theorem State.settleDrained_cadence : (s.settleDrained).cadence = s.cadence := rfl
@[simp] theorem State.settleDrained_timecode : (s.settleDrained).timecode = s.timecode := rfl
@[simp] theorem State.settleDrained_intake : (s.settleDrained).intake = s.intake := rfl
@[simp] theorem State.settleDrained_lanes : (s.settleDrained).lanes = s.lanes := rfl
@[simp] theorem State.settleDrained_governor : (s.settleDrained).governor = s.governor := rfl
@[simp] theorem State.settleDrained_store : (s.settleDrained).store = s.store := rfl
@[simp] theorem State.settleDrained_writer : (s.settleDrained).writer = s.writer := rfl
@[simp] theorem State.settleDrained_aperture : (s.settleDrained).aperture = s.aperture := rfl
@[simp] theorem State.settleDrained_board : (s.settleDrained).board = s.board := rfl
@[simp] theorem State.settleDrained_chain : (s.settleDrained).chain = s.chain := rfl
@[simp] theorem State.settleDrained_notices : (s.settleDrained).notices = s.notices := rfl
@[simp] theorem State.settleDrained_faultRecord : (s.settleDrained).faultRecord = s.faultRecord := rfl
@[simp] theorem State.settleDrained_counters : (s.settleDrained).counters = s.counters := rfl
@[simp] theorem State.settleDrained_reportSequence : (s.settleDrained).reportSequence = s.reportSequence := rfl
@[simp] theorem State.settleDrained_link : (s.settleDrained).link = s.link := rfl
@[simp] theorem State.settleDrained_nextTag : (s.settleDrained).nextTag = s.nextTag := rfl
@[simp] theorem State.settleDrained_freeIndex : (s.settleDrained).freeIndex = s.freeIndex := rfl
@[simp] theorem State.settleDrained_lastResult : (s.settleDrained).lastResult = s.lastResult := rfl
@[simp] theorem State.settleDrained_pending : (s.settleDrained).pending = s.pending := rfl

@[simp] theorem State.setLock_timecode (l : LockState) : (s.setLock l).timecode = s.timecode := by unfold State.setLock; split <;> simp
@[simp] theorem State.setLock_intake (l : LockState) : (s.setLock l).intake = s.intake := by unfold State.setLock; split <;> simp
@[simp] theorem State.setLock_lanes (l : LockState) : (s.setLock l).lanes = s.lanes := by unfold State.setLock; split <;> simp
@[simp] theorem State.setLock_governor (l : LockState) : (s.setLock l).governor = s.governor := by unfold State.setLock; split <;> simp
@[simp] theorem State.setLock_store (l : LockState) : (s.setLock l).store = s.store := by unfold State.setLock; split <;> simp
@[simp] theorem State.setLock_takes (l : LockState) : (s.setLock l).takes = s.takes := by unfold State.setLock; split <;> simp
@[simp] theorem State.setLock_writer (l : LockState) : (s.setLock l).writer = s.writer := by unfold State.setLock; split <;> simp
@[simp] theorem State.setLock_aperture (l : LockState) : (s.setLock l).aperture = s.aperture := by unfold State.setLock; split <;> simp
@[simp] theorem State.setLock_board (l : LockState) : (s.setLock l).board = s.board := by unfold State.setLock; split <;> simp
@[simp] theorem State.setLock_chain (l : LockState) : (s.setLock l).chain = s.chain := by unfold State.setLock; split <;> simp
@[simp] theorem State.setLock_faultRecord (l : LockState) : (s.setLock l).faultRecord = s.faultRecord := by unfold State.setLock; split <;> simp
@[simp] theorem State.setLock_counters (l : LockState) : (s.setLock l).counters = s.counters := by unfold State.setLock; split <;> simp
@[simp] theorem State.setLock_reportSequence (l : LockState) : (s.setLock l).reportSequence = s.reportSequence := by unfold State.setLock; split <;> simp
@[simp] theorem State.setLock_nextTag (l : LockState) : (s.setLock l).nextTag = s.nextTag := by unfold State.setLock; split <;> simp
@[simp] theorem State.setLock_freeIndex (l : LockState) : (s.setLock l).freeIndex = s.freeIndex := by unfold State.setLock; split <;> simp
@[simp] theorem State.setLock_lastResult (l : LockState) : (s.setLock l).lastResult = s.lastResult := by unfold State.setLock; split <;> simp
@[simp] theorem State.setLock_pending (l : LockState) : (s.setLock l).pending = s.pending := by unfold State.setLock; split <;> simp

@[simp] theorem State.beginFetch_cadence (p : Nat) : (s.beginFetch p).cadence = s.cadence := rfl
@[simp] theorem State.beginFetch_timecode (p : Nat) : (s.beginFetch p).timecode = s.timecode := rfl
@[simp] theorem State.beginFetch_intake (p : Nat) : (s.beginFetch p).intake = s.intake := rfl
@[simp] theorem State.beginFetch_lanes (p : Nat) : (s.beginFetch p).lanes = s.lanes := rfl
@[simp] theorem State.beginFetch_governor (p : Nat) : (s.beginFetch p).governor = s.governor := rfl
@[simp] theorem State.beginFetch_store (p : Nat) : (s.beginFetch p).store = s.store := rfl
@[simp] theorem State.beginFetch_takes (p : Nat) : (s.beginFetch p).takes = s.takes := rfl
@[simp] theorem State.beginFetch_writer (p : Nat) : (s.beginFetch p).writer = s.writer := rfl
@[simp] theorem State.beginFetch_board (p : Nat) : (s.beginFetch p).board = s.board := rfl
@[simp] theorem State.beginFetch_chain (p : Nat) : (s.beginFetch p).chain = s.chain := rfl
@[simp] theorem State.beginFetch_notices (p : Nat) : (s.beginFetch p).notices = s.notices := rfl
@[simp] theorem State.beginFetch_faultRecord (p : Nat) : (s.beginFetch p).faultRecord = s.faultRecord := rfl
@[simp] theorem State.beginFetch_counters (p : Nat) : (s.beginFetch p).counters = s.counters := rfl
@[simp] theorem State.beginFetch_reportSequence (p : Nat) : (s.beginFetch p).reportSequence = s.reportSequence := rfl
@[simp] theorem State.beginFetch_freeIndex (p : Nat) : (s.beginFetch p).freeIndex = s.freeIndex := rfl
@[simp] theorem State.beginFetch_lastResult (p : Nat) : (s.beginFetch p).lastResult = s.lastResult := rfl
@[simp] theorem State.beginFetch_pending (p : Nat) : (s.beginFetch p).pending = s.pending := rfl

end Sys2Proof.Machine
end

