-- ==== Sys2Proof/Laws/Frames.lean ====
section
/-! SUPPORT. What the compound operations leave alone: one lemma for each, naming every field it does not touch. -/

namespace Sys2Proof.Machine

theorem State.translate_frame (s : State) (c : Client) (a : Nat) :
    (s.translate c a).1.cadence = s.cadence ∧
    (s.translate c a).1.timecode = s.timecode ∧
    (s.translate c a).1.intake = s.intake ∧
    (s.translate c a).1.lanes = s.lanes ∧
    (s.translate c a).1.governor = s.governor ∧
    (s.translate c a).1.store = s.store ∧
    (s.translate c a).1.takes = s.takes ∧
    (s.translate c a).1.writer = s.writer ∧
    (s.translate c a).1.board = s.board ∧
    (s.translate c a).1.chain = s.chain ∧
    (s.translate c a).1.notices = s.notices ∧
    (s.translate c a).1.faultRecord = s.faultRecord ∧
    (s.translate c a).1.counters = s.counters ∧
    (s.translate c a).1.reportSequence = s.reportSequence ∧
    (s.translate c a).1.freeIndex = s.freeIndex ∧
    (s.translate c a).1.lastResult = s.lastResult ∧
    (s.translate c a).1.pending = s.pending := by unfold State.translate; dsimp only; (repeat' split) <;> simp

theorem State.serveMisses_frame (n : Nat) (s : State) :
    (State.serveMisses n s).1.cadence = s.cadence ∧
    (State.serveMisses n s).1.timecode = s.timecode ∧
    (State.serveMisses n s).1.intake = s.intake ∧
    (State.serveMisses n s).1.lanes = s.lanes ∧
    (State.serveMisses n s).1.governor = s.governor ∧
    (State.serveMisses n s).1.store = s.store ∧
    (State.serveMisses n s).1.takes = s.takes ∧
    (State.serveMisses n s).1.writer = s.writer ∧
    (State.serveMisses n s).1.board = s.board ∧
    (State.serveMisses n s).1.chain = s.chain ∧
    (State.serveMisses n s).1.notices = s.notices ∧
    (State.serveMisses n s).1.faultRecord = s.faultRecord ∧
    (State.serveMisses n s).1.counters = s.counters ∧
    (State.serveMisses n s).1.reportSequence = s.reportSequence ∧
    (State.serveMisses n s).1.freeIndex = s.freeIndex ∧
    (State.serveMisses n s).1.lastResult = s.lastResult ∧
    (State.serveMisses n s).1.pending = s.pending := by
  induction n generalizing s with
  | zero => simp [State.serveMisses]
  | succ k ih => unfold State.serveMisses; (repeat' split) <;> simp [ih]

theorem State.settleFetch_frame (s : State) (p : Nat) (a : Answer) :
    (s.settleFetch p a).1.cadence = s.cadence ∧
    (s.settleFetch p a).1.timecode = s.timecode ∧
    (s.settleFetch p a).1.intake = s.intake ∧
    (s.settleFetch p a).1.lanes = s.lanes ∧
    (s.settleFetch p a).1.governor = s.governor ∧
    (s.settleFetch p a).1.store = s.store ∧
    (s.settleFetch p a).1.takes = s.takes ∧
    (s.settleFetch p a).1.writer = s.writer ∧
    (s.settleFetch p a).1.board = s.board ∧
    (s.settleFetch p a).1.chain = s.chain ∧
    (s.settleFetch p a).1.notices = s.notices ∧
    (s.settleFetch p a).1.faultRecord = s.faultRecord ∧
    (s.settleFetch p a).1.counters = s.counters ∧
    (s.settleFetch p a).1.reportSequence = s.reportSequence ∧
    (s.settleFetch p a).1.freeIndex = s.freeIndex ∧
    (s.settleFetch p a).1.lastResult = s.lastResult ∧
    (s.settleFetch p a).1.pending = s.pending := by simp [State.settleFetch, State.serveMisses_frame]

theorem State.trimStore_frame (s : State) :
    (s.trimStore).cadence = s.cadence ∧
    (s.trimStore).timecode = s.timecode ∧
    (s.trimStore).intake = s.intake ∧
    (s.trimStore).lanes = s.lanes ∧
    (s.trimStore).governor = s.governor ∧
    (s.trimStore).takes = s.takes ∧
    (s.trimStore).writer = s.writer ∧
    (s.trimStore).aperture = s.aperture ∧
    (s.trimStore).board = s.board ∧
    (s.trimStore).chain = s.chain ∧
    (s.trimStore).notices = s.notices ∧
    (s.trimStore).faultRecord = s.faultRecord ∧
    (s.trimStore).counters = s.counters ∧
    (s.trimStore).reportSequence = s.reportSequence ∧
    (s.trimStore).link = s.link ∧
    (s.trimStore).nextTag = s.nextTag ∧
    (s.trimStore).freeIndex = s.freeIndex ∧
    (s.trimStore).lastResult = s.lastResult ∧
    (s.trimStore).pending = s.pending := by simp [State.trimStore]

theorem State.activate_frame (s : State) (p : Profile) :
    (s.activate p).cadence = s.cadence ∧
    (s.activate p).intake = s.intake ∧
    (s.activate p).lanes = s.lanes ∧
    (s.activate p).store = s.store ∧
    (s.activate p).writer = s.writer ∧
    (s.activate p).aperture = s.aperture ∧
    (s.activate p).board = s.board ∧
    (s.activate p).chain = s.chain ∧
    (s.activate p).notices = s.notices ∧
    (s.activate p).faultRecord = s.faultRecord ∧
    (s.activate p).counters = s.counters ∧
    (s.activate p).reportSequence = s.reportSequence ∧
    (s.activate p).link = s.link ∧
    (s.activate p).nextTag = s.nextTag ∧
    (s.activate p).freeIndex = s.freeIndex ∧
    (s.activate p).lastResult = s.lastResult ∧
    (s.activate p).pending = s.pending := by simp [State.activate]

theorem State.activateStopped_frame (s : State) (p : Profile) :
    (s.activateStopped p).cadence = s.cadence ∧
    (s.activateStopped p).intake = s.intake ∧
    (s.activateStopped p).lanes = s.lanes ∧
    (s.activateStopped p).writer = s.writer ∧
    (s.activateStopped p).aperture = s.aperture ∧
    (s.activateStopped p).board = s.board ∧
    (s.activateStopped p).chain = s.chain ∧
    (s.activateStopped p).notices = s.notices ∧
    (s.activateStopped p).faultRecord = s.faultRecord ∧
    (s.activateStopped p).counters = s.counters ∧
    (s.activateStopped p).reportSequence = s.reportSequence ∧
    (s.activateStopped p).link = s.link ∧
    (s.activateStopped p).nextTag = s.nextTag ∧
    (s.activateStopped p).freeIndex = s.freeIndex ∧
    (s.activateStopped p).lastResult = s.lastResult ∧
    (s.activateStopped p).pending = s.pending := by simp [State.activateStopped, State.trimStore_frame, State.activate_frame]

theorem State.profileFrameStart_frame (s : State) :
    (s.profileFrameStart).cadence = s.cadence ∧
    (s.profileFrameStart).intake = s.intake ∧
    (s.profileFrameStart).lanes = s.lanes ∧
    (s.profileFrameStart).store = s.store ∧
    (s.profileFrameStart).writer = s.writer ∧
    (s.profileFrameStart).aperture = s.aperture ∧
    (s.profileFrameStart).board = s.board ∧
    (s.profileFrameStart).chain = s.chain ∧
    (s.profileFrameStart).notices = s.notices ∧
    (s.profileFrameStart).faultRecord = s.faultRecord ∧
    (s.profileFrameStart).counters = s.counters ∧
    (s.profileFrameStart).reportSequence = s.reportSequence ∧
    (s.profileFrameStart).link = s.link ∧
    (s.profileFrameStart).nextTag = s.nextTag ∧
    (s.profileFrameStart).freeIndex = s.freeIndex ∧
    (s.profileFrameStart).lastResult = s.lastResult ∧
    (s.profileFrameStart).pending = s.pending := by unfold State.profileFrameStart; (repeat' split) <;> simp [State.activate_frame]

theorem State.closeTake_frame (s : State) (n : Word) (c : CloseCause) :
    (s.closeTake n c).cadence = s.cadence ∧
    (s.closeTake n c).timecode = s.timecode ∧
    (s.closeTake n c).intake = s.intake ∧
    (s.closeTake n c).lanes = s.lanes ∧
    (s.closeTake n c).governor = s.governor ∧
    (s.closeTake n c).store = s.store ∧
    (s.closeTake n c).writer = s.writer ∧
    (s.closeTake n c).aperture = s.aperture ∧
    (s.closeTake n c).chain = s.chain ∧
    (s.closeTake n c).notices = s.notices ∧
    (s.closeTake n c).faultRecord = s.faultRecord ∧
    (s.closeTake n c).counters = s.counters ∧
    (s.closeTake n c).reportSequence = s.reportSequence ∧
    (s.closeTake n c).link = s.link ∧
    (s.closeTake n c).nextTag = s.nextTag ∧
    (s.closeTake n c).freeIndex = s.freeIndex ∧
    (s.closeTake n c).lastResult = s.lastResult ∧
    (s.closeTake n c).pending = s.pending := by unfold State.closeTake; split <;> simp

theorem State.baseBoundary_frame (s : State) :
    (s.baseBoundary).cadence = s.cadence ∧
    (s.baseBoundary).intake = s.intake ∧
    (s.baseBoundary).lanes = s.lanes ∧
    (s.baseBoundary).governor = s.governor ∧
    (s.baseBoundary).store = s.store ∧
    (s.baseBoundary).takes = s.takes ∧
    (s.baseBoundary).writer = s.writer ∧
    (s.baseBoundary).aperture = s.aperture ∧
    (s.baseBoundary).board = s.board ∧
    (s.baseBoundary).chain = s.chain ∧
    (s.baseBoundary).notices = s.notices ∧
    (s.baseBoundary).faultRecord = s.faultRecord ∧
    (s.baseBoundary).counters = s.counters ∧
    (s.baseBoundary).reportSequence = s.reportSequence ∧
    (s.baseBoundary).link = s.link ∧
    (s.baseBoundary).nextTag = s.nextTag ∧
    (s.baseBoundary).freeIndex = s.freeIndex ∧
    (s.baseBoundary).lastResult = s.lastResult ∧
    (s.baseBoundary).pending = s.pending := by unfold State.baseBoundary; split <;> simp

theorem State.commitIfDone_frame (s : State) (i : Nat) :
    (s.commitIfDone i).cadence = s.cadence ∧
    (s.commitIfDone i).timecode = s.timecode ∧
    (s.commitIfDone i).governor = s.governor ∧
    (s.commitIfDone i).takes = s.takes ∧
    (s.commitIfDone i).writer = s.writer ∧
    (s.commitIfDone i).aperture = s.aperture ∧
    (s.commitIfDone i).board = s.board ∧
    (s.commitIfDone i).chain = s.chain ∧
    (s.commitIfDone i).notices = s.notices ∧
    (s.commitIfDone i).faultRecord = s.faultRecord ∧
    (s.commitIfDone i).counters = s.counters ∧
    (s.commitIfDone i).reportSequence = s.reportSequence ∧
    (s.commitIfDone i).link = s.link ∧
    (s.commitIfDone i).nextTag = s.nextTag ∧
    (s.commitIfDone i).freeIndex = s.freeIndex ∧
    (s.commitIfDone i).lastResult = s.lastResult ∧
    (s.commitIfDone i).pending = s.pending := by unfold State.commitIfDone; (repeat' split) <;> simp

theorem State.complete_frame (s : State) (l : Lane) (t : Ticket) (g : Nat) (r : LaneResult) :
    (s.complete l t g r).cadence = s.cadence ∧
    (s.complete l t g r).timecode = s.timecode ∧
    (s.complete l t g r).takes = s.takes ∧
    (s.complete l t g r).writer = s.writer ∧
    (s.complete l t g r).aperture = s.aperture ∧
    (s.complete l t g r).board = s.board ∧
    (s.complete l t g r).chain = s.chain ∧
    (s.complete l t g r).notices = s.notices ∧
    (s.complete l t g r).faultRecord = s.faultRecord ∧
    (s.complete l t g r).reportSequence = s.reportSequence ∧
    (s.complete l t g r).link = s.link ∧
    (s.complete l t g r).nextTag = s.nextTag ∧
    (s.complete l t g r).freeIndex = s.freeIndex ∧
    (s.complete l t g r).lastResult = s.lastResult ∧
    (s.complete l t g r).pending = s.pending := by simp [State.complete, State.commitIfDone_frame]

theorem State.dropTicket_frame (s : State) (t : Ticket) :
    (s.dropTicket t).cadence = s.cadence ∧
    (s.dropTicket t).timecode = s.timecode ∧
    (s.dropTicket t).governor = s.governor ∧
    (s.dropTicket t).takes = s.takes ∧
    (s.dropTicket t).writer = s.writer ∧
    (s.dropTicket t).aperture = s.aperture ∧
    (s.dropTicket t).board = s.board ∧
    (s.dropTicket t).chain = s.chain ∧
    (s.dropTicket t).notices = s.notices ∧
    (s.dropTicket t).faultRecord = s.faultRecord ∧
    (s.dropTicket t).counters = s.counters ∧
    (s.dropTicket t).reportSequence = s.reportSequence ∧
    (s.dropTicket t).link = s.link ∧
    (s.dropTicket t).nextTag = s.nextTag ∧
    (s.dropTicket t).freeIndex = s.freeIndex ∧
    (s.dropTicket t).lastResult = s.lastResult ∧
    (s.dropTicket t).pending = s.pending := by simp [State.dropTicket]

theorem State.showLoss_frame (s : State) (t : Ticket) :
    (s.showLoss t).cadence = s.cadence ∧
    (s.showLoss t).timecode = s.timecode ∧
    (s.showLoss t).intake = s.intake ∧
    (s.showLoss t).governor = s.governor ∧
    (s.showLoss t).store = s.store ∧
    (s.showLoss t).takes = s.takes ∧
    (s.showLoss t).writer = s.writer ∧
    (s.showLoss t).aperture = s.aperture ∧
    (s.showLoss t).board = s.board ∧
    (s.showLoss t).chain = s.chain ∧
    (s.showLoss t).notices = s.notices ∧
    (s.showLoss t).faultRecord = s.faultRecord ∧
    (s.showLoss t).counters = s.counters ∧
    (s.showLoss t).reportSequence = s.reportSequence ∧
    (s.showLoss t).link = s.link ∧
    (s.showLoss t).nextTag = s.nextTag ∧
    (s.showLoss t).freeIndex = s.freeIndex ∧
    (s.showLoss t).lastResult = s.lastResult ∧
    (s.showLoss t).pending = s.pending := by unfold State.showLoss; split <;> simp

theorem State.reservationFailure_frame (s : State) (t : Ticket) (k : Lack) :
    (s.reservationFailure t k).cadence = s.cadence ∧
    (s.reservationFailure t k).timecode = s.timecode ∧
    (s.reservationFailure t k).governor = s.governor ∧
    (s.reservationFailure t k).writer = s.writer ∧
    (s.reservationFailure t k).aperture = s.aperture ∧
    (s.reservationFailure t k).chain = s.chain ∧
    (s.reservationFailure t k).reportSequence = s.reportSequence ∧
    (s.reservationFailure t k).nextTag = s.nextTag ∧
    (s.reservationFailure t k).freeIndex = s.freeIndex ∧
    (s.reservationFailure t k).lastResult = s.lastResult ∧
    (s.reservationFailure t k).pending = s.pending := by unfold State.reservationFailure; split <;> simp [State.closeTake_frame, State.dropTicket_frame, State.showLoss_frame]

theorem State.withReservation_frame (s : State) (i : Nat) (st : Store) (v : Verdict) :
    (s.withReservation i st v).cadence = s.cadence ∧
    (s.withReservation i st v).timecode = s.timecode ∧
    (s.withReservation i st v).intake = s.intake ∧
    (s.withReservation i st v).governor = s.governor ∧
    (s.withReservation i st v).takes = s.takes ∧
    (s.withReservation i st v).writer = s.writer ∧
    (s.withReservation i st v).aperture = s.aperture ∧
    (s.withReservation i st v).board = s.board ∧
    (s.withReservation i st v).chain = s.chain ∧
    (s.withReservation i st v).notices = s.notices ∧
    (s.withReservation i st v).faultRecord = s.faultRecord ∧
    (s.withReservation i st v).counters = s.counters ∧
    (s.withReservation i st v).reportSequence = s.reportSequence ∧
    (s.withReservation i st v).link = s.link ∧
    (s.withReservation i st v).nextTag = s.nextTag ∧
    (s.withReservation i st v).freeIndex = s.freeIndex ∧
    (s.withReservation i st v).lastResult = s.lastResult ∧
    (s.withReservation i st v).pending = s.pending := by unfold State.withReservation; cases v <;> simp

theorem State.startJob_frame (s : State) (l : Lane) (j : Job) :
    (s.startJob l j).cadence = s.cadence ∧
    (s.startJob l j).timecode = s.timecode ∧
    (s.startJob l j).intake = s.intake ∧
    (s.startJob l j).governor = s.governor ∧
    (s.startJob l j).store = s.store ∧
    (s.startJob l j).takes = s.takes ∧
    (s.startJob l j).writer = s.writer ∧
    (s.startJob l j).aperture = s.aperture ∧
    (s.startJob l j).board = s.board ∧
    (s.startJob l j).chain = s.chain ∧
    (s.startJob l j).notices = s.notices ∧
    (s.startJob l j).faultRecord = s.faultRecord ∧
    (s.startJob l j).counters = s.counters ∧
    (s.startJob l j).reportSequence = s.reportSequence ∧
    (s.startJob l j).link = s.link ∧
    (s.startJob l j).freeIndex = s.freeIndex ∧
    (s.startJob l j).lastResult = s.lastResult ∧
    (s.startJob l j).pending = s.pending := by simp [State.startJob]

theorem State.settleJob_frame (s : State) (l : Lane) (t : Ticket) (q : Option Nat) (j : Job) (v : Verdict) :
    (s.settleJob l t q j v).cadence = s.cadence ∧
    (s.settleJob l t q j v).timecode = s.timecode ∧
    (s.settleJob l t q j v).writer = s.writer ∧
    (s.settleJob l t q j v).aperture = s.aperture ∧
    (s.settleJob l t q j v).chain = s.chain ∧
    (s.settleJob l t q j v).reportSequence = s.reportSequence ∧
    (s.settleJob l t q j v).freeIndex = s.freeIndex ∧
    (s.settleJob l t q j v).lastResult = s.lastResult ∧
    (s.settleJob l t q j v).pending = s.pending := by unfold State.settleJob; (repeat' split) <;> simp [State.reservationFailure_frame, State.complete_frame, State.startJob_frame]

theorem State.jobStart_frame (s : State) (l : Lane) (t : Ticket) :
    (s.jobStart l t).cadence = s.cadence ∧
    (s.jobStart l t).timecode = s.timecode ∧
    (s.jobStart l t).writer = s.writer ∧
    (s.jobStart l t).aperture = s.aperture ∧
    (s.jobStart l t).chain = s.chain ∧
    (s.jobStart l t).reportSequence = s.reportSequence ∧
    (s.jobStart l t).freeIndex = s.freeIndex ∧
    (s.jobStart l t).lastResult = s.lastResult ∧
    (s.jobStart l t).pending = s.pending := by simp [State.jobStart, State.settleJob_frame, State.withReservation_frame]

theorem State.endPass1_frame (s : State) (l : Lane) (j : Job) (t : Ticket) (e : Nat) :
    (s.endPass1 l j t e).cadence = s.cadence ∧
    (s.endPass1 l j t e).timecode = s.timecode ∧
    (s.endPass1 l j t e).takes = s.takes ∧
    (s.endPass1 l j t e).writer = s.writer ∧
    (s.endPass1 l j t e).aperture = s.aperture ∧
    (s.endPass1 l j t e).board = s.board ∧
    (s.endPass1 l j t e).chain = s.chain ∧
    (s.endPass1 l j t e).notices = s.notices ∧
    (s.endPass1 l j t e).faultRecord = s.faultRecord ∧
    (s.endPass1 l j t e).reportSequence = s.reportSequence ∧
    (s.endPass1 l j t e).link = s.link ∧
    (s.endPass1 l j t e).nextTag = s.nextTag ∧
    (s.endPass1 l j t e).freeIndex = s.freeIndex ∧
    (s.endPass1 l j t e).lastResult = s.lastResult ∧
    (s.endPass1 l j t e).pending = s.pending := by unfold State.endPass1; (repeat' split) <;> simp [State.complete_frame]

theorem State.endPass2_frame (s : State) (l : Lane) (j : Job) (t : Ticket) (e : Nat) :
    (s.endPass2 l j t e).cadence = s.cadence ∧
    (s.endPass2 l j t e).timecode = s.timecode ∧
    (s.endPass2 l j t e).takes = s.takes ∧
    (s.endPass2 l j t e).writer = s.writer ∧
    (s.endPass2 l j t e).aperture = s.aperture ∧
    (s.endPass2 l j t e).board = s.board ∧
    (s.endPass2 l j t e).chain = s.chain ∧
    (s.endPass2 l j t e).notices = s.notices ∧
    (s.endPass2 l j t e).faultRecord = s.faultRecord ∧
    (s.endPass2 l j t e).reportSequence = s.reportSequence ∧
    (s.endPass2 l j t e).link = s.link ∧
    (s.endPass2 l j t e).nextTag = s.nextTag ∧
    (s.endPass2 l j t e).freeIndex = s.freeIndex ∧
    (s.endPass2 l j t e).lastResult = s.lastResult ∧
    (s.endPass2 l j t e).pending = s.pending := by unfold State.endPass2; (repeat' split) <;> simp [State.complete_frame]

theorem State.lose_frame (s : State) :
    (s.lose).cadence = s.cadence ∧
    (s.lose).lanes = s.lanes ∧
    (s.lose).governor = s.governor ∧
    (s.lose).store = s.store ∧
    (s.lose).takes = s.takes ∧
    (s.lose).writer = s.writer ∧
    (s.lose).aperture = s.aperture ∧
    (s.lose).board = s.board ∧
    (s.lose).chain = s.chain ∧
    (s.lose).notices = s.notices ∧
    (s.lose).faultRecord = s.faultRecord ∧
    (s.lose).counters = s.counters ∧
    (s.lose).reportSequence = s.reportSequence ∧
    (s.lose).link = s.link ∧
    (s.lose).nextTag = s.nextTag ∧
    (s.lose).freeIndex = s.freeIndex ∧
    (s.lose).lastResult = s.lastResult ∧
    (s.lose).pending = s.pending := by unfold State.lose; split <;> simp

theorem State.loseCapture_frame (s : State) (c : Capture) :
    (s.loseCapture c).cadence = s.cadence ∧
    (s.loseCapture c).lanes = s.lanes ∧
    (s.loseCapture c).governor = s.governor ∧
    (s.loseCapture c).store = s.store ∧
    (s.loseCapture c).takes = s.takes ∧
    (s.loseCapture c).writer = s.writer ∧
    (s.loseCapture c).aperture = s.aperture ∧
    (s.loseCapture c).board = s.board ∧
    (s.loseCapture c).chain = s.chain ∧
    (s.loseCapture c).reportSequence = s.reportSequence ∧
    (s.loseCapture c).nextTag = s.nextTag ∧
    (s.loseCapture c).freeIndex = s.freeIndex ∧
    (s.loseCapture c).lastResult = s.lastResult ∧
    (s.loseCapture c).pending = s.pending := by simp [State.loseCapture, State.lose_frame]

theorem State.cutCapture_frame (s : State) :
    (s.cutCapture).cadence = s.cadence ∧
    (s.cutCapture).lanes = s.lanes ∧
    (s.cutCapture).governor = s.governor ∧
    (s.cutCapture).store = s.store ∧
    (s.cutCapture).takes = s.takes ∧
    (s.cutCapture).writer = s.writer ∧
    (s.cutCapture).aperture = s.aperture ∧
    (s.cutCapture).board = s.board ∧
    (s.cutCapture).chain = s.chain ∧
    (s.cutCapture).reportSequence = s.reportSequence ∧
    (s.cutCapture).nextTag = s.nextTag ∧
    (s.cutCapture).freeIndex = s.freeIndex ∧
    (s.cutCapture).lastResult = s.lastResult ∧
    (s.cutCapture).pending = s.pending := by unfold State.cutCapture; split <;> simp [State.loseCapture_frame]

theorem State.beginCapture_frame (s : State) (r : Bool) :
    (s.beginCapture r).cadence = s.cadence ∧
    (s.beginCapture r).lanes = s.lanes ∧
    (s.beginCapture r).governor = s.governor ∧
    (s.beginCapture r).store = s.store ∧
    (s.beginCapture r).takes = s.takes ∧
    (s.beginCapture r).writer = s.writer ∧
    (s.beginCapture r).aperture = s.aperture ∧
    (s.beginCapture r).board = s.board ∧
    (s.beginCapture r).chain = s.chain ∧
    (s.beginCapture r).reportSequence = s.reportSequence ∧
    (s.beginCapture r).nextTag = s.nextTag ∧
    (s.beginCapture r).freeIndex = s.freeIndex ∧
    (s.beginCapture r).lastResult = s.lastResult ∧
    (s.beginCapture r).pending = s.pending := by unfold State.beginCapture; split <;> simp [State.lose_frame]

theorem State.intakeFrameStart_frame (s : State) (r : Bool) :
    (s.intakeFrameStart r).cadence = s.cadence ∧
    (s.intakeFrameStart r).lanes = s.lanes ∧
    (s.intakeFrameStart r).governor = s.governor ∧
    (s.intakeFrameStart r).store = s.store ∧
    (s.intakeFrameStart r).takes = s.takes ∧
    (s.intakeFrameStart r).writer = s.writer ∧
    (s.intakeFrameStart r).aperture = s.aperture ∧
    (s.intakeFrameStart r).board = s.board ∧
    (s.intakeFrameStart r).chain = s.chain ∧
    (s.intakeFrameStart r).reportSequence = s.reportSequence ∧
    (s.intakeFrameStart r).nextTag = s.nextTag ∧
    (s.intakeFrameStart r).freeIndex = s.freeIndex ∧
    (s.intakeFrameStart r).lastResult = s.lastResult ∧
    (s.intakeFrameStart r).pending = s.pending := by simp [State.intakeFrameStart, State.cutCapture_frame, State.beginCapture_frame]

theorem State.usableFrame_frame (s : State) (c : Capture) :
    (s.usableFrame c).cadence = s.cadence ∧
    (s.usableFrame c).timecode = s.timecode ∧
    (s.usableFrame c).lanes = s.lanes ∧
    (s.usableFrame c).governor = s.governor ∧
    (s.usableFrame c).store = s.store ∧
    (s.usableFrame c).takes = s.takes ∧
    (s.usableFrame c).writer = s.writer ∧
    (s.usableFrame c).aperture = s.aperture ∧
    (s.usableFrame c).board = s.board ∧
    (s.usableFrame c).chain = s.chain ∧
    (s.usableFrame c).notices = s.notices ∧
    (s.usableFrame c).faultRecord = s.faultRecord ∧
    (s.usableFrame c).reportSequence = s.reportSequence ∧
    (s.usableFrame c).link = s.link ∧
    (s.usableFrame c).nextTag = s.nextTag ∧
    (s.usableFrame c).freeIndex = s.freeIndex ∧
    (s.usableFrame c).lastResult = s.lastResult ∧
    (s.usableFrame c).pending = s.pending := by unfold State.usableFrame; dsimp only; split <;> simp

theorem State.keepTicket_frame (s : State) (c : Capture) (k : Word) :
    (s.keepTicket c k).cadence = s.cadence ∧
    (s.keepTicket c k).timecode = s.timecode ∧
    (s.keepTicket c k).governor = s.governor ∧
    (s.keepTicket c k).store = s.store ∧
    (s.keepTicket c k).takes = s.takes ∧
    (s.keepTicket c k).writer = s.writer ∧
    (s.keepTicket c k).aperture = s.aperture ∧
    (s.keepTicket c k).board = s.board ∧
    (s.keepTicket c k).chain = s.chain ∧
    (s.keepTicket c k).notices = s.notices ∧
    (s.keepTicket c k).faultRecord = s.faultRecord ∧
    (s.keepTicket c k).counters = s.counters ∧
    (s.keepTicket c k).reportSequence = s.reportSequence ∧
    (s.keepTicket c k).link = s.link ∧
    (s.keepTicket c k).nextTag = s.nextTag ∧
    (s.keepTicket c k).freeIndex = s.freeIndex ∧
    (s.keepTicket c k).lastResult = s.lastResult ∧
    (s.keepTicket c k).pending = s.pending := by simp [State.keepTicket]

theorem State.discardTicket_frame (s : State) (c : Capture) :
    (s.discardTicket c).cadence = s.cadence ∧
    (s.discardTicket c).timecode = s.timecode ∧
    (s.discardTicket c).lanes = s.lanes ∧
    (s.discardTicket c).governor = s.governor ∧
    (s.discardTicket c).store = s.store ∧
    (s.discardTicket c).takes = s.takes ∧
    (s.discardTicket c).writer = s.writer ∧
    (s.discardTicket c).aperture = s.aperture ∧
    (s.discardTicket c).board = s.board ∧
    (s.discardTicket c).chain = s.chain ∧
    (s.discardTicket c).notices = s.notices ∧
    (s.discardTicket c).faultRecord = s.faultRecord ∧
    (s.discardTicket c).reportSequence = s.reportSequence ∧
    (s.discardTicket c).link = s.link ∧
    (s.discardTicket c).nextTag = s.nextTag ∧
    (s.discardTicket c).freeIndex = s.freeIndex ∧
    (s.discardTicket c).lastResult = s.lastResult ∧
    (s.discardTicket c).pending = s.pending := by simp [State.discardTicket]

theorem State.makeTicket_frame (s : State) (c : Capture) :
    (s.makeTicket c).cadence = s.cadence ∧
    (s.makeTicket c).governor = s.governor ∧
    (s.makeTicket c).store = s.store ∧
    (s.makeTicket c).takes = s.takes ∧
    (s.makeTicket c).writer = s.writer ∧
    (s.makeTicket c).aperture = s.aperture ∧
    (s.makeTicket c).board = s.board ∧
    (s.makeTicket c).chain = s.chain ∧
    (s.makeTicket c).notices = s.notices ∧
    (s.makeTicket c).faultRecord = s.faultRecord ∧
    (s.makeTicket c).reportSequence = s.reportSequence ∧
    (s.makeTicket c).link = s.link ∧
    (s.makeTicket c).nextTag = s.nextTag ∧
    (s.makeTicket c).freeIndex = s.freeIndex ∧
    (s.makeTicket c).lastResult = s.lastResult ∧
    (s.makeTicket c).pending = s.pending := by unfold State.makeTicket; (repeat' split) <;> simp [State.keepTicket_frame, State.discardTicket_frame]

theorem State.writerFault_frame (s : State) (c : FaultClass) (d : Word) :
    (s.writerFault c d).cadence = s.cadence ∧
    (s.writerFault c d).timecode = s.timecode ∧
    (s.writerFault c d).intake = s.intake ∧
    (s.writerFault c d).lanes = s.lanes ∧
    (s.writerFault c d).governor = s.governor ∧
    (s.writerFault c d).store = s.store ∧
    (s.writerFault c d).takes = s.takes ∧
    (s.writerFault c d).writer = s.writer ∧
    (s.writerFault c d).aperture = s.aperture ∧
    (s.writerFault c d).board = s.board ∧
    (s.writerFault c d).chain = s.chain ∧
    (s.writerFault c d).counters = s.counters ∧
    (s.writerFault c d).reportSequence = s.reportSequence ∧
    (s.writerFault c d).nextTag = s.nextTag ∧
    (s.writerFault c d).freeIndex = s.freeIndex ∧
    (s.writerFault c d).lastResult = s.lastResult ∧
    (s.writerFault c d).pending = s.pending := by simp [State.writerFault]

theorem State.closeChunk_frame (s : State) (p : Pool) (l : Bool) :
    (s.closeChunk p l).cadence = s.cadence ∧
    (s.closeChunk p l).timecode = s.timecode ∧
    (s.closeChunk p l).intake = s.intake ∧
    (s.closeChunk p l).lanes = s.lanes ∧
    (s.closeChunk p l).governor = s.governor ∧
    (s.closeChunk p l).store = s.store ∧
    (s.closeChunk p l).takes = s.takes ∧
    (s.closeChunk p l).aperture = s.aperture ∧
    (s.closeChunk p l).board = s.board ∧
    (s.closeChunk p l).chain = s.chain ∧
    (s.closeChunk p l).faultRecord = s.faultRecord ∧
    (s.closeChunk p l).counters = s.counters ∧
    (s.closeChunk p l).reportSequence = s.reportSequence ∧
    (s.closeChunk p l).nextTag = s.nextTag ∧
    (s.closeChunk p l).freeIndex = s.freeIndex ∧
    (s.closeChunk p l).lastResult = s.lastResult ∧
    (s.closeChunk p l).pending = s.pending := by unfold State.closeChunk; dsimp only; split <;> simp

theorem State.attempt_frame (s : State) (p : Pool) :
    (s.attempt p).cadence = s.cadence ∧
    (s.attempt p).timecode = s.timecode ∧
    (s.attempt p).intake = s.intake ∧
    (s.attempt p).lanes = s.lanes ∧
    (s.attempt p).governor = s.governor ∧
    (s.attempt p).store = s.store ∧
    (s.attempt p).takes = s.takes ∧
    (s.attempt p).aperture = s.aperture ∧
    (s.attempt p).board = s.board ∧
    (s.attempt p).chain = s.chain ∧
    (s.attempt p).notices = s.notices ∧
    (s.attempt p).faultRecord = s.faultRecord ∧
    (s.attempt p).counters = s.counters ∧
    (s.attempt p).reportSequence = s.reportSequence ∧
    (s.attempt p).freeIndex = s.freeIndex ∧
    (s.attempt p).lastResult = s.lastResult ∧
    (s.attempt p).pending = s.pending := by unfold State.attempt; dsimp only; split <;> simp

theorem State.beginPair_frame (s : State) (r : PairRecord) (d : PairData) :
    (s.beginPair r d).cadence = s.cadence ∧
    (s.beginPair r d).timecode = s.timecode ∧
    (s.beginPair r d).intake = s.intake ∧
    (s.beginPair r d).lanes = s.lanes ∧
    (s.beginPair r d).governor = s.governor ∧
    (s.beginPair r d).store = s.store ∧
    (s.beginPair r d).aperture = s.aperture ∧
    (s.beginPair r d).board = s.board ∧
    (s.beginPair r d).chain = s.chain ∧
    (s.beginPair r d).notices = s.notices ∧
    (s.beginPair r d).faultRecord = s.faultRecord ∧
    (s.beginPair r d).counters = s.counters ∧
    (s.beginPair r d).reportSequence = s.reportSequence ∧
    (s.beginPair r d).link = s.link ∧
    (s.beginPair r d).nextTag = s.nextTag ∧
    (s.beginPair r d).freeIndex = s.freeIndex ∧
    (s.beginPair r d).lastResult = s.lastResult ∧
    (s.beginPair r d).pending = s.pending := by unfold State.beginPair State.beginWork State.makeCurrent; (repeat' split) <;> simp

theorem State.beginEnding_frame (s : State) (r : TakeRecord) :
    (s.beginEnding r).cadence = s.cadence ∧
    (s.beginEnding r).timecode = s.timecode ∧
    (s.beginEnding r).intake = s.intake ∧
    (s.beginEnding r).lanes = s.lanes ∧
    (s.beginEnding r).governor = s.governor ∧
    (s.beginEnding r).store = s.store ∧
    (s.beginEnding r).takes = s.takes ∧
    (s.beginEnding r).aperture = s.aperture ∧
    (s.beginEnding r).board = s.board ∧
    (s.beginEnding r).chain = s.chain ∧
    (s.beginEnding r).notices = s.notices ∧
    (s.beginEnding r).faultRecord = s.faultRecord ∧
    (s.beginEnding r).counters = s.counters ∧
    (s.beginEnding r).reportSequence = s.reportSequence ∧
    (s.beginEnding r).link = s.link ∧
    (s.beginEnding r).nextTag = s.nextTag ∧
    (s.beginEnding r).freeIndex = s.freeIndex ∧
    (s.beginEnding r).lastResult = s.lastResult ∧
    (s.beginEnding r).pending = s.pending := by unfold State.beginEnding State.beginWork State.makeCurrent; (repeat' split) <;> simp

theorem State.finishPiece_frame (s : State) :
    (s.finishPiece).cadence = s.cadence ∧
    (s.finishPiece).timecode = s.timecode ∧
    (s.finishPiece).intake = s.intake ∧
    (s.finishPiece).lanes = s.lanes ∧
    (s.finishPiece).governor = s.governor ∧
    (s.finishPiece).store = s.store ∧
    (s.finishPiece).takes = s.takes ∧
    (s.finishPiece).aperture = s.aperture ∧
    (s.finishPiece).board = s.board ∧
    (s.finishPiece).chain = s.chain ∧
    (s.finishPiece).notices = s.notices ∧
    (s.finishPiece).faultRecord = s.faultRecord ∧
    (s.finishPiece).counters = s.counters ∧
    (s.finishPiece).reportSequence = s.reportSequence ∧
    (s.finishPiece).link = s.link ∧
    (s.finishPiece).nextTag = s.nextTag ∧
    (s.finishPiece).freeIndex = s.freeIndex ∧
    (s.finishPiece).lastResult = s.lastResult ∧
    (s.finishPiece).pending = s.pending := by simp [State.finishPiece]

theorem State.writeSegment_frame (s : State) (p : Pool) (c : Chunk) (k : Work) (x : Source) (n : Nat) (b : HostAddr) :
    (s.writeSegment p c k x n b).cadence = s.cadence ∧
    (s.writeSegment p c k x n b).timecode = s.timecode ∧
    (s.writeSegment p c k x n b).intake = s.intake ∧
    (s.writeSegment p c k x n b).lanes = s.lanes ∧
    (s.writeSegment p c k x n b).governor = s.governor ∧
    (s.writeSegment p c k x n b).store = s.store ∧
    (s.writeSegment p c k x n b).takes = s.takes ∧
    (s.writeSegment p c k x n b).aperture = s.aperture ∧
    (s.writeSegment p c k x n b).board = s.board ∧
    (s.writeSegment p c k x n b).chain = s.chain ∧
    (s.writeSegment p c k x n b).notices = s.notices ∧
    (s.writeSegment p c k x n b).faultRecord = s.faultRecord ∧
    (s.writeSegment p c k x n b).counters = s.counters ∧
    (s.writeSegment p c k x n b).reportSequence = s.reportSequence ∧
    (s.writeSegment p c k x n b).nextTag = s.nextTag ∧
    (s.writeSegment p c k x n b).freeIndex = s.freeIndex ∧
    (s.writeSegment p c k x n b).lastResult = s.lastResult ∧
    (s.writeSegment p c k x n b).pending = s.pending := by simp [State.writeSegment]

theorem State.placeBytes_frame (s : State) (p : Pool) (k : Work) (x : Source) (n : Nat) :
    (s.placeBytes p k x n).1.cadence = s.cadence ∧
    (s.placeBytes p k x n).1.timecode = s.timecode ∧
    (s.placeBytes p k x n).1.intake = s.intake ∧
    (s.placeBytes p k x n).1.lanes = s.lanes ∧
    (s.placeBytes p k x n).1.governor = s.governor ∧
    (s.placeBytes p k x n).1.store = s.store ∧
    (s.placeBytes p k x n).1.takes = s.takes ∧
    (s.placeBytes p k x n).1.board = s.board ∧
    (s.placeBytes p k x n).1.chain = s.chain ∧
    (s.placeBytes p k x n).1.faultRecord = s.faultRecord ∧
    (s.placeBytes p k x n).1.counters = s.counters ∧
    (s.placeBytes p k x n).1.reportSequence = s.reportSequence ∧
    (s.placeBytes p k x n).1.freeIndex = s.freeIndex ∧
    (s.placeBytes p k x n).1.lastResult = s.lastResult ∧
    (s.placeBytes p k x n).1.pending = s.pending := by
  unfold State.placeBytes
  dsimp only
  split
  · simp [State.attempt_frame]
  · split
    · simp [State.closeChunk_frame]
    · split
      · split
        · simp [State.writeSegment_frame]
        · split <;> rename_i h <;> have e := congrArg Prod.fst h <;> dsimp only at e <;>
            simp [← e, State.translate_frame]
      · split <;> rename_i h <;> have e := congrArg Prod.fst h <;> dsimp only at e <;>
          simp [← e, State.translate_frame]

theorem State.finishPair_frame (s : State) (e : PairEntry) :
    (s.finishPair e).cadence = s.cadence ∧
    (s.finishPair e).timecode = s.timecode ∧
    (s.finishPair e).intake = s.intake ∧
    (s.finishPair e).lanes = s.lanes ∧
    (s.finishPair e).governor = s.governor ∧
    (s.finishPair e).aperture = s.aperture ∧
    (s.finishPair e).board = s.board ∧
    (s.finishPair e).chain = s.chain ∧
    (s.finishPair e).notices = s.notices ∧
    (s.finishPair e).faultRecord = s.faultRecord ∧
    (s.finishPair e).counters = s.counters ∧
    (s.finishPair e).reportSequence = s.reportSequence ∧
    (s.finishPair e).link = s.link ∧
    (s.finishPair e).nextTag = s.nextTag ∧
    (s.finishPair e).freeIndex = s.freeIndex ∧
    (s.finishPair e).lastResult = s.lastResult ∧
    (s.finishPair e).pending = s.pending := by simp [State.finishPair, State.finishPiece_frame]

theorem State.finishTake_frame (s : State) :
    (s.finishTake).cadence = s.cadence ∧
    (s.finishTake).timecode = s.timecode ∧
    (s.finishTake).intake = s.intake ∧
    (s.finishTake).lanes = s.lanes ∧
    (s.finishTake).governor = s.governor ∧
    (s.finishTake).store = s.store ∧
    (s.finishTake).aperture = s.aperture ∧
    (s.finishTake).board = s.board ∧
    (s.finishTake).chain = s.chain ∧
    (s.finishTake).faultRecord = s.faultRecord ∧
    (s.finishTake).counters = s.counters ∧
    (s.finishTake).reportSequence = s.reportSequence ∧
    (s.finishTake).nextTag = s.nextTag ∧
    (s.finishTake).freeIndex = s.freeIndex ∧
    (s.finishTake).lastResult = s.lastResult ∧
    (s.finishTake).pending = s.pending := by simp [State.finishTake, State.finishPiece_frame, State.closeChunk_frame]

theorem State.headerStep_frame (s : State) (k : Work) (r : TakeRecord) :
    (s.headerStep k r).1.cadence = s.cadence ∧
    (s.headerStep k r).1.timecode = s.timecode ∧
    (s.headerStep k r).1.intake = s.intake ∧
    (s.headerStep k r).1.lanes = s.lanes ∧
    (s.headerStep k r).1.governor = s.governor ∧
    (s.headerStep k r).1.board = s.board ∧
    (s.headerStep k r).1.chain = s.chain ∧
    (s.headerStep k r).1.faultRecord = s.faultRecord ∧
    (s.headerStep k r).1.counters = s.counters ∧
    (s.headerStep k r).1.reportSequence = s.reportSequence ∧
    (s.headerStep k r).1.freeIndex = s.freeIndex ∧
    (s.headerStep k r).1.lastResult = s.lastResult ∧
    (s.headerStep k r).1.pending = s.pending := by unfold State.headerStep; split <;> simp [State.placeBytes_frame]

theorem State.fullStep_frame (s : State) (k : Work) (r : PairRecord) :
    (s.fullStep k r).1.cadence = s.cadence ∧
    (s.fullStep k r).1.timecode = s.timecode ∧
    (s.fullStep k r).1.intake = s.intake ∧
    (s.fullStep k r).1.lanes = s.lanes ∧
    (s.fullStep k r).1.governor = s.governor ∧
    (s.fullStep k r).1.board = s.board ∧
    (s.fullStep k r).1.chain = s.chain ∧
    (s.fullStep k r).1.faultRecord = s.faultRecord ∧
    (s.fullStep k r).1.counters = s.counters ∧
    (s.fullStep k r).1.reportSequence = s.reportSequence ∧
    (s.fullStep k r).1.freeIndex = s.freeIndex ∧
    (s.fullStep k r).1.lastResult = s.lastResult ∧
    (s.fullStep k r).1.pending = s.pending := by unfold State.fullStep; (repeat' split) <;> simp [State.placeBytes_frame]

theorem State.proxyStep_frame (s : State) (k : Work) (r : PairRecord) (d : PairData) :
    (s.proxyStep k r d).1.cadence = s.cadence ∧
    (s.proxyStep k r d).1.timecode = s.timecode ∧
    (s.proxyStep k r d).1.intake = s.intake ∧
    (s.proxyStep k r d).1.lanes = s.lanes ∧
    (s.proxyStep k r d).1.governor = s.governor ∧
    (s.proxyStep k r d).1.board = s.board ∧
    (s.proxyStep k r d).1.chain = s.chain ∧
    (s.proxyStep k r d).1.faultRecord = s.faultRecord ∧
    (s.proxyStep k r d).1.counters = s.counters ∧
    (s.proxyStep k r d).1.reportSequence = s.reportSequence ∧
    (s.proxyStep k r d).1.freeIndex = s.freeIndex ∧
    (s.proxyStep k r d).1.lastResult = s.lastResult ∧
    (s.proxyStep k r d).1.pending = s.pending := by unfold State.proxyStep State.settleProxy; (repeat' split) <;> simp [State.placeBytes_frame, State.closeChunk_frame]

theorem State.entryStep_frame (s : State) (k : Work) (r : PairRecord) (d : PairData) :
    (s.entryStep k r d).1.cadence = s.cadence ∧
    (s.entryStep k r d).1.timecode = s.timecode ∧
    (s.entryStep k r d).1.intake = s.intake ∧
    (s.entryStep k r d).1.lanes = s.lanes ∧
    (s.entryStep k r d).1.governor = s.governor ∧
    (s.entryStep k r d).1.board = s.board ∧
    (s.entryStep k r d).1.chain = s.chain ∧
    (s.entryStep k r d).1.faultRecord = s.faultRecord ∧
    (s.entryStep k r d).1.counters = s.counters ∧
    (s.entryStep k r d).1.reportSequence = s.reportSequence ∧
    (s.entryStep k r d).1.freeIndex = s.freeIndex ∧
    (s.entryStep k r d).1.lastResult = s.lastResult ∧
    (s.entryStep k r d).1.pending = s.pending := by unfold State.entryStep; dsimp only; (repeat' split) <;> simp [State.placeBytes_frame, State.finishPair_frame]

theorem State.trailerStep_frame (s : State) (k : Work) (r : TakeRecord) :
    (s.trailerStep k r).1.cadence = s.cadence ∧
    (s.trailerStep k r).1.timecode = s.timecode ∧
    (s.trailerStep k r).1.intake = s.intake ∧
    (s.trailerStep k r).1.lanes = s.lanes ∧
    (s.trailerStep k r).1.governor = s.governor ∧
    (s.trailerStep k r).1.board = s.board ∧
    (s.trailerStep k r).1.chain = s.chain ∧
    (s.trailerStep k r).1.faultRecord = s.faultRecord ∧
    (s.trailerStep k r).1.counters = s.counters ∧
    (s.trailerStep k r).1.reportSequence = s.reportSequence ∧
    (s.trailerStep k r).1.freeIndex = s.freeIndex ∧
    (s.trailerStep k r).1.lastResult = s.lastResult ∧
    (s.trailerStep k r).1.pending = s.pending := by unfold State.trailerStep; (repeat' split) <;> simp [State.placeBytes_frame, State.finishTake_frame, State.closeChunk_frame]

theorem State.writerStep_frame (s : State) :
    (s.writerStep.1).cadence = s.cadence ∧
    (s.writerStep.1).timecode = s.timecode ∧
    (s.writerStep.1).intake = s.intake ∧
    (s.writerStep.1).lanes = s.lanes ∧
    (s.writerStep.1).governor = s.governor ∧
    (s.writerStep.1).board = s.board ∧
    (s.writerStep.1).chain = s.chain ∧
    (s.writerStep.1).faultRecord = s.faultRecord ∧
    (s.writerStep.1).counters = s.counters ∧
    (s.writerStep.1).reportSequence = s.reportSequence ∧
    (s.writerStep.1).freeIndex = s.freeIndex ∧
    (s.writerStep.1).lastResult = s.lastResult ∧
    (s.writerStep.1).pending = s.pending := by unfold State.writerStep; (repeat' split) <;> simp [State.headerStep_frame, State.fullStep_frame, State.proxyStep_frame, State.entryStep_frame, State.trailerStep_frame]

theorem State.runWriter_frame (n : Nat) (s : State) :
    (State.runWriter n s).cadence = s.cadence ∧
    (State.runWriter n s).timecode = s.timecode ∧
    (State.runWriter n s).intake = s.intake ∧
    (State.runWriter n s).lanes = s.lanes ∧
    (State.runWriter n s).governor = s.governor ∧
    (State.runWriter n s).board = s.board ∧
    (State.runWriter n s).chain = s.chain ∧
    (State.runWriter n s).faultRecord = s.faultRecord ∧
    (State.runWriter n s).counters = s.counters ∧
    (State.runWriter n s).reportSequence = s.reportSequence ∧
    (State.runWriter n s).freeIndex = s.freeIndex ∧
    (State.runWriter n s).lastResult = s.lastResult ∧
    (State.runWriter n s).pending = s.pending := by
  induction n generalizing s with
  | zero => simp [State.runWriter]
  | succ k ih =>
    unfold State.runWriter
    split <;> rename_i h <;> have e := congrArg Prod.fst h <;> dsimp only at e <;>
      simp [ih, ← e, State.writerStep_frame]

theorem State.work_frame (s : State) :
    (s.work).cadence = s.cadence ∧
    (s.work).timecode = s.timecode ∧
    (s.work).intake = s.intake ∧
    (s.work).lanes = s.lanes ∧
    (s.work).governor = s.governor ∧
    (s.work).board = s.board ∧
    (s.work).chain = s.chain ∧
    (s.work).faultRecord = s.faultRecord ∧
    (s.work).counters = s.counters ∧
    (s.work).reportSequence = s.reportSequence ∧
    (s.work).freeIndex = s.freeIndex ∧
    (s.work).lastResult = s.lastResult ∧
    (s.work).pending = s.pending := by simp [State.work, State.runWriter_frame]

theorem State.chooseWork_frame (s : State) :
    (s.chooseWork).cadence = s.cadence ∧
    (s.chooseWork).timecode = s.timecode ∧
    (s.chooseWork).intake = s.intake ∧
    (s.chooseWork).lanes = s.lanes ∧
    (s.chooseWork).governor = s.governor ∧
    (s.chooseWork).board = s.board ∧
    (s.chooseWork).chain = s.chain ∧
    (s.chooseWork).faultRecord = s.faultRecord ∧
    (s.chooseWork).counters = s.counters ∧
    (s.chooseWork).reportSequence = s.reportSequence ∧
    (s.chooseWork).freeIndex = s.freeIndex ∧
    (s.chooseWork).lastResult = s.lastResult ∧
    (s.chooseWork).pending = s.pending := by unfold State.chooseWork; (repeat' split) <;> simp [State.work_frame, State.finishPiece_frame, State.beginEnding_frame, State.beginPair_frame]

theorem State.beginSuspension_frame (s : State) :
    (s.beginSuspension).cadence = s.cadence ∧
    (s.beginSuspension).timecode = s.timecode ∧
    (s.beginSuspension).intake = s.intake ∧
    (s.beginSuspension).lanes = s.lanes ∧
    (s.beginSuspension).governor = s.governor ∧
    (s.beginSuspension).board = s.board ∧
    (s.beginSuspension).chain = s.chain ∧
    (s.beginSuspension).counters = s.counters ∧
    (s.beginSuspension).reportSequence = s.reportSequence ∧
    (s.beginSuspension).freeIndex = s.freeIndex ∧
    (s.beginSuspension).lastResult = s.lastResult ∧
    (s.beginSuspension).pending = s.pending := by simp [State.beginSuspension, State.work_frame, State.writerFault_frame]

theorem State.resumeEnding_frame (s : State) :
    (s.resumeEnding).cadence = s.cadence ∧
    (s.resumeEnding).timecode = s.timecode ∧
    (s.resumeEnding).intake = s.intake ∧
    (s.resumeEnding).lanes = s.lanes ∧
    (s.resumeEnding).governor = s.governor ∧
    (s.resumeEnding).board = s.board ∧
    (s.resumeEnding).chain = s.chain ∧
    (s.resumeEnding).faultRecord = s.faultRecord ∧
    (s.resumeEnding).counters = s.counters ∧
    (s.resumeEnding).reportSequence = s.reportSequence ∧
    (s.resumeEnding).freeIndex = s.freeIndex ∧
    (s.resumeEnding).lastResult = s.lastResult ∧
    (s.resumeEnding).pending = s.pending := by unfold State.resumeEnding; (repeat' split) <;> simp [State.work_frame]

theorem State.attemptFailed_frame (s : State) (p : Pool) (c : WaitCause) :
    (s.attemptFailed p c).cadence = s.cadence ∧
    (s.attemptFailed p c).timecode = s.timecode ∧
    (s.attemptFailed p c).intake = s.intake ∧
    (s.attemptFailed p c).lanes = s.lanes ∧
    (s.attemptFailed p c).governor = s.governor ∧
    (s.attemptFailed p c).board = s.board ∧
    (s.attemptFailed p c).chain = s.chain ∧
    (s.attemptFailed p c).counters = s.counters ∧
    (s.attemptFailed p c).reportSequence = s.reportSequence ∧
    (s.attemptFailed p c).freeIndex = s.freeIndex ∧
    (s.attemptFailed p c).lastResult = s.lastResult ∧
    (s.attemptFailed p c).pending = s.pending := by unfold State.attemptFailed State.waitOn; dsimp only; (repeat' split) <;> simp [State.resumeEnding_frame, State.beginSuspension_frame]

theorem State.takeEntry_frame (s : State) (p : Pool) (i a : Nat) :
    (s.takeEntry p i a).cadence = s.cadence ∧
    (s.takeEntry p i a).timecode = s.timecode ∧
    (s.takeEntry p i a).intake = s.intake ∧
    (s.takeEntry p i a).lanes = s.lanes ∧
    (s.takeEntry p i a).governor = s.governor ∧
    (s.takeEntry p i a).board = s.board ∧
    (s.takeEntry p i a).chain = s.chain ∧
    (s.takeEntry p i a).faultRecord = s.faultRecord ∧
    (s.takeEntry p i a).counters = s.counters ∧
    (s.takeEntry p i a).reportSequence = s.reportSequence ∧
    (s.takeEntry p i a).freeIndex = s.freeIndex ∧
    (s.takeEntry p i a).lastResult = s.lastResult ∧
    (s.takeEntry p i a).pending = s.pending := by unfold State.takeEntry; dsimp only; split <;> simp [State.resumeEnding_frame, State.work_frame]

theorem State.scanOn_frame (s : State) (p : Pool) (a : Attempt) :
    (s.scanOn p a).cadence = s.cadence ∧
    (s.scanOn p a).timecode = s.timecode ∧
    (s.scanOn p a).intake = s.intake ∧
    (s.scanOn p a).lanes = s.lanes ∧
    (s.scanOn p a).governor = s.governor ∧
    (s.scanOn p a).board = s.board ∧
    (s.scanOn p a).chain = s.chain ∧
    (s.scanOn p a).counters = s.counters ∧
    (s.scanOn p a).reportSequence = s.reportSequence ∧
    (s.scanOn p a).freeIndex = s.freeIndex ∧
    (s.scanOn p a).lastResult = s.lastResult ∧
    (s.scanOn p a).pending = s.pending := by unfold State.scanOn; dsimp only; split <;> simp [State.attemptFailed_frame]

theorem State.rejectEntry_frame (s : State) (p : Pool) (i : Nat) :
    (s.rejectEntry p i).cadence = s.cadence ∧
    (s.rejectEntry p i).timecode = s.timecode ∧
    (s.rejectEntry p i).intake = s.intake ∧
    (s.rejectEntry p i).lanes = s.lanes ∧
    (s.rejectEntry p i).governor = s.governor ∧
    (s.rejectEntry p i).store = s.store ∧
    (s.rejectEntry p i).takes = s.takes ∧
    (s.rejectEntry p i).writer = s.writer ∧
    (s.rejectEntry p i).aperture = s.aperture ∧
    (s.rejectEntry p i).board = s.board ∧
    (s.rejectEntry p i).chain = s.chain ∧
    (s.rejectEntry p i).reportSequence = s.reportSequence ∧
    (s.rejectEntry p i).nextTag = s.nextTag ∧
    (s.rejectEntry p i).freeIndex = s.freeIndex ∧
    (s.rejectEntry p i).lastResult = s.lastResult ∧
    (s.rejectEntry p i).pending = s.pending := by simp [State.rejectEntry, State.writerFault_frame]

theorem State.entryRead_frame (s : State) (p : Pool) (a : Attempt) (d : Option (List Byte)) :
    (s.entryRead p a d).cadence = s.cadence ∧
    (s.entryRead p a d).timecode = s.timecode ∧
    (s.entryRead p a d).intake = s.intake ∧
    (s.entryRead p a d).lanes = s.lanes ∧
    (s.entryRead p a d).governor = s.governor ∧
    (s.entryRead p a d).board = s.board ∧
    (s.entryRead p a d).chain = s.chain ∧
    (s.entryRead p a d).reportSequence = s.reportSequence ∧
    (s.entryRead p a d).freeIndex = s.freeIndex ∧
    (s.entryRead p a d).lastResult = s.lastResult ∧
    (s.entryRead p a d).pending = s.pending := by unfold State.entryRead; dsimp only; (repeat' split) <;> simp [State.attemptFailed_frame, State.writerFault_frame, State.scanOn_frame, State.takeEntry_frame, State.rejectEntry_frame]

theorem State.answerWriter_frame (s : State) (p : Nat) (a : Answer) :
    (s.answerWriter p a).cadence = s.cadence ∧
    (s.answerWriter p a).timecode = s.timecode ∧
    (s.answerWriter p a).intake = s.intake ∧
    (s.answerWriter p a).lanes = s.lanes ∧
    (s.answerWriter p a).governor = s.governor ∧
    (s.answerWriter p a).board = s.board ∧
    (s.answerWriter p a).chain = s.chain ∧
    (s.answerWriter p a).reportSequence = s.reportSequence ∧
    (s.answerWriter p a).freeIndex = s.freeIndex ∧
    (s.answerWriter p a).lastResult = s.lastResult ∧
    (s.answerWriter p a).pending = s.pending := by unfold State.answerWriter; dsimp only; (repeat' split) <;> simp [State.work_frame, State.writerFault_frame]

theorem State.retryTranslation_frame (s : State) :
    (s.retryTranslation).cadence = s.cadence ∧
    (s.retryTranslation).timecode = s.timecode ∧
    (s.retryTranslation).intake = s.intake ∧
    (s.retryTranslation).lanes = s.lanes ∧
    (s.retryTranslation).governor = s.governor ∧
    (s.retryTranslation).board = s.board ∧
    (s.retryTranslation).chain = s.chain ∧
    (s.retryTranslation).reportSequence = s.reportSequence ∧
    (s.retryTranslation).freeIndex = s.freeIndex ∧
    (s.retryTranslation).lastResult = s.lastResult ∧
    (s.retryTranslation).pending = s.pending := by
  unfold State.retryTranslation
  dsimp only
  split
  · simp
  · split <;> rename_i h <;> have e := congrArg Prod.fst h <;> dsimp only at e <;>
      simp [← e, State.answerWriter_frame, State.translate_frame]

theorem State.writerVisit_frame (s : State) :
    (s.writerVisit).cadence = s.cadence ∧
    (s.writerVisit).timecode = s.timecode ∧
    (s.writerVisit).intake = s.intake ∧
    (s.writerVisit).lanes = s.lanes ∧
    (s.writerVisit).governor = s.governor ∧
    (s.writerVisit).board = s.board ∧
    (s.writerVisit).chain = s.chain ∧
    (s.writerVisit).reportSequence = s.reportSequence ∧
    (s.writerVisit).freeIndex = s.freeIndex ∧
    (s.writerVisit).lastResult = s.lastResult ∧
    (s.writerVisit).pending = s.pending := by unfold State.writerVisit; (repeat' split) <;> simp [State.retryTranslation_frame, State.attempt_frame]

theorem State.proxyWaitFrameStart_frame (s : State) :
    (s.proxyWaitFrameStart).cadence = s.cadence ∧
    (s.proxyWaitFrameStart).timecode = s.timecode ∧
    (s.proxyWaitFrameStart).intake = s.intake ∧
    (s.proxyWaitFrameStart).lanes = s.lanes ∧
    (s.proxyWaitFrameStart).governor = s.governor ∧
    (s.proxyWaitFrameStart).board = s.board ∧
    (s.proxyWaitFrameStart).chain = s.chain ∧
    (s.proxyWaitFrameStart).counters = s.counters ∧
    (s.proxyWaitFrameStart).reportSequence = s.reportSequence ∧
    (s.proxyWaitFrameStart).freeIndex = s.freeIndex ∧
    (s.proxyWaitFrameStart).lastResult = s.lastResult ∧
    (s.proxyWaitFrameStart).pending = s.pending := by unfold State.proxyWaitFrameStart; dsimp only; (repeat' split) <;> simp [State.beginSuspension_frame, State.attempt_frame]

theorem State.writerWaitFrameStart_frame (s : State) :
    (s.writerWaitFrameStart).cadence = s.cadence ∧
    (s.writerWaitFrameStart).timecode = s.timecode ∧
    (s.writerWaitFrameStart).intake = s.intake ∧
    (s.writerWaitFrameStart).lanes = s.lanes ∧
    (s.writerWaitFrameStart).governor = s.governor ∧
    (s.writerWaitFrameStart).board = s.board ∧
    (s.writerWaitFrameStart).chain = s.chain ∧
    (s.writerWaitFrameStart).reportSequence = s.reportSequence ∧
    (s.writerWaitFrameStart).freeIndex = s.freeIndex ∧
    (s.writerWaitFrameStart).lastResult = s.lastResult ∧
    (s.writerWaitFrameStart).pending = s.pending := by unfold State.writerWaitFrameStart; (repeat' split) <;> simp [State.retryTranslation_frame, State.proxyWaitFrameStart_frame, State.attempt_frame]

theorem State.writerFrameStart_frame (s : State) :
    (s.writerFrameStart).cadence = s.cadence ∧
    (s.writerFrameStart).timecode = s.timecode ∧
    (s.writerFrameStart).intake = s.intake ∧
    (s.writerFrameStart).lanes = s.lanes ∧
    (s.writerFrameStart).governor = s.governor ∧
    (s.writerFrameStart).board = s.board ∧
    (s.writerFrameStart).chain = s.chain ∧
    (s.writerFrameStart).reportSequence = s.reportSequence ∧
    (s.writerFrameStart).freeIndex = s.freeIndex ∧
    (s.writerFrameStart).lastResult = s.lastResult ∧
    (s.writerFrameStart).pending = s.pending := by unfold State.writerFrameStart; dsimp only; split <;> simp [State.writerWaitFrameStart_frame, State.attempt_frame]

theorem State.frameReport_frame (s : State) (p : List State) (l : Label) :
    (s.frameReport p l).cadence = s.cadence ∧
    (s.frameReport p l).timecode = s.timecode ∧
    (s.frameReport p l).intake = s.intake ∧
    (s.frameReport p l).lanes = s.lanes ∧
    (s.frameReport p l).governor = s.governor ∧
    (s.frameReport p l).store = s.store ∧
    (s.frameReport p l).takes = s.takes ∧
    (s.frameReport p l).writer = s.writer ∧
    (s.frameReport p l).aperture = s.aperture ∧
    (s.frameReport p l).board = s.board ∧
    (s.frameReport p l).chain = s.chain ∧
    (s.frameReport p l).faultRecord = s.faultRecord ∧
    (s.frameReport p l).counters = s.counters ∧
    (s.frameReport p l).nextTag = s.nextTag ∧
    (s.frameReport p l).lastResult = s.lastResult ∧
    (s.frameReport p l).pending = s.pending := by simp [State.frameReport]

theorem State.readNext_frame (s : State) (b : HostAddr) :
    (s.readNext b).cadence = s.cadence ∧
    (s.readNext b).timecode = s.timecode ∧
    (s.readNext b).intake = s.intake ∧
    (s.readNext b).lanes = s.lanes ∧
    (s.readNext b).governor = s.governor ∧
    (s.readNext b).store = s.store ∧
    (s.readNext b).takes = s.takes ∧
    (s.readNext b).writer = s.writer ∧
    (s.readNext b).aperture = s.aperture ∧
    (s.readNext b).board = s.board ∧
    (s.readNext b).notices = s.notices ∧
    (s.readNext b).faultRecord = s.faultRecord ∧
    (s.readNext b).counters = s.counters ∧
    (s.readNext b).reportSequence = s.reportSequence ∧
    (s.readNext b).freeIndex = s.freeIndex ∧
    (s.readNext b).lastResult = s.lastResult ∧
    (s.readNext b).pending = s.pending := by simp [State.readNext]

theorem State.beginVisit_frame (s : State) (f : Bool) :
    (s.beginVisit f).cadence = s.cadence ∧
    (s.beginVisit f).timecode = s.timecode ∧
    (s.beginVisit f).intake = s.intake ∧
    (s.beginVisit f).lanes = s.lanes ∧
    (s.beginVisit f).governor = s.governor ∧
    (s.beginVisit f).store = s.store ∧
    (s.beginVisit f).takes = s.takes ∧
    (s.beginVisit f).writer = s.writer ∧
    (s.beginVisit f).board = s.board ∧
    (s.beginVisit f).notices = s.notices ∧
    (s.beginVisit f).faultRecord = s.faultRecord ∧
    (s.beginVisit f).counters = s.counters ∧
    (s.beginVisit f).reportSequence = s.reportSequence ∧
    (s.beginVisit f).freeIndex = s.freeIndex ∧
    (s.beginVisit f).lastResult = s.lastResult ∧
    (s.beginVisit f).pending = s.pending := by
  unfold State.beginVisit
  dsimp only
  split <;> rename_i h <;> have e := congrArg Prod.fst h <;> dsimp only at e <;>
    simp [← e, State.readNext_frame, State.translate_frame]

theorem State.askVisit_frame (s : State) (f : Bool) :
    (s.askVisit f).cadence = s.cadence ∧
    (s.askVisit f).timecode = s.timecode ∧
    (s.askVisit f).intake = s.intake ∧
    (s.askVisit f).lanes = s.lanes ∧
    (s.askVisit f).governor = s.governor ∧
    (s.askVisit f).store = s.store ∧
    (s.askVisit f).takes = s.takes ∧
    (s.askVisit f).writer = s.writer ∧
    (s.askVisit f).board = s.board ∧
    (s.askVisit f).notices = s.notices ∧
    (s.askVisit f).faultRecord = s.faultRecord ∧
    (s.askVisit f).counters = s.counters ∧
    (s.askVisit f).reportSequence = s.reportSequence ∧
    (s.askVisit f).freeIndex = s.freeIndex ∧
    (s.askVisit f).lastResult = s.lastResult ∧
    (s.askVisit f).pending = s.pending := by unfold State.askVisit; split <;> simp [State.beginVisit_frame]

theorem State.endVisit_frame (s : State) (l : Bool) :
    (s.endVisit l).cadence = s.cadence ∧
    (s.endVisit l).timecode = s.timecode ∧
    (s.endVisit l).intake = s.intake ∧
    (s.endVisit l).lanes = s.lanes ∧
    (s.endVisit l).governor = s.governor ∧
    (s.endVisit l).store = s.store ∧
    (s.endVisit l).takes = s.takes ∧
    (s.endVisit l).writer = s.writer ∧
    (s.endVisit l).board = s.board ∧
    (s.endVisit l).faultRecord = s.faultRecord ∧
    (s.endVisit l).counters = s.counters ∧
    (s.endVisit l).reportSequence = s.reportSequence ∧
    (s.endVisit l).freeIndex = s.freeIndex ∧
    (s.endVisit l).lastResult = s.lastResult ∧
    (s.endVisit l).pending = s.pending := by unfold State.endVisit; dsimp only; (repeat' split) <;> simp [State.beginVisit_frame]

theorem State.chainFault_frame (s : State) (a : Nat) :
    (s.chainFault a).cadence = s.cadence ∧
    (s.chainFault a).timecode = s.timecode ∧
    (s.chainFault a).intake = s.intake ∧
    (s.chainFault a).lanes = s.lanes ∧
    (s.chainFault a).governor = s.governor ∧
    (s.chainFault a).store = s.store ∧
    (s.chainFault a).takes = s.takes ∧
    (s.chainFault a).writer = s.writer ∧
    (s.chainFault a).board = s.board ∧
    (s.chainFault a).counters = s.counters ∧
    (s.chainFault a).reportSequence = s.reportSequence ∧
    (s.chainFault a).freeIndex = s.freeIndex ∧
    (s.chainFault a).lastResult = s.lastResult ∧
    (s.chainFault a).pending = s.pending := by unfold State.chainFault; dsimp only; split <;> simp [State.endVisit_frame]

theorem State.readRecord_frame (s : State) (a : Nat) (b : HostAddr) :
    (s.readRecord a b).cadence = s.cadence ∧
    (s.readRecord a b).timecode = s.timecode ∧
    (s.readRecord a b).intake = s.intake ∧
    (s.readRecord a b).lanes = s.lanes ∧
    (s.readRecord a b).governor = s.governor ∧
    (s.readRecord a b).store = s.store ∧
    (s.readRecord a b).takes = s.takes ∧
    (s.readRecord a b).writer = s.writer ∧
    (s.readRecord a b).board = s.board ∧
    (s.readRecord a b).notices = s.notices ∧
    (s.readRecord a b).faultRecord = s.faultRecord ∧
    (s.readRecord a b).counters = s.counters ∧
    (s.readRecord a b).reportSequence = s.reportSequence ∧
    (s.readRecord a b).freeIndex = s.freeIndex ∧
    (s.readRecord a b).lastResult = s.lastResult ∧
    (s.readRecord a b).pending = s.pending := by simp [State.readRecord]

theorem State.followNext_frame (s : State) (n : Nat) :
    (s.followNext n).cadence = s.cadence ∧
    (s.followNext n).timecode = s.timecode ∧
    (s.followNext n).intake = s.intake ∧
    (s.followNext n).lanes = s.lanes ∧
    (s.followNext n).governor = s.governor ∧
    (s.followNext n).store = s.store ∧
    (s.followNext n).takes = s.takes ∧
    (s.followNext n).writer = s.writer ∧
    (s.followNext n).board = s.board ∧
    (s.followNext n).counters = s.counters ∧
    (s.followNext n).reportSequence = s.reportSequence ∧
    (s.followNext n).freeIndex = s.freeIndex ∧
    (s.followNext n).lastResult = s.lastResult ∧
    (s.followNext n).pending = s.pending := by
  unfold State.followNext
  split
  · simp [State.endVisit_frame]
  · split
    · simp [State.chainFault_frame]
    · split <;> rename_i h <;> have e := congrArg Prod.fst h <;> dsimp only at e <;>
        simp [← e, State.readRecord_frame, State.translate_frame]

theorem State.count_frame (s : State) (n : Nat) :
    (s.count n).lanes = s.lanes ∧
    (s.count n).governor = s.governor ∧
    (s.count n).store = s.store ∧
    (s.count n).takes = s.takes ∧
    (s.count n).writer = s.writer ∧
    (s.count n).aperture = s.aperture ∧
    (s.count n).board = s.board ∧
    (s.count n).chain = s.chain ∧
    (s.count n).notices = s.notices ∧
    (s.count n).faultRecord = s.faultRecord ∧
    (s.count n).counters = s.counters ∧
    (s.count n).reportSequence = s.reportSequence ∧
    (s.count n).link = s.link ∧
    (s.count n).nextTag = s.nextTag ∧
    (s.count n).freeIndex = s.freeIndex ∧
    (s.count n).lastResult = s.lastResult ∧
    (s.count n).pending = s.pending := by simp [State.count]

theorem State.enterSeeking_frame (s : State) :
    (s.enterSeeking).timecode = s.timecode ∧
    (s.enterSeeking).intake = s.intake ∧
    (s.enterSeeking).lanes = s.lanes ∧
    (s.enterSeeking).governor = s.governor ∧
    (s.enterSeeking).store = s.store ∧
    (s.enterSeeking).takes = s.takes ∧
    (s.enterSeeking).writer = s.writer ∧
    (s.enterSeeking).aperture = s.aperture ∧
    (s.enterSeeking).board = s.board ∧
    (s.enterSeeking).chain = s.chain ∧
    (s.enterSeeking).faultRecord = s.faultRecord ∧
    (s.enterSeeking).counters = s.counters ∧
    (s.enterSeeking).reportSequence = s.reportSequence ∧
    (s.enterSeeking).nextTag = s.nextTag ∧
    (s.enterSeeking).freeIndex = s.freeIndex ∧
    (s.enterSeeking).lastResult = s.lastResult ∧
    (s.enterSeeking).pending = s.pending := by simp [State.enterSeeking]

theorem State.enterUnused_frame (s : State) :
    (s.enterUnused).timecode = s.timecode ∧
    (s.enterUnused).intake = s.intake ∧
    (s.enterUnused).lanes = s.lanes ∧
    (s.enterUnused).governor = s.governor ∧
    (s.enterUnused).store = s.store ∧
    (s.enterUnused).takes = s.takes ∧
    (s.enterUnused).writer = s.writer ∧
    (s.enterUnused).aperture = s.aperture ∧
    (s.enterUnused).board = s.board ∧
    (s.enterUnused).chain = s.chain ∧
    (s.enterUnused).faultRecord = s.faultRecord ∧
    (s.enterUnused).counters = s.counters ∧
    (s.enterUnused).reportSequence = s.reportSequence ∧
    (s.enterUnused).nextTag = s.nextTag ∧
    (s.enterUnused).freeIndex = s.freeIndex ∧
    (s.enterUnused).lastResult = s.lastResult ∧
    (s.enterUnused).pending = s.pending := by simp [State.enterUnused]

theorem State.enterLocked_frame (s : State) :
    (s.enterLocked).timecode = s.timecode ∧
    (s.enterLocked).intake = s.intake ∧
    (s.enterLocked).lanes = s.lanes ∧
    (s.enterLocked).governor = s.governor ∧
    (s.enterLocked).store = s.store ∧
    (s.enterLocked).takes = s.takes ∧
    (s.enterLocked).writer = s.writer ∧
    (s.enterLocked).aperture = s.aperture ∧
    (s.enterLocked).board = s.board ∧
    (s.enterLocked).chain = s.chain ∧
    (s.enterLocked).faultRecord = s.faultRecord ∧
    (s.enterLocked).counters = s.counters ∧
    (s.enterLocked).reportSequence = s.reportSequence ∧
    (s.enterLocked).nextTag = s.nextTag ∧
    (s.enterLocked).freeIndex = s.freeIndex ∧
    (s.enterLocked).lastResult = s.lastResult ∧
    (s.enterLocked).pending = s.pending := by simp [State.enterLocked]

theorem State.enterHoldover_frame (s : State) :
    (s.enterHoldover).timecode = s.timecode ∧
    (s.enterHoldover).intake = s.intake ∧
    (s.enterHoldover).lanes = s.lanes ∧
    (s.enterHoldover).governor = s.governor ∧
    (s.enterHoldover).store = s.store ∧
    (s.enterHoldover).takes = s.takes ∧
    (s.enterHoldover).writer = s.writer ∧
    (s.enterHoldover).aperture = s.aperture ∧
    (s.enterHoldover).board = s.board ∧
    (s.enterHoldover).chain = s.chain ∧
    (s.enterHoldover).counters = s.counters ∧
    (s.enterHoldover).reportSequence = s.reportSequence ∧
    (s.enterHoldover).nextTag = s.nextTag ∧
    (s.enterHoldover).freeIndex = s.freeIndex ∧
    (s.enterHoldover).lastResult = s.lastResult ∧
    (s.enterHoldover).pending = s.pending := by simp [State.enterHoldover]

theorem State.checkLost_frame (s : State) :
    (s.checkLost).timecode = s.timecode ∧
    (s.checkLost).intake = s.intake ∧
    (s.checkLost).lanes = s.lanes ∧
    (s.checkLost).governor = s.governor ∧
    (s.checkLost).store = s.store ∧
    (s.checkLost).takes = s.takes ∧
    (s.checkLost).writer = s.writer ∧
    (s.checkLost).aperture = s.aperture ∧
    (s.checkLost).board = s.board ∧
    (s.checkLost).chain = s.chain ∧
    (s.checkLost).counters = s.counters ∧
    (s.checkLost).reportSequence = s.reportSequence ∧
    (s.checkLost).nextTag = s.nextTag ∧
    (s.checkLost).freeIndex = s.freeIndex ∧
    (s.checkLost).lastResult = s.lastResult ∧
    (s.checkLost).pending = s.pending := by unfold State.checkLost; split <;> simp [State.enterHoldover_frame]

theorem State.applySetting_frame (s : State) (x : CadenceSetting) :
    (s.applySetting x).timecode = s.timecode ∧
    (s.applySetting x).intake = s.intake ∧
    (s.applySetting x).lanes = s.lanes ∧
    (s.applySetting x).governor = s.governor ∧
    (s.applySetting x).store = s.store ∧
    (s.applySetting x).takes = s.takes ∧
    (s.applySetting x).writer = s.writer ∧
    (s.applySetting x).aperture = s.aperture ∧
    (s.applySetting x).board = s.board ∧
    (s.applySetting x).chain = s.chain ∧
    (s.applySetting x).faultRecord = s.faultRecord ∧
    (s.applySetting x).counters = s.counters ∧
    (s.applySetting x).reportSequence = s.reportSequence ∧
    (s.applySetting x).nextTag = s.nextTag ∧
    (s.applySetting x).freeIndex = s.freeIndex ∧
    (s.applySetting x).lastResult = s.lastResult ∧
    (s.applySetting x).pending = s.pending := by unfold State.applySetting; dsimp only; (repeat' split) <;> simp [State.enterSeeking_frame, State.enterUnused_frame]

theorem State.numberFrame_frame (s : State) (c : FrameCause) :
    (s.numberFrame c).timecode = s.timecode ∧
    (s.numberFrame c).intake = s.intake ∧
    (s.numberFrame c).lanes = s.lanes ∧
    (s.numberFrame c).governor = s.governor ∧
    (s.numberFrame c).store = s.store ∧
    (s.numberFrame c).takes = s.takes ∧
    (s.numberFrame c).writer = s.writer ∧
    (s.numberFrame c).aperture = s.aperture ∧
    (s.numberFrame c).board = s.board ∧
    (s.numberFrame c).chain = s.chain ∧
    (s.numberFrame c).notices = s.notices ∧
    (s.numberFrame c).faultRecord = s.faultRecord ∧
    (s.numberFrame c).reportSequence = s.reportSequence ∧
    (s.numberFrame c).link = s.link ∧
    (s.numberFrame c).nextTag = s.nextTag ∧
    (s.numberFrame c).freeIndex = s.freeIndex ∧
    (s.numberFrame c).lastResult = s.lastResult ∧
    (s.numberFrame c).pending = s.pending := by simp [State.numberFrame]

theorem State.edgeHandling_frame (s : State) (c : FrameCause) :
    (s.edgeHandling c).timecode = s.timecode ∧
    (s.edgeHandling c).intake = s.intake ∧
    (s.edgeHandling c).lanes = s.lanes ∧
    (s.edgeHandling c).governor = s.governor ∧
    (s.edgeHandling c).store = s.store ∧
    (s.edgeHandling c).takes = s.takes ∧
    (s.edgeHandling c).writer = s.writer ∧
    (s.edgeHandling c).aperture = s.aperture ∧
    (s.edgeHandling c).board = s.board ∧
    (s.edgeHandling c).chain = s.chain ∧
    (s.edgeHandling c).reportSequence = s.reportSequence ∧
    (s.edgeHandling c).nextTag = s.nextTag ∧
    (s.edgeHandling c).freeIndex = s.freeIndex ∧
    (s.edgeHandling c).lastResult = s.lastResult ∧
    (s.edgeHandling c).pending = s.pending := by unfold State.edgeHandling; split <;> simp [State.enterLocked_frame, State.checkLost_frame]

theorem State.settleCounter_frame (s : State) (c : FrameCause) :
    (s.settleCounter c).timecode = s.timecode ∧
    (s.settleCounter c).intake = s.intake ∧
    (s.settleCounter c).lanes = s.lanes ∧
    (s.settleCounter c).governor = s.governor ∧
    (s.settleCounter c).store = s.store ∧
    (s.settleCounter c).takes = s.takes ∧
    (s.settleCounter c).writer = s.writer ∧
    (s.settleCounter c).aperture = s.aperture ∧
    (s.settleCounter c).board = s.board ∧
    (s.settleCounter c).chain = s.chain ∧
    (s.settleCounter c).faultRecord = s.faultRecord ∧
    (s.settleCounter c).counters = s.counters ∧
    (s.settleCounter c).reportSequence = s.reportSequence ∧
    (s.settleCounter c).nextTag = s.nextTag ∧
    (s.settleCounter c).freeIndex = s.freeIndex ∧
    (s.settleCounter c).lastResult = s.lastResult ∧
    (s.settleCounter c).pending = s.pending := by unfold State.settleCounter; split <;> simp [State.applySetting_frame]

theorem State.timecodeFrameStart_frame (s : State) (c : FrameCause) (b : Bool) :
    (s.timecodeFrameStart c b).cadence = s.cadence ∧
    (s.timecodeFrameStart c b).intake = s.intake ∧
    (s.timecodeFrameStart c b).lanes = s.lanes ∧
    (s.timecodeFrameStart c b).governor = s.governor ∧
    (s.timecodeFrameStart c b).store = s.store ∧
    (s.timecodeFrameStart c b).takes = s.takes ∧
    (s.timecodeFrameStart c b).writer = s.writer ∧
    (s.timecodeFrameStart c b).aperture = s.aperture ∧
    (s.timecodeFrameStart c b).board = s.board ∧
    (s.timecodeFrameStart c b).chain = s.chain ∧
    (s.timecodeFrameStart c b).notices = s.notices ∧
    (s.timecodeFrameStart c b).faultRecord = s.faultRecord ∧
    (s.timecodeFrameStart c b).counters = s.counters ∧
    (s.timecodeFrameStart c b).reportSequence = s.reportSequence ∧
    (s.timecodeFrameStart c b).link = s.link ∧
    (s.timecodeFrameStart c b).nextTag = s.nextTag ∧
    (s.timecodeFrameStart c b).freeIndex = s.freeIndex ∧
    (s.timecodeFrameStart c b).lastResult = s.lastResult ∧
    (s.timecodeFrameStart c b).pending = s.pending := by unfold State.timecodeFrameStart; dsimp only; (repeat' split) <;> simp [State.baseBoundary_frame]

theorem State.boardFrameStart_frame (s : State) (p : List State) :
    (s.boardFrameStart p).cadence = s.cadence ∧
    (s.boardFrameStart p).timecode = s.timecode ∧
    (s.boardFrameStart p).intake = s.intake ∧
    (s.boardFrameStart p).lanes = s.lanes ∧
    (s.boardFrameStart p).governor = s.governor ∧
    (s.boardFrameStart p).store = s.store ∧
    (s.boardFrameStart p).takes = s.takes ∧
    (s.boardFrameStart p).writer = s.writer ∧
    (s.boardFrameStart p).board = s.board ∧
    (s.boardFrameStart p).faultRecord = s.faultRecord ∧
    (s.boardFrameStart p).counters = s.counters ∧
    (s.boardFrameStart p).lastResult = s.lastResult ∧
    (s.boardFrameStart p).pending = s.pending := by unfold State.boardFrameStart; dsimp only; (repeat' split) <;> simp [State.frameReport_frame, State.askVisit_frame]

theorem State.handFrameStart_frame (s : State) (c : FrameCause) :
    (s.handFrameStart c).cadence = s.cadence ∧
    (s.handFrameStart c).lanes = s.lanes ∧
    (s.handFrameStart c).board = s.board ∧
    (s.handFrameStart c).lastResult = s.lastResult ∧
    (s.handFrameStart c).pending = s.pending := by simp [State.handFrameStart, State.boardFrameStart_frame, State.writerFrameStart_frame, State.trimStore_frame, State.intakeFrameStart_frame, State.timecodeFrameStart_frame, State.profileFrameStart_frame]

theorem State.frameStart_frame (s : State) (c : FrameCause) :
    (s.frameStart c).lanes = s.lanes ∧
    (s.frameStart c).board = s.board ∧
    (s.frameStart c).lastResult = s.lastResult ∧
    (s.frameStart c).pending = s.pending := by simp [State.frameStart, State.handFrameStart_frame, State.settleCounter_frame, State.edgeHandling_frame, State.numberFrame_frame]

theorem State.seekEdge_frame (s : State) (g : Bool) :
    (s.seekEdge g).lanes = s.lanes ∧
    (s.seekEdge g).board = s.board ∧
    (s.seekEdge g).lastResult = s.lastResult ∧
    (s.seekEdge g).pending = s.pending := by unfold State.seekEdge State.countBadEdge; (repeat' split) <;> simp [State.frameStart_frame]

theorem State.lockedEdge_frame (s : State) (g : Bool) :
    (s.lockedEdge g).lanes = s.lanes ∧
    (s.lockedEdge g).board = s.board ∧
    (s.lockedEdge g).lastResult = s.lastResult ∧
    (s.lockedEdge g).pending = s.pending := by unfold State.lockedEdge State.countBadEdge; (repeat' split) <;> simp [State.frameStart_frame, State.checkLost_frame]

theorem State.sampleEdge_frame (s : State) :
    (s.sampleEdge).lanes = s.lanes ∧
    (s.sampleEdge).board = s.board ∧
    (s.sampleEdge).lastResult = s.lastResult ∧
    (s.sampleEdge).pending = s.pending := by unfold State.sampleEdge State.countBadEdge; dsimp only; (repeat' split) <;> simp [State.seekEdge_frame, State.lockedEdge_frame]

theorem State.latchEdge_frame (s : State) (p : Polarity) :
    (s.latchEdge p).timecode = s.timecode ∧
    (s.latchEdge p).intake = s.intake ∧
    (s.latchEdge p).lanes = s.lanes ∧
    (s.latchEdge p).governor = s.governor ∧
    (s.latchEdge p).store = s.store ∧
    (s.latchEdge p).takes = s.takes ∧
    (s.latchEdge p).writer = s.writer ∧
    (s.latchEdge p).aperture = s.aperture ∧
    (s.latchEdge p).board = s.board ∧
    (s.latchEdge p).chain = s.chain ∧
    (s.latchEdge p).notices = s.notices ∧
    (s.latchEdge p).faultRecord = s.faultRecord ∧
    (s.latchEdge p).counters = s.counters ∧
    (s.latchEdge p).reportSequence = s.reportSequence ∧
    (s.latchEdge p).link = s.link ∧
    (s.latchEdge p).nextTag = s.nextTag ∧
    (s.latchEdge p).freeIndex = s.freeIndex ∧
    (s.latchEdge p).lastResult = s.lastResult ∧
    (s.latchEdge p).pending = s.pending := by unfold State.latchEdge; split <;> simp

theorem State.takeExpiry_frame (s : State) :
    (s.takeExpiry).lanes = s.lanes ∧
    (s.takeExpiry).board = s.board ∧
    (s.takeExpiry).lastResult = s.lastResult ∧
    (s.takeExpiry).pending = s.pending := by unfold State.takeExpiry; split <;> simp [State.frameStart_frame]

theorem State.openLate_frame (s : State) :
    (s.openLate).lanes = s.lanes ∧
    (s.openLate).board = s.board ∧
    (s.openLate).lastResult = s.lastResult ∧
    (s.openLate).pending = s.pending := by unfold State.openLate; split <;> simp [State.takeExpiry_frame]

theorem State.settle_frame (s : State) :
    (s.settle).lanes = s.lanes ∧
    (s.settle).board = s.board ∧
    (s.settle).lastResult = s.lastResult ∧
    (s.settle).pending = s.pending := by unfold State.settle; dsimp only; (repeat' split) <;> simp [State.takeExpiry_frame, State.frameStart_frame, State.baseBoundary_frame]

theorem State.pass_frame (s : State) (n : Nat) :
    (s.pass n).lanes = s.lanes ∧
    (s.pass n).board = s.board ∧
    (s.pass n).lastResult = s.lastResult ∧
    (s.pass n).pending = s.pending := by unfold State.pass; dsimp only; split <;> simp [State.sampleEdge_frame, State.count_frame]

theorem State.elapseIn_frame (k n : Nat) (s : State) :
    (State.elapseIn k n s).lanes = s.lanes ∧
    (State.elapseIn k n s).board = s.board ∧
    (State.elapseIn k n s).lastResult = s.lastResult ∧
    (State.elapseIn k n s).pending = s.pending := by
  induction k generalizing n s with
  | zero => simp [State.elapseIn]
  | succ k ih => unfold State.elapseIn; dsimp only; split <;> simp [ih, State.pass_frame, State.settle_frame]

theorem State.elapse_frame (s : State) (n : Nat) :
    (s.elapse n).lanes = s.lanes ∧
    (s.elapse n).board = s.board ∧
    (s.elapse n).lastResult = s.lastResult ∧
    (s.elapse n).pending = s.pending := by simp [State.elapse, State.elapseIn_frame]

theorem State.startCadence_frame (s : State) :
    (s.startCadence).timecode = s.timecode ∧
    (s.startCadence).intake = s.intake ∧
    (s.startCadence).lanes = s.lanes ∧
    (s.startCadence).governor = s.governor ∧
    (s.startCadence).store = s.store ∧
    (s.startCadence).takes = s.takes ∧
    (s.startCadence).writer = s.writer ∧
    (s.startCadence).aperture = s.aperture ∧
    (s.startCadence).chain = s.chain ∧
    (s.startCadence).faultRecord = s.faultRecord ∧
    (s.startCadence).counters = s.counters ∧
    (s.startCadence).reportSequence = s.reportSequence ∧
    (s.startCadence).nextTag = s.nextTag ∧
    (s.startCadence).freeIndex = s.freeIndex ∧
    (s.startCadence).lastResult = s.lastResult ∧
    (s.startCadence).pending = s.pending := by unfold State.startCadence; dsimp only; split <;> simp [State.enterSeeking_frame]

theorem State.boundaryAfter_frame (s : State) (b : Bool) :
    (s.boundaryAfter b).cadence = s.cadence ∧
    (s.boundaryAfter b).intake = s.intake ∧
    (s.boundaryAfter b).lanes = s.lanes ∧
    (s.boundaryAfter b).governor = s.governor ∧
    (s.boundaryAfter b).store = s.store ∧
    (s.boundaryAfter b).takes = s.takes ∧
    (s.boundaryAfter b).writer = s.writer ∧
    (s.boundaryAfter b).aperture = s.aperture ∧
    (s.boundaryAfter b).board = s.board ∧
    (s.boundaryAfter b).chain = s.chain ∧
    (s.boundaryAfter b).notices = s.notices ∧
    (s.boundaryAfter b).faultRecord = s.faultRecord ∧
    (s.boundaryAfter b).counters = s.counters ∧
    (s.boundaryAfter b).reportSequence = s.reportSequence ∧
    (s.boundaryAfter b).link = s.link ∧
    (s.boundaryAfter b).nextTag = s.nextTag ∧
    (s.boundaryAfter b).freeIndex = s.freeIndex ∧
    (s.boundaryAfter b).lastResult = s.lastResult ∧
    (s.boundaryAfter b).pending = s.pending := by unfold State.boundaryAfter; split <;> simp [State.baseBoundary_frame]

theorem State.closeForStop_frame (s : State) :
    (s.closeForStop).cadence = s.cadence ∧
    (s.closeForStop).timecode = s.timecode ∧
    (s.closeForStop).intake = s.intake ∧
    (s.closeForStop).lanes = s.lanes ∧
    (s.closeForStop).governor = s.governor ∧
    (s.closeForStop).store = s.store ∧
    (s.closeForStop).writer = s.writer ∧
    (s.closeForStop).aperture = s.aperture ∧
    (s.closeForStop).chain = s.chain ∧
    (s.closeForStop).notices = s.notices ∧
    (s.closeForStop).faultRecord = s.faultRecord ∧
    (s.closeForStop).counters = s.counters ∧
    (s.closeForStop).reportSequence = s.reportSequence ∧
    (s.closeForStop).link = s.link ∧
    (s.closeForStop).nextTag = s.nextTag ∧
    (s.closeForStop).freeIndex = s.freeIndex ∧
    (s.closeForStop).lastResult = s.lastResult ∧
    (s.closeForStop).pending = s.pending := by unfold State.closeForStop; split <;> simp [State.closeTake_frame]

theorem State.activatePending_frame (s : State) :
    (s.activatePending).cadence = s.cadence ∧
    (s.activatePending).intake = s.intake ∧
    (s.activatePending).lanes = s.lanes ∧
    (s.activatePending).writer = s.writer ∧
    (s.activatePending).aperture = s.aperture ∧
    (s.activatePending).board = s.board ∧
    (s.activatePending).chain = s.chain ∧
    (s.activatePending).notices = s.notices ∧
    (s.activatePending).faultRecord = s.faultRecord ∧
    (s.activatePending).counters = s.counters ∧
    (s.activatePending).reportSequence = s.reportSequence ∧
    (s.activatePending).link = s.link ∧
    (s.activatePending).nextTag = s.nextTag ∧
    (s.activatePending).freeIndex = s.freeIndex ∧
    (s.activatePending).lastResult = s.lastResult ∧
    (s.activatePending).pending = s.pending := by unfold State.activatePending; split <;> simp [State.activateStopped_frame]

theorem State.stopCadence_frame (s : State) :
    (s.stopCadence).intake = s.intake ∧
    (s.stopCadence).lanes = s.lanes ∧
    (s.stopCadence).writer = s.writer ∧
    (s.stopCadence).aperture = s.aperture ∧
    (s.stopCadence).chain = s.chain ∧
    (s.stopCadence).faultRecord = s.faultRecord ∧
    (s.stopCadence).counters = s.counters ∧
    (s.stopCadence).reportSequence = s.reportSequence ∧
    (s.stopCadence).nextTag = s.nextTag ∧
    (s.stopCadence).freeIndex = s.freeIndex ∧
    (s.stopCadence).lastResult = s.lastResult ∧
    (s.stopCadence).pending = s.pending := by simp [State.stopCadence, State.boundaryAfter_frame, State.closeForStop_frame, State.activatePending_frame]

theorem State.applySetCadence_frame (s : State) (p : BitVec 64) (m q : Byte) (t : Word) :
    (s.applySetCadence p m q t).1.timecode = s.timecode ∧
    (s.applySetCadence p m q t).1.intake = s.intake ∧
    (s.applySetCadence p m q t).1.lanes = s.lanes ∧
    (s.applySetCadence p m q t).1.governor = s.governor ∧
    (s.applySetCadence p m q t).1.store = s.store ∧
    (s.applySetCadence p m q t).1.takes = s.takes ∧
    (s.applySetCadence p m q t).1.writer = s.writer ∧
    (s.applySetCadence p m q t).1.aperture = s.aperture ∧
    (s.applySetCadence p m q t).1.board = s.board ∧
    (s.applySetCadence p m q t).1.chain = s.chain ∧
    (s.applySetCadence p m q t).1.notices = s.notices ∧
    (s.applySetCadence p m q t).1.faultRecord = s.faultRecord ∧
    (s.applySetCadence p m q t).1.counters = s.counters ∧
    (s.applySetCadence p m q t).1.reportSequence = s.reportSequence ∧
    (s.applySetCadence p m q t).1.link = s.link ∧
    (s.applySetCadence p m q t).1.nextTag = s.nextTag ∧
    (s.applySetCadence p m q t).1.freeIndex = s.freeIndex ∧
    (s.applySetCadence p m q t).1.lastResult = s.lastResult ∧
    (s.applySetCadence p m q t).1.pending = s.pending := by unfold State.applySetCadence State.useSetting; dsimp only; (repeat' split) <;> simp

theorem State.applyStartCadence_frame (s : State) :
    (s.applyStartCadence.1).timecode = s.timecode ∧
    (s.applyStartCadence.1).intake = s.intake ∧
    (s.applyStartCadence.1).lanes = s.lanes ∧
    (s.applyStartCadence.1).governor = s.governor ∧
    (s.applyStartCadence.1).store = s.store ∧
    (s.applyStartCadence.1).takes = s.takes ∧
    (s.applyStartCadence.1).writer = s.writer ∧
    (s.applyStartCadence.1).aperture = s.aperture ∧
    (s.applyStartCadence.1).chain = s.chain ∧
    (s.applyStartCadence.1).faultRecord = s.faultRecord ∧
    (s.applyStartCadence.1).counters = s.counters ∧
    (s.applyStartCadence.1).reportSequence = s.reportSequence ∧
    (s.applyStartCadence.1).nextTag = s.nextTag ∧
    (s.applyStartCadence.1).freeIndex = s.freeIndex ∧
    (s.applyStartCadence.1).lastResult = s.lastResult ∧
    (s.applyStartCadence.1).pending = s.pending := by unfold State.applyStartCadence; split <;> simp [State.startCadence_frame]

theorem State.applyStopCadence_frame (s : State) :
    (s.applyStopCadence.1).intake = s.intake ∧
    (s.applyStopCadence.1).lanes = s.lanes ∧
    (s.applyStopCadence.1).writer = s.writer ∧
    (s.applyStopCadence.1).aperture = s.aperture ∧
    (s.applyStopCadence.1).chain = s.chain ∧
    (s.applyStopCadence.1).faultRecord = s.faultRecord ∧
    (s.applyStopCadence.1).counters = s.counters ∧
    (s.applyStopCadence.1).reportSequence = s.reportSequence ∧
    (s.applyStopCadence.1).nextTag = s.nextTag ∧
    (s.applyStopCadence.1).freeIndex = s.freeIndex ∧
    (s.applyStopCadence.1).lastResult = s.lastResult ∧
    (s.applyStopCadence.1).pending = s.pending := by simp [State.applyStopCadence, State.stopCadence_frame]

theorem State.applyJam_frame (s : State) (h m x f c : Nat) :
    (s.applyJam h m x f c).1.cadence = s.cadence ∧
    (s.applyJam h m x f c).1.intake = s.intake ∧
    (s.applyJam h m x f c).1.lanes = s.lanes ∧
    (s.applyJam h m x f c).1.governor = s.governor ∧
    (s.applyJam h m x f c).1.store = s.store ∧
    (s.applyJam h m x f c).1.takes = s.takes ∧
    (s.applyJam h m x f c).1.writer = s.writer ∧
    (s.applyJam h m x f c).1.aperture = s.aperture ∧
    (s.applyJam h m x f c).1.board = s.board ∧
    (s.applyJam h m x f c).1.chain = s.chain ∧
    (s.applyJam h m x f c).1.notices = s.notices ∧
    (s.applyJam h m x f c).1.faultRecord = s.faultRecord ∧
    (s.applyJam h m x f c).1.counters = s.counters ∧
    (s.applyJam h m x f c).1.reportSequence = s.reportSequence ∧
    (s.applyJam h m x f c).1.link = s.link ∧
    (s.applyJam h m x f c).1.nextTag = s.nextTag ∧
    (s.applyJam h m x f c).1.freeIndex = s.freeIndex ∧
    (s.applyJam h m x f c).1.lastResult = s.lastResult ∧
    (s.applyJam h m x f c).1.pending = s.pending := by unfold State.applyJam; dsimp only; split <;> simp

theorem State.applySetProfile_frame (s : State) (p : ProfileParams) :
    (s.applySetProfile p).1.cadence = s.cadence ∧
    (s.applySetProfile p).1.intake = s.intake ∧
    (s.applySetProfile p).1.lanes = s.lanes ∧
    (s.applySetProfile p).1.writer = s.writer ∧
    (s.applySetProfile p).1.aperture = s.aperture ∧
    (s.applySetProfile p).1.board = s.board ∧
    (s.applySetProfile p).1.chain = s.chain ∧
    (s.applySetProfile p).1.notices = s.notices ∧
    (s.applySetProfile p).1.faultRecord = s.faultRecord ∧
    (s.applySetProfile p).1.counters = s.counters ∧
    (s.applySetProfile p).1.reportSequence = s.reportSequence ∧
    (s.applySetProfile p).1.link = s.link ∧
    (s.applySetProfile p).1.nextTag = s.nextTag ∧
    (s.applySetProfile p).1.freeIndex = s.freeIndex ∧
    (s.applySetProfile p).1.lastResult = s.lastResult ∧
    (s.applySetProfile p).1.pending = s.pending := by unfold State.applySetProfile; (repeat' split) <;> simp [State.activateStopped_frame]

theorem State.applyOpenTake_frame (s : State) (n : Word) :
    (s.applyOpenTake n).1.cadence = s.cadence ∧
    (s.applyOpenTake n).1.timecode = s.timecode ∧
    (s.applyOpenTake n).1.writer = s.writer ∧
    (s.applyOpenTake n).1.aperture = s.aperture ∧
    (s.applyOpenTake n).1.chain = s.chain ∧
    (s.applyOpenTake n).1.notices = s.notices ∧
    (s.applyOpenTake n).1.faultRecord = s.faultRecord ∧
    (s.applyOpenTake n).1.counters = s.counters ∧
    (s.applyOpenTake n).1.reportSequence = s.reportSequence ∧
    (s.applyOpenTake n).1.link = s.link ∧
    (s.applyOpenTake n).1.nextTag = s.nextTag ∧
    (s.applyOpenTake n).1.freeIndex = s.freeIndex ∧
    (s.applyOpenTake n).1.lastResult = s.lastResult ∧
    (s.applyOpenTake n).1.pending = s.pending := by unfold State.applyOpenTake State.openTakeAct; dsimp only; (repeat' split) <;> simp

theorem State.applyCloseTake_frame (s : State) :
    (s.applyCloseTake.1).cadence = s.cadence ∧
    (s.applyCloseTake.1).timecode = s.timecode ∧
    (s.applyCloseTake.1).intake = s.intake ∧
    (s.applyCloseTake.1).lanes = s.lanes ∧
    (s.applyCloseTake.1).governor = s.governor ∧
    (s.applyCloseTake.1).store = s.store ∧
    (s.applyCloseTake.1).writer = s.writer ∧
    (s.applyCloseTake.1).aperture = s.aperture ∧
    (s.applyCloseTake.1).chain = s.chain ∧
    (s.applyCloseTake.1).notices = s.notices ∧
    (s.applyCloseTake.1).faultRecord = s.faultRecord ∧
    (s.applyCloseTake.1).counters = s.counters ∧
    (s.applyCloseTake.1).reportSequence = s.reportSequence ∧
    (s.applyCloseTake.1).link = s.link ∧
    (s.applyCloseTake.1).nextTag = s.nextTag ∧
    (s.applyCloseTake.1).freeIndex = s.freeIndex ∧
    (s.applyCloseTake.1).lastResult = s.lastResult ∧
    (s.applyCloseTake.1).pending = s.pending := by unfold State.applyCloseTake; split <;> simp [State.closeTake_frame]

theorem State.applyMark_frame (s : State) (v : BitVec 16) :
    (s.applyMark v).1.cadence = s.cadence ∧
    (s.applyMark v).1.timecode = s.timecode ∧
    (s.applyMark v).1.lanes = s.lanes ∧
    (s.applyMark v).1.governor = s.governor ∧
    (s.applyMark v).1.store = s.store ∧
    (s.applyMark v).1.takes = s.takes ∧
    (s.applyMark v).1.writer = s.writer ∧
    (s.applyMark v).1.aperture = s.aperture ∧
    (s.applyMark v).1.board = s.board ∧
    (s.applyMark v).1.chain = s.chain ∧
    (s.applyMark v).1.notices = s.notices ∧
    (s.applyMark v).1.faultRecord = s.faultRecord ∧
    (s.applyMark v).1.counters = s.counters ∧
    (s.applyMark v).1.reportSequence = s.reportSequence ∧
    (s.applyMark v).1.link = s.link ∧
    (s.applyMark v).1.nextTag = s.nextTag ∧
    (s.applyMark v).1.freeIndex = s.freeIndex ∧
    (s.applyMark v).1.lastResult = s.lastResult ∧
    (s.applyMark v).1.pending = s.pending := by unfold State.applyMark; split <;> simp

theorem State.applyRemap_frame (s : State) (f n : Nat) :
    (s.applyRemap f n).1.cadence = s.cadence ∧
    (s.applyRemap f n).1.timecode = s.timecode ∧
    (s.applyRemap f n).1.intake = s.intake ∧
    (s.applyRemap f n).1.lanes = s.lanes ∧
    (s.applyRemap f n).1.governor = s.governor ∧
    (s.applyRemap f n).1.board = s.board ∧
    (s.applyRemap f n).1.chain = s.chain ∧
    (s.applyRemap f n).1.reportSequence = s.reportSequence ∧
    (s.applyRemap f n).1.freeIndex = s.freeIndex ∧
    (s.applyRemap f n).1.lastResult = s.lastResult ∧
    (s.applyRemap f n).1.pending = s.pending := by unfold State.applyRemap; dsimp only; (repeat' split) <;> simp [State.retryTranslation_frame]

theorem State.applyProbe_frame (s : State) (p : Nat) :
    (s.applyProbe p).1.cadence = s.cadence ∧
    (s.applyProbe p).1.timecode = s.timecode ∧
    (s.applyProbe p).1.intake = s.intake ∧
    (s.applyProbe p).1.lanes = s.lanes ∧
    (s.applyProbe p).1.governor = s.governor ∧
    (s.applyProbe p).1.store = s.store ∧
    (s.applyProbe p).1.takes = s.takes ∧
    (s.applyProbe p).1.writer = s.writer ∧
    (s.applyProbe p).1.aperture = s.aperture ∧
    (s.applyProbe p).1.board = s.board ∧
    (s.applyProbe p).1.chain = s.chain ∧
    (s.applyProbe p).1.notices = s.notices ∧
    (s.applyProbe p).1.faultRecord = s.faultRecord ∧
    (s.applyProbe p).1.counters = s.counters ∧
    (s.applyProbe p).1.reportSequence = s.reportSequence ∧
    (s.applyProbe p).1.link = s.link ∧
    (s.applyProbe p).1.nextTag = s.nextTag ∧
    (s.applyProbe p).1.freeIndex = s.freeIndex ∧
    (s.applyProbe p).1.lastResult = s.lastResult ∧
    (s.applyProbe p).1.pending = s.pending := by unfold State.applyProbe; dsimp only; split <;> simp

theorem State.applySnapshot_frame (s : State) :
    (s.applySnapshot.1).cadence = s.cadence ∧
    (s.applySnapshot.1).timecode = s.timecode ∧
    (s.applySnapshot.1).intake = s.intake ∧
    (s.applySnapshot.1).lanes = s.lanes ∧
    (s.applySnapshot.1).governor = s.governor ∧
    (s.applySnapshot.1).store = s.store ∧
    (s.applySnapshot.1).takes = s.takes ∧
    (s.applySnapshot.1).writer = s.writer ∧
    (s.applySnapshot.1).aperture = s.aperture ∧
    (s.applySnapshot.1).board = s.board ∧
    (s.applySnapshot.1).chain = s.chain ∧
    (s.applySnapshot.1).faultRecord = s.faultRecord ∧
    (s.applySnapshot.1).counters = s.counters ∧
    (s.applySnapshot.1).reportSequence = s.reportSequence ∧
    (s.applySnapshot.1).nextTag = s.nextTag ∧
    (s.applySnapshot.1).freeIndex = s.freeIndex ∧
    (s.applySnapshot.1).lastResult = s.lastResult ∧
    (s.applySnapshot.1).pending = s.pending := by unfold State.applySnapshot; dsimp only; split <;> simp

theorem State.applySetNotice_frame (s : State) (c a : Nat) :
    (s.applySetNotice c a).1.cadence = s.cadence ∧
    (s.applySetNotice c a).1.timecode = s.timecode ∧
    (s.applySetNotice c a).1.intake = s.intake ∧
    (s.applySetNotice c a).1.lanes = s.lanes ∧
    (s.applySetNotice c a).1.governor = s.governor ∧
    (s.applySetNotice c a).1.store = s.store ∧
    (s.applySetNotice c a).1.takes = s.takes ∧
    (s.applySetNotice c a).1.writer = s.writer ∧
    (s.applySetNotice c a).1.aperture = s.aperture ∧
    (s.applySetNotice c a).1.board = s.board ∧
    (s.applySetNotice c a).1.chain = s.chain ∧
    (s.applySetNotice c a).1.faultRecord = s.faultRecord ∧
    (s.applySetNotice c a).1.counters = s.counters ∧
    (s.applySetNotice c a).1.reportSequence = s.reportSequence ∧
    (s.applySetNotice c a).1.nextTag = s.nextTag ∧
    (s.applySetNotice c a).1.freeIndex = s.freeIndex ∧
    (s.applySetNotice c a).1.lastResult = s.lastResult ∧
    (s.applySetNotice c a).1.pending = s.pending := by unfold State.applySetNotice; dsimp only; (repeat' split) <;> simp

theorem State.applyOwner_frame (s : State) (d : Directive) :
    (s.applyOwner d).1.chain = s.chain ∧
    (s.applyOwner d).1.reportSequence = s.reportSequence ∧
    (s.applyOwner d).1.freeIndex = s.freeIndex ∧
    (s.applyOwner d).1.lastResult = s.lastResult ∧
    (s.applyOwner d).1.pending = s.pending := by cases d <;> simp [State.applyOwner, State.applySetCadence_frame, State.applyStartCadence_frame, State.applyStopCadence_frame, State.applyJam_frame, State.applySetProfile_frame, State.applyOpenTake_frame, State.applyCloseTake_frame, State.applyMark_frame, State.applyRemap_frame, State.applyProbe_frame, State.applySnapshot_frame, State.applySetNotice_frame]

theorem State.judgeDirective_frame (s : State) (d : Option Directive) :
    (s.judgeDirective d).1.chain = s.chain ∧
    (s.judgeDirective d).1.reportSequence = s.reportSequence ∧
    (s.judgeDirective d).1.freeIndex = s.freeIndex ∧
    (s.judgeDirective d).1.lastResult = s.lastResult ∧
    (s.judgeDirective d).1.pending = s.pending := by unfold State.judgeDirective; (repeat' split) <;> simp [State.applyOwner_frame]

theorem State.applyDirective_frame (s : State) (d : Option Directive) :
    (s.applyDirective d).1.chain = s.chain ∧
    (s.applyDirective d).1.reportSequence = s.reportSequence ∧
    (s.applyDirective d).1.freeIndex = s.freeIndex ∧
    (s.applyDirective d).1.pending = s.pending := by simp [State.applyDirective, State.judgeDirective_frame]

theorem State.countRefusal_frame (s : State) (r : DirectiveResult) :
    (s.countRefusal r).cadence = s.cadence ∧
    (s.countRefusal r).timecode = s.timecode ∧
    (s.countRefusal r).intake = s.intake ∧
    (s.countRefusal r).lanes = s.lanes ∧
    (s.countRefusal r).governor = s.governor ∧
    (s.countRefusal r).store = s.store ∧
    (s.countRefusal r).takes = s.takes ∧
    (s.countRefusal r).writer = s.writer ∧
    (s.countRefusal r).aperture = s.aperture ∧
    (s.countRefusal r).board = s.board ∧
    (s.countRefusal r).chain = s.chain ∧
    (s.countRefusal r).notices = s.notices ∧
    (s.countRefusal r).faultRecord = s.faultRecord ∧
    (s.countRefusal r).reportSequence = s.reportSequence ∧
    (s.countRefusal r).link = s.link ∧
    (s.countRefusal r).nextTag = s.nextTag ∧
    (s.countRefusal r).freeIndex = s.freeIndex ∧
    (s.countRefusal r).lastResult = s.lastResult ∧
    (s.countRefusal r).pending = s.pending := by unfold State.countRefusal; split <;> simp

theorem State.direct_frame (s : State) (d : Directive) :
    (s.direct d).chain = s.chain ∧
    (s.direct d).reportSequence = s.reportSequence ∧
    (s.direct d).freeIndex = s.freeIndex ∧
    (s.direct d).pending = s.pending := by unfold State.direct; dsimp only; split <;> simp [State.applyDirective_frame, State.countRefusal_frame]

theorem State.writeResult_frame (s : State) (h : HostAddr) (r : DirectiveResult) :
    (s.writeResult h r).cadence = s.cadence ∧
    (s.writeResult h r).timecode = s.timecode ∧
    (s.writeResult h r).intake = s.intake ∧
    (s.writeResult h r).lanes = s.lanes ∧
    (s.writeResult h r).governor = s.governor ∧
    (s.writeResult h r).store = s.store ∧
    (s.writeResult h r).takes = s.takes ∧
    (s.writeResult h r).writer = s.writer ∧
    (s.writeResult h r).aperture = s.aperture ∧
    (s.writeResult h r).board = s.board ∧
    (s.writeResult h r).chain = s.chain ∧
    (s.writeResult h r).notices = s.notices ∧
    (s.writeResult h r).faultRecord = s.faultRecord ∧
    (s.writeResult h r).counters = s.counters ∧
    (s.writeResult h r).reportSequence = s.reportSequence ∧
    (s.writeResult h r).nextTag = s.nextTag ∧
    (s.writeResult h r).freeIndex = s.freeIndex ∧
    (s.writeResult h r).lastResult = s.lastResult ∧
    (s.writeResult h r).pending = s.pending := by simp [State.writeResult]

theorem State.completeRecord_frame (s : State) (p : PendingResult) (b : HostAddr) :
    (s.completeRecord p b).cadence = s.cadence ∧
    (s.completeRecord p b).timecode = s.timecode ∧
    (s.completeRecord p b).intake = s.intake ∧
    (s.completeRecord p b).lanes = s.lanes ∧
    (s.completeRecord p b).governor = s.governor ∧
    (s.completeRecord p b).store = s.store ∧
    (s.completeRecord p b).takes = s.takes ∧
    (s.completeRecord p b).writer = s.writer ∧
    (s.completeRecord p b).board = s.board ∧
    (s.completeRecord p b).reportSequence = s.reportSequence ∧
    (s.completeRecord p b).freeIndex = s.freeIndex ∧
    (s.completeRecord p b).lastResult = s.lastResult ∧
    (s.completeRecord p b).pending = s.pending := by unfold State.completeRecord; dsimp only; split <;> simp [State.endVisit_frame, State.followNext_frame, State.countRefusal_frame, State.writeResult_frame]

theorem State.resultFault_frame (s : State) (p : PendingResult) :
    (s.resultFault p).cadence = s.cadence ∧
    (s.resultFault p).timecode = s.timecode ∧
    (s.resultFault p).intake = s.intake ∧
    (s.resultFault p).lanes = s.lanes ∧
    (s.resultFault p).governor = s.governor ∧
    (s.resultFault p).store = s.store ∧
    (s.resultFault p).takes = s.takes ∧
    (s.resultFault p).writer = s.writer ∧
    (s.resultFault p).board = s.board ∧
    (s.resultFault p).reportSequence = s.reportSequence ∧
    (s.resultFault p).freeIndex = s.freeIndex ∧
    (s.resultFault p).lastResult = s.lastResult ∧
    (s.resultFault p).pending = s.pending := by simp [State.resultFault, State.chainFault_frame]

theorem State.takeRecordBytes_frame (s : State) (a : Nat) (d : List Byte) :
    (s.takeRecordBytes a d).reportSequence = s.reportSequence ∧
    (s.takeRecordBytes a d).freeIndex = s.freeIndex ∧
    (s.takeRecordBytes a d).pending = s.pending := by
  unfold State.takeRecordBytes
  dsimp only
  split
  · split <;> rename_i h <;> have e := congrArg Prod.fst h <;> dsimp only at e <;>
      simp [← e, State.completeRecord_frame, State.translate_frame, State.applyDirective_frame]
  · simp [State.endVisit_frame]

theorem State.takeNext_frame (s : State) (n : Nat) :
    (s.takeNext n).cadence = s.cadence ∧
    (s.takeNext n).timecode = s.timecode ∧
    (s.takeNext n).intake = s.intake ∧
    (s.takeNext n).lanes = s.lanes ∧
    (s.takeNext n).governor = s.governor ∧
    (s.takeNext n).store = s.store ∧
    (s.takeNext n).takes = s.takes ∧
    (s.takeNext n).writer = s.writer ∧
    (s.takeNext n).board = s.board ∧
    (s.takeNext n).counters = s.counters ∧
    (s.takeNext n).reportSequence = s.reportSequence ∧
    (s.takeNext n).freeIndex = s.freeIndex ∧
    (s.takeNext n).lastResult = s.lastResult ∧
    (s.takeNext n).pending = s.pending := by unfold State.takeNext; split <;> simp [State.followNext_frame]

theorem State.answerChain_frame (s : State) (a : Answer) :
    (s.answerChain a).cadence = s.cadence ∧
    (s.answerChain a).timecode = s.timecode ∧
    (s.answerChain a).intake = s.intake ∧
    (s.answerChain a).lanes = s.lanes ∧
    (s.answerChain a).governor = s.governor ∧
    (s.answerChain a).store = s.store ∧
    (s.answerChain a).takes = s.takes ∧
    (s.answerChain a).writer = s.writer ∧
    (s.answerChain a).board = s.board ∧
    (s.answerChain a).reportSequence = s.reportSequence ∧
    (s.answerChain a).freeIndex = s.freeIndex ∧
    (s.answerChain a).lastResult = s.lastResult ∧
    (s.answerChain a).pending = s.pending := by unfold State.answerChain; split <;> simp [State.readNext_frame, State.chainFault_frame, State.readRecord_frame, State.completeRecord_frame, State.resultFault_frame]

theorem State.answerMiss_frame (s : State) (m : Miss) (a : Answer) :
    (s.answerMiss m a).cadence = s.cadence ∧
    (s.answerMiss m a).timecode = s.timecode ∧
    (s.answerMiss m a).intake = s.intake ∧
    (s.answerMiss m a).lanes = s.lanes ∧
    (s.answerMiss m a).governor = s.governor ∧
    (s.answerMiss m a).board = s.board ∧
    (s.answerMiss m a).reportSequence = s.reportSequence ∧
    (s.answerMiss m a).freeIndex = s.freeIndex ∧
    (s.answerMiss m a).lastResult = s.lastResult ∧
    (s.answerMiss m a).pending = s.pending := by unfold State.answerMiss; split <;> simp [State.answerWriter_frame, State.answerChain_frame]

theorem State.answerAll_frame (l : List (Miss × Answer)) (s : State) :
    (s.answerAll l).cadence = s.cadence ∧
    (s.answerAll l).timecode = s.timecode ∧
    (s.answerAll l).intake = s.intake ∧
    (s.answerAll l).lanes = s.lanes ∧
    (s.answerAll l).governor = s.governor ∧
    (s.answerAll l).board = s.board ∧
    (s.answerAll l).reportSequence = s.reportSequence ∧
    (s.answerAll l).freeIndex = s.freeIndex ∧
    (s.answerAll l).lastResult = s.lastResult ∧
    (s.answerAll l).pending = s.pending := by
  unfold State.answerAll
  induction l generalizing s with
  | nil => simp
  | cons x xs ih => simp [ih, State.answerMiss_frame]

theorem State.fetchDone_frame (s : State) (f : Fetch) (d : Option (List Byte)) :
    (s.fetchDone f d).cadence = s.cadence ∧
    (s.fetchDone f d).timecode = s.timecode ∧
    (s.fetchDone f d).intake = s.intake ∧
    (s.fetchDone f d).lanes = s.lanes ∧
    (s.fetchDone f d).governor = s.governor ∧
    (s.fetchDone f d).board = s.board ∧
    (s.fetchDone f d).reportSequence = s.reportSequence ∧
    (s.fetchDone f d).freeIndex = s.freeIndex ∧
    (s.fetchDone f d).lastResult = s.lastResult ∧
    (s.fetchDone f d).pending = s.pending := by unfold State.fetchDone; dsimp only; split <;> simp [State.answerAll_frame, State.settleFetch_frame]

theorem State.detachCadence_frame (s : State) :
    (s.detachCadence).intake = s.intake ∧
    (s.detachCadence).lanes = s.lanes ∧
    (s.detachCadence).governor = s.governor ∧
    (s.detachCadence).store = s.store ∧
    (s.detachCadence).takes = s.takes ∧
    (s.detachCadence).writer = s.writer ∧
    (s.detachCadence).aperture = s.aperture ∧
    (s.detachCadence).board = s.board ∧
    (s.detachCadence).chain = s.chain ∧
    (s.detachCadence).notices = s.notices ∧
    (s.detachCadence).faultRecord = s.faultRecord ∧
    (s.detachCadence).counters = s.counters ∧
    (s.detachCadence).reportSequence = s.reportSequence ∧
    (s.detachCadence).link = s.link ∧
    (s.detachCadence).nextTag = s.nextTag ∧
    (s.detachCadence).freeIndex = s.freeIndex ∧
    (s.detachCadence).lastResult = s.lastResult ∧
    (s.detachCadence).pending = s.pending := by simp [State.detachCadence, State.boundaryAfter_frame]

theorem State.detach_frame (s : State) :
    (s.detach).governor = s.governor ∧
    (s.detach).counters = s.counters ∧
    (s.detach).reportSequence = s.reportSequence ∧
    (s.detach).link = s.link ∧
    (s.detach).nextTag = s.nextTag ∧
    (s.detach).freeIndex = s.freeIndex ∧
    (s.detach).lastResult = s.lastResult ∧
    (s.detach).pending = s.pending := by simp [State.detach, State.detachCadence_frame]

theorem State.attachFailed_frame (s : State) (r : AttachResult) :
    (s.attachFailed r).cadence = s.cadence ∧
    (s.attachFailed r).timecode = s.timecode ∧
    (s.attachFailed r).intake = s.intake ∧
    (s.attachFailed r).lanes = s.lanes ∧
    (s.attachFailed r).governor = s.governor ∧
    (s.attachFailed r).store = s.store ∧
    (s.attachFailed r).takes = s.takes ∧
    (s.attachFailed r).writer = s.writer ∧
    (s.attachFailed r).aperture = s.aperture ∧
    (s.attachFailed r).chain = s.chain ∧
    (s.attachFailed r).faultRecord = s.faultRecord ∧
    (s.attachFailed r).counters = s.counters ∧
    (s.attachFailed r).reportSequence = s.reportSequence ∧
    (s.attachFailed r).nextTag = s.nextTag ∧
    (s.attachFailed r).freeIndex = s.freeIndex ∧
    (s.attachFailed r).lastResult = s.lastResult ∧
    (s.attachFailed r).pending = s.pending := by simp [State.attachFailed]

theorem State.commitAnchor_frame (s : State) (a : HostAddr) :
    (s.commitAnchor a).governor = s.governor ∧
    (s.commitAnchor a).counters = s.counters ∧
    (s.commitAnchor a).reportSequence = s.reportSequence ∧
    (s.commitAnchor a).freeIndex = s.freeIndex ∧
    (s.commitAnchor a).lastResult = s.lastResult ∧
    (s.commitAnchor a).pending = s.pending := by unfold State.commitAnchor State.readHeader; dsimp only; (repeat' split) <;> simp [State.detach_frame, State.attachFailed_frame]

theorem State.setUp_frame (s : State) (d : List Byte) :
    (s.setUp d).link = s.link ∧
    (s.setUp d).nextTag = s.nextTag ∧
    (s.setUp d).freeIndex = s.freeIndex ∧
    (s.setUp d).lastResult = s.lastResult ∧
    (s.setUp d).pending = s.pending := by simp [State.setUp, State.activate_frame]

theorem State.judgeHeader_frame (s : State) (d : Option (List Byte)) :
    (s.judgeHeader d).nextTag = s.nextTag ∧
    (s.judgeHeader d).lastResult = s.lastResult ∧
    (s.judgeHeader d).pending = s.pending := by unfold State.judgeHeader State.attach; dsimp only; (repeat' split) <;> simp [State.attachFailed_frame, State.frameReport_frame, State.setUp_frame]

theorem State.visitRequest_frame (s : State) :
    (s.visitRequest).cadence = s.cadence ∧
    (s.visitRequest).timecode = s.timecode ∧
    (s.visitRequest).intake = s.intake ∧
    (s.visitRequest).lanes = s.lanes ∧
    (s.visitRequest).governor = s.governor ∧
    (s.visitRequest).board = s.board ∧
    (s.visitRequest).lastResult = s.lastResult ∧
    (s.visitRequest).pending = s.pending := by simp [State.visitRequest, State.askVisit_frame, State.frameReport_frame, State.writerVisit_frame]

end Sys2Proof.Machine
end

