-- ==== Sys2Proof/Laws/Ops.lean ====
section
/-! SUPPORT. What the shared operations do: for each, once, the fields it writes. -/

namespace Sys2Proof.Machine

variable (s : State)

/-! ### The link -/

@[simp] theorem State.emit_link (x : LinkItem) : (s.emit x).link = s.link ++ [x] := rfl

@[simp] theorem State.post_link (a : HostAddr) (d : List Byte) :
    (s.post a d).link = s.link ++ [.write a d] := rfl

@[simp] theorem State.issueRead_link (a : HostAddr) (n : Nat) :
    (s.issueRead a n).link = s.link ++ [.read s.nextTag a n] := rfl

@[simp] theorem State.issueRead_nextTag (a : HostAddr) (n : Nat) :
    (s.issueRead a n).nextTag = s.nextTag + 1 := rfl

/-! ### Notices and faults (R186, R190) -/

/-- The MSI that new notice registers bring: one, if the signalling set goes from empty to non-empty. -/
def msiOf (before after : Notices) : List LinkItem :=
  if before.signalling = 0#8 ∧ after.signalling ≠ 0#8 then [.msi] else []

/-- What taking new notice registers does, whole. -/
theorem State.signal_eq (n : Notices) :
    s.signal n = { s with notices := n, link := s.link ++ msiOf s.notices n } := by
  unfold State.signal msiOf
  split <;> simp [State.emit]

@[simp] theorem State.signal_notices (n : Notices) : (s.signal n).notices = n := by
  rw [State.signal_eq]

@[simp] theorem State.raise_notices (c : Notice) :
    (s.raise c).notices = { s.notices with cause := s.notices.cause ||| c.bit } := by
  simp [State.raise]

/-- What raising a cause does, whole. -/
theorem State.raise_eq (c : Notice) :
    s.raise c = { s with
      notices := { s.notices with cause := s.notices.cause ||| c.bit }
      link := s.link ++ msiOf s.notices { s.notices with cause := s.notices.cause ||| c.bit } } :=
  State.signal_eq s _

/-- A fault that finds the latch held. -/
theorem State.reportFault_held (c : FaultClass) (f k d : Word) (h : s.faultRecord.latch = true) :
    s.reportFault c f k d =
      { s with faultRecord := { s.faultRecord with more := true, later := bump s.faultRecord.later } } := by
  simp [State.reportFault, h]

/-- A fault that finds the latch free. -/
theorem State.reportFault_free (c : FaultClass) (f k d : Word) (h : s.faultRecord.latch = false) :
    s.reportFault c f k d = State.raise { s with faultRecord :=
      { cls := some c, frame := f, take := k, detail := d, more := false, later := 0, latch := true } }
      .fault := by
  simp [State.reportFault, h]

/-- What announcing CHUNK does, whole (R187). -/
theorem State.announce_eq : s.announce = State.raise { s with notices := s.notices.zeroCounts } .chunk := rfl

/-- A lock state change, whole (R15). -/
theorem State.setLock_ne (l : LockState) (h : s.cadence.lock ≠ l) :
    s.setLock l = State.raise { s with cadence := { s.cadence with lock := l } } .lock := by
  simp [State.setLock, h]

theorem State.setLock_self : s.setLock s.cadence.lock = s := by
  simp [State.setLock]

@[simp] theorem State.setLock_cadence (l : LockState) :
    (s.setLock l).cadence = { s.cadence with lock := l } := by
  by_cases h : s.cadence.lock = l
  · subst h; simp [State.setLock]
  · simp [State.setLock_ne s l h]

/-! ### Replacements -/

@[simp] theorem State.setPhase_chain (p : ChainPhase) :
    (s.setPhase p).chain = { s.chain with phase := p } := rfl

@[simp] theorem State.setWriter_writer (w : Writer) : (s.setWriter w).writer = w := rfl

@[simp] theorem State.setPool_writer (p : Pool) (x : PoolState) :
    (s.setPool p x).writer = s.writer.setPool p x := rfl

@[simp] theorem State.setWork_writer (k : Work) :
    (s.setWork k).writer = { s.writer with work := some k } := rfl

@[simp] theorem State.setLane_lanes (l : Lane) (x : LaneState) :
    (s.setLane l x).lanes = s.lanes.setLane l x := rfl

@[simp] theorem Writer.pool_setPool (w : Writer) (p : Pool) (x : PoolState) :
    (w.setPool p x).pool p = x := by
  cases p <;> rfl

@[simp] theorem Lanes.lane_setLane (l : Lanes) (k : Lane) (x : LaneState) :
    (l.setLane k x).lane k = x := by
  cases k <;> rfl

@[simp] theorem Lanes.lane_setLane_other (l : Lanes) (k : Lane) (x : LaneState) :
    (l.setLane k x).lane (otherLane k) = l.lane (otherLane k) := by
  cases k <;> rfl

/-- A close leaves the pool with no chunk, and the writer otherwise as it was (R138). -/
theorem State.closeChunk_writer (p : Pool) (last : Bool) :
    (s.closeChunk p last).writer = s.writer.setPool p { s.writer.pool p with chunk := none } := by
  unfold State.closeChunk
  dsimp only
  split
  · rename_i h
    cases p <;> simp only [Writer.pool] at h <;> simp only [Writer.setPool, Writer.pool, ← h]
  · simp [State.post, State.emit]

/-- Coalescing keeps the total below the threshold (R187). -/
theorem State.countClose_total (p : Pool) (h : 0 < s.notices.threshold) :
    (s.countClose p).notices.threshold = s.notices.threshold ∧
      (s.countClose p).notices.ageLimit = s.notices.ageLimit ∧
      (s.countClose p).notices.total < s.notices.threshold := by
  cases p <;> unfold State.countClose State.announce State.raise <;> dsimp only [Notices.countPool] <;>
    split <;> split <;> simp_all [Notices.zeroCounts, Notices.total]

/-! ### Translations (R152, R154) -/

/-- A request that hits. -/
theorem State.translate_hit (c : Client) (addr way : Nat) (base : HostAddr)
    (h : s.aperture.lookup (pageOf addr) = some (way, base)) :
    s.translate c addr = ({ s with aperture := s.aperture.use (pageOf addr) way }, some base) := by
  simp [State.translate, h]

/-- A request that misses with a fetch in flight joins the list. -/
theorem State.translate_join (c : Client) (addr : Nat) (f : Fetch)
    (h : s.aperture.lookup (pageOf addr) = none) (hf : s.aperture.fetch = some f) :
    s.translate c addr = ({ s with aperture := { s.aperture with
      misses := s.aperture.misses ++ [{ client := c, page := pageOf addr }] } }, none) := by
  simp [State.translate, h, hf]

/-- A request that misses with no fetch in flight joins the list, and a fetch begins. -/
theorem State.translate_miss (c : Client) (addr : Nat)
    (h : s.aperture.lookup (pageOf addr) = none) (hf : s.aperture.fetch = none) :
    s.translate c addr = (State.beginFetch { s with aperture := { s.aperture with
      misses := s.aperture.misses ++ [{ client := c, page := pageOf addr }] } } (pageOf addr), none) := by
  simp [State.translate, h, hf]

/-! ### Ticks (R1, R2, R5, R6, R11, R12, R25) -/

theorem State.elapse_zero : s.elapse 0 = s := rfl

/-- One tick: what falls on the present one, then the count and the sample of the next. -/
theorem State.elapse_one : s.elapse 1 = s.settle.pass 1 := by
  have h : ∀ t : State, t.quietTicks 1 = 1 := by
    intro t
    simp only [State.quietTicks]
    split <;> split <;> omega
  simp [State.elapse, State.elapseIn, h]

theorem Cadence.count_stopped (c : Cadence) (n : Nat) (h : c.run = .stopped) : c.count n = c := by
  simp [Cadence.count, h]

/-- Ticks of a running cadence outside a late window. -/
theorem Cadence.count_early (c : Cadence) (n : Nat) (h : c.run = .running) (hl : c.lateOpen = false) :
    c.count n = { c with measure := min (c.measure + n) measureLimit, counter := c.counter - n } := by
  simp [Cadence.count, h, hl]

/-- Ticks of a late window. -/
theorem Cadence.count_late (c : Cadence) (n : Nat) (h : c.run = .running) (hl : c.lateOpen = true) :
    c.count n = { c with
      measure := min (c.measure + n) measureLimit
      lateCount := min (c.lateCount + n) c.active.tolerance } := by
  simp [Cadence.count, h, hl]

/-- Counting in two stretches is counting in one. -/
theorem Cadence.count_add (c : Cadence) (m n : Nat) : (c.count m).count n = c.count (m + n) := by
  unfold Cadence.count
  cases h : c.run <;> cases c.lateOpen <;> simp [h] <;> omega

theorem State.count_count (m n : Nat) : (s.count m).count n = s.count (m + n) := by
  simp [State.count, Cadence.count_add, Nat.sub_sub]

/-- Ticks with no sampled edge at their end. -/
theorem State.pass_quiet (n : Nat) (h : s.cadence.edgeLatch = false) : s.pass n = s.count n := by
  have : (s.count n).cadence.edgeLatch = false := by
    simp only [State.count, Cadence.count]
    split
    · exact h
    · split <;> exact h
  simp [State.pass, this]

/-- Nothing falls on the present tick. -/
theorem State.settle_quiet (he : s.expiryDue = false) (hc : s.closeDue = false)
    (hb : s.boundaryDue = false) : s.settle = s := by
  simp [State.settle, he, hc, hb]

theorem State.quietTicks_pos (n : Nat) : 1 ≤ s.quietTicks n := by
  unfold State.quietTicks
  exact Nat.le_max_left _ _

/-- Fuel for as many runs as there are ticks is enough. -/
theorem State.elapseIn_fuel (f g n : Nat) (s : State) (hf : n ≤ f) (hg : n ≤ g) :
    State.elapseIn f n s = State.elapseIn g n s := by
  induction f generalizing g n s with
  | zero =>
    obtain rfl : n = 0 := by omega
    cases g <;> simp [State.elapseIn]
  | succ f ih =>
    cases g with
    | zero =>
      obtain rfl : n = 0 := by omega
      simp [State.elapseIn]
    | succ g =>
      unfold State.elapseIn
      split
      · rfl
      · have := State.quietTicks_pos s.settle n
        exact ih _ _ _ (by omega) (by omega)

theorem State.count_following (n : Nat) : (s.count n).following = s.following := by
  have : (s.cadence.count n).lock = s.cadence.lock ∧ (s.cadence.count n).active = s.cadence.active := by
    unfold Cadence.count
    split
    · simp
    · dsimp only
      split <;> simp
  simp [State.following, State.count, this]

/-! ### The commands whose act is a directive (R176) -/

/-- A directive command with no Board (R174). -/
theorem State.direct_detached (d : Directive) (h : s.attached = false) : s.direct d = s := by
  simp [State.direct, h]

/-- A directive command that reaches its owner. -/
theorem State.direct_owner (d : Directive) (h : s.attached = true)
    (hm : s.board.mode = .idle → d.inIdle = true) :
    s.direct d =
      State.countRefusal { (s.applyOwner d).1 with lastResult := some (s.applyOwner d).2 }
        (s.applyOwner d).2 := by
  have : ¬ (s.board.mode = .idle ∧ d.inIdle = false) := by
    rintro ⟨h1, h2⟩
    rw [hm h1] at h2
    exact absurd h2 (by simp)
  simp [State.direct, h, State.applyDirective, State.judgeDirective, this]

/-! ### What the writer's work leaves of its wait -/

/-- The part of the writer that only the end of an attempt, a translation's answer or a frame start changes. -/
def Writer.standing (w : Writer) : Option (Pool × WaitCause) × Nat × Bool × Option BlockedPosition × Bool :=
  (w.wait, w.proxyWait, w.suspended, w.blocked, w.patienceOut)

theorem Writer.setPool_standing (w : Writer) (p : Pool) (x : PoolState) : (w.setPool p x).standing = w.standing := by
  cases p <;> rfl

theorem State.closeChunk_standing (p : Pool) (l : Bool) : (s.closeChunk p l).writer.standing = s.writer.standing := by
  rw [State.closeChunk_writer, Writer.setPool_standing]

theorem State.attempt_standing (p : Pool) : (s.attempt p).writer.standing = s.writer.standing := by
  unfold State.attempt
  dsimp only
  split
  · rfl
  · exact Writer.setPool_standing ..

theorem State.translate_standing (c : Client) (a : Nat) : (s.translate c a).1.writer.standing = s.writer.standing := by
  unfold State.translate
  dsimp only
  split
  · rfl
  · dsimp only
    split <;> rfl

theorem State.placeBytes_standing (p : Pool) (k : Work) (x : Source) (n : Nat) :
    (s.placeBytes p k x n).1.writer.standing = s.writer.standing := by
  have asks : ∀ a page, (match s.translate .writer a with
      | (t, some b) => (t.setWork { k with page := some (page, b) }, true)
      | (t, none) => (t, false)).1.writer.standing = s.writer.standing := by
    intro a page
    have h := s.translate_standing .writer a
    split <;> (rename_i e; rw [e] at h; exact h)
  unfold State.placeBytes
  dsimp only
  split
  · exact s.attempt_standing p
  · split
    · exact s.closeChunk_standing p false
    · split
      · split
        · cases p <;> rfl
        · exact asks _ _
      · exact asks _ _

theorem State.finishTake_standing : s.finishTake.writer.standing = s.writer.standing := by
  unfold State.finishTake
  extract_lets t table u v w
  show w.standing = _
  have hw : w = (s.closeChunk .index true).writer := by simp [w, v, u, t]
  rw [hw, State.closeChunk_standing]

theorem State.writerStep_standing : s.writerStep.1.writer.standing = s.writer.standing := by
  unfold State.writerStep State.headerStep State.fullStep State.proxyStep State.entryStep State.trailerStep
    State.settleProxy
  dsimp only
  (repeat' split) <;> first
    | rfl
    | exact s.placeBytes_standing ..
    | exact s.closeChunk_standing ..
    | exact (State.finishTake_standing _).trans (s.closeChunk_standing ..)
    | exact (State.closeChunk_standing _ ..).trans (s.closeChunk_standing ..)

theorem State.runWriter_standing (n : Nat) (s : State) : (s.runWriter n).writer.standing = s.writer.standing := by
  induction n generalizing s with
  | zero => rfl
  | succ n ih =>
    have h := s.writerStep_standing
    unfold State.runWriter
    split <;> (rename_i e; rw [e] at h)
    · exact (ih _).trans h
    · exact h

/-- The writer's work sets no wait and ends none, and leaves SUSPENDED as it was: only R132, R142, R143, R144 and R145
move them. -/
theorem State.work_standing : s.work.writer.standing = s.writer.standing :=
  State.runWriter_standing _ s

end Sys2Proof.Machine
end

