-- ==== Sys2Proof/Laws/Chain.lean ====
section
/-! SUPPORT. What each operation of a visit of the chain does, in the words of R174 to R177 that the statements share. -/

namespace Sys2Proof.Machine

variable (s : State)

theorem State.raise_directive : s.raise .directive = s.withCauses 0x02#8 :=
  s.raise_eq .directive

/-- A translation for the chain, taken with a continuation that names its own phase. -/
theorem State.translate_asks (addr : Nat) (waits : ChainPhase) (goes : State → HostAddr → State)
    (model : State → HostAddr → State)
    (hm : ∀ (a : Aperture) (base : HostAddr), model { s.setPhase waits with aperture := a } base =
      goes { s with aperture := a } (base + BitVec.ofNat 64 (addr % 2097152))) :
    (match (s.setPhase waits).translate .chain addr with
      | (t, some base) => model t base
      | (t, none) => t) = s.chainAsks addr waits goes := by
  unfold State.chainAsks
  have hp : pageOf addr = addr / 2097152 := rfl
  dsimp only
  cases h : s.aperture.lookup (addr / 2097152) with
  | some x =>
    obtain ⟨way, base⟩ := x
    rw [State.translate_hit (s.setPhase waits) .chain addr way base (by rw [hp]; exact h)]
    exact hm _ base
  | none =>
    cases hf : s.aperture.fetch with
    | some f =>
      rw [State.translate_join (s.setPhase waits) .chain addr f (by rw [hp]; exact h) hf]
      simp [State.setPhase, hp, hf]
    | none =>
      rw [State.translate_miss (s.setPhase waits) .chain addr (by rw [hp]; exact h) hf]
      rfl

theorem State.beginVisit_eq (b : Bool) : s.beginVisit b = s.visitBegun b := by
  unfold State.visitBegun
  exact State.translate_asks { s with chain := { s.chain with
    again := false, count := 0, notify := false, atFrameStart := b } } s.chain.anchor .anchorPage _
    State.readNext (fun _ _ => rfl)

theorem State.endVisit_eq (b : Bool) :
    s.endVisit b = s.visitEnded (b && (s.cadence.run == .stopped)) := by
  unfold State.endVisit State.visitEnded
  dsimp only
  simp only [State.raise_directive, State.beginVisit_eq, Bool.or_eq_true]
  rfl

theorem State.reportFault_setChain (k : Chain) (c : FaultClass) (f t d : Word) :
    State.reportFault { s with chain := k } c f t d = { s.reportFault c f t d with chain := k } := by
  cases h : s.faultRecord.latch with
  | true => rw [State.reportFault_held s c f t d h, State.reportFault_held { s with chain := k } c f t d h]
  | false =>
    rw [State.reportFault_free s c f t d h, State.reportFault_free { s with chain := k } c f t d h,
      State.raise_eq, State.raise_eq]

theorem State.chainFault_eq (addr : Nat) : s.chainFault addr = s.visitFaulted (addr / 2097152) := by
  unfold State.chainFault State.visitFaulted
  dsimp only
  rw [State.endVisit_eq, State.reportFault_setChain]
  rfl

theorem State.followNext_eq (next : Nat) : s.followNext next = s.nextFollowed next := by
  unfold State.followNext State.nextFollowed
  split
  · exact s.endVisit_eq false
  · split
    · exact s.chainFault_eq next
    · exact s.translate_asks next (.recordPage next) _ (fun t base => t.readRecord next base) (fun _ _ => rfl)

theorem State.completeRecord_eq (p : PendingResult) (base : HostAddr) :
    s.completeRecord p base = s.recordWritten p (base + BitVec.ofNat 64 (p.addr % 2097152)) := by
  have h : ∀ t : State, t.chain.count = s.chain.count + 1 → t.cadence = s.cadence →
      (if 8 ≤ t.chain.count then t.endVisit true else t.followNext p.next) =
        if s.chain.count < 7 then t.nextFollowed p.next else t.visitEnded (s.cadence.run == .stopped) := by
    intro t hc hk
    rw [State.endVisit_eq, State.followNext_eq, hc, hk]
    by_cases g : s.chain.count < 7
    · rw [if_pos g, if_neg (by omega)]
    · rw [if_neg g, if_pos (by omega)]; rfl
  have hw : s.writeResult (hostAt base p.addr) p.result = { s with link := s.link ++
      [.write (hostAt base p.addr + 7#64) (leBytes 1 p.result.code.code),
       .write (hostAt base p.addr + 8#64) (leBytes 4 s.cadence.frameNumber.toNat ++ s.visitLabel.bytes),
       .write (hostAt base p.addr + 48#64) p.result.data,
       .write (hostAt base p.addr + 6#64) (leBytes 1 p.result.status.code)] } := by
    simp [State.writeResult, State.post, State.emit, State.visitLabel]
  unfold State.completeRecord State.recordWritten
  rw [hw]
  extract_lets t c u k n v
  have e : u = v := by
    simp only [u, v, c, k, n, t, State.countRefusal]
    by_cases hr : p.result.status = .refused
    · simp only [hr, if_true]; rfl
    · simp only [hr, if_false]; rfl
  exact (h u (by rw [e]) (by rw [e])).trans (by rw [e])

/-! ### A visit's phase is written by whatever comes next -/

theorem State.visitEnded_setPhase (x : ChainPhase) (b : Bool) : (s.setPhase x).visitEnded b = s.visitEnded b := rfl

theorem State.visitFaulted_setPhase (x : ChainPhase) (page : Nat) :
    (s.setPhase x).visitFaulted page = s.visitFaulted page := by
  unfold State.visitFaulted State.setPhase
  rw [State.reportFault_setChain]
  dsimp only
  split <;> rfl

theorem State.chainAsks_setPhase (x : ChainPhase) (addr : Nat) (waits : ChainPhase) (goes : State → HostAddr → State)
    (h : ∀ (a : Aperture) host, goes { s.setPhase x with aperture := a } host = goes { s with aperture := a } host) :
    (s.setPhase x).chainAsks addr waits goes = s.chainAsks addr waits goes := by
  unfold State.chainAsks
  have hs : (s.setPhase x).aperture = s.aperture := rfl
  dsimp only
  rw [hs]
  cases s.aperture.lookup (addr / 2097152) with
  | some y => exact h (s.aperture.use (addr / 2097152) y.1) _
  | none => rfl

theorem State.nextFollowed_setPhase (x : ChainPhase) (next : Nat) :
    (s.setPhase x).nextFollowed next = s.nextFollowed next := by
  unfold State.nextFollowed
  rw [State.visitFaulted_setPhase, s.chainAsks_setPhase x next _ _ (fun _ _ => rfl)]
  rfl

theorem State.recordWritten_setPhase (x : ChainPhase) (p : PendingResult) (host : HostAddr) :
    (s.setPhase x).recordWritten p host = s.recordWritten p host := by
  unfold State.recordWritten
  extract_lets a b t c d u
  show (if s.chain.count < 7 then (u.setPhase x).nextFollowed p.next
    else (u.setPhase x).visitEnded (s.cadence.run == .stopped)) = _
  rw [State.nextFollowed_setPhase]
  rfl

/-- What a fetched record brings, whole (R175, steps 5 to 7). -/
theorem State.takeRecordBytes_eq (addr : Nat) (bytes : List Byte) :
    s.takeRecordBytes addr bytes =
      if fieldAt bytes 6 1 = 1 then
        let t := s.applyDirective (directiveOf bytes)
        let p : PendingResult :=
          { addr := addr, next := fieldAt bytes 0 4, notify := notifyFlag bytes, result := t.2 }
        t.1.chainAsks addr (.resultPage p) (fun u host => u.recordWritten p host)
      else s.visitEnded false := by
  unfold State.takeRecordBytes posted
  simp only [beq_iff_eq]
  split
  · exact State.translate_asks _ addr _ _ _ (fun a base =>
      (State.completeRecord_eq ..).trans (State.recordWritten_setPhase { (s.applyDirective (directiveOf bytes)).1 with
        aperture := a } ..))
  · exact s.endVisit_eq false

/-- The failure of a result's translation: the record is consumed, and the visit faults (R178). -/
theorem State.resultFault_eq (p : PendingResult) : s.resultFault p =
    State.visitFaulted { s with chain := { s.chain with anchor := p.addr, count := s.chain.count + 1 } }
      (p.addr / 2097152) :=
  State.chainFault_eq _ _

end Sys2Proof.Machine
end

