-- ==== Sys2Proof/Laws/Layout.lean ====
section
/-! SUPPORT. What a field of a record laid out by `layout` reads back as (R171). -/

namespace Sys2Proof.Machine

@[simp] theorem length_leBytes (k n : Nat) : (leBytes k n).length = k := by
  induction k generalizing n with
  | zero => rfl
  | succ k ih => simp [leBytes, ih]

@[simp] theorem leNat_leBytes (k n : Nat) : leNat (leBytes k n) = n % 256 ^ k := by
  induction k generalizing n with
  | zero => simp [leBytes, leNat, Nat.mod_one]
  | succ k ih =>
    simp only [leBytes, leNat, ih, BitVec.toNat_ofNat]
    have h : 256 ^ (k + 1) = 256 * 256 ^ k := Nat.pow_succ'
    rw [h, Nat.mod_mul]

@[simp] theorem Label.length_bytes (l : Label) : l.bytes.length = 4 := rfl

@[simp] theorem length_signedBytes (x : Int) : (signedBytes x).length = 4 := length_leBytes _ _

@[simp] theorem leNat_signedBytes (x : Int) : leNat (signedBytes x) = (BitVec.ofInt 32 x).toNat := by
  rw [signedBytes, leNat_leBytes]
  exact Nat.mod_eq_of_lt (BitVec.isLt _)

theorem length_putAt (buffer bytes : List Byte) (o : Nat) (h : o + bytes.length ≤ buffer.length) :
    (putAt buffer o bytes).length = buffer.length := by
  simp [putAt]
  omega

/-- The bytes at an offset of a buffer, as long as they lie in it. -/
def slice (buffer : List Byte) (offset len : Nat) : List Byte :=
  (buffer.drop offset).take len

theorem fieldAt_slice (buffer : List Byte) (o len : Nat) : fieldAt buffer o len = leNat (slice buffer o len) :=
  rfl

/-- Bytes put at an offset are there. -/
theorem slice_putAt_same (buffer bytes : List Byte) (o len : Nat) (hl : bytes.length = len)
    (h : o + bytes.length ≤ buffer.length) : slice (putAt buffer o bytes) o len = bytes := by
  subst hl
  have : (List.take o buffer).length = o := by simp; omega
  simp only [slice, putAt, List.append_assoc]
  rw [List.drop_append_of_le_length (by omega), List.drop_of_length_le (by omega)]
  simp

/-- Bytes put elsewhere leave a field as it is. -/
theorem slice_putAt_other (buffer bytes : List Byte) (o p len : Nat)
    (h : o + bytes.length ≤ buffer.length) (hd : p + len ≤ o ∨ o + bytes.length ≤ p) :
    slice (putAt buffer o bytes) p len = slice buffer p len := by
  have ho : (List.take o buffer).length = o := by simp; omega
  apply List.ext_getElem?
  intro i
  simp only [slice, putAt, List.getElem?_take, List.getElem?_drop]
  split
  · rcases hd with hd | hd
    · rw [List.append_assoc, List.getElem?_append_left (by omega), List.getElem?_take, if_pos (by omega)]
    · rw [List.getElem?_append_right (by simp; omega), List.getElem?_drop]
      congr 1
      simp
      omega
  · rfl

/-- A record as `layout` makes it, the last field first. -/
theorem layout_concat (n : Nat) (fs : List (Nat × List Byte)) (f : Nat × List Byte) :
    layout n (fs ++ [f]) = putAt (layout n fs) f.1 f.2 := by
  simp [layout]

theorem length_layout (n : Nat) (fs : List (Nat × List Byte)) (h : ∀ f ∈ fs, f.1 + f.2.length ≤ n) :
    (layout n fs).length = n := by
  induction fs using List.reverseRecOn with
  | nil => simp [layout]
  | append_singleton fs f ih =>
    have := ih (fun g hg => h g (by simp [hg]))
    rw [layout_concat, length_putAt _ _ _ (by rw [this]; exact h f (by simp)), this]

/-- A field that no later field of the layout touches reads back as it was given. -/
theorem slice_layout (n : Nat) (before later : List (Nat × List Byte)) (o len : Nat) (bytes : List Byte)
    (hl : bytes.length = len) (hn : ∀ f ∈ before ++ (o, bytes) :: later, f.1 + f.2.length ≤ n)
    (hd : ∀ f ∈ later, o + len ≤ f.1 ∨ f.1 + f.2.length ≤ o) :
    slice (layout n (before ++ (o, bytes) :: later)) o len = bytes := by
  induction later using List.reverseRecOn with
  | nil =>
    rw [layout_concat]
    refine slice_putAt_same _ _ _ _ hl ?_
    rw [length_layout n before (fun f hf => hn f (by simp [hf]))]
    exact hn (o, bytes) (by simp)
  | append_singleton fs f ih =>
    have e : before ++ (o, bytes) :: (fs ++ [f]) = (before ++ (o, bytes) :: fs) ++ [f] := by simp
    have hb : ∀ g ∈ before ++ (o, bytes) :: fs, g.1 + g.2.length ≤ n := by
      intro g hg
      apply hn
      rw [e]
      exact List.mem_append_left _ hg
    rw [e, layout_concat, slice_putAt_other _ _ _ _ _ _ (hd f (by simp))]
    · exact ih hb (fun g hg => hd g (by simp [hg]))
    · rw [length_layout n _ hb]
      exact hn f (by simp)

/-- The same by the field's place in the list of fields. -/
theorem slice_layout_get (n : Nat) (fs : List (Nat × List Byte)) (i o len : Nat) (bytes : List Byte)
    (hi : fs[i]? = some (o, bytes)) (hl : bytes.length = len) (hn : ∀ f ∈ fs, f.1 + f.2.length ≤ n)
    (hd : ∀ f ∈ fs.drop (i + 1), o + len ≤ f.1 ∨ f.1 + f.2.length ≤ o) :
    slice (layout n fs) o len = bytes := by
  obtain ⟨hlt, he⟩ := List.getElem?_eq_some_iff.mp hi
  have e : fs = fs.take i ++ (o, bytes) :: fs.drop (i + 1) := by
    rw [← he, List.getElem_cons_drop hlt, List.take_append_drop]
  rw [e] at hn ⊢
  exact slice_layout n _ _ o len bytes hl hn hd

/-- Bytes that no field of the layout touches are 0. -/
theorem slice_layout_zero (n : Nat) (fs : List (Nat × List Byte)) (o len : Nat) (ho : o + len ≤ n)
    (hn : ∀ f ∈ fs, f.1 + f.2.length ≤ n) (hd : ∀ f ∈ fs, o + len ≤ f.1 ∨ f.1 + f.2.length ≤ o) :
    slice (layout n fs) o len = List.replicate len 0#8 := by
  induction fs using List.reverseRecOn with
  | nil => simp [layout, slice]; omega
  | append_singleton fs f ih =>
    have hb : ∀ g ∈ fs, g.1 + g.2.length ≤ n := fun g hg => hn g (by simp [hg])
    rw [layout_concat, slice_putAt_other _ _ _ _ _ _ (hd f (by simp))]
    · exact ih hb (fun g hg => hd g (by simp [hg]))
    · rw [length_layout n _ hb]
      exact hn f (by simp)

end Sys2Proof.Machine
end

