-- ==== Sys2Proof/Laws/Link.lean ====
section
/-! SUPPORT. What an operation of the writer issues comes after all that was issued before: one lemma for each, so that a
statement about the first items of a run needs no account of the rest of it. -/

namespace Sys2Proof.Machine

variable (s : State)

theorem State.signal_link (n : Notices) : s.link <+: (s.signal n).link := by
  unfold State.signal State.emit
  dsimp only
  split
  · exact List.prefix_append _ _
  · exact List.prefix_refl _

theorem State.raise_link (c : Notice) : s.link <+: (s.raise c).link :=
  s.signal_link _

theorem State.announce_link : s.link <+: s.announce.link :=
  State.raise_link { s with notices := s.notices.zeroCounts } .chunk

theorem State.reportFault_link (c : FaultClass) (f k d : Word) : s.link <+: (s.reportFault c f k d).link := by
  unfold State.reportFault
  split
  · exact List.prefix_refl _
  · refine List.IsPrefix.trans ?_ (State.raise_link _ .fault)
    exact List.prefix_refl _

theorem State.countClose_link (p : Pool) : s.link <+: (s.countClose p).link := by
  unfold State.countClose
  extract_lets n m t
  split
  · exact State.announce_link t
  · exact List.prefix_refl _

theorem State.closeChunk_link (p : Pool) (l : Bool) : s.link <+: (s.closeChunk p l).link := by
  unfold State.closeChunk
  dsimp only
  split
  · exact List.prefix_refl _
  · refine List.IsPrefix.trans ?_ (State.countClose_link _ p)
    exact List.prefix_append _ _

theorem State.attempt_link (p : Pool) : s.link <+: (s.attempt p).link := by
  unfold State.attempt
  dsimp only
  split
  · exact List.prefix_refl _
  · exact List.prefix_append _ _

theorem State.translate_link (c : Client) (a : Nat) : s.link <+: (s.translate c a).1.link := by
  unfold State.translate
  dsimp only
  split
  · exact List.prefix_refl _
  · dsimp only
    split
    · exact List.prefix_append _ _
    · exact List.prefix_refl _

theorem State.placeBytes_link (p : Pool) (k : Work) (x : Source) (n : Nat) :
    s.link <+: (s.placeBytes p k x n).1.link := by
  have asks : ∀ a page, s.link <+: (match s.translate .writer a with
      | (t, some b) => (t.setWork { k with page := some (page, b) }, true)
      | (t, none) => (t, false)).1.link := by
    intro a page
    have h := s.translate_link .writer a
    split <;> (rename_i e; rw [e] at h; exact h)
  unfold State.placeBytes
  dsimp only
  split
  · exact s.attempt_link p
  · split
    · exact s.closeChunk_link p false
    · split
      · split
        · exact List.prefix_append _ _
        · exact asks _ _
      · exact asks _ _

theorem State.headerStep_link (k : Work) (r : TakeRecord) : s.link <+: (s.headerStep k r).1.link := by
  unfold State.headerStep
  split
  · exact s.placeBytes_link ..
  · exact List.prefix_refl _

theorem State.fullStep_link (k : Work) (r : PairRecord) : s.link <+: (s.fullStep k r).1.link := by
  unfold State.fullStep
  split
  · exact List.prefix_refl _
  · split
    · exact s.placeBytes_link ..
    · exact List.prefix_refl _

theorem State.proxyStep_link (k : Work) (r : PairRecord) (d : PairData) :
    s.link <+: (s.proxyStep k r d).1.link := by
  unfold State.proxyStep State.settleProxy
  split
  · exact List.prefix_refl _
  · exact List.prefix_refl _
  · split
    · exact List.prefix_refl _
    · split
      · exact List.prefix_refl _
      · split
        · exact List.prefix_refl _
        · split
          · exact s.closeChunk_link ..
          · exact s.placeBytes_link ..

theorem State.entryStep_link (k : Work) (r : PairRecord) (d : PairData) :
    s.link <+: (s.entryStep k r d).1.link := by
  unfold State.entryStep
  extract_lets ordinal e
  split
  · exact s.placeBytes_link ..
  · exact List.prefix_refl _

theorem State.finishTake_link : s.link <+: s.finishTake.link := by
  unfold State.finishTake
  extract_lets t table u v w
  exact ((s.closeChunk_link .index true).trans (State.announce_link _)).trans (State.raise_link u .take)

theorem State.trailerStep_link (k : Work) (r : TakeRecord) : s.link <+: (s.trailerStep k r).1.link := by
  unfold State.trailerStep
  split
  · split
    · exact s.placeBytes_link ..
    · split
      · exact List.prefix_refl _
      · exact (s.closeChunk_link .proxy true).trans (State.finishTake_link _)
  · split
    · exact List.prefix_refl _
    · exact (s.closeChunk_link .full true).trans (State.closeChunk_link _ .proxy true)

theorem State.writerStep_link : s.link <+: s.writerStep.1.link := by
  unfold State.writerStep
  split
  · exact List.prefix_refl _
  · split
    · exact List.prefix_refl _
    · split
      · split
        · exact s.headerStep_link ..
        · exact s.trailerStep_link ..
      · split
        · exact List.prefix_refl _
        · split
          · exact s.headerStep_link ..
          · exact s.fullStep_link ..
          · exact s.proxyStep_link ..
          · exact s.entryStep_link ..
          · exact List.prefix_refl _

theorem State.runWriter_link (n : Nat) (s : State) : s.link <+: (s.runWriter n).link := by
  induction n generalizing s with
  | zero => exact List.prefix_refl _
  | succ n ih =>
    have h := s.writerStep_link
    unfold State.runWriter
    split <;> (rename_i e; rw [e] at h)
    · exact h.trans (ih _)
    · exact h

theorem State.work_link : s.link <+: s.work.link :=
  State.runWriter_link _ s

/-- The writer's work is its first step and then the work of the rest. -/
theorem State.work_step (t : State) :
    (s.writerStep = (t, true) → s.work = t.runWriter 255) ∧ (s.writerStep = (t, false) → s.work = t) := by
  constructor <;> intro h <;> (show s.runWriter (255 + 1) = _; rw [State.runWriter, h])

end Sys2Proof.Machine
end

