-- ==== Sys2Proof/Laws/Memory.lean ====
section
/-! SUPPORT. The samples of a raw slot: read after write, and the canonical form. -/

namespace Sys2Proof.Machine

theorem Memory.cells_range (bytes : List Byte) (a : Nat) :
    ∀ c ∈ Memory.cells a bytes, a ≤ c.1 ∧ c.1 < a + bytes.length ∧ c.2 ≠ 0#8 := by
  induction bytes generalizing a with
  | nil => simp [Memory.cells]
  | cons b bs ih =>
    intro c hc
    unfold Memory.cells at hc
    have inner : ∀ c ∈ Memory.cells (a + 1) bs,
        a ≤ c.1 ∧ c.1 < a + (b :: bs).length ∧ c.2 ≠ 0#8 := by
      intro c h
      obtain ⟨h1, h2, h3⟩ := ih (a + 1) c h
      exact ⟨by omega, by simp; omega, h3⟩
    split at hc
    · exact inner c hc
    · rcases List.mem_cons.mp hc with rfl | h
      · exact ⟨le_rfl, by simp, by assumption⟩
      · exact inner c h

theorem Memory.cells_sorted (bytes : List Byte) (a : Nat) :
    (Memory.cells a bytes).Pairwise (fun c d => c.1 < d.1) := by
  induction bytes generalizing a with
  | nil => simp [Memory.cells]
  | cons b bs ih =>
    unfold Memory.cells
    split
    · exact ih (a + 1)
    · refine List.pairwise_cons.mpr ⟨fun c hc => ?_, ih (a + 1)⟩
      have := Memory.cells_range bs (a + 1) c hc
      show a < c.1
      omega

/-- A write keeps the canonical form. -/
theorem Memory.write_wf (m : Memory) (h : m.wf) (a : Nat) (bytes : List Byte) :
    (Memory.write m a bytes).wf := by
  have hr := Memory.cells_range bytes a
  refine ⟨?_, ?_⟩
  · unfold Memory.write
    refine List.pairwise_append.mpr ⟨List.pairwise_append.mpr ⟨h.1.filter _, Memory.cells_sorted bytes a,
      fun c hc d hd => ?_⟩, h.1.filter _, fun c hc d hd => ?_⟩
    · have h1 := (List.mem_filter.mp hc).2
      have h2 := hr d hd
      simp only [decide_eq_true_eq] at h1
      omega
    · have h2 := (List.mem_filter.mp hd).2
      simp only [decide_eq_true_eq] at h2
      rcases List.mem_append.mp hc with hc | hc
      · have h1 := (List.mem_filter.mp hc).2
        simp only [decide_eq_true_eq] at h1
        omega
      · have h1 := hr c hc
        omega
  · intro c hc
    unfold Memory.write at hc
    rcases List.mem_append.mp hc with hc | hc
    · rcases List.mem_append.mp hc with hc | hc
      · exact h.2 c (List.mem_filter.mp hc).1
      · exact (hr c hc).2.2
    · exact h.2 c (List.mem_filter.mp hc).1

theorem Memory.read_append (l r : Memory) (x : Nat) :
    Memory.read (l ++ r) x = if ∃ c ∈ l, c.1 = x then Memory.read l x else Memory.read r x := by
  induction l with
  | nil => simp
  | cons c l ih =>
    by_cases hc : c.1 = x
    · simp [Memory.read, hc]
    · simp [Memory.read, hc, ih]

theorem Memory.read_none (m : Memory) (x : Nat) (h : ∀ c ∈ m, c.1 ≠ x) : Memory.read m x = 0#8 := by
  induction m with
  | nil => rfl
  | cons c m ih =>
    have hc := h c (by simp)
    simp only [Memory.read, hc, if_false]
    exact ih (fun d hd => h d (by simp [hd]))

theorem Memory.read_filter (m : Memory) (p : Nat → Bool) (x : Nat) (hx : p x = true) :
    Memory.read (m.filter (fun c => p c.1)) x = Memory.read m x := by
  induction m with
  | nil => rfl
  | cons c m ih =>
    by_cases hc : c.1 = x
    · simp [Memory.read, hc, hx]
    · by_cases hp : p c.1 = true
      · simp [hp, Memory.read, hc, ih]
      · simp [hp, Memory.read, hc, ih]

theorem Memory.read_cells (bytes : List Byte) (a i : Nat) (h : i < bytes.length) :
    Memory.read (Memory.cells a bytes) (a + i) = bytes.getD i 0#8 := by
  induction bytes generalizing a i with
  | nil => simp at h
  | cons b bs ih =>
    unfold Memory.cells
    cases i with
    | zero =>
      split
      · rename_i hb
        rw [Memory.read_none _ _ (fun c hc => by have := Memory.cells_range bs (a + 1) c hc; omega)]
        simp [hb]
      · simp [Memory.read]
    | succ i =>
      have e : a + (i + 1) = a + 1 + i := by omega
      have hi : i < bs.length := by simpa using h
      split
      · rw [e, ih (a + 1) i hi]; simp
      · have : a ≠ a + (i + 1) := by omega
        simp only [Memory.read, this, if_false]
        rw [e, ih (a + 1) i hi]; simp

/-- A read after a write: the bytes written at their addresses, and every other byte as before. -/
theorem Memory.read_write (m : Memory) (a : Nat) (bytes : List Byte) (x : Nat) :
    Memory.read (Memory.write m a bytes) x =
      if a ≤ x ∧ x < a + bytes.length then bytes.getD (x - a) 0#8 else Memory.read m x := by
  have hr := Memory.cells_range bytes a
  unfold Memory.write
  rw [Memory.read_append]
  by_cases hin : a ≤ x ∧ x < a + bytes.length
  · rw [if_pos hin]
    have hright : Memory.read (m.filter (fun c => decide (a + bytes.length ≤ c.1))) x = 0#8 :=
      Memory.read_none _ _ (fun c hc => by
        have := (List.mem_filter.mp hc).2
        simp only [decide_eq_true_eq] at this
        omega)
    have hmid : Memory.read (Memory.cells a bytes) x = bytes.getD (x - a) 0#8 := by
      have := Memory.read_cells bytes a (x - a) (by omega)
      rwa [show a + (x - a) = x by omega] at this
    have hleft : ¬ ∃ c ∈ m.filter (fun c => decide (c.1 < a)), c.1 = x := by
      rintro ⟨c, hc, rfl⟩
      have := (List.mem_filter.mp hc).2
      simp only [decide_eq_true_eq] at this
      omega
    split
    · rw [Memory.read_append, if_neg hleft, hmid]
    · rename_i hno
      rw [hright, ← hmid]
      refine (Memory.read_none _ _ (fun c hc e => hno ⟨c, ?_, e⟩)).symm
      exact List.mem_append.mpr (.inr hc)
  · rw [if_neg hin]
    by_cases hlt : x < a
    · have hl : Memory.read (m.filter (fun c => decide (c.1 < a))) x = Memory.read m x :=
        Memory.read_filter m (fun y => decide (y < a)) x (by simpa using hlt)
      by_cases hex : ∃ c ∈ m.filter (fun c => decide (c.1 < a)), c.1 = x
      · rw [if_pos (by obtain ⟨c, hc, e⟩ := hex; exact ⟨c, List.mem_append.mpr (.inl hc), e⟩),
          Memory.read_append, if_pos hex, hl]
      · rw [if_neg]
        · rw [Memory.read_none _ _ (fun c hc => by
            have := (List.mem_filter.mp hc).2
            simp only [decide_eq_true_eq] at this
            omega)]
          rw [← hl]
          exact (Memory.read_none _ _ (fun c hc e => hex ⟨c, hc, e⟩)).symm
        · rintro ⟨c, hc, e⟩
          rcases List.mem_append.mp hc with h | h
          · exact hex ⟨c, h, e⟩
          · have := hr c h; omega
    · have hge : a + bytes.length ≤ x := by omega
      rw [if_neg]
      · exact Memory.read_filter m (fun y => decide (a + bytes.length ≤ y)) x (by simpa using hge)
      · rintro ⟨c, hc, e⟩
        rcases List.mem_append.mp hc with h | h
        · have := (List.mem_filter.mp h).2
          simp only [decide_eq_true_eq] at this
          omega
        · have := hr c h; omega

/-- The copy of a line keeps the canonical form. -/
theorem copyLine_wf (w a b : Nat) (m : Memory) (h : m.wf) : (copyLine w a b m).wf :=
  Memory.write_wf m h _ _

/-- The repair of a frame keeps the canonical form. -/
theorem repairLines_wf (w : Nat) (lines : List (Nat × LineMark)) (n i src : Nat) (m : Memory)
    (h : m.wf) : (repairLines w lines n i src m).wf := by
  induction n generalizing i src m with
  | zero => exact h
  | succ k ih =>
    unfold repairLines
    split
    · exact ih _ _ _ h
    · exact ih _ _ _ (copyLine_wf w src i m h)

/-- The slots at reset are in canonical form. -/
theorem State.reset_slots_wf : State.reset.slotsCanonical := by
  intro x hx
  have : x = Slot.reset := by
    simp [State.reset, Intake.reset] at hx
    exact hx
  subst this
  exact ⟨List.Pairwise.nil, by simp [Slot.reset]⟩

end Sys2Proof.Machine
end

