-- ==== Sys2Proof/WellFormed.lean ====
section
/-! DEFINITION. Which command terms can stand for something that happens at the engine's edges. -/

namespace Sys2Proof

/-- A completed read brings as many bytes as were asked for (R149, R164, R171, R175), or none at all. -/
def dataOf (len : Nat) (data : Option (List Byte)) : Bool :=
  match data with
  | none => true
  | some bytes => bytes.length == len

/-- The write is one that R162 says is ignored: narrower than 32 bits, to Engine Status, or to an
offset that is no register. R162 gives no rule for a write wider than 32 bits: at an offset of no register it is
ignored here, and at a register's no well-formed command spells it (DESIGN CHOICE, log 45). -/
def ignoredWrite (offset : BitVec 12) (bytes : Nat) : Bool :=
  (decide (bytes < 4)) || (decide (0x018#12 ≤ offset)) || (decide (offset &&& 3#12 ≠ 0#12))

/-- The well-formed commands. The spec gives no width to a line event's index and sample count: both lie below
65,536 (log 39). -/
def Instr.wf : Instr → Bool
  | .ignoredRegisterWrite offset bytes _ => decide (0 < bytes) && ignoredWrite offset bytes
  | .headerReadDone _ data => dataOf 256 data
  | .refEdge _ _ => true
  | .lineEvent index samples _ => decide (index < 65536) && decide (samples.length < 65536)
  | .pass1End _ _ size => decide (0 < size)
  | .pass2End _ _ size => decide (0 < size)
  | .chainNextReadDone _ data => dataOf 4 data
  | .chainRecordFetchDone _ data => dataOf 64 data
  | .apertureFetchDone _ data => dataOf 8 data
  | .chunkEntryReadDone _ data => dataOf 32 data
  | .fundamentalReset => true
  | .linkDown => true
  | .functionLevelReset => true
  | .boardAnchorLow _ => true
  | .boardAnchorHigh _ => true
  | .visitRequest _ => true
  | .noticeCause _ => true
  | .noticeMaskSet _ => true
  | .noticeMaskClear _ => true
  | .cadenceExpiry => true
  | .windowClose => true
  | .basePeriodBoundary => true
  | .frameBegin => true
  | .frameEnd => true
  | .jobStart _ => true
  | .setCadence _ _ _ _ => true
  | .startCadence => true
  | .stopCadence => true
  | .jamTimecode _ _ _ _ _ => true
  | .setProfile _ => true
  | .openTake _ => true
  | .closeTake => true
  | .mark _ => true
  | .remapApertures _ _ => true
  | .probeAperture _ => true
  | .snapshot => true
  | .setNotice _ _ => true
  | .writerStartWork => true
  | .proxySuspended => true
  | .coalescingAgeLimit => true

end Sys2Proof
end

