-- ==== Sys2Proof/Tests/Slice0.lean ====
section
/-! SUPPORT. The model's own tests: ill-formed commands, the spec's worked examples, and for each statement with
hypotheses a state that meets them. -/

namespace Sys2Proof.Tests

open Sys2Proof Sys2Proof.Machine

/-! ### Well-formedness: an ill-formed term for each check, and its well-formed neighbour -/

theorem test_wf_ignored_write_of_no_byte : (Instr.ignoredRegisterWrite 0x004#12 0 0#32).wf = false := by decide
theorem test_wf_ignored_write_whole : (Instr.ignoredRegisterWrite 0x004#12 4 0#32).wf = false := by decide
theorem test_wf_ignored_write_narrow : (Instr.ignoredRegisterWrite 0x004#12 2 0#32).wf = true := by decide
theorem test_wf_ignored_write_status : (Instr.ignoredRegisterWrite 0x018#12 4 0#32).wf = true := by decide
theorem test_wf_header_read : (Instr.headerReadDone 0 (some [0#8])).wf = false := by decide
theorem test_wf_header_read_failed : (Instr.headerReadDone 0 none).wf = true := by decide
theorem test_wf_edge_with_no_tick : (Instr.refEdge .rising 0).wf = true := by decide
theorem test_wf_line_index : (Instr.lineEvent 65536 [] true).wf = false := by decide
theorem test_wf_line_index_last : (Instr.lineEvent 65535 [] true).wf = true := by decide
theorem test_wf_line_samples (xs : List (BitVec 16)) (h : xs.length = 65536) :
    (Instr.lineEvent 0 xs true).wf = false := by simp [Instr.wf, h]
theorem test_wf_pass1_size : (Instr.pass1End .full 0 0).wf = false := by decide
theorem test_wf_pass1_size_one : (Instr.pass1End .full 0 1).wf = true := by decide
theorem test_wf_pass2_size : (Instr.pass2End .proxy 0 0).wf = false := by decide
theorem test_wf_chain_next : (Instr.chainNextReadDone 0 (some (List.replicate 3 0#8))).wf = false := by decide
theorem test_wf_chain_next_four : (Instr.chainNextReadDone 0 (some (List.replicate 4 0#8))).wf = true := by decide
theorem test_wf_chain_record : (Instr.chainRecordFetchDone 0 (some (List.replicate 63 0#8))).wf = false := by decide
theorem test_wf_aperture_fetch : (Instr.apertureFetchDone 0 (some (List.replicate 9 0#8))).wf = false := by decide
theorem test_wf_chunk_entry : (Instr.chunkEntryReadDone 0 (some (List.replicate 31 0#8))).wf = false := by decide

/-! ### States -/

/-- Attached, in IDLE, with its Board at 0x10000000. -/
def idle : State :=
  { State.reset with board := { Board.reset with anchor := 0x10000000#64, mode := .idle } }

/-- Waiting for its header. -/
def attaching : State :=
  { State.reset with
    board := { Board.reset with
      anchor := 0x10000000#64, mode := .attaching
      headerRead := some { tag := 0, anchor := 0x10000000#64 } }
    nextTag := 1 }

/-- The cadence of a running engine in FREE. -/
def freeCadence : Cadence :=
  { Cadence.reset with run := .running, counter := 1080000 }

/-- The cadence of a running engine in LOCKED, in some lock state. -/
def lockedCadence (l : LockState) : Cadence :=
  { freeCadence with active := { freeCadence.active with mode := .locked }, lock := l, measure := 0 }

/-- Running in FREE, with no take open. -/
def standby : State :=
  { idle with board := { idle.board with mode := .standby }, cadence := freeCadence }

/-- Running on a reference. -/
def onReference (l : LockState) : State :=
  { standby with cadence := lockedCadence l }

/-- The record of take 7 after its OPEN_TAKE in standby. -/
def take7 : TakeRecord :=
  TakeRecord.opening 7#32 standby.takeHeader 0

/-- Recording take 7. -/
def recording : State :=
  { standby with
    board := { standby.board with mode := .recording }
    takes := { standby.takes with table := [take7] } }

/-- A capture of a frame of two lines of four samples, receiving into slot 0. -/
def capture : Capture :=
  { phase := .receiving, slot := 0, frame := 9#32, retimed := false, width := 4, height := 2,
    label := Label.zero, lines := [(0, .good), (1, .good)] }

/-- A state whose Intake receives that capture. -/
def capturing (s : State) (c : Capture) : State :=
  { s with intake := { s.intake with capture := some c } }

/-- A ticket of take 7 in slot 0. -/
def ticket : Ticket :=
  { slot := 0, frame := 9#32, label := Label.zero, damaged := false, retimed := false, gap := 0,
    mark := none, take := 7#32, preroll := false, width := 4096, height := 2160, hasRecord := false,
    fullResult := none, proxyResult := none }

/-- Recording, with tickets in the lanes and both lane queues naming them. -/
def laneState (tickets : List Ticket) : State :=
  { recording with lanes := { recording.lanes with
      tickets := tickets
      full := { recording.lanes.full with queue := tickets.map Ticket.slot }
      proxy := { recording.lanes.proxy with queue := tickets.map Ticket.slot } } }

/-- A full-lane job on slot 0. -/
def job : Job :=
  { slot := 0, tag := 5, q := 20, retryQ := 28, cap := 12000000, target := 3000000, width := 4096,
    height := 2160 }

/-- The full lane in a pass of that job, on a ticket. -/
def encoding (phase : JobPhase) (t : Ticket) : State :=
  let s := laneState [t]
  { s with lanes := { s.lanes with full := { s.lanes.full with phase := phase, job := some job } } }

/-- What a commit gives the record of frame 9. -/
def pairData : PairData :=
  { label := Label.zero, damaged := false, retimed := false, gap := 0, mark := none, fullQ := 20,
    fullClipped := false, proxyState := .present, proxyQ := 24, proxyClipped := false }

/-- A committed pair of take 7. -/
def pair7 : PairRecord :=
  { take := 7#32, frame := 9#32, preroll := false, full := some { start := 0, len := 256 },
    proxy := some { start := 0, len := 256 }, pair := some pairData }

/-- The work of writing that pair, at a step. -/
def workAt (step : WriterStep) : Work :=
  Work.fresh false step 9#32

/-- Recording, with the pair in the store and the writer at a step of it. -/
def writing (step : WriterStep) : State :=
  { recording with
    store := { recording.store with list := [pair7] }
    writer := { recording.writer with phase := .writing, take := some 7#32, work := some (workAt step) } }

/-- That state with an acquisition scan of the FULL pool reading entry 1. -/
def scanning (left : Nat) : State :=
  let s := writing .full
  { s with writer := { s.writer with fullPool := { s.writer.fullPool with
      attempt := some { tag := 3, entry := 1, left := left } } } }

/-- Page 9 held in way 0 of its set. -/
def cached (s : State) : State :=
  let held : CacheSet :=
    { ways := [some { tag := 1, base := 0x40000000#64 }, none, none, none], b0 := true, b1 := true,
      b2 := false }
  { s with aperture := { s.aperture with sets := s.aperture.sets.set 1 held } }

/-- A fetch of page 8 under way. -/
def fetching (s : State) (discard : Bool) : State :=
  { s with aperture := { s.aperture with fetch := some { page := 8, discard := discard, tag := 4 } } }

/-- A visit that waits for something. -/
def visiting (s : State) (p : ChainPhase) : State :=
  { s with chain := { s.chain with phase := p } }

/-- The next state of an outcome. -/
def nextOf (o : Host.Outcome State Fault Refusal) : Option State :=
  match o with
  | .next t => some t
  | .fault _ => none
  | .refused _ => none

/-- A header of the right format whose other values are all 0. -/
def header : List Byte :=
  [0x01#8, 0x0A#8, 0x20#8, 0x64#8] ++ List.replicate 252 0#8

/-- A directive record: Next, kind, flags, status, and nothing else. -/
def record (kind status : Byte) : List Byte :=
  [0#8, 0#8, 0#8, 0#8, kind, 0#8, status] ++ List.replicate 57 0#8

/-- A chunk table entry: its address and its state. -/
def entry (addr : Nat) (state : Byte) : List Byte :=
  leBytes 4 addr ++ [state] ++ List.replicate 27 0#8

/-! ### Worked examples of the spec -/

/-- R24's table, row by row. -/
theorem test_increment_table :
    (Label.mk 0 0 59 29 true).increment 7 = ⟨0, 1, 0, 2, true⟩ ∧
    (Label.mk 0 9 59 29 true).increment 7 = ⟨0, 10, 0, 0, true⟩ ∧
    (Label.mk 0 0 59 59 true).increment 8 = ⟨0, 1, 0, 4, true⟩ ∧
    (Label.mk 1 19 59 59 true).increment 8 = ⟨1, 20, 0, 0, true⟩ ∧
    (Label.mk 23 59 59 24 false).increment 1 = ⟨0, 0, 0, 0, false⟩ ∧
    (Label.mk 0 0 59 29 false).increment 7 = ⟨0, 1, 0, 0, false⟩ ∧
    (Label.mk 12 34 56 23 false).increment 6 = ⟨12, 34, 57, 0, false⟩ := by decide

/-- The conversion table of section 2.8 (R33). -/
theorem test_conversion_table :
    (Label.mk 0 0 10 29 false).convert 1 false = ⟨0, 0, 10, 24, false⟩ ∧
    (Label.mk 0 1 0 0 false).convert 7 true = ⟨0, 1, 0, 2, true⟩ ∧
    (Label.mk 0 5 0 1 true).convert 8 true = ⟨0, 5, 0, 4, true⟩ ∧
    (Label.mk 0 5 0 3 true).convert 7 true = ⟨0, 5, 0, 3, true⟩ ∧
    (Label.mk 3 20 0 1 false).convert 8 true = ⟨3, 20, 0, 1, true⟩ ∧
    (Label.mk 11 11 11 47 false).convert 6 false = ⟨11, 11, 11, 23, false⟩ := by decide

/-- What a jam stages, with its answer, in IDLE with a base code and DF in force. -/
def jamOf (base : Nat) (df : Bool) (c : Instr) : Option (Option Label × Option (Status × ResultCode)) :=
  let s := { idle with timecode := { idle.timecode with base := base, df := df } }
  (nextOf (exec c s)).map (fun t =>
    (t.timecode.jam.map Jam.label, t.lastResult.map (fun r => (r.status, r.code))))

/-- The jam table of section 2.7 (R31). -/
theorem test_jam_clamps :
    jamOf 1 false (.jamTimecode 25#8 70#8 10#8 40#8 0#8) =
      some (some ⟨23, 59, 10, 24, false⟩, some (.doneClamped, .pending)) ∧
    jamOf 8 true (.jamTimecode 0#8 2#8 0#8 1#8 1#8) =
      some (some ⟨0, 2, 0, 4, true⟩, some (.doneClamped, .pending)) ∧
    jamOf 8 true (.jamTimecode 0#8 10#8 0#8 1#8 1#8) =
      some (some ⟨0, 10, 0, 1, true⟩, some (.done, .pending)) := by decide

theorem test_jam_target_code :
    jamOf 1 false (.jamTimecode 0#8 0#8 0#8 0#8 2#8) = some (none, some (.refused, .badField)) := by decide

/-- The record-run example of section 2.7: the jam takes effect at the ticket and is incremented. -/
theorem test_record_jam_at_ticket :
    ({ Timecode.reset with jam := some ⟨⟨0, 59, 59, 24, false⟩, .record⟩ } : Timecode).recordStep.recordRun =
      ⟨1, 0, 0, 0, false⟩ := by decide

/-- The realigning frame start 4 of section 2.4 (R26). -/
theorem test_realigned_label :
    ({ Timecode.reset with freeRun := ⟨10, 0, 0, 3, false⟩, baseCounter := 200000 } :
      Timecode).followingFrameStart.freeRun = ⟨10, 0, 0, 4, false⟩ := by decide

/-- R73's table: T at 1,200,000 and at 10,000 kbit/s for the nine codes. -/
theorem test_target_table :
    (List.range 9).map (targetBytes 1200000) =
      [6250000, 6000000, 5000000, 3125000, 3000000, 2500000, 6256250, 5005000, 2502500] ∧
    (List.range 9).map (targetBytes 10000) =
      [52083, 50000, 41666, 26041, 25000, 20833, 52135, 41708, 20854] := by decide

/-- R72's table. -/
theorem test_quantiser_table :
    quantisers 8 40 20 = (8, 40, 20) ∧ quantisers 40 30 10 = (40, 40, 40) ∧
    quantisers 70 20 5 = (63, 63, 63) ∧ quantisers 10 90 90 = (10, 63, 63) ∧
    quantisers 30 30 12 = (30, 30, 30) := by decide

/-- The full stream of section 5.7: L 48,000,000, limits 8 and 40. -/
def fullStream (level : Int) (q : Nat) : Stream :=
  { rate := 1200000, qmin := 8, qmax := 40, start := 20, target := 6000000, capacity := 48000000,
    level := level, q := q }

/-- Section 5.7: three frames of a scene, a clipped frame deep in debt, and a surplus at the limit. -/
theorem test_governor_updates :
    (fullStream (-3000000) 20).update 6000000 9000000 = fullStream (-6000000) 20 ∧
    (fullStream (-6000000) 20).update 6000000 9000000 = fullStream (-9000000) 21 ∧
    (fullStream (-8000000) 22).update 6000000 3000000 = fullStream (-5000000) 22 ∧
    (fullStream (-40000000) 30).update 6000000 24000000 = fullStream (-48000000) 32 ∧
    (fullStream 40000000 9).update 6000000 1000000 = fullStream 45000000 8 ∧
    (fullStream 45000000 8).update 6000000 1000000 = fullStream 48000000 8 := by decide

/-- R82's table at its edges. -/
theorem test_proxy_answers :
    proxyAnswer 63 0 = some 63 ∧ proxyAnswer 55 1 = some 63 ∧ proxyAnswer 62 1 = some 63 ∧
    proxyAnswer 63 1 = none ∧ proxyAnswer 47 2 = some 63 ∧ proxyAnswer 54 2 = some 63 ∧
    proxyAnswer 55 2 = none ∧ proxyAnswer 39 3 = some 63 ∧ proxyAnswer 46 3 = some 63 ∧
    proxyAnswer 47 3 = none ∧ proxyAnswer 20 2 = some 36 := by decide

/-- The measures of section 6.7 (R107). -/
theorem test_pressure_measures :
    pressureLevel 2047 4096 = 0 ∧ pressureLevel 2048 4096 = 1 ∧ pressureLevel 3072 4096 = 2 ∧
    pressureLevel 3686 4096 = 2 ∧ pressureLevel 3687 4096 = 3 ∧ pressureLevel 3100 4096 = 2 ∧
    pressureLevel 1100000000 2147483648 = 1 ∧ pressureLevel 250000000 268435456 = 3 := by decide

/-- R91's table. -/
theorem test_area_table :
    [(2048, 256), (3072, 1024), (3600, 1024), (1000, 40), (0, 0)].map (fun x : Nat × Nat =>
        (fullAreaMiB x.1, proxyAreaMiB (fullAreaMiB x.1) x.2)) =
      [(2048, 256), (3072, 576), (3520, 128), (992, 64), (512, 64)] := by decide

/-- R128's table. -/
theorem test_pool_table :
    (entryCount .full 80, chunkMiB .full 3) = (64, 4) ∧ (entryCount .proxy 10, chunkMiB .proxy 5) = (10, 4) ∧
    (entryCount .proxy 1, chunkMiB .proxy 96) = (2, 64) ∧ entryCount .index 20 = 16 := by decide

/-- R66's table. -/
theorem test_proxy_geometry :
    [(8192, 4096), (4096, 2160), (3840, 2160), (1920, 1080), (1280, 720)].map (fun x : Nat × Nat =>
        State.jobGeometry standby .proxy { ticket with width := x.1, height := x.2 }) =
      [(2048, 1024), (1024, 528), (960, 528), (480, 256), (320, 176)] := by decide

/-- Section 4.8: E of 25,600,100 and 58,000 as they enter the store. -/
theorem test_padded : padded 25600100 = 25600256 ∧ padded 58000 = 58112 ∧ padded 256 = 256 ∧ padded 257 = 512 := by
  decide

/-- R152's table. -/
theorem test_page_sets :
    [0, 34, 35, 1027, 2047].map (fun p => (setIndex p, tagOf p)) =
      [(0, 0), (2, 4), (3, 4), (3, 128), (7, 255)] := by decide

/-- Set 3 as section 9.6 shows it: the tags of its ways, and its bits. -/
def shown (c : CacheSet) : List (Option Nat) × List Bool :=
  (c.ways.map (fun w => w.map Way.tag), [c.b0, c.b1, c.b2])

/-- Set 3 after the misses on pages 3, 11, 19 and 27 of section 9.6. -/
def filled : CacheSet :=
  (((CacheSet.reset.install 0 0#64).install 1 0#64).install 2 0#64).install 3 0#64

/-- The replacement example of section 9.6, in order (R153). -/
theorem test_replacement :
    shown filled = ([some 0, some 1, some 2, some 3], [false, false, false]) ∧
    shown ((filled.touch 0).install 4 0#64) = ([some 0, some 1, some 4, some 3], [false, true, true]) ∧
    shown (((filled.touch 0).install 4 0#64).install 5 0#64) =
      ([some 0, some 5, some 4, some 3], [true, false, true]) ∧
    shown ((((filled.touch 0).install 4 0#64).install 5 0#64).install 6 0#64) =
      ([some 0, some 5, some 4, some 6], [false, false, false]) := by decide

/-- The answer to REMAP_APERTURES: status, result code, and the range used. -/
def remapOf (first count : Word) : Option (Status × ResultCode × Nat × Nat) :=
  ((nextOf (exec (.remapApertures first count) idle)).bind State.lastResult).map
    (fun r => (r.status, r.code, fieldAt r.data 0 4, fieldAt r.data 4 4))

/-- R156's table. -/
theorem test_remap_table :
    [(32#32, 4#32), (2040#32, 100#32), (0#32, 0#32), (0#32, 2048#32), (2048#32, 1#32)].map
        (fun x : Word × Word => remapOf x.1 x.2) =
      [some (.done, .none, 32, 4), some (.doneClamped, .clamped, 2040, 8),
       some (.doneClamped, .clamped, 0, 1), some (.done, .none, 0, 2048),
       some (.refused, .badField, 0, 0)] := by decide

/-- What an edge brings to a cadence with no frame start: M, the good count and the bad-edge count. -/
def edgeOf (s : State) (ticks : Nat) : Option (Nat × Nat × Nat × LockState) :=
  (nextOf (exec (.refEdge .rising ticks) s)).map (fun t =>
    (t.cadence.lastInterval, t.cadence.good, t.counters.badEdges, t.cadence.lock))

/-- Section 1.5: the first edge after START_CADENCE is bad, and the next, one period on, is good; a transition
while the latch is set adds nothing (R5). -/
theorem test_seeking_edges :
    edgeOf { standby with cadence := { lockedCadence .seeking with measure := 268435455 } } 1 =
      some (268435455, 0, 1, .seeking) ∧
    edgeOf { standby with cadence := { lockedCadence .seeking with
      counter := 2, measure := 1079999, good := 1 } } 1 = some (1080000, 2, 0, .seeking) ∧
    edgeOf { standby with cadence := { lockedCadence .seeking with
      measure := 268435455, edgeLatch := true } } 3 = some (268435455, 0, 1, .seeking) := by decide

/-- R11 to R13: on the tick after a window's last, the window has closed and the edge lies outside it. -/
theorem test_edge_after_window :
    (nextOf (exec (.refEdge .rising 1) { standby with cadence := { lockedCadence .locked with
        counter := 0, lateOpen := true, lateCount := 2700, measure := 1082700 } })).map
      (fun t => (t.cadence.frameNumber, t.counters.missedWindows, t.cadence.bad, t.cadence.counter)) =
    some (1#32, 1, 1, 1077299) := by decide

/-- R169: the header of a commit in section 10.6 is read from the new anchor, and Engine Status shows ATTACHING. -/
theorem test_commit_reads_header :
    (nextOf (exec (.boardAnchorHigh 1#32)
        { recording with board := { recording.board with staging := 0x40003000#32 } })).map
      (fun t => (t.board.anchor, t.link, t.readRegister 0x018, t.takes.table)) =
    some (0x140003000#64, [.read 0 0x140003000#64 256], 1#32, []) := by decide

/-- R31, R171: a label as the host reads it. -/
theorem test_label_bytes : (Label.mk 23 59 58 24 true).bytes = [24#8, 58#8, 59#8, 0x97#8] := by decide

/-- R48 and R58 of section 3.8: with no FREE slot the frame is lost, with INTAKE_OVERRUN. -/
theorem test_no_slot :
    let s := { recording with intake := { recording.intake with
      slots := List.replicate 3 { state := .heldByLanes, samples := [] } } }
    ((s.intakeFrameStart false).intake.pendingGap, (s.intakeFrameStart false).intake.strobe,
      (s.intakeFrameStart false).faultRecord.cls) = (1, false, some .intakeOverrun) := by decide

/-- R43: line 1 is BAD and takes line 0's samples. -/
theorem test_repair :
    ({ capture with lines := [(0, .good), (1, .bad)] } : Capture).repair [(0, 7#8), (9, 8#8)] =
      [(0, 7#8), (8, 7#8)] := by decide

/-! ### States that meet the hypotheses of the statements, clause by clause -/

theorem witness_StepRunsFrontCommand :
    ({ idle with pending := [.startCadence, .snapshot] } : State).pending = .startCadence :: [.snapshot] := rfl

theorem witness_CommandLeavesQueue : ∃ t, exec (.boardAnchorLow 5#32) idle = .next t := ⟨_, rfl⟩

theorem witness_IdleStepIsOneTick :
    State.reset.pending = [] ∧ State.reset.due = none ∧ standby.pending = [] ∧ standby.due = none := by decide

/-- The late part of a window, one tick before its close; a set latch; and an expiry, a close and nothing due. -/
theorem witness_IdleStepIsOneTick_late :
    let s := onReference .locked
    let t := { s with cadence := { s.cadence with counter := 0, lateOpen := true, lateCount := 2699 } }
    let latched := { s with cadence := { s.cadence with edgeLatch := true } }
    (t.pending = [] ∧ t.due = none ∧ t.cadence.edgeLatch = false) ∧
    (latched.pending = [] ∧ latched.due = none ∧ latched.cadence.edgeLatch = true) ∧
    (standby.expiryDue = false ∧ standby.closeDue = false ∧ standby.boundaryDue = false) ∧
    (let x := { standby with cadence := { standby.cadence with counter := 0 } }
     x.expiryDue = true ∧ x.cadence.active.mode = .free) ∧
    ({ s with cadence := { t.cadence with lateCount := 2700 } } : State).closeDue = true := by decide

theorem witness_RegisterReadValues : 0x01C ≤ 0x01C ∧ 0x01C ≤ 0xFFF := by decide

theorem witness_FaultRecordLatches :
    idle.faultRecord.latch = false ∧
    (idle.reportFault .frameLost 9#32 0#32 0#32).faultRecord.latch = true := by decide

theorem witness_CadenceAfterReset : ∃ t, exec .fundamentalReset recording = .next t := ⟨_, rfl⟩

theorem witness_CommitOfAnchor :
    (∃ d, exec .linkDown recording = .next d) ∧
    (0#32 ++ idle.board.staging : BitVec 64) = 0#64 ∧
    ((0#32 ++ 0x1000#32 : BitVec 64) ≠ 0#64 ∧ (0#32 ++ 0x1000#32 : BitVec 64).toNat % 4096 = 0) ∧
    (0#32 ++ 0x1001#32 : BitVec 64).toNat % 4096 ≠ 0 :=
  ⟨⟨_, rfl⟩, by decide, by decide, by decide⟩

theorem witness_HeaderReadFailures :
    attaching.board.headerRead = some { tag := 0, anchor := 0x10000000#64 } ∧
    leNat (List.take 4 (0x02#8 :: header.drop 1)) ≠ 0x64200A01 := by decide

theorem witness_HeaderReadFailures_abandoned (a : HostAddr) :
    attaching.board.headerRead ≠ some { tag := 1, anchor := a } := by simp [attaching]

theorem witness_AttachSetsUpEngine :
    attaching.board.headerRead = some { tag := 0, anchor := 0x10000000#64 } ∧
    leNat (header.take 4) = 0x64200A01 := by decide

/-- A header that asks for a number of MiB of full area. -/
def headerOf (mib : Nat) : List Byte :=
  [0x01#8, 0x0A#8, 0x20#8, 0x64#8, 0#8, 0#8, 0#8, 0#8] ++ leBytes 4 mib ++ List.replicate 244 0#8

theorem witness_AttachClampsSizes (mib : Nat) : ∃ t, exec (.headerReadDone 0 (some (headerOf mib))) attaching = .next t :=
  ⟨_, rfl⟩

theorem witness_AttachClampsSizes_range :
    leNat ((headerOf 512).take 4) = 0x64200A01 ∧ 512 ≤ fieldAt (headerOf 512) 8 4 ∧
    fieldAt (headerOf 3520) 8 4 ≤ 3520 := by decide

theorem witness_VisitRequestTaken :
    State.reset.board.mode = .detached ∧ attaching.board.mode = .attaching ∧
    (idle.board.mode = .idle ∧ idle.writer.phase = .idle ∧ idle.chain.phase = .idle) ∧
    ((writing .full).board.mode = .recording ∧ (writing .full).writer.phase = .writing ∧
      (visiting (writing .full) (.nextRead 2)).chain.phase ≠ .idle) ∧
    standby.board.mode = .standby ∧ standby.writer.phase = .idle := by decide

/-- A writer that waits for a chunk of each pool, and one BLOCKED with and without its miss in the list. -/
theorem witness_VisitRequestTaken_waits :
    (∀ p ∈ [Pool.full, .proxy, .index],
      let s := { writing .full with
        writer := { (writing .full).writer with phase := .waiting, wait := some (p, .noChunk) } }
      s.board.mode = .recording ∧ s.writer.phase = .waiting ∧ s.writer.wait = some (p, .noChunk) ∧
        WaitCause.noChunk ≠ .translationRead ∧ (s.writer.pool p).attempt = none) ∧
    (let s := { writing .full with writer := { (writing .full).writer with phase := .blocked } }
     let t := fetching { s with aperture := { s.aperture with misses := [{ client := .writer, page := 8 }] } } false
     s.writer.phase = .blocked ∧ (∀ m ∈ s.aperture.misses, m.client ≠ .writer) ∧
      s.aperture.lookup (s.nextAddress / 2097152) = none ∧ s.aperture.fetch = none ∧
      t.writer.phase = .blocked ∧ ∃ m ∈ t.aperture.misses, m.client = .writer) := by decide

/-- An attempt in flight; and a translation read wait whose page hits, and whose page misses behind a fetch. -/
theorem witness_VisitRequestTaken_whole :
    (let s := scanning 2
     let t := { s with writer := { s.writer with phase := .waiting, wait := some (.full, .entryRead) } }
     t.writer.phase = .waiting ∧ t.writer.wait = some (.full, .entryRead) ∧ (t.writer.pool .full).attempt ≠ none) ∧
    (let c : Chunk := { entry := 0, addr := 18874368, take := 7#32, sequence := 0, offset := 0, used := 0 }
     let s := cached (writing .full)
     let t := { s with writer := { s.writer with
       phase := .waiting, wait := some (.full, .translationRead)
       fullPool := { s.writer.fullPool with chunk := some c } } }
     t.writer.phase = .waiting ∧ t.writer.wait = some (.full, .translationRead) ∧
      (∀ m ∈ t.aperture.misses, m.client ≠ .writer) ∧
      t.aperture.lookup (t.nextAddress / 2097152) = some (0, 0x40000000#64)) ∧
    (let t := fetching { writing .full with writer := { (writing .full).writer with phase := .blocked } } false
     t.writer.phase = .blocked ∧ (∀ m ∈ t.aperture.misses, m.client ≠ .writer) ∧
      t.aperture.lookup (t.nextAddress / 2097152) = none ∧ t.aperture.fetch ≠ none) := by decide

/-- Each writer state of the detail byte (also of SNAPSHOT), with and without a pending setting. -/
theorem witness_VisitRequestTaken_fields :
    let w := (writing .full).writer
    let waits : Writer := { w with phase := .waiting, wait := some (.index, .entryRead) }
    let blocks : Writer := { w with
      phase := .blocked, blocked := some { pool := .proxy, offset := 0, page := 8 } }
    idle.cadence.pending = none ∧
    ({ freeCadence with pending := some freeCadence.active } : Cadence).pending = some freeCadence.active ∧
    w.phase = .writing ∧ (waits.phase = .waiting ∧ waits.wait = some (.index, .entryRead)) ∧
    blocks.phase = .blocked ∧ blocks.blocked = some { pool := .proxy, offset := 0, page := 8 } := by decide

theorem witness_DirectivesTurnedAway :
    Instr.snapshot ∈ ([.startCadence, .stopCadence, .closeTake, .snapshot] : List Instr) ∧
    Instr.closeTake ∈ ([.stopCadence, .closeTake] : List Instr) ∧
    State.reset.board.mode = .detached ∧ attaching.board.mode = .attaching ∧ idle.board.mode = .idle := by decide

theorem witness_SnapshotLatches :
    idle.attached = true ∧ idle.notices.snapshotLatch = false ∧
    ({ idle with notices := { idle.notices with snapshotLatch := true } } : State).attached = true ∧
    idle.cadence.pending = none := by decide

/-- The threshold reached, the age reached, and neither. -/
theorem witness_SetNoticeTakesSettings :
    let waiting := { idle with notices := { idle.notices with threshold := 16, fullCount := 1, age := 3 } }
    waiting.attached = true ∧
    max 1 (min 16 (0#8).toNat) ≤
      waiting.notices.fullCount + waiting.notices.proxyCount + waiting.notices.indexCount ∧
    ((3#8 : Byte) ≠ 0#8 ∧ (3#8).toNat ≤ waiting.notices.age) ∧
    ¬ (max 1 (min 16 (255#8).toNat) ≤
        waiting.notices.fullCount + waiting.notices.proxyCount + waiting.notices.indexCount ∨
      ((4#8 : Byte) ≠ 0#8 ∧ (4#8).toNat ≤ waiting.notices.age)) := by decide

theorem witness_StartCadenceStarts :
    (idle.board.mode = .idle ∧ idle.cadence.lock = .unused ∧ idle.cadence.active.mode = .free) ∧
    (let s := { idle with cadence := { idle.cadence with active := { idle.cadence.active with mode := .locked } } }
     s.board.mode = .idle ∧ s.cadence.lock = .unused ∧ s.cadence.active.mode = .locked) ∧
    standby.board.mode = .standby ∧ recording.board.mode = .recording := by decide

theorem recording_takes : recording.TakesLegal where
  room := by decide
  numbered := by decide
  distinct := by decide
  newest := by decide
  drained := by decide
  ending := by intro k h; cases h

theorem standby_takes : standby.TakesLegal where
  room := by decide
  numbered := by decide
  distinct := by decide
  newest := by decide
  drained := by decide
  ending := by intro k h; cases h

/-- With a take OPEN and the lock UNUSED; with none, on a reference, a profile pending or not, the label's counter
held at zero or not. -/
theorem witness_StopCadenceStops :
    (recording.board.mode = .recording ∧ recording.TakesLegal ∧ recording.cadence.lock = .unused ∧
      recording.openTake = some take7 ∧ recording.takes.pendingProfile = none ∧
      recording.following = false) ∧
    (let s := { onReference .locked with takes := { standby.takes with pendingProfile := some Profile.default } }
     let t := { s with timecode := { s.timecode with baseCounter := 0 } }
     s.board.mode = .standby ∧ s.cadence.lock ≠ .unused ∧ s.openTake = none ∧
      s.takes.pendingProfile = some Profile.default ∧ s.timecode.baseCounter ≠ 0 ∧
      t.takes.pendingProfile = some Profile.default ∧ t.following = true ∧ t.timecode.baseCounter = 0) ∧
    (let s := { onReference .locked with timecode := { standby.timecode with baseCounter := 0 } }
     s.takes.pendingProfile = none ∧ s.following = true ∧ s.timecode.baseCounter = 0) :=
  ⟨⟨rfl, recording_takes, by decide, by decide, by decide, by decide⟩, by decide, by decide⟩

theorem witness_SetCadenceTakesSetting :
    idle.attached = true ∧ 1 < (2#8 : Byte).toNat ∧
    (((0#8 : Byte) = 0#8 ∧ CadenceMode.free = .free) ∧ ((1#8 : Byte) = 1#8 ∧ CadenceMode.locked = .locked)) ∧
    (((0#8 : Byte) = 0#8 ∧ Polarity.rising = .rising) ∧ ((1#8 : Byte) = 1#8 ∧ Polarity.falling = .falling)) ∧
    idle.cadence.run = .stopped ∧
    (recording.cadence.run = .running ∧ recording.takeIsOpen = true ∧
      max 225000 (min (2 ^ 40 - 1) (0#64).toNat) ≠ recording.cadence.active.period ∧
      max 225000 (min (2 ^ 40 - 1) (1080000#64).toNat) = recording.cadence.active.period ∧
      CadenceMode.free = recording.cadence.active.mode) ∧
    standby.cadence.run = .running ∧ standby.takeIsOpen = false := by decide

theorem witness_JamTimecodeStages :
    idle.attached = true ∧ 1 < (2#8 : Byte).toNat ∧ ((0#8 : Byte) = 0#8 ∧ JamTarget.free = .free) ∧
    ((1#8 : Byte) = 1#8 ∧ JamTarget.record = .record) := by decide

/-- Parameters with every code at its highest, and the same with the next code above. -/
def params : ProfileParams :=
  { base := 8#8, mode := 1#8, df := 1#8, scale := 1#8, rateF := 0#32, rateP := 0#32, window := 0#8, qminF := 0#8,
    qmaxF := 0#8, startF := 0#8, qminP := 0#8, qmaxP := 0#8, startP := 0#8, patience := 0#8, preroll := 0#16,
    width := 0#16, height := 0#16 }

theorem witness_SetProfileForms :
    idle.attached = true ∧ 8 < ({ params with base := 9#8 } : ProfileParams).base.toNat ∧
    (params.base.toNat ≤ 8 ∧ params.mode.toNat ≤ 1 ∧ params.df.toNat ≤ 1 ∧ params.scale.toNat ≤ 1) ∧
    idle.cadence.run = .stopped ∧ standby.cadence.run = .running := by decide

/-- Recording with take 7 CLOSED, and with more closed takes. -/
def closedTakes (numbers : List Word) : State :=
  { standby with takes := { standby.takes with
      table := numbers.map (fun n => { take7 with number := n, phase := .closed, cause := .host }) } }

theorem witness_OpenTakeRefusals :
    idle.board.mode = .idle ∧ standby.board.mode = .standby ∧ recording.board.mode = .recording ∧
    (∃ r ∈ recording.takes.table, r.phase = .opened) ∧
    ((∀ r ∈ (closedTakes [1#32, 2#32, 3#32, 4#32]).takes.table, r.phase ≠ .opened) ∧
      4 ≤ (closedTakes [1#32, 2#32, 3#32, 4#32]).takes.table.length) ∧
    ((∀ r ∈ (closedTakes [1#32, 2#32, 3#32]).takes.table, r.phase ≠ .opened) ∧
      (closedTakes [1#32, 2#32, 3#32]).takes.table.length < 4 ∧
      (∃ r ∈ (closedTakes [1#32, 2#32, 3#32]).takes.table, r.number = 3#32)) := by decide

theorem witness_OpenTakeRefusals_accepted :
    (8#32 : Word) ≠ 0#32 ∧
    (∀ r ∈ (closedTakes [1#32, 2#32, 3#32]).takes.table, r.phase ≠ .opened ∧ r.number ≠ 8#32) ∧
    (closedTakes [1#32, 2#32, 3#32]).takes.table.length < 4 := by decide

/-- With nothing unbound, and with an unbound pair and an unbound ticket. -/
theorem witness_OpenTakeBinds :
    (standby.board.mode = .standby ∧
      (∀ r ∈ standby.takes.table, r.phase ≠ .opened ∧ r.number ≠ 8#32) ∧ standby.takes.table.length < 4) ∧
    (let s := { closedTakes [7#32] with
      store := { standby.store with list := [{ pair7 with take := 0#32 }] }
      lanes := { standby.lanes with tickets := [{ ticket with take := 0#32 }] } }
     s.board.mode = .standby ∧ (∀ r ∈ s.takes.table, r.phase ≠ .opened ∧ r.number ≠ 8#32) ∧
      s.takes.table.length < 4) := by decide

theorem witness_CloseTakeCloses :
    (standby.board.mode = .standby ∧ standby.openTake = none) ∧
    recording.board.mode = .recording ∧ recording.openTake = some take7 := by decide

theorem witness_MarkStages :
    standby.board.mode = .standby ∧ recording.board.mode = .recording ∧ (1#16 : BitVec 16) ≠ 0#16 ∧
    (0xFFFF#16 : BitVec 16) ≠ 0#16 := by decide

/-- A range of one page at each end of the table, a fetch in it and beside it, and a BLOCKED writer in it. -/
theorem witness_RemapInvalidatesRange :
    2047 < (2048#32 : Word).toNat ∧ (2047#32 : Word).toNat ≤ 2047 ∧ idle.attached = true ∧
    idle.aperture.fetch = none ∧ idle.writer.phase ≠ .blocked ∧
    (fetching idle false).aperture.fetch = some { page := 8, discard := false, tag := 4 } := by decide

theorem witness_RemapInvalidatesRange_blocked :
    let s := fetching { writing .full with
      writer := { (writing .full).writer with
        phase := .blocked, blocked := some { pool := .full, offset := 0, page := 8 } } } false
    let t := { s with aperture := { s.aperture with misses := [{ client := .writer, page := 8 }] } }
    t.attached = true ∧ t.writer.phase = .blocked ∧
    t.writer.blocked = some { pool := .full, offset := 0, page := 8 } ∧
    (∃ m ∈ t.aperture.misses, m.client = .writer) ∧ 3 % 2 = 1 := by decide

/-- A writer BLOCKED on page 8 with no miss of its own, with a fetch in flight for the page and with none. -/
theorem witness_RemapInvalidatesRange_retry :
    let c : Chunk := { entry := 0, addr := 0x1000000, take := 7#32, sequence := 0, offset := 0, used := 0 }
    let x := writing .full
    let s := { x with writer := { x.writer with
      phase := .blocked, blocked := some { pool := .full, offset := 0, page := 8 }
      fullPool := { x.writer.fullPool with chunk := some c } } }
    s.attached = true ∧ s.writer.phase = .blocked ∧
    s.writer.blocked = some { pool := .full, offset := 0, page := 8 } ∧
    (∀ m ∈ s.aperture.misses, m.client ≠ .writer) ∧ s.writer.work = some (workAt .full) ∧
    (s.writer.pool (workAt .full).step.pool).chunk = some c ∧ (c.addr + c.used) / 2097152 = 8 ∧
    s.aperture.fetch = none ∧ (fetching s false).aperture.fetch ≠ none ∧
    (∀ m ∈ (fetching s false).aperture.misses, m.client ≠ .writer) ∧
    ((nextOf (exec (.remapApertures 8#32 1#32) s)).map fun u => (u.writer.phase, u.aperture.fetch.map Fetch.page)) =
      some (.blocked, some 8) := by decide

theorem witness_ProbeReadsCache :
    2047 < (2048#32 : Word).toNat ∧ (2047#32 : Word).toNat ≤ 2047 ∧ (cached idle).attached = true ∧
    (cached idle).aperture.lookup (9#32 : Word).toNat = some (0, 0x40000000#64) ∧
    (cached idle).aperture.lookup (2047#32 : Word).toNat = none := by decide

theorem freeCadence_legal : freeCadence.Legal where
  active := by unfold CadenceSetting.Legal; decide
  pending := by intro x h; cases h
  counter := by decide
  measure := by decide
  counts := by decide
  latch := by decide
  stopped := by decide
  unused := by decide
  late := by decide

theorem lockedCadence_legal : (lockedCadence .locked).Legal where
  active := by unfold CadenceSetting.Legal; decide
  pending := by intro x h; cases h
  counter := by decide
  measure := by decide
  counts := by decide
  latch := by decide
  stopped := by decide
  unused := by decide
  late := by decide

theorem holdoverCadence_legal : (lockedCadence .holdover).Legal where
  active := by unfold CadenceSetting.Legal; decide
  pending := by intro x h; cases h
  counter := by decide
  measure := by decide
  counts := by decide
  latch := by decide
  stopped := by decide
  unused := by decide
  late := by decide

theorem witness_ExpiryMakesFrameStart :
    (idle.cadence.run = .stopped ∧
      ({ lockedCadence .locked with counter := 0, lateOpen := true } : Cadence).lateOpen = true) ∧
    ((onReference .locked).cadence.Legal ∧ (onReference .locked).cadence.run = .running ∧
      (onReference .locked).cadence.lateOpen = false ∧ (onReference .locked).cadence.edgeLatch = false ∧
      (onReference .locked).cadence.active.mode = .locked ∧ (onReference .locked).cadence.lock = .locked) ∧
    (standby.cadence.Legal ∧ standby.cadence.edgeLatch = false ∧ standby.cadence.active.mode = .free ∧
      standby.cadence.pending = none ∧ 1079999 < standby.cadence.active.period ∧
      standby.attached = true ∧ standby.takeIsOpen = false ∧ recording.takeIsOpen = true) ∧
    ((onReference .holdover).cadence.Legal ∧ (onReference .holdover).cadence.lock ≠ .locked ∧
      ({ onReference .holdover with board := Board.reset } : State).attached = false) :=
  ⟨by decide, ⟨lockedCadence_legal, by decide⟩, ⟨freeCadence_legal, by decide⟩, holdoverCadence_legal, by decide⟩

/-- R39, R102, R187: one frame start begins a capture, trims an unbound pair, and ages a chunk not announced. -/
theorem test_frame_start_receivers :
    let s := { standby with
      notices := { standby.notices with threshold := 16, fullCount := 1, age := 3 }
      takes := { standby.takes with profile := { standby.takes.profile with preroll := 0 } }
      store := { standby.store with list := [{ pair7 with take := 0#32 }] } }
    let u := s.frameStart .expiry
    u.intake.capture.isSome = true ∧ u.store.list = [] ∧ u.notices.age = 4 := by decide

/-- An edge one tolerance after the period is the last good one, and a tick later bad. -/
theorem witness_EdgeWhileSeeking :
    let good : Cadence → Prop := fun c =>
      let m := min (c.measure + 1) 268435455
      m < 268435455 ∧ m ≤ c.active.period + c.active.tolerance ∧ c.active.period ≤ m + c.active.tolerance
    (idle.cadence.run = .stopped ∧ standby.cadence.active.mode = .free ∧
      (onReference .seeking).cadence.active.polarity ≠ .falling) ∧
    (let s := onReference .seeking
     s.cadence.run = .running ∧ s.cadence.active.mode = .locked ∧ s.cadence.active.polarity = .rising ∧
      s.cadence.lock = .seeking ∧ s.expiryDue = false ∧ s.boundaryDue = false ∧ s.cadence.lateOpen = false) ∧
    ({ lockedCadence .seeking with edgeLatch := true } : Cadence).edgeLatch = true ∧
    (let c := { lockedCadence .holdover with measure := 1082700 }
     c.lock = .holdover ∧ ¬ good c) ∧
    (let c := { lockedCadence .holdover with measure := 1082699 }
     good c ∧ c.good < 2) ∧
    (let c := { lockedCadence .holdover with measure := 1077299, good := 2 }
     good c ∧ 2 ≤ c.good ∧ c.pending = none) := by decide

/-- The third good edge with a setting pending: held back by a take, and of each row of R3's table. -/
theorem witness_EdgeWhileSeeking_pending :
    let c := { lockedCadence .seeking with measure := 1077299, good := 2 }
    let free : CadenceSetting := { c.active with mode := .free }
    let turned : CadenceSetting := { c.active with polarity := .falling }
    let same : CadenceSetting := { c.active with tolerance := 5 }
    (recording.takeIsOpen = true ∧ free.mode ≠ .locked) ∧ standby.takeIsOpen = false ∧ free.mode = .free ∧
    (turned.mode = .locked ∧ turned.polarity ≠ c.active.polarity) ∧
    (same.mode = .locked ∧ ¬ (same.mode = .locked ∧
      (same.period ≠ c.active.period ∨ same.polarity ≠ c.active.polarity))) ∧
    ({ c with pending := some turned } : Cadence).pending = some turned := by decide

/-- An expiry that is due when the transition comes, and a boundary that is. -/
theorem witness_EdgeWhileSeeking_due :
    (let s := { standby with cadence := { lockedCadence .seeking with counter := 0 } }
     s.expiryDue = true ∧ s.cadence.lock = .seeking) ∧
    (let x := onReference .holdover
     let s := { x with timecode := { x.timecode with baseCounter := 0 } }
     s.expiryDue = false ∧ s.boundaryDue = true ∧ s.cadence.lock = .holdover) := by decide

/-- R10: the third good edge on the tick on which the counter reaches zero makes the one frame start of that tick; any
other good edge leaves the expiry of its tick due (log 43). -/
theorem test_edge_on_expiry :
    let s : Nat → State := fun good =>
      { standby with cadence := { lockedCadence .seeking with measure := 1077299, good := good, counter := 1 } }
    let shown : State → Option (Word × Nat × Bool × LockState) := fun x =>
      (nextOf (exec (.refEdge .rising 1) x)).map (fun t =>
        (t.cadence.frameNumber, t.cadence.counter, t.expiryDue, t.cadence.lock))
    ((s 2).expiryDue = false ∧ (s 2).boundaryDue = false) ∧
    shown (s 2) = some (1#32, 1080000, false, .locked) ∧ shown (s 1) = some (0#32, 0, true, .seeking) := by decide

/-- The edges sampled on the last tick before the window, on its first, on its last, and on the tick after it. -/
theorem witness_EdgeWhileLocked :
    let good : Cadence → Prop := fun c =>
      let m := min (c.measure + 1) 268435455
      m < 268435455 ∧ m ≤ c.active.period + c.active.tolerance ∧ c.active.period ≤ m + c.active.tolerance
    let at_ : Cadence → State := fun c => { standby with cadence := c }
    (let c := { lockedCadence .locked with counter := 2702, bad := 1 }
     c.run = .running ∧ c.active.mode = .locked ∧ c.lock = .locked ∧ c.bad ≤ 1 ∧ c.missed ≤ 1 ∧
      (at_ c).expiryDue = false ∧ (at_ c).boundaryDue = false ∧ c.lateOpen = false ∧
      c.active.tolerance + 1 < c.counter ∧ lockedCadence .locked = { c with counter := 1080000, bad := 0 }) ∧
    (let c := { lockedCadence .locked with counter := 2701, measure := 1077299 }
     (at_ c).expiryDue = false ∧ (at_ c).boundaryDue = false ∧ c.lateOpen = false ∧
      c.counter ≤ c.active.tolerance + 1 ∧ c.pending = none ∧ good c) ∧
    (let c := { lockedCadence .locked with
        counter := 0, lateOpen := true, lateCount := 2699, bad := 1, measure := 1082700 }
     (at_ c).expiryDue = false ∧ c.lateCount < c.active.tolerance ∧ c.bad = 1 ∧ ¬ good c) ∧
    (let c := { lockedCadence .locked with counter := 0, lateOpen := true, lateCount := 2700 }
     (at_ c).closeDue = true ∧ c.pending = none ∧ c.bad = 0 ∧ c.missed = 0) := by decide

/-- The late part at its last tick, before a first missed window. -/
theorem witness_EdgeWhileLocked_closed :
    ({ lockedCadence .locked with counter := 0, lateOpen := true, lateCount := 2700 } : Cadence).Legal where
  active := by unfold CadenceSetting.Legal; decide
  pending := by intro x h; cases h
  counter := by decide
  measure := by decide
  counts := by decide
  latch := by decide
  stopped := by decide
  unused := by decide
  late := by decide

theorem witness_WindowCloseKeepsGrid :
    (idle.cadence.run = .stopped ∧ standby.cadence.active.mode = .free ∧
      (onReference .seeking).cadence.lock ≠ .locked) ∧
    ((onReference .locked).cadence.Legal ∧ (onReference .locked).cadence.run = .running ∧
      (onReference .locked).cadence.active.mode = .locked ∧ (onReference .locked).cadence.lock = .locked ∧
      (onReference .locked).cadence.pending = none ∧ (onReference .locked).cadence.edgeLatch = false ∧
      (onReference .locked).cadence.missed = 0) :=
  ⟨by decide, lockedCadence_legal, by decide⟩

/-- The late part at its last tick, one window missed before it. -/
def lastTick : Cadence :=
  { lockedCadence .locked with counter := 0, lateOpen := true, lateCount := 2700, missed := 1 }

theorem lastTick_legal : lastTick.Legal where
  active := by unfold CadenceSetting.Legal; decide
  pending := by intro x h; cases h
  counter := by decide
  measure := by decide
  counts := by decide
  latch := by decide
  stopped := by decide
  unused := by decide
  late := by decide

theorem witness_WindowCloseKeepsGrid_second :
    lastTick.Legal ∧ lastTick.run = .running ∧ lastTick.active.mode = .locked ∧ lastTick.lock = .locked ∧
    lastTick.pending = none ∧ lastTick.edgeLatch = false ∧ lastTick.missed = 1 :=
  ⟨lastTick_legal, by decide⟩

/-- A setting that waits in a state. -/
def waitingFor (s : State) (x : CadenceSetting) : State :=
  { s with cadence := { s.cadence with pending := some x } }

/-- Each row of R3's table, and the setting an OPEN take holds back. -/
theorem witness_PendingSettingTable :
    let free := freeCadence.active
    let locked := (lockedCadence .locked).active
    (waitingFor recording { free with period := 1080001 }).cadence.pending = some { free with period := 1080001 } ∧
    (waitingFor recording locked).takeIsOpen = true ∧ (waitingFor standby locked).takeIsOpen = false ∧
    { free with period := 1080001 }.period ≠ recording.cadence.active.period ∧
    locked.mode ≠ recording.cadence.active.mode ∧
    (free.period = recording.cadence.active.period ∧ free.mode = recording.cadence.active.mode) ∧
    FrameCause.close ≠ .expiry ∧
    ({ locked with tolerance := 5 }.period = (onReference .locked).cadence.active.period ∧
      { locked with tolerance := 5 }.polarity = (onReference .locked).cadence.active.polarity) ∧
    { locked with polarity := .falling }.polarity ≠ (onReference .locked).cadence.active.polarity := by decide

/-- A label at the end of the day, one whose successor is dropped, and one whose successor is not. -/
theorem witness_LabelIncrement :
    (23 < 24 ∧ 59 < 60 ∧ 59 < 60 ∧ 24 < (baseRate 1).n) ∧
    (let x := (Label.mk 0 0 59 29 true).carry 7
     29 < (baseRate 7).n ∧ x.df = true ∧ x.ss = 0 ∧ x.ff < (baseRate 7).d ∧ x.mm % 10 ≠ 0) ∧
    (let x := (Label.mk 0 9 59 29 true).carry 7
     ¬ (x.df = true ∧ x.ss = 0 ∧ x.ff < (baseRate 7).d ∧ x.mm % 10 ≠ 0)) := by decide

/-- A state with a staged jam. -/
def jammed (target : JamTarget) : State :=
  { standby with timecode := { standby.timecode with jam := some { label := ⟨1, 2, 3, 4, false⟩, target := target } } }

theorem witness_BasePeriodBoundaryTaken :
    ((onReference .locked).cadence.lock = .locked ∧
      (onReference .locked).cadence.active.period = (baseRate (onReference .locked).timecode.base).period) ∧
    (standby.cadence.lock ≠ .locked ∧ standby.cadence.edgeLatch = false ∧ standby.cadence.lateOpen = false ∧
      standby.timecode.baseCounter ≤ standby.cadence.counter ∧ idle.cadence.run = .stopped ∧
      (jammed .free).cadence.lock ≠ .locked ∧
      (jammed .free).timecode.baseCounter ≤ (jammed .free).cadence.counter ∧
      (jammed .free).timecode.jam = some { label := ⟨1, 2, 3, 4, false⟩, target := .free }) := by decide

theorem witness_BasePeriodBoundaryTaken_no_jam (l : Label) :
    standby.timecode.jam ≠ some { label := l, target := .free } ∧
    (jammed .record).timecode.jam ≠ some { label := l, target := .free } := by
  constructor <;> simp [standby, idle, jammed, State.reset, Timecode.reset]

/-- The base-period counter at half of the period of R26, and one tick above it; a profile of the base code and DF
in force, and one of another base code. -/
theorem witness_LabelSteps :
    (jammed .free).timecode.jam = some { label := ⟨1, 2, 3, 4, false⟩, target := .free } ∧
    (jammed .record).timecode.jam = some { label := ⟨1, 2, 3, 4, false⟩, target := .record } ∧
    standby.timecode.jam = none ∧ 2 * 540000 ≤ (baseRate 1).period ∧ (baseRate 1).period < 2 * 540001 ∧
    (Profile.default.base = standby.timecode.base ∧ Profile.default.df = standby.timecode.df) ∧
    ({ Profile.default with base := 8 } : Profile).base ≠ standby.timecode.base := by decide

theorem witness_SensorEvents :
    standby.intake.capture = none ∧ (capturing standby capture).intake.capture = some capture ∧
    capture.phase = .receiving ∧ capture.height ≤ 2 ∧
    ({ capture with phase := .awaitingBegin } : Capture).phase = .awaitingBegin := by decide

/-- Slots in given states. -/
def withSlots (s : State) (xs : List SlotState) : State :=
  { s with intake := { s.intake with slots := xs.map (fun x => { state := x, samples := [] }) } }

/-- Slot 0 free, only slot 2 free, none free with and without a take, and a capture cut. -/
theorem witness_FrameStartAtIntake :
    (standby.intake.capture = none ∧ (standby.intake.slots.map Slot.state)[0]? = some .free) ∧
    (let s := withSlots standby [.heldByLanes, .heldByLanes, .free]
     (s.intake.slots.map Slot.state)[2]? = some .free ∧
      ∀ j < 2, (s.intake.slots.map Slot.state)[j]? ≠ some .free) ∧
    (let s := withSlots recording [.heldByLanes, .heldByLanes, .heldByLanes]
     (∀ x ∈ s.intake.slots, x.state ≠ .free) ∧ s.takeIsOpen = true ∧ s.intake.capture = none) ∧
    (let s := capturing (withSlots recording [.capturing, .free, .free]) capture
     s.intake.capture ≠ none ∧
      ((s.intake.slots.modify capture.slot (fun x => { x with state := .free })).map Slot.state)[0]? =
        some .free ∧ s.takeIsOpen = true ∧
      ∃ x ∈ s.intake.slots.modify capture.slot (fun x => { x with state := .free }), x.state = .free) ∧
    standby.takeIsOpen = false := by decide

/-- The last line of a small frame, with its last sample; and lines on both sides of the end of the slot. -/
theorem witness_LineStored :
    (capturing standby capture).intake.capture = some capture ∧ capture.phase = .receiving ∧
    1 < capture.height ∧ (1 + 1) * capture.width * 2 ≤ 67108864 ∧
    capture.slot < (capturing standby capture).intake.slots.length ∧
    (3 < capture.width ∧ ([1#16, 2#16, 3#16, 4#16] : List (BitVec 16))[3]? = some 4#16) ∧
    (1 * capture.width * 2 + 2 * min 4 capture.width ≤ 16 ∧ 7 < 1 * capture.width * 2) ∧
    (let c := { capture with width := 8192, height := 4097 }
     4096 < c.height ∧ 67108864 < (4096 + 1) * c.width * 2 ∧ (4095 + 1) * c.width * 2 ≤ 67108864) := by decide

/-- Two lines: both faulty is lost, one of two is usable and damaged, none is clean. -/
theorem witness_FrameEndOutcomes :
    let faulty : Capture → Nat := fun c =>
      (c.height - c.lines.length) + (c.lines.filter (fun x => x.2 = .bad)).length
    (capturing recording capture).intake.capture = some capture ∧
    capture.slot < (capturing recording capture).intake.slots.length ∧
    capture.height < 2 * faulty { capture with lines := [(0, .bad)] } ∧
    2 * faulty { capture with lines := [(0, .good)] } ≤ capture.height ∧ faulty capture = 0 ∧
    (recording.takeIsOpen = true ∧ recording.openTakeNumber ≠ 0#32) ∧
    (standby.takeIsOpen = false ∧ standby.takes.profile.preroll = 0) ∧
    (let s := { standby with takes := { standby.takes with profile := { Profile.default with preroll := 1 } } }
     s.takeIsOpen = false ∧ 0 < s.takes.profile.preroll ∧ s.effectiveMode = .freeRun) ∧
    (let s := { standby with timecode := { standby.timecode with mode := .recordRun } }
     s.takeIsOpen = false ∧ s.effectiveMode = .recordRun) := by decide

/-- Three lines of which only the middle one is GOOD: one before it, itself, and one after it. -/
theorem witness_RepairUsesNearestGood :
    let lines : List (Nat × LineMark) := [(0, .bad), (1, .good)]
    (lines.Pairwise (fun x y => x.1 < y.1)) ∧ (∀ x ∈ lines, x.1 < 3) ∧ goodLine lines 1 = true ∧ 7 < 2 * 4 ∧
    (0 < 1 ∧ ∀ g < 1, goodLine lines g = false) ∧ (1 ≤ 1 ∧ 1 ≤ 2) ∧ goodLine lines 2 = false := by decide

theorem witness_FullJobStart :
    let s := laneState [ticket]
    s.lanes.full.phase = .idle ∧ s.lanes.full.job = none ∧ s.lanes.full.queue = 0 :: [] ∧
    s.ticket 0 = some ticket ∧ ticket.take ≠ 0#32 ∧ ticket.hasRecord = false ∧
    (∀ r ∈ s.store.list, r.frame ≠ ticket.frame) ∧ s.store.list.length < 4096 ∧
    0 < min (4 * s.governor.full.target / 256 * 256) 67108864 ∧
    min (4 * s.governor.full.target / 256 * 256) 67108864 ≤ s.store.freeRoom .full := by decide

/-- A list with no room for a record; and a ticket whose record the proxy lane's job start brought. -/
theorem witness_FullJobStart_record :
    (∀ x : PairRecord, x.frame ≠ ticket.frame →
      let y := laneState [ticket]
      let s := { y with store := { y.store with list := List.replicate 4096 x } }
      s.lanes.full.queue = 0 :: [] ∧ s.ticket 0 = some ticket ∧ 4096 ≤ s.store.list.length ∧
      ∀ r ∈ s.store.list, r.frame ≠ ticket.frame) ∧
    (let s := laneState [{ ticket with hasRecord := true }]
     s.lanes.full.phase = .idle ∧ s.lanes.full.job = none ∧ s.lanes.full.queue = 0 :: [] ∧
      s.ticket 0 = some { ticket with hasRecord := true } ∧
      min (4 * s.governor.full.target / 256 * 256) 67108864 ≤ s.store.freeRoom .full ∧
      (s.store.request 0 { frame := 9#32, take := 7#32, lane := .full, bytes := 12000000
                           wantRecord := false }).2 = .granted) := by
  refine ⟨?_, by decide⟩
  intro x hx
  refine ⟨rfl, rfl, ?_, ?_⟩
  · exact Nat.le_of_eq List.length_replicate.symm
  · intro r hr
    rwa [List.eq_of_mem_replicate hr]

/-- A bound request for no record with room and without, and one for a record (R97). -/
theorem witness_FullJobStart_bound :
    let r : Request := { frame := 9#32, take := 7#32, lane := .full, bytes := 256, wantRecord := true }
    r.take ≠ 0#32 ∧ r.bytes ≤ Store.reset.freeRoom r.lane ∧
    Store.reset.freeRoom r.lane < ({ r with bytes := 600000000 } : Request).bytes ∧
    ¬ (r.wantRecord = true ∧ 4096 ≤ Store.reset.list.length) ∧
    ∀ x : PairRecord, 4096 ≤ ({ Store.reset with list := List.replicate 4096 x } : Store).list.length := by
  refine ⟨by decide, by decide, by decide, by decide, ?_⟩
  intro x
  exact Nat.le_of_eq List.length_replicate.symm

/-- One byte less than the cap is free, and two more tickets wait, one of them of the same take. -/
theorem witness_FullJobStart_no_room :
    let x := laneState [ticket, { ticket with slot := 1, take := 6#32 }, { ticket with slot := 2 }]
    let s := { x with store := { x.store with
      fullArea := { size := 536870912, head := 0, tail := 524870913 }
      list := [{ pair7 with frame := 8#32, full := some { start := 0, len := 256 } }] } }
    s.lanes.full.phase = .idle ∧ s.lanes.full.job = none ∧ s.lanes.full.queue = 0 :: [1, 2] ∧
    s.ticket 0 = some ticket ∧ (∀ r ∈ s.store.list, r.frame ≠ ticket.frame) ∧ s.store.list.length < 4096 ∧
    s.store.freeRoom .full + 1 = min (4 * s.governor.full.target / 256 * 256) 67108864 ∧
    [1, 2].find? (fun j => ((s.ticket j).map Ticket.take) = some ticket.take) = some 2 ∧
    (∃ r ∈ s.takes.table, r.number = ticket.take ∧ r.phase = .opened) := by decide

/-- The three answers to an unbound request, and an eviction that lets it in (R98, R99). -/
theorem witness_FullJobStart_request :
    let r : Request := { frame := 9#32, take := 0#32, lane := .full, bytes := 256, wantRecord := true }
    let one : Store := { Store.reset with list := [{ pair7 with take := 0#32 }] }
    r.take = 0#32 ∧ (Store.reset.request 1 r).2 = .granted ∧ (Store.reset.request 0 r).2 = .refused .records ∧
    (Store.reset.request 1 { r with bytes := 600000000 }).2 = .bytesRefused .fullBytes ∧
    (one.request 1 r).2 = .granted ∧ ((one.request 1 r).1.list.map PairRecord.frame) = [9#32] := by decide

/-- An unbound ticket, with a pre-roll of one frame in force and with none. -/
theorem witness_FullJobStart_unbound :
    let x := laneState [{ ticket with take := 0#32 }]
    let r : Request := { frame := 9#32, take := 0#32, lane := .full, bytes := 12000000, wantRecord := true }
    x.lanes.full.phase = .idle ∧ x.lanes.full.job = none ∧ x.lanes.full.queue = 0 :: [] ∧
    x.ticket 0 = some { ticket with take := 0#32 } ∧ (∀ y ∈ x.store.list, y.frame ≠ ticket.frame) ∧
    min (4 * x.governor.full.target / 256 * 256) 67108864 = 12000000 ∧ x.effectiveMode = .freeRun ∧
    (x.store.request (min 1 3584) r).2 = .granted ∧ (x.store.request (min 0 3584) r).2 ≠ .granted := by decide

/-- A ticket that goes with its record: bound, its PRESENT proxy at the tail of the area or between two others; and
unbound. -/
theorem witness_FullJobStart_holding :
    let r : LaneResult := { state := .present, size := 256, q := 24, clipped := false }
    let held : Word → Ticket := fun take =>
      { ticket with take := take, hasRecord := true, proxyResult := some r }
    let own : Word → PairRecord := fun take =>
      { pair7 with take := take, pair := none, full := none, proxy := some { start := 256, len := 256 } }
    let other : Nat → PairRecord := fun n =>
      { pair7 with frame := BitVec.ofNat 32 (50 + n), full := none, proxy := some { start := 256 * n, len := 256 } }
    let state : Word → List PairRecord → State := fun take later =>
      let x := laneState [held take]
      { x with store := { x.store with
        fullArea := { size := 11999999, head := 0, tail := 0 }, list := other 0 :: own take :: later } }
    let request : Word → Request := fun take =>
      { frame := ticket.frame, take := take, lane := .full, bytes := 12000000, wantRecord := false }
    (∀ s ∈ [state 7#32 [], state 7#32 [other 2], state 0#32 []],
      s.lanes.full.phase = .idle ∧ s.lanes.full.job = none ∧ s.lanes.full.queue = 0 :: [] ∧
      min (4 * s.governor.full.target / 256 * 256) 67108864 = 12000000) ∧
    (∀ take ∈ [7#32, 0#32], (state take []).ticket 0 = some (held take) ∧ (held take).hasRecord = true ∧
      ((state take []).store.request 0 (request take)).2 ≠ .granted ∧
      ((state take []).store.request 0 (request take)).1.list = [other 0] ++ own take :: [] ∧
      (own take).frame = (held take).frame ∧ ∀ y ∈ [other 0], y.frame ≠ (held take).frame) ∧
    (state 7#32 [other 2]).store.freeRoom .full < 12000000 ∧
    ((state 7#32 [other 2]).store.request 0 (request 7#32)).1.list = [other 0] ++ own 7#32 :: [other 2] := by
  refine ⟨by decide, ?_, by decide, by decide⟩
  intro take h
  simp only [List.mem_cons, List.not_mem_nil, or_false] at h
  rcases h with rfl | rfl
  · decide
  · decide

/-- A proxy job start, with a proxy quantiser, a pressure and a HELD reference. -/
def proxyState (q pressure : Nat) (held : Word) (tail : Nat) : State :=
  let x := laneState [{ ticket with hasRecord := true }]
  { x with
    store := { x.store with
      pressure := pressure, proxyArea := { size := 67108864, head := 0, tail := tail }
      list := [{ pair7 with pair := none }] }
    governor := { x.governor with proxy := { x.governor.proxy with q := q } }
    lanes := { x.lanes with heldReference := held } }

/-- A of 71 and of 70 with the reference in the take, A of 71 with it elsewhere, and one byte less than the cap. -/
theorem witness_ProxyJobStart :
    let a : State → Nat := fun s => s.governor.proxy.q + 8 * s.store.pressure
    let cap : State → Nat := fun s =>
      min (min (4 * s.governor.proxy.target / 256 * 256) 4194304) s.writer.proxyPool.chunkSize
    (let s := proxyState 47 3 7#32 256
     s.lanes.proxy.phase = .idle ∧ s.lanes.proxy.queue = 0 :: [] ∧
      s.ticket 0 = some { ticket with hasRecord := true } ∧ ticket.take ≠ 0#32 ∧ ticket.fullResult = none ∧
      70 < a s ∧ s.lanes.heldReference = ticket.take) ∧
    (a (proxyState 46 3 7#32 256) ≤ 70 ∧ 0 < cap (proxyState 46 3 7#32 256) ∧
      cap (proxyState 46 3 7#32 256) ≤ (proxyState 46 3 7#32 256).store.freeRoom .proxy) ∧
    (proxyState 47 3 6#32 256).lanes.heldReference ≠ ticket.take ∧
    (proxyState 46 3 7#32 66908929).store.freeRoom .proxy + 1 = cap (proxyState 46 3 7#32 66908929) := by decide

/-- Proxy tickets with no record: unbound ones within the pre-roll, past it, and with too many bytes live; and a bound
one, its reference held. -/
theorem witness_ProxyJobStart_request :
    let state : Word → State := fun take => laneState [{ ticket with take := take }]
    let asks : Word → Nat → Request := fun take bytes =>
      { frame := 9#32, take := take, lane := .proxy, bytes := bytes, wantRecord := true }
    (∀ take ∈ [0#32, 7#32], (state take).lanes.proxy.phase = .idle ∧
      (state take).lanes.proxy.queue = 0 :: [] ∧
      (state take).ticket 0 = some { ticket with take := take } ∧ ticket.fullResult = none) ∧
    ((state 0#32).store.request 1 (asks 0#32 200704)).2 = .granted ∧
    ((state 0#32).store.request 0 (asks 0#32 200704)).2 = .refused .records ∧
    ((state 0#32).store.request 1 (asks 0#32 67108864)).2 = .bytesRefused .proxyBytes ∧
    ((state 7#32).store.request 0 (asks 7#32 0)).2 = .granted := by
  refine ⟨?_, by decide, by decide, by decide, by decide⟩
  intro take _
  exact ⟨rfl, rfl, rfl, rfl⟩

/-- A ticket whose full result is there, its proxy HELD or ABSENT the second completion. -/
theorem witness_ProxyJobStart_commits :
    let f : LaneResult := { state := .present, size := 256, q := 20, clipped := false }
    let x := proxyState 47 3 7#32 256
    let u : Ticket := { ticket with hasRecord := true, fullResult := some f }
    let s := { x with lanes := { x.lanes with tickets := [u] } }
    s.lanes.proxy.phase = .idle ∧ s.lanes.proxy.queue = 0 :: [] ∧ s.ticket 0 = some u ∧ u.fullResult = some f ∧
    (70 < 47 + 8 * 3 ∧ u.take ≠ 0#32 ∧ s.lanes.heldReference = u.take) ∧
    (s.store.request 0 { frame := 9#32, take := 7#32, lane := .proxy, bytes := 0, wantRecord := false }).2 =
      .granted ∧
    (s.store.request 0
      { frame := 9#32, take := 7#32, lane := .proxy, bytes := 67108864, wantRecord := false }).2 =
      .bytesRefused .proxyBytes ∧
    (nextOf (exec (.jobStart .proxy) s)).map (fun t =>
      (t.lanes.tickets, t.counters.held, t.lanes.proxy.queue, t.intake.slots.map Slot.state)) =
      some ([], 1, [], [.free, .free, .free]) := by decide

/-- The first pass and the retry, at the cap and one byte above it. -/
theorem witness_PassEnds :
    (let s := encoding .pass1 { ticket with hasRecord := true }
     (s.lanes.lane .full).job = some job ∧ job.tag = 5 ∧ (s.lanes.lane .full).phase = .pass1 ∧
      s.ticket job.slot = some { ticket with hasRecord := true } ∧
      ({ ticket with hasRecord := true } : Ticket).result (otherLane .full) = none) ∧
    (let s := encoding .pass2 { ticket with hasRecord := true }
     (s.lanes.lane .full).job = some job ∧ (s.lanes.lane .full).phase = .pass2) ∧
    ((1 + 255) / 256 * 256 ≤ job.cap ∧ (12000000 + 255) / 256 * 256 ≤ job.cap ∧
      job.cap < (12000001 + 255) / 256 * 256 ∧ job.q < 63) := by decide

theorem witness_PassEnds_coarsest :
    let s := encoding .pass1 { ticket with hasRecord := true }
    let j := { job with q := 63 }
    let t := { s with lanes := s.lanes.setLane .full { s.lanes.full with job := some j } }
    (t.lanes.lane .full).job = some j ∧ 63 ≤ j.q ∧ t.ticket j.slot = some { ticket with hasRecord := true } := by
  decide

/-- The record of the ticket, with its reservation, at the end of the list and ahead of another full extent. -/
theorem witness_PassEnds_returns :
    let own : PairRecord := { pair7 with pair := none, full := some { start := 0, len := 12000000 } }
    let later : PairRecord := { pair7 with frame := 50#32, full := some { start := 12000000, len := 256 } }
    let state : List PairRecord → State := fun l =>
      let x := encoding .pass1 { ticket with hasRecord := true }
      { x with store := { x.store with list := l } }
    (state [own]).store.list = [] ++ own :: [] ∧ (state [own, later]).store.list = [] ++ own :: [later] ∧
    own.frame = ticket.frame ∧ own.extent .full = some { start := 0, len := 12000000 } ∧
    (∀ y ∈ ([] : List PairRecord), y.extent .full = none) ∧ (∃ y ∈ [later], y.extent .full ≠ none) ∧
    ((nextOf (exec (.pass1End .full 5 1000) (state [own]))).map fun u => u.store.fullArea.tail) =
      some 1024 := by decide

theorem witness_PassEnds_abandoned :
    (∀ j, (standby.lanes.lane .full).job = some j → j.tag ≠ 5) ∧
    (∀ j, ((encoding .pass1 ticket).lanes.lane .full).job = some j → j.tag ≠ 6) := by
  constructor
  · intro j h; cases h
  · intro j h; cases h; decide

theorem witness_PairCommits :
    let other : LaneResult := { state := .present, size := 256, q := 24, clipped := false }
    let t : Ticket := { ticket with hasRecord := true, proxyResult := some other }
    let s := encoding .pass1 t
    (s.lanes.lane .full).job = some job ∧ (s.lanes.lane .full).phase = .pass1 ∧ s.ticket job.slot = some t ∧
    t.result (otherLane .full) = some other ∧ (12000000 + 255) / 256 * 256 ≤ job.cap := by decide

/-- The retry, within the cap and one byte above it; a first pass at the coarsest quantiser; and the record's take. -/
theorem witness_PairCommits_clips :
    let other : LaneResult := { state := .present, size := 256, q := 24, clipped := false }
    let t : Ticket := { ticket with hasRecord := true, proxyResult := some other }
    let s := encoding .pass2 t
    let own : PairRecord := { pair7 with pair := none }
    ((s.lanes.lane .full).job = some job ∧ (s.lanes.lane .full).phase = .pass2 ∧ s.ticket job.slot = some t) ∧
    (12000000 + 255) / 256 * 256 ≤ job.cap ∧ job.cap < (12000001 + 255) / 256 * 256 ∧
    63 ≤ ({ job with q := 63 } : Job).q ∧ (∀ x ∈ [own], x.frame = t.frame → x.take = t.take) ∧
    own.extent .full = some { start := 0, len := 256 } := by decide

/-- Each step of R79 at its bounds, for a capacity of 48,000,000; and a stream within its limits. -/
theorem witness_GovernorUpdate :
    (2 * (-24000001 : Int) < -48000000) ∧ ((-48000000 : Int) ≤ 2 * -24000000 ∧ 8 * (-6000001 : Int) < -48000000) ∧
    ((-48000000 : Int) ≤ 8 * -6000000 ∧ 8 * (6000000 : Int) ≤ 48000000) ∧
    ((48000000 : Int) < 8 * 6000001 ∧ 2 * (24000000 : Int) ≤ 48000000) ∧ (48000000 : Int) < 2 * 24000001 := by
  decide

theorem witness_GovernorUpdate_legal : (fullStream 48000000 8).Legal ∧ (fullStream (-48000000) 40).Legal :=
  ⟨⟨by decide, by decide, by decide, by decide⟩, ⟨by decide, by decide, by decide, by decide⟩⟩

theorem witness_PressureLevels :
    let r : Request := { frame := 9#32, take := 7#32, lane := .full, bytes := 256, wantRecord := true }
    r.take ≠ 0#32 ∧ (Store.reset.requestBound r).2 = .granted ∧
    (∃ r ∈ (writing .full).store.list, r.frame = 9#32) := by decide

/-- A store one record above its limit, whose head can leave; and its limit met. -/
theorem witness_TrimEvictsHeads :
    let st : Store := { Store.reset with list := [{ pair7 with take := 0#32 }, { pair7 with frame := 10#32 }] }
    (0 < (st.list.filter (fun r => r.take = 0#32)).length) ∧
    (∃ r rest, st.list = r :: rest ∧ r.take = 0#32 ∧ r.pair ≠ none) ∧ (st.trim 0).list = st.list.drop 1 ∧
    (st.trim 1).list = st.list :=
  ⟨by decide, ⟨_, _, rfl, by decide, by decide⟩, by decide, by decide⟩

theorem witness_PressureLevels_not_refused (k : Lack) : Verdict.granted ≠ .refused k := by intro h; cases h

/-- The writer without work: nothing there; an ended take without a pair; a first pair, and a later one. -/
theorem witness_WriterStartsWork :
    (standby.writer.work = none ∧ standby.attached = true ∧ standby.takes.table = [] ∧ standby.store.list = []) ∧
    ((writing .full).writer.work ≠ none ∧ State.reset.attached = false) ∧
    (let k := { take7 with phase := .closed, drained := true }
     let s := { recording with takes := { recording.takes with table := [k] } }
     s.writer.work = none ∧ s.attached = true ∧ s.takes.table = k :: [] ∧ k.drained = true ∧
      k.headerWritten = false ∧ s.writer.indexPool.chunk = none ∧ s.writer.indexPool.attempt = none) ∧
    (let s := { recording with store := { recording.store with list := [pair7] } }
     s.writer.work = none ∧ s.takes.table = take7 :: [] ∧ take7.drained = false ∧ s.store.list = pair7 :: [] ∧
      pair7.pair = some pairData ∧ pair7.take = take7.number ∧ take7.number ≠ 0#32 ∧
      take7.headerWritten = false ∧ s.writer.indexPool.chunk = none ∧ s.writer.indexPool.attempt = none ∧
      s.writer.fullPool.chunk = none ∧ s.writer.fullPool.attempt = none ∧
      pair7.full = some { start := 0, len := 256 } ∧ 0 < 256) ∧
    ({ take7 with headerWritten := true } : TakeRecord).headerWritten = true := by decide

/-- Nothing to do with a take and a head pair that are there: the pair not committed, or not bound; a picture with a
chunk held that has room or has none, its page known, missing, or in fetch; and an ended take whose header is written. -/
theorem witness_WriterStartsWork_more :
    let t : TakeRecord := { take7 with headerWritten := true }
    let withTake : TakeRecord → List PairRecord → State := fun k l =>
      { recording with takes := { recording.takes with table := [k] }, store := { recording.store with list := l } }
    let c : Chunk := { entry := 0, addr := 0x1200000, take := 7#32, sequence := 0, offset := 0, used := 0 }
    let s := cached (withTake t [pair7])
    let ended : TakeRecord := { t with phase := .closed, drained := true }
    (∀ r ∈ [{ pair7 with pair := none }, { pair7 with take := 0#32 }],
      (withTake t [r]).writer.work = none ∧ (withTake t [r]).attached = true ∧
      ((withTake t [r]).takes.table.head?.map TakeRecord.drained) = some false ∧
      (withTake t [r]).store.list.head? = some r ∧ (r.pair = none ∨ r.take = 0#32)) ∧
    (s.writer.work = none ∧ s.attached = true ∧ s.takes.table = t :: [] ∧ t.drained = false ∧
      s.store.list = pair7 :: [] ∧ pair7.full = some { start := 0, len := 256 } ∧
      c.used < s.writer.fullPool.chunkSize ∧ s.aperture.fetch = none ∧ s.writer.fullPool.attempt = none ∧
      s.aperture.lookup ((c.addr + c.used) / 2097152) = some (0, 0x40000000#64) ∧
      s.aperture.lookup ((0x1400000 + c.used) / 2097152) = none ∧ (fetching s false).aperture.fetch ≠ none ∧
      s.writer.fullPool.chunkSize ≤ ({ c with used := 4194304 } : Chunk).used ∧
      ({ s.writer.fullPool with chunk := some c } : PoolState).chunk = some c) ∧
    ((withTake ended []).takes.table = ended :: [] ∧ ended.drained = true ∧ ended.headerWritten = true ∧
      (withTake ended []).writer.work = none ∧ (withTake ended []).attached = true ∧
      (withTake ended []).writer.proxyPool.attempt = none) ∧
    ({ recording.writer.proxyPool with attempt := some { tag := 3, entry := 0, left := 2 } } : PoolState).attempt
      ≠ none := by decide

/-- Work whose record is written, and the end of a take before its closes and after its trailer, with an attempt
in flight and with none. -/
theorem witness_WriterStartsWork_steps :
    let k := { workAt .entry with written := 64 }
    let x := (writing .entry).writer
    let w := { x with proxyPool := { x.proxyPool with attempt := some { tag := 3, entry := 0, left := 2 } } }
    let s := { writing .entry with writer := w }
    64 ≤ k.written ∧ k.closed = false ∧ ({ k with closed := true } : Work).closed = true ∧
    (writing .entry).writer.proxyPool.attempt = none ∧ s.writer.proxyPool.attempt ≠ none := by decide

/-- The proxy step (R136, R142): HELD, PRESENT, PRESENT while SUSPENDED, and a chunk with a byte too few. -/
theorem witness_WriterStartsWork_proxy :
    let s := writing .proxy
    let c : Chunk := { entry := 0, addr := 0x1200000, take := 7#32, sequence := 0, offset := 0, used := 2096897 }
    ({ pairData with proxyState := .held } : PairData).proxyState ≠ .present ∧
    pairData.proxyState = .present ∧ pair7.proxy = some { start := 0, len := 256 } ∧
    (workAt .proxy).written = 0 ∧ s.writer.suspended = false ∧
    ({ s.writer with suspended := true } : Writer).suspended = true ∧ s.writer.proxyPool.chunk = none ∧
    ¬ (c.used + 256 ≤ s.writer.proxyPool.chunkSize) ∧ 2096896 + 256 ≤ s.writer.proxyPool.chunkSize ∧
    0 < ({ workAt .proxy with written := 255 } : Work).written ∧ s.writer.work = some (workAt .proxy) ∧
    s.takes.table = take7 :: [] ∧ s.store.list = pair7 :: [] ∧ pair7.pair = some pairData ∧
    pair7.take ≠ 0#32 ∧ (workAt .proxy).ending = false := by decide

/-- R136, R142: a proxy picture is placed in its chunk, and is recorded ABSENT while SUSPENDED is set. -/
theorem test_proxy_step :
    let c : Chunk := { entry := 0, addr := 0x1200000, take := 7#32, sequence := 0, offset := 0, used := 512 }
    let x := cached (writing .proxy)
    let state : Bool → State := fun b => { x with writer := { x.writer with
      suspended := b, proxyPool := { x.writer.proxyPool with chunk := some c } } }
    ((state false).work.link.drop x.link.length)[0]? = some (.payload 0x40000200#64 .proxy 0 256) ∧
    (state false).work.writer.proxyPool.chunk = some { c with used := 768 } ∧
    (state false).work.writer.work.map (fun k => (k.proxyState, k.proxyOffset)) = some (.present, 512) ∧
    (state true).work.writer.proxyPool.chunk = some c ∧
    (state true).work.writer.work.map Work.proxyState = some .absent := by decide

/-- R121, R122 and R126: the first bytes of the three index records. -/
theorem test_index_records :
    take7.headerBytes.take 8 = [1#8, 1#8, 0#8, 1#8, 7#8, 0#8, 0#8, 0#8] ∧
    ((pairEntry pair7 pairData (workAt .entry) 5).bytes.take 12 =
      [2#8, 0#8, 0#8, 0#8, 5#8, 0#8, 0#8, 0#8, 9#8, 0#8, 0#8, 0#8]) ∧
    take7.trailerBytes.take 8 = [3#8, 0#8, 0#8, 0#8, 7#8, 0#8, 0#8, 0#8] := by decide

/-- A scan at its last entry and before it; entries passed over, rejected at each bound, and taken. -/
theorem witness_ChunkEntryRead :
    ((scanning 1).writer.pool .full).attempt = some { tag := 3, entry := 1, left := 1 } ∧
    ((scanning 2).writer.pool .full).attempt = some { tag := 3, entry := 1, left := 2 } ∧
    (scanning 1).writer.suspended = false ∧ (scanning 1).writer.patienceOut = false ∧ 1 ≤ 1 ∧ 1 < 2 ∧
    fieldAt (entry 0 3#8) 4 1 ≠ 1 ∧
    (fieldAt (entry 2097151 1#8) 4 1 = 1 ∧ fieldAt (entry 2097151 1#8) 0 4 % 2097152 ≠ 0) ∧
    (4294967296 < fieldAt (entry 4292870144 1#8) 0 4 + ((scanning 2).writer.pool .full).chunkSize) ∧
    (fieldAt (entry 4290772992 1#8) 0 4 % 2097152 = 0 ∧
      fieldAt (entry 4290772992 1#8) 0 4 + ((scanning 2).writer.pool .full).chunkSize ≤ 4294967296) := by decide

theorem witness_ChunkEntryRead_tags :
    (∀ p a, (standby.writer.pool p).attempt = some a → a.tag ≠ 3) ∧
    (∀ q b, q ≠ .full → ((scanning 2).writer.pool q).attempt = some b → b.tag ≠ 3) := by
  constructor
  · intro p a h; cases p <;> cases h
  · intro q b hq h; cases q
    · exact absurd rfl hq
    · cases h
    · cases h

/-- A suspension attempt that succeeds with no work in hand. -/
theorem witness_ChunkEntryRead_suspended :
    let s := { standby with writer := { standby.writer with
      suspended := true
      proxyPool := { standby.writer.proxyPool with attempt := some { tag := 3, entry := 0, left := 2 } } } }
    (s.writer.pool .proxy).attempt = some { tag := 3, entry := 0, left := 2 } ∧ s.writer.suspended = true ∧
    s.writer.work = none ∧ fieldAt (entry 0 1#8) 4 1 = 1 ∧
    fieldAt (entry 0 1#8) 0 4 + (s.writer.pool .proxy).chunkSize ≤ 4294967296 := by decide

/-- A suspended writer: its FULL scan, and its suspension attempt, with a picture in hand and with an ending take that
waits for the attempt. -/
theorem witness_ChunkEntryRead_beside :
    let suspended : State → State := fun x => { x with writer := { x.writer with
      suspended := true
      proxyPool := { x.writer.proxyPool with attempt := some { tag := 8, entry := 0, left := 1 } } } }
    let ending : Work := Work.fresh true .trailer 0#32
    let ends : State := suspended { writing .full with writer := { (writing .full).writer with work := some ending } }
    ((suspended (scanning 1)).writer.suspended = true ∧ Pool.full ≠ .proxy ∧
      ((suspended (scanning 1)).writer.pool .full).attempt = some { tag := 3, entry := 1, left := 1 }) ∧
    (ends.writer.suspended = true ∧ ends.writer.work = some ending ∧ ending.closed = false ∧
      (ends.writer.pool .proxy).attempt = some { tag := 8, entry := 0, left := 1 }) ∧
    ((nextOf (exec (.chunkEntryReadDone 8 (some (entry 0 3#8))) (suspended (writing .full)))).map
      (fun t => (t.writer.phase, t.writer.wait, t.writer.suspended, t.link.length))) =
      some (.writing, none, true, 0) := by decide

/-- A scan of a suspended writer that fails; and an entry on a page the cache holds, with a picture to write. -/
theorem witness_ChunkEntryRead_goesOn :
    (let s := { standby with writer := { standby.writer with
        suspended := true
        proxyPool := { standby.writer.proxyPool with attempt := some { tag := 3, entry := 0, left := 1 } } } }
     s.writer.suspended = true ∧ s.writer.work = none ∧ fieldAt (entry 0 3#8) 4 1 ≠ 1 ∧
      (s.writer.pool .proxy).attempt = some { tag := 3, entry := 0, left := 1 }) ∧
    (let s := cached (scanning 2)
     s.writer.work = some (workAt .full) ∧ (workAt .full).ending = false ∧ (workAt .full).step = .full ∧
      (workAt .full).page = none ∧ (workAt .full).written < 256 ∧ s.takes.table = take7 :: [] ∧
      s.store.list = pair7 :: [] ∧ pair7.pair = some pairData ∧ pair7.take ≠ 0#32 ∧
      pair7.full = some { start := 0, len := 256 } ∧ 0 < (s.writer.pool .full).chunkSize ∧
      fieldAt (entry 18874368 1#8) 4 1 = 1 ∧ fieldAt (entry 18874368 1#8) 0 4 % 2097152 = 0 ∧
      fieldAt (entry 18874368 1#8) 0 4 + (s.writer.pool .full).chunkSize ≤ 4294967296 ∧
      s.aperture.lookup (fieldAt (entry 18874368 1#8) 0 4 / 2097152) = some (0, 0x40000000#64)) := by decide

/-- R151: a step that goes on into a new chunk on the page of the byte before keeps its translation; on another page
it asks. The picture is at byte 100 of 256, the cache is empty. -/
theorem test_page_held_into_new_chunk :
    let state : Nat → State := fun page =>
      let x := scanning 2
      { x with writer := { x.writer with
        work := some { workAt .full with written := 100, page := some (page, 0x70000000#64) } } }
    ((nextOf (exec (.chunkEntryReadDone 3 (some (entry 18874368 1#8))) (state 9))).map fun u =>
      ((u.link.drop (state 9).link.length)[1]?, u.aperture.fetch.isSome)) =
      some (some (.payload 0x70000000#64 .full 100 156), false) ∧
    ((nextOf (exec (.chunkEntryReadDone 3 (some (entry 18874368 1#8))) (state 8))).map fun u =>
      u.aperture.fetch.map Fetch.page) = some (some 9) := by decide

/-- A chunk with a byte left and a full one; its page held, known or missing, with and without a fetch. -/
theorem witness_ChunkEntryRead_places :
    let c : Chunk :=
      { entry := 0, addr := 0x1200000, take := 7#32, sequence := 0, offset := 0, used := 4194303 }
    let s := cached (writing .full)
    let x := { s.writer.fullPool with chunk := some c }
    x.chunk = some c ∧ c.used < x.chunkSize ∧ x.chunkSize ≤ ({ c with used := 4194304 } : Chunk).used ∧
    s.writer.fullPool.chunk = none ∧ (workAt .full).page = none ∧
    s.aperture.lookup ((c.addr + 0) / 2097152) = some (0, 0x40000000#64) ∧
    s.aperture.lookup ((c.addr + c.used) / 2097152) = none ∧ s.aperture.fetch = none ∧
    (fetching s false).aperture.fetch ≠ none ∧
    ({ workAt .full with page := some (10, 0x40000000#64) } : Work).page =
      some ((c.addr + c.used) / 2097152, 0x40000000#64) := by decide

/-- The writer waiting for a PROXY chunk at the patience, or below it. -/
def waitingProxy (count : Nat) : State :=
  let s := writing .proxy
  { s with writer := { s.writer with phase := .waiting, wait := some (.proxy, .noChunk), proxyWait := count } }

/-- The patience reached, and one below it; the age limit reached, and one below it. -/
theorem witness_PatienceAndAge :
    (let s := waitingProxy 8
     s.writer.wait = some (.proxy, .noChunk) ∧ WaitCause.noChunk ≠ .translationRead ∧
      s.writer.proxyPool.attempt = none ∧ s.takes.profile.patience ≤ s.writer.proxyWait ∧
      s.writer.work = some (workAt .proxy) ∧ (workAt .proxy).ending = false ∧ s.takes.table ≠ [] ∧
      s.store.list = pair7 :: [] ∧ pair7.pair = some pairData ∧ pair7.take ≠ 0#32 ∧
      s.writer.indexPool.chunk = none ∧ s.writer.indexPool.attempt = none) ∧
    (waitingProxy 7).writer.proxyWait < (waitingProxy 7).takes.profile.patience ∧
    (let n := { idle.notices with threshold := 16, fullCount := 1, age := 3, ageLimit := 3 }
     0 < n.fullCount + n.proxyCount + n.indexCount ∧ n.ageLimit ≠ 0 ∧ n.ageLimit ≤ n.age ∧
      ({ n with age := 2 } : Notices).age < n.ageLimit) ∧
    idle.notices.fullCount + idle.notices.proxyCount + idle.notices.indexCount = 0 := by decide

/-- Frame starts: a FULL wait; a PROXY wait below the patience, at it, and at it with an attempt in flight; a
translation's wait with its page known; a SUSPENDED writer; and an attempt that ends with the patience out. -/
theorem witness_PatienceAndAge_frameStart :
    let s := writing .full
    let a : Attempt := { tag := 3, entry := 1, left := 1 }
    let c : Chunk := { entry := 0, addr := 0x1200000, take := 7#32, sequence := 0, offset := 0, used := 0 }
    (s.writer.phase ≠ .waiting ∧ (waitingProxy 6).writer.phase = .waiting ∧
      (waitingProxy 6).writer.wait = some (.proxy, .noChunk) ∧ Pool.full ≠ .proxy) ∧
    (min 255 ((waitingProxy 6).writer.proxyWait + 1) < (waitingProxy 6).takes.profile.patience ∧
      (waitingProxy 7).takes.profile.patience ≤ min 255 ((waitingProxy 7).writer.proxyWait + 1) ∧
      (waitingProxy 7).writer.proxyPool.attempt = none ∧
      ({ s.writer.proxyPool with attempt := some a } : PoolState).attempt ≠ none) ∧
    ((cached s).writer.work = some (workAt .full) ∧ (cached s).aperture.misses = [] ∧
      (cached s).aperture.lookup ((c.addr + c.used) / 2097152) = some (0, 0x40000000#64) ∧
      s.aperture.lookup ((c.addr + c.used) / 2097152) = none ∧ s.aperture.fetch = none ∧
      (fetching s false).aperture.fetch ≠ none) ∧
    (let x := waitingProxy 9
     let t := { x with writer := { x.writer with
       patienceOut := true, proxyPool := { x.writer.proxyPool with attempt := some a } } }
     t.writer.proxyPool.attempt = some a ∧ a.tag = 3 ∧ t.writer.suspended = false ∧
      t.writer.patienceOut = true ∧ fieldAt (entry 0 3#8) 4 1 ≠ 1 ∧ a.left ≤ 1 ∧
      fieldAt (entry 2097151 1#8) 4 1 = 1 ∧ fieldAt (entry 2097151 1#8) 0 4 % 2097152 ≠ 0) ∧
    (let n := { idle.notices with threshold := 16, fullCount := 1, age := 2, ageLimit := 3 }
     0 < n.fullCount + n.proxyCount + n.indexCount ∧ n.ageLimit ≠ 0 ∧ n.ageLimit ≤ min 4294967295 (n.age + 1) ∧
      min 4294967295 (({ n with age := 1 } : Notices).age + 1) < n.ageLimit) := by decide

theorem witness_PatienceAndAge_tags :
    (∀ q b, q ≠ .proxy → ((waitingProxy 9).writer.pool q).attempt = some b → b.tag ≠ 3) ∧
    (∀ m ∈ (writing .full).aperture.misses, m.client ≠ .writer) ∧
    ∃ m ∈ [({ client := .writer, page := 8 } : Miss)], m.client = .writer := by
  refine ⟨?_, ?_, ⟨_, List.mem_cons_self, rfl⟩⟩
  · intro q b hq h; cases q <;> cases h
  · intro m hm; cases hm

/-- R141, R143: the count moves and an attempt begins; at the patience SUSPENDED is set; then an attempt runs beside
the work. -/
theorem test_proxy_patience :
    ((waitingProxy 6).writerFrameStart.writer.proxyWait = 7 ∧
      (waitingProxy 6).writerFrameStart.writer.proxyPool.attempt.isSome = true) ∧
    ((waitingProxy 7).writerFrameStart.writer.suspended = true ∧
      (waitingProxy 7).writerFrameStart.writer.proxyPool.attempt = none ∧
      (waitingProxy 7).writerFrameStart.writerFrameStart.writer.proxyPool.attempt.isSome = true) := by decide

theorem reset_cache : State.reset.cacheLegal := by
  refine ⟨rfl, ?_⟩
  intro c hc
  have : c = CacheSet.reset := List.eq_of_mem_replicate hc
  subst this
  decide

theorem witness_ApertureFetch :
    (let s := fetching recording true
     s.aperture.fetch = some { page := 8, discard := true, tag := 4 }) ∧
    (let s := fetching recording false
     s.aperture.fetch = some { page := 8, discard := false, tag := 4 } ∧ s.cacheLegal) ∧
    (BitVec.ofNat 64 (fieldAt (leBytes 8 0x40000001) 0 8)).getLsbD 0 = true :=
  ⟨rfl, ⟨rfl, reset_cache⟩, by decide⟩

theorem witness_ApertureFetch_abandoned (f : Fetch) (h : standby.aperture.fetch = some f) : f.tag ≠ 4 := by
  cases h

theorem witness_ApertureFetch_invalid :
    let c : Chunk := { entry := 0, addr := 0x1000000, take := 7#32, sequence := 0, offset := 0, used := 0 }
    let x := fetching (writing .full) false
    let s := { x with
      aperture := { x.aperture with misses := [{ client := .writer, page := 8 }] }
      writer := { x.writer with fullPool := { x.writer.fullPool with chunk := some c } } }
    s.aperture.fetch = some { page := 8, discard := false, tag := 4 } ∧
    (BitVec.ofNat 64 (fieldAt (leBytes 8 0x40000000) 0 8)).getLsbD 0 = false ∧
    s.aperture.misses = [{ client := .writer, page := 8 }] ∧ s.writer.phase = .writing ∧
    s.writer.work = some (workAt .full) ∧ (workAt .full).ending = false ∧
    (s.writer.pool (workAt .full).step.pool).chunk = some c := by decide

/-- A BLOCKED writer whose retry waits, its miss the only one. -/
theorem witness_ApertureFetch_blocked :
    let x := fetching (writing .full) false
    let s := { x with
      aperture := { x.aperture with misses := [{ client := .writer, page := 8 }] }
      writer := { x.writer with phase := .blocked, blocked := some { pool := .full, offset := 0, page := 8 } } }
    s.aperture.fetch = some { page := 8, discard := false, tag := 4 } ∧
    s.aperture.misses = [{ client := .writer, page := 8 }] ∧ s.writer.phase = .blocked ∧
    (BitVec.ofNat 64 (fieldAt (leBytes 8 0x40000000) 0 8)).getLsbD 0 = false := by decide

/-- The writer of a full picture waits for the page of its next byte, its miss the only one. -/
theorem witness_ApertureFetch_goesOn :
    let c : Chunk := { entry := 0, addr := 0x1000000, take := 7#32, sequence := 0, offset := 0, used := 0 }
    let x := fetching (writing .full) false
    let s := { x with
      aperture := { x.aperture with misses := [{ client := .writer, page := 8 }] }
      writer := { x.writer with fullPool := { x.writer.fullPool with chunk := some c } } }
    s.cacheLegal ∧ (s.aperture.misses = [{ client := .writer, page := 8 }] ∧
      s.writer.work = some (workAt .full) ∧ (workAt .full).ending = false ∧ (workAt .full).step = .full ∧
      (workAt .full).written < 256 ∧ s.takes.table = take7 :: [] ∧ s.store.list = pair7 :: [] ∧
      pair7.pair = some pairData ∧ pair7.take ≠ 0#32 ∧ pair7.full = some { start := 0, len := 256 } ∧
      s.writer.fullPool.chunk = some c ∧ c.used < s.writer.fullPool.chunkSize ∧
      (c.addr + c.used) / 2097152 = 8) :=
  ⟨reset_cache, by decide⟩

/-- A chain that waits for its anchor's page, a record's, or a result's, its miss the only one, stalled or not. -/
theorem witness_ApertureFetch_chain :
    let p : PendingResult :=
      { addr := 16777280, next := 0, notify := true, result := DirectiveResult.refuse .badField }
    let state : ChainPhase → Bool → State := fun phase stalled =>
      let x := fetching (visiting standby phase) false
      { x with
        aperture := { x.aperture with misses := [{ client := .chain, page := 8 }] }
        chain := { x.chain with stalled := stalled } }
    (∀ phase ∈ [.anchorPage, .recordPage 16777280, .resultPage p], ∀ b : Bool,
      (state phase b).aperture.misses = [{ client := .chain, page := 8 }] ∧
      (state phase b).aperture.fetch = some { page := 8, discard := false, tag := 4 } ∧
      (state phase b).chain.phase = phase ∧ (state phase b).chain.again = false ∧
      (state phase b).chain.notify = false ∧ (state phase b).chain.stalled = b ∧
      (state phase b).chain.count < 7 ∧ (state phase b).cacheLegal) ∧
    p.next = 0 ∧ (BitVec.ofNat 64 (fieldAt (leBytes 8 0x40000000) 0 8)).getLsbD 0 = false := by
  refine ⟨?_, by decide⟩
  intro phase _ b
  exact ⟨rfl, rfl, rfl, rfl, rfl, rfl, Nat.succ_pos 6, reset_cache⟩

/-- Misses of both clients on the page of the fetch; and a miss of another page behind that of the writer. -/
theorem witness_ApertureFetch_both :
    let state : List Miss → State := fun misses =>
      let x := fetching (visiting (writing .full) .anchorPage) false
      { x with aperture := { x.aperture with misses := misses } }
    let both := state [{ client := .chain, page := 8 }, { client := .writer, page := 8 }]
    let behind := state [{ client := .writer, page := 8 }, { client := .chain, page := 9 }]
    both.aperture.fetch = some { page := 8, discard := false, tag := 4 } ∧
    (both.aperture.misses.filter (fun m => m.page != 8)).head? = none ∧
    (behind.aperture.misses.filter (fun m => m.page != 8)).head? = some { client := .chain, page := 9 } ∧
    Aperture.lookup { sets := behind.aperture.sets, misses := [{ client := .chain, page := 9 }], fetch := none } 9 =
      none ∧
    Aperture.lookup { sets := behind.aperture.sets.set 0 ((behind.aperture.set 0).filled 8 0x40000000#64)
                      misses := [{ client := .chain, page := 9 }], fetch := none } 9 = none := by decide

/-- R155, R174, R177: an invalid entry answers both clients, and the visit that ends with visit again set begins anew. -/
theorem test_fetch_answers_both :
    let x := fetching (visiting (writing .full) .anchorPage) false
    let s := { x with
      aperture := { x.aperture with misses := [{ client := .chain, page := 8 }, { client := .writer, page := 8 }] }
      chain := { x.chain with again := true } }
    (nextOf (exec (.apertureFetchDone 4 (some (leBytes 8 0))) s)).map (fun u =>
      (u.writer.phase, u.chain.phase, u.chain.again, u.chain.stalled, u.counters.apertureFaults, u.faultRecord.later)) =
      some (.blocked, .anchorPage, false, true, 1, 1) := by decide

/-- R145 and R155: the read of an entry fails, and the writer waits for the translation at its place. -/
theorem test_translation_read_fails :
    let c : Chunk := { entry := 0, addr := 0x1000000, take := 7#32, sequence := 0, offset := 0, used := 64 }
    let x := fetching (writing .full) false
    let s := { x with
      aperture := { x.aperture with misses := [{ client := .writer, page := 8 }] }
      writer := { x.writer with fullPool := { x.writer.fullPool with chunk := some c } } }
    (nextOf (exec (.apertureFetchDone 4 none) s)).map (fun u =>
      (u.writer.phase, u.writer.wait, u.writer.blocked, u.faultRecord.detail)) =
      some (.waiting, some (.full, .translationRead), some { pool := .full, offset := 64, page := 8 },
        0x80000008#32) := by decide

/-- The end of the chain, a Next that is one byte off, and a Next on a page the cache holds. -/
theorem witness_ChainNextRead :
    (let s := visiting (cached recording) (.nextRead 6)
     s.chain.phase = .nextRead 6 ∧ s.chain.again = false ∧ s.chain.stalled = false ∧ s.chain.notify = false ∧
      s.aperture.lookup (18874432 / 2097152) = some (0, 0x40000000#64)) ∧
    standby.chain.phase ≠ .nextRead 6 ∧
    fieldAt (leBytes 4 0) 0 4 = 0 ∧ fieldAt (leBytes 4 65) 0 4 % 64 ≠ 0 ∧
    (fieldAt (leBytes 4 18874432) 0 4 ≠ 0 ∧ fieldAt (leBytes 4 18874432) 0 4 % 64 = 0) ∧
    ({ recording.chain with notify := true, stalled := true } : Chain).stalled = true := by decide

/-- R174: a visit that ends with visit again set is followed by a new one, which reads the anchor's Next. -/
theorem test_visit_again :
    let x := visiting (cached recording) (.nextRead 6)
    let s := { x with chain := { x.chain with anchor := 18874432, again := true, count := 3 } }
    (nextOf (exec (.chainNextReadDone 6 (some (leBytes 4 0))) s)).map (fun u =>
      (u.chain.phase, u.chain.again, u.chain.count, u.link.length)) = some (.nextRead 0, false, 0, 1) := by decide

/-- A record not POSTED; kinds 0 and 13; and a START_CADENCE record on a page the cache holds. -/
theorem witness_ChainRecordFetch :
    (let s := visiting (cached recording) (.recordRead 6 18874432)
     let t := (s.applyDirective (directiveOf (record 2#8 1#8))).1
     s.chain.phase = .recordRead 6 18874432 ∧ s.chain.again = false ∧ s.chain.notify = false ∧
      t.aperture.lookup (18874432 / 2097152) = some (0, 0x40000000#64) ∧ s.chain.count < 7) ∧
    fieldAt (record 2#8 2#8) 6 1 ≠ 1 ∧ fieldAt (record 2#8 1#8) 6 1 = 1 ∧
    fieldAt (record 0#8 1#8) 4 1 = 0 ∧ 12 < fieldAt (record 13#8 1#8) 4 1 ∧
    fieldAt (record 2#8 1#8) 0 4 = 0 ∧ (BitVec.ofNat 8 (fieldAt (record 2#8 1#8) 5 1)).getLsbD 0 = false := by
  decide

/-- A START_CADENCE record with NOTIFY and a Next of 18874560. -/
def notifying : List Byte :=
  leBytes 4 18874560 ++ [2#8, 1#8, 1#8] ++ List.replicate 57 0#8

/-- A stalled chain; a NOTIFY; a Next on a page the cache holds; the eighth record, running and stopped; a page
that misses. -/
theorem witness_ChainRecordFetch_goesOn :
    let visit : State → Nat → State := fun x n =>
      let y := visiting x (.recordRead 6 18874432)
      { y with chain := { y.chain with count := n } }
    let applied : State → Instr → State := fun x _ => (x.applyDirective (directiveOf notifying)).1
    (visit standby 0).chain.stalled = false ∧
    ({ standby.chain with stalled := true } : Chain).stalled = true ∧
    (BitVec.ofNat 8 (fieldAt notifying 5 1)).getLsbD 0 = true ∧
    fieldAt notifying 6 1 = 1 ∧ fieldAt notifying 0 4 ≠ 0 ∧ fieldAt notifying 0 4 % 64 = 0 ∧
    (applied (visit (cached idle) 6) .startCadence).aperture.lookup (fieldAt notifying 0 4 / 2097152) =
      some (0, 0x40000000#64) ∧
    (visit (cached idle) 6).chain.count < 7 ∧ 7 ≤ (visit (cached idle) 7).chain.count ∧
    (applied (visit (cached idle) 7) .startCadence).cadence.run = .running ∧
    ((visit (cached idle) 7).applyDirective (directiveOf (record 11#8 1#8))).1.cadence.run = .stopped ∧
    (applied (visit idle 0) .startCadence).aperture.lookup (18874432 / 2097152) = none ∧
    (applied (visit idle 0) .startCadence).aperture.fetch = none := by decide

/-- A result that waits for its page, whose entry is not valid. -/
theorem witness_ChainRecordFetch_page :
    let p : PendingResult :=
      { addr := 16777280, next := 0, notify := false, result := DirectiveResult.refuse .badField }
    let x := fetching (visiting standby (.resultPage p)) false
    let s := { x with aperture := { x.aperture with misses := [{ client := .chain, page := 8 }] } }
    s.chain.phase = .resultPage p ∧ s.chain.again = false ∧ s.chain.notify = false ∧ s.chain.stalled = false ∧
    s.aperture.fetch = some { page := 8, discard := false, tag := 4 } ∧
    s.aperture.misses = [{ client := .chain, page := 8 }] ∧
    (BitVec.ofNat 64 (fieldAt (leBytes 8 0x40000000) 0 8)).getLsbD 0 = false := by decide

/-- The parameters of a SET_NOTICE record and of an OPEN_TAKE record (R171). -/
theorem test_directive_parameters :
    directiveOf ((record 12#8 1#8).set 16 5#8 |>.set 17 9#8) = some (.setNotice 5#8 9#8) ∧
    directiveOf ((record 6#8 1#8).set 16 5#8 |>.set 17 1#8) = some (.openTake 261#32) := by decide

theorem witness_ChainRecordFetch_command : idle.attached = true := rfl

theorem witness_ChainRecordFetch_abandoned (a : Nat) : standby.chain.phase ≠ .recordRead 6 a := by
  intro h; cases h

/-- A state that keeps every invariant of the last three statements, with a command that steps. -/
def legal : State :=
  { recording with pending := [.closeTake] }

theorem legal_control : legal.ControlLegal where
  cadence := freeCadence_legal
  takes := { room := by decide, numbered := by decide, distinct := by decide, newest := by decide
             drained := by decide, ending := by intro k h; cases h }
  mode := { recording := by decide, running := by decide, reading := by decide }
  visiting := by intro h; exact absurd rfl h

theorem default_profile_legal : Profile.default.Legal := by constructor <;> decide

theorem legal_rates : legal.ratesLegal where
  active := default_profile_legal
  pending := by intro p h; cases h
  full := by constructor <;> decide
  proxy := by constructor <;> decide

theorem witness_StepKeepsControl : legal.ControlLegal ∧ ∃ t, step legal = .next t :=
  ⟨legal_control, _, rfl⟩

theorem witness_StepKeepsRates : legal.ratesLegal ∧ ∃ t, step legal = .next t :=
  ⟨legal_rates, _, rfl⟩

theorem witness_StepKeepsForms :
    (∃ t, step legal = .next t) ∧ legal.slotsCanonical ∧ legal.cacheLegal ∧ legal.notices.Legal :=
  ⟨⟨_, rfl⟩, State.reset_slots_wf, reset_cache, ⟨by decide, by decide, by decide⟩⟩

end Sys2Proof.Tests
end

