-- ==== Sys2Proof/Proofs/Keeps.lean ====
section
-- One proof at a time: a stack for every waiting proof of this text would pass the memory limit of the check.
set_option Elab.async false
/-! What the receivers of a frame start and the writer's acts keep: causes, the fault latch, the cadence's counters, the
profiles and a legal take table. -/

namespace Sys2Proof.Machine

/-! ### The take table (R114, R125, R133) -/

/-- The work in hand is the end of the oldest take (R133). -/
def State.endsTake (s : State) : Prop :=
  ∃ k, s.writer.work = some k ∧ k.ending = true

/-- A change of take records that leaves the number, opens no CLOSED record, and drains none that it leaves OPEN. -/
structure TakeRecord.Onward (f : TakeRecord → TakeRecord) : Prop where
  number : ∀ r, (f r).number = r.number
  closed : ∀ r, r.phase = .closed → (f r).phase = .closed
  drained : ∀ r, (f r).drained = true → r.drained = true ∨ (f r).phase = .closed

/-- Such a change that closes no record either. -/
structure TakeRecord.Steady (f : TakeRecord → TakeRecord) : Prop where
  number : ∀ r, (f r).number = r.number
  phase : ∀ r, (f r).phase = r.phase
  drained : ∀ r, (f r).drained = true → r.drained = true ∨ r.phase = .closed

theorem TakeRecord.Steady.onward {f : TakeRecord → TakeRecord} (hf : TakeRecord.Steady f) : TakeRecord.Onward f :=
  ⟨hf.number, fun r h => (hf.phase r).trans h, fun r h => (hf.drained r h).imp_right (hf.phase r).trans⟩

theorem TakeRecord.Onward.comp {f g : TakeRecord → TakeRecord} (hg : TakeRecord.Onward g)
    (hf : TakeRecord.Onward f) : TakeRecord.Onward (g ∘ f) where
  number r := (hg.number _).trans (hf.number r)
  closed r h := hg.closed _ (hf.closed r h)
  drained r h := (hg.drained _ h).elim (fun h => (hf.drained r h).imp_right (hg.closed _)) .inr

theorem TakeRecord.Steady.id : TakeRecord.Steady id :=
  ⟨fun _ => rfl, fun _ => rfl, fun _ h => .inl h⟩

theorem State.takeIsOpen_iff (s : State) :
    s.takeIsOpen = true ↔ ∃ r ∈ s.takes.table, r.phase = .opened := by
  simp [State.takeIsOpen, State.openTake]

theorem State.takeIsOpen_congr {s t : State} (h : t.takes.table = s.takes.table) :
    t.takeIsOpen = s.takeIsOpen := by
  simp [State.takeIsOpen, State.openTake, h]

theorem State.takeIsOpen_map {s t : State} {f : TakeRecord → TakeRecord} (hf : TakeRecord.Steady f)
    (h : t.takes.table = s.takes.table.map f) : t.takeIsOpen = s.takeIsOpen := by
  rw [Bool.eq_iff_iff, State.takeIsOpen_iff, State.takeIsOpen_iff, h]
  simp [hf.phase]

theorem State.TakesLegal.map {s t : State} {f : TakeRecord → TakeRecord} (hs : s.TakesLegal)
    (hf : TakeRecord.Onward f) (h : t.takes.table = s.takes.table.map f) (hw : t.endsTake → s.endsTake) :
    t.TakesLegal where
  room := by simpa [h] using hs.room
  numbered := by simpa [h, hf.number] using hs.numbered
  distinct := by
    have : TakeRecord.number ∘ f = TakeRecord.number := funext hf.number
    simpa [h, this] using hs.distinct
  newest := by
    rw [h, ← List.map_dropLast]
    simp only [List.mem_map]
    rintro _ ⟨r, hr, rfl⟩
    exact hf.closed r (hs.newest r hr)
  drained := by
    rw [h]
    simp only [List.mem_map]
    rintro _ ⟨r, hr, rfl⟩ hd
    exact (hf.drained r hd).elim (fun h => hf.closed r (hs.drained r hr h)) fun h => h
  ending := by
    intro k hk he
    obtain ⟨j, hj, hje⟩ := hw ⟨k, hk, he⟩
    obtain ⟨r, hr, hc⟩ := hs.ending j hj hje
    exact ⟨f r, by simp [h, hr], hf.closed r hc⟩

theorem State.steady_testDrained (s : State) : TakeRecord.Steady s.testDrained := by
  constructor <;> intro r <;> unfold State.testDrained <;> (repeat' split) <;> simp_all

/-! ### What an act keeps -/

/-- The counters that frame starts and edges move (R185): retimed, bad edges and missed windows. -/
def Counters.edges (c : Counters) : Nat × Nat × Nat :=
  (c.retimed, c.badEdges, c.missedWindows)

/-- From `s` to `t` no cause and no fault latch is cleared, the counters that count for the cadence stand, the profiles
stand, and a legal take table stays so, with a take OPEN or none as before. -/
structure State.Keeps (s t : State) : Prop where
  causes : ∀ i, s.notices.cause.getLsbD i = true → t.notices.cause.getLsbD i = true
  latch : s.faultRecord.latch = true → t.faultRecord.latch = true
  counters : t.counters.edges = s.counters.edges
  profiles : t.takes.profile = s.takes.profile ∧ t.takes.pendingProfile = s.takes.pendingProfile
  takes : s.TakesLegal → t.TakesLegal ∧ t.takeIsOpen = s.takeIsOpen

namespace State.Keeps

variable {s t u : State}

theorem refl (s : State) : s.Keeps s :=
  ⟨fun _ h => h, fun h => h, rfl, ⟨rfl, rfl⟩, fun h => ⟨h, rfl⟩⟩

theorem trans (h : s.Keeps t) (g : t.Keeps u) : s.Keeps u where
  causes i hi := g.causes i (h.causes i hi)
  latch hi := g.latch (h.latch hi)
  counters := g.counters.trans h.counters
  profiles := ⟨g.profiles.1.trans h.profiles.1, g.profiles.2.trans h.profiles.2⟩
  takes hs := by
    obtain ⟨ht, ho⟩ := h.takes hs
    obtain ⟨hu, hp⟩ := g.takes ht
    exact ⟨hu, hp.trans ho⟩

/-- An act on the take records and the writer alone. -/
theorem of_map {f : TakeRecord → TakeRecord} (hf : TakeRecord.Steady f)
    (hn : t.notices = s.notices := by rfl) (hr : t.faultRecord = s.faultRecord := by rfl)
    (hc : t.counters.edges = s.counters.edges := by rfl)
    (ht : t.takes = { s.takes with table := s.takes.table.map f } := by rfl)
    (hw : t.endsTake → s.endsTake := by exact fun h => h) : s.Keeps t where
  causes i := by rw [hn]; exact (fun h => h)
  latch := by rw [hr]; exact (fun h => h)
  counters := hc
  profiles := by rw [ht]; exact ⟨rfl, rfl⟩
  takes hs := ⟨hs.map hf.onward (by rw [ht]) hw, takeIsOpen_map hf (by rw [ht])⟩

/-- An act that leaves notices, faults, counters and takes alone, and begins no end of a take. -/
theorem of_eq (hn : t.notices = s.notices := by rfl) (hr : t.faultRecord = s.faultRecord := by rfl)
    (hc : t.counters.edges = s.counters.edges := by rfl) (ht : t.takes = s.takes := by rfl)
    (hw : t.endsTake → s.endsTake := by exact fun h => h) : s.Keeps t :=
  of_map .id hn hr hc (by simp [ht]) hw

/-- An act on the notices alone that clears no cause. -/
theorem of_notices (hn : ∀ i, s.notices.cause.getLsbD i = true → t.notices.cause.getLsbD i = true)
    (hr : s.faultRecord.latch = true → t.faultRecord.latch = true)
    (hc : t.counters.edges = s.counters.edges := by rfl) (ht : t.takes = s.takes := by rfl)
    (hw : t.writer = s.writer := by rfl) : s.Keeps t :=
  { of_eq (s := s) (t := { t with notices := s.notices, faultRecord := s.faultRecord }) rfl rfl hc ht
      (by unfold endsTake; simp [hw]) with
    causes := hn
    latch := hr
    takes := fun hs => ⟨hs.map TakeRecord.Steady.id.onward (by simp [ht]) (by unfold endsTake; simp [hw]),
      takeIsOpen_congr (by rw [ht])⟩ }

end State.Keeps

theorem Writer.setPool_work (w : Writer) (p : Pool) (x : PoolState) : (w.setPool p x).work = w.work := by
  cases p <;> rfl

namespace State

variable (s : State)

theorem raise_keeps (c : Notice) : s.Keeps (s.raise c) :=
  .of_notices (by simp +contextual [BitVec.getLsbD_or]) (by simp) (by simp) (by simp) (by simp)

theorem announce_keeps : s.Keeps s.announce :=
  have zeroed : s.Keeps { s with notices := s.notices.zeroCounts } := .of_notices (fun _ h => h) (fun h => h)
  zeroed.trans (raise_keeps _ .chunk)

theorem reportFault_keeps (c : FaultClass) (f k d : Word) : s.Keeps (s.reportFault c f k d) := by
  cases h : s.faultRecord.latch with
  | true => exact reportFault_held s c f k d h ▸ .of_notices (fun _ h => h) (fun _ => h)
  | false =>
    have latched : s.Keeps { s with faultRecord :=
        { cls := some c, frame := f, take := k, detail := d, more := false, later := 0, latch := true } } :=
      .of_notices (fun _ h => h) (fun _ => rfl)
    exact reportFault_free s c f k d h ▸ latched.trans (raise_keeps _ .fault)

theorem writerFault_keeps (c : FaultClass) (d : Word) : s.Keeps (s.writerFault c d) :=
  s.reportFault_keeps ..

theorem countClose_keeps (p : Pool) : s.Keeps (s.countClose p) := by
  have counted : ∀ n : Notices, n.cause = s.notices.cause → s.Keeps { s with notices := n } :=
    fun n hn => .of_notices (by rw [hn]; exact fun _ h => h) (fun h => h)
  have hp : (s.notices.countPool p).cause = s.notices.cause := by cases p <;> rfl
  unfold countClose
  extract_lets n m t
  have ht : s.Keeps t := counted m (by simp only [m]; split <;> exact hp)
  split
  · exact ht.trans t.announce_keeps
  · exact ht

theorem coalesceFrameStart_keeps : s.Keeps s.coalesceFrameStart := by
  unfold coalesceFrameStart
  split
  · exact .refl s
  · extract_lets n counted t
    have ht : s.Keeps t := .of_notices (fun _ h => h) (fun h => h)
    split
    · exact ht.trans t.announce_keeps
    · exact ht

/-- A steady change of the records of a take number. -/
theorem mapTake_keeps (n : Word) {f : TakeRecord → TakeRecord} (hf : TakeRecord.Steady f) :
    s.Keeps (s.mapTake n f) :=
  .of_map (f := fun r => if r.number = n then f r else r)
    ⟨fun r => by split <;> simp [hf.number], fun r => by split <;> simp [hf.phase],
      fun r => by split; exacts [hf.drained r, .inl]⟩

theorem settleDrained_keeps : s.Keeps s.settleDrained :=
  .of_map s.steady_testDrained

/-! ### The writer (R131 to R145) -/

theorem endsTake_congr {s t : State} (h : t.writer.work = s.writer.work) : t.endsTake → s.endsTake := by
  rintro ⟨k, hk, he⟩
  exact ⟨k, h ▸ hk, he⟩

/-- Replacing the writer, with the same work in hand. -/
theorem setWriter_keeps (w : Writer) (h : w.work = s.writer.work := by rfl) : s.Keeps (s.setWriter w) :=
  .of_eq (hw := endsTake_congr h)

theorem setPool_keeps (p : Pool) (x : PoolState) : s.Keeps (s.setPool p x) :=
  s.setWriter_keeps _ (Writer.setPool_work ..)

theorem closeChunk_keeps (p : Pool) (l : Bool) : s.Keeps (s.closeChunk p l) := by
  unfold closeChunk
  dsimp only
  split
  · exact .refl s
  · exact (((Keeps.of_eq : s.Keeps (s.post _ _)).trans (setPool_keeps _ p _))).trans (countClose_keeps _ p)

theorem attempt_keeps (p : Pool) : s.Keeps (s.attempt p) := by
  unfold attempt
  dsimp only
  split
  · exact .refl s
  · exact (Keeps.of_eq : s.Keeps (s.issueRead _ _)).trans (setPool_keeps _ p _)

theorem translate_keeps (c : Client) (a : Nat) : s.Keeps (s.translate c a).1 := by
  obtain ⟨-, -, -, -, -, -, ht, hw, -, -, hn, hf, hc, -⟩ := s.translate_frame c a
  exact .of_eq hn hf (by rw [hc]) ht (endsTake_congr (by rw [hw]))

theorem translate_work (c : Client) (a : Nat) : (s.translate c a).1.writer = s.writer := by
  simp [translate_frame]

variable {s}

/-- The work in hand replaced by a later point of the same piece. -/
theorem setWork_keeps {k j : Work} (hk : s.writer.work = some k) (hj : j.ending = k.ending) :
    s.Keeps (s.setWork j) := by
  refine .of_eq (hw := ?_)
  rintro ⟨i, hi, he⟩
  obtain rfl : j = i := by simpa using hi
  exact ⟨k, hk, hj ▸ he⟩

theorem writeSegment_keeps {k : Work} (hk : s.writer.work = some k) (p : Pool) (c : Chunk) (x : Source) (n : Nat)
    (b : HostAddr) : s.Keeps (s.writeSegment p c k x n b) := by
  unfold writeSegment
  extract_lets y a len place first j
  have emitted : s.Keeps (s.emit (x.item (hostAt b a) k.written len)) := .of_eq
  refine (emitted.trans (setPool_keeps _ p _)).trans (setWork_keeps (k := k) ?_ rfl)
  exact (Writer.setPool_work ..).trans hk

theorem placeBytes_keeps {k : Work} (hk : s.writer.work = some k) (p : Pool) (x : Source) (n : Nat) :
    s.Keeps (s.placeBytes p k x n).1 := by
  have asks : ∀ a page, s.Keeps (match s.translate .writer a with
      | (t, some b) => (t.setWork { k with page := some (page, b) }, true)
      | (t, none) => (t, false)).1 := by
    intro a page
    have h := s.translate_keeps .writer a
    have hw := s.translate_work .writer a
    split <;> (rename_i e; rw [e] at h hw)
    · exact h.trans (setWork_keeps (k := k) (by rw [hw, hk]) rfl)
    · exact h
  unfold placeBytes
  dsimp only
  split
  · exact s.attempt_keeps p
  · split
    · exact s.closeChunk_keeps p false
    · split
      · split
        · exact writeSegment_keeps hk ..
        · exact asks _ _
      · exact asks _ _

theorem headerStep_keeps {k : Work} (hk : s.writer.work = some k) (r : TakeRecord) :
    s.Keeps (s.headerStep k r).1 := by
  unfold headerStep
  split
  · exact placeBytes_keeps hk ..
  · have marked : s.Keeps (s.mapTake r.number (fun x => { x with headerWritten := true })) :=
      mapTake_keeps s _ ⟨fun _ => rfl, fun _ => rfl, fun _ h => .inl h⟩
    exact marked.trans (setWork_keeps (k := k) hk rfl)

theorem fullStep_keeps {k : Work} (hk : s.writer.work = some k) (r : PairRecord) :
    s.Keeps (s.fullStep k r).1 := by
  unfold fullStep
  split
  · exact setWork_keeps hk rfl
  · split
    · exact placeBytes_keeps hk ..
    · exact setWork_keeps hk rfl

theorem proxyStep_keeps {k : Work} (hk : s.writer.work = some k) (r : PairRecord) (d : PairData) :
    s.Keeps (s.proxyStep k r d).1 := by
  have settled : ∀ x, s.Keeps (s.settleProxy k x).1 := fun x => setWork_keeps hk rfl
  unfold proxyStep
  split
  · exact settled _
  · exact settled _
  · split
    · exact settled _
    · split
      · exact settled _
      · split
        · exact settled _
        · split
          · exact s.closeChunk_keeps ..
          · exact placeBytes_keeps hk ..

variable (s)

theorem finishPiece_keeps : s.Keeps s.finishPiece :=
  .of_eq (hw := by rintro ⟨k, hk, -⟩; simp [finishPiece] at hk)

theorem finishPair_keeps (e : PairEntry) : s.Keeps (s.finishPair e) := by
  unfold finishPair
  extract_lets t
  have counted : s.Keeps t := mapTake_keeps s _ ⟨fun _ => rfl, fun _ => rfl, fun _ h => .inl h⟩
  have removed : t.Keeps { t with store := t.store.remove } := .of_eq
  exact ((counted.trans removed).trans (settleDrained_keeps _)).trans (finishPiece_keeps _)

variable {s}

theorem entryStep_keeps {k : Work} (hk : s.writer.work = some k) (r : PairRecord) (d : PairData) :
    s.Keeps (s.entryStep k r d).1 := by
  unfold entryStep
  extract_lets ordinal e
  split
  · exact placeBytes_keeps hk ..
  · exact s.finishPair_keeps e

/-- The oldest record, CLOSED, leaves with the work on it done (R140). -/
theorem TakesLegal.drop_head {s t : State} (hs : s.TakesLegal) (he : s.endsTake)
    (h : t.takes.table = s.takes.table.drop 1) (hw : t.writer.work = none) :
    t.TakesLegal ∧ t.takeIsOpen = s.takeIsOpen := by
  obtain ⟨k, hk, hke⟩ := he
  obtain ⟨r, hr, hc⟩ := hs.ending k hk hke
  obtain ⟨rest, hl⟩ : ∃ rest, s.takes.table = r :: rest := by
    cases hl : s.takes.table with
    | nil => simp [hl] at hr
    | cons x rest => exact ⟨rest, by simpa [hl] using hr⟩
  have ht : t.takes.table = rest := by rw [h, hl]; rfl
  constructor
  · refine ⟨?_, ?_, ?_, ?_, ?_, ?_⟩
    · have := hs.room
      rw [hl, List.length_cons] at this
      rw [ht]; omega
    · intro x hx
      exact hs.numbered x (by rw [hl]; exact List.mem_cons_of_mem _ (ht ▸ hx))
    · have := hs.distinct
      rw [hl, List.map_cons] at this
      rw [ht]; exact this.of_cons
    · intro x hx
      refine hs.newest x ?_
      rw [ht] at hx
      cases rest with
      | nil => simp at hx
      | cons y ys => rw [hl]; exact List.mem_cons_of_mem _ hx
    · intro x hx
      exact hs.drained x (by rw [hl]; exact List.mem_cons_of_mem _ (ht ▸ hx))
    · intro j hj
      rw [hw] at hj; exact absurd hj (by simp)
  · rw [Bool.eq_iff_iff, takeIsOpen_iff, takeIsOpen_iff, ht, hl]
    simp [hc]

theorem finishTake_keeps (he : s.endsTake) : s.Keeps s.finishTake := by
  unfold finishTake
  extract_lets t table u v w
  have announced : s.Keeps t := (s.closeChunk_keeps .index true).trans (announce_keeps _)
  have hw : t.writer.work = s.writer.work := by
    simp [t, closeChunk_writer, Writer.setPool_work]
  refine announced.trans ?_
  have raised := u.raise_keeps .take
  exact
    { causes := raised.causes
      latch := raised.latch
      counters := raised.counters
      profiles := raised.profiles
      takes := fun ht => ht.drop_head (by obtain ⟨k, hk, h⟩ := he; exact ⟨k, hw.trans hk, h⟩)
        (by simp [finishPiece, v, u, table]) rfl }

theorem trailerStep_keeps {k : Work} (hk : s.writer.work = some k) (he : k.ending = true) (r : TakeRecord) :
    s.Keeps (s.trailerStep k r).1 := by
  have closes : ∀ p l, (s.closeChunk p l).writer.work = some k := fun p l => by
    rw [closeChunk_writer, Writer.setPool_work, hk]
  unfold trailerStep
  split
  · split
    · exact placeBytes_keeps hk ..
    · split
      · exact .refl s
      · exact (s.closeChunk_keeps ..).trans (finishTake_keeps ⟨k, closes _ _, he⟩)
  · split
    · exact .refl s
    · refine ((s.closeChunk_keeps ..).trans (closeChunk_keeps ..)).trans (setWork_keeps (k := k) ?_ rfl)
      rw [closeChunk_writer, Writer.setPool_work, closes]

variable (s)

theorem writerStep_keeps : s.Keeps s.writerStep.1 := by
  unfold writerStep
  split
  · exact .refl s
  · rename_i k hk
    split
    · exact .refl s
    · split
      · rename_i he
        split
        · exact headerStep_keeps hk _
        · exact trailerStep_keeps hk he _
      · split
        · exact .refl s
        · split
          · exact headerStep_keeps hk _
          · exact fullStep_keeps hk _
          · exact proxyStep_keeps hk ..
          · exact entryStep_keeps hk ..
          · exact .refl s

theorem runWriter_keeps (n : Nat) (s : State) : s.Keeps (s.runWriter n) := by
  induction n generalizing s with
  | zero => exact .refl s
  | succ n ih =>
    have h := s.writerStep_keeps
    unfold runWriter
    split <;> (rename_i e; rw [e] at h)
    · exact h.trans (ih _)
    · exact h

theorem work_keeps : s.Keeps s.work :=
  runWriter_keeps _ s

/-! ### Choosing work, and the ends of waits (R133, R141 to R145) -/

theorem beginWork_keeps (k : Work) (hk : k.ending = false) : s.Keeps (s.beginWork k) :=
  .of_eq (hw := by
    rintro ⟨j, hj, he⟩
    obtain rfl : k = j := by simpa [beginWork] using hj
    simp [hk] at he)

theorem beginPair_keeps (r : PairRecord) (d : PairData) : s.Keeps (s.beginPair r d) := by
  unfold beginPair
  split
  · exact s.beginWork_keeps _ rfl
  · split
    · exact s.beginWork_keeps _ rfl
    · have current : s.Keeps (s.makeCurrent r.take) := s.setWriter_keeps _
      have labelled := mapTake_keeps (s.makeCurrent r.take) r.take (f := fun x => { x with startLabel := d.label })
        ⟨fun _ => rfl, fun _ => rfl, fun _ h => .inl h⟩
      exact (current.trans labelled).trans (beginWork_keeps _ _ rfl)

/-- The end of the oldest take begins with that take CLOSED (R125, R133). -/
theorem beginEnding_keeps {r : TakeRecord} (hr : s.takes.table.head? = some r) (hd : r.drained = true) :
    s.Keeps (s.beginEnding r) := by
  have begun : ∀ (w : Writer) (k : Work), s.Keeps (s.setWriter { w with phase := .writing, work := some k }) :=
    fun w k =>
      { (.of_notices (fun _ h => h) (fun h => h) : s.Keeps { s with pending := s.pending }) with
        takes := fun hs => ⟨{ hs with
          ending := fun _ _ _ => ⟨r, hr, hs.drained r (List.mem_of_mem_head? hr) hd⟩ }, rfl⟩ }
  unfold beginEnding
  split
  · exact begun s.writer _
  · exact begun (s.makeCurrent r.number).writer _

theorem chooseWork_keeps : s.Keeps s.chooseWork := by
  unfold chooseWork
  split
  · exact s.finishPiece_keeps
  · rename_i r rest ht
    split
    · rename_i hd
      exact (s.beginEnding_keeps (by rw [ht]; rfl) hd).trans (work_keeps _)
    · split
      · exact s.finishPiece_keeps
      · exact (s.beginPair_keeps ..).trans (work_keeps _)

theorem beginSuspension_keeps : s.Keeps s.beginSuspension := by
  unfold beginSuspension
  extract_lets t k
  have reported : s.Keeps t := s.writerFault_keeps ..
  refine (reported.trans (.of_eq (hw := ?_))).trans (work_keeps _)
  rintro ⟨j, hj, he⟩
  simp only [setWriter_writer, k, Option.map_eq_some_iff] at hj
  obtain ⟨i, hi, rfl⟩ := hj
  exact ⟨i, hi, he⟩

theorem waitOn_keeps (p : Pool) (c : WaitCause) : s.Keeps (s.waitOn p c) :=
  s.setWriter_keeps _

theorem resumeEnding_keeps : s.Keeps s.resumeEnding := by
  unfold resumeEnding
  split
  · exact .refl s
  · split
    · exact s.work_keeps
    · exact .refl s

theorem attemptFailed_keeps (p : Pool) (c : WaitCause) : s.Keeps (s.attemptFailed p c) := by
  unfold attemptFailed
  extract_lets pool t
  have ended : s.Keeps t := s.setPool_keeps p _
  split
  · exact ended.trans t.resumeEnding_keeps
  · split
    · exact ended.trans t.beginSuspension_keeps
    · exact ended.trans (t.waitOn_keeps ..)

theorem takeEntry_keeps (p : Pool) (i a : Nat) : s.Keeps (s.takeEntry p i a) := by
  unfold takeEntry
  extract_lets x take offset t chunk u
  have taken : s.Keeps u := (Keeps.of_eq : s.Keeps t).trans (t.setPool_keeps p _)
  split
  · exact (taken.trans (u.setWriter_keeps _)).trans (resumeEnding_keeps _)
  · exact (taken.trans (u.setWriter_keeps _)).trans (work_keeps _)

theorem scanOn_keeps (p : Pool) (a : Attempt) : s.Keeps (s.scanOn p a) := by
  unfold scanOn
  split
  · exact s.attemptFailed_keeps ..
  · extract_lets x i
    exact (Keeps.of_eq : s.Keeps (s.issueRead _ _)).trans (setPool_keeps _ p _)

theorem rejectEntry_keeps (p : Pool) (i : Nat) : s.Keeps (s.rejectEntry p i) := by
  unfold rejectEntry
  exact (Keeps.of_eq : s.Keeps _).trans (writerFault_keeps ..)

theorem entryRead_keeps (p : Pool) (a : Attempt) (d : Option (List Byte)) : s.Keeps (s.entryRead p a d) := by
  unfold entryRead
  split
  · exact (s.writerFault_keeps ..).trans (attemptFailed_keeps ..)
  · dsimp only
    split
    · exact s.scanOn_keeps ..
    · split
      · exact s.takeEntry_keeps ..
      · exact (s.rejectEntry_keeps ..).trans (scanOn_keeps ..)

theorem answerWriter_keeps (page : Nat) (a : Answer) : s.Keeps (s.answerWriter page a) := by
  unfold answerWriter
  dsimp only
  split
  · refine .trans (.of_eq (hw := ?_)) (work_keeps _)
    rintro ⟨j, hj, he⟩
    simp only [setWriter_writer, Option.map_eq_some_iff] at hj
    obtain ⟨i, hi, rfl⟩ := hj
    exact ⟨i, hi, he⟩
  · split
    · exact .refl s
    · exact (Keeps.of_eq : s.Keeps _).trans (writerFault_keeps ..)
  · exact (s.setWriter_keeps _).trans (writerFault_keeps ..)

theorem retryTranslation_keeps : s.Keeps s.retryTranslation := by
  unfold retryTranslation
  split
  · exact .refl s
  · dsimp only
    have h := s.translate_keeps .writer s.nextAddress
    split <;> (rename_i e; rw [e] at h)
    · exact h.trans (answerWriter_keeps ..)
    · exact h

theorem writerVisit_keeps : s.Keeps s.writerVisit := by
  unfold writerVisit
  split
  · exact .refl s
  · exact .refl s
  · exact s.retryTranslation_keeps
  · split
    · exact .refl s
    · exact s.retryTranslation_keeps
    · exact s.attempt_keeps _
    · exact s.attempt_keeps _

theorem proxyWaitFrameStart_keeps : s.Keeps s.proxyWaitFrameStart := by
  unfold proxyWaitFrameStart
  extract_lets n out w t
  have counted : s.Keeps t := s.setWriter_keeps _
  split
  · split
    · exact counted.trans t.beginSuspension_keeps
    · exact counted
  · exact counted.trans (t.attempt_keeps _)

theorem writerWaitFrameStart_keeps : s.Keeps s.writerWaitFrameStart := by
  unfold writerWaitFrameStart
  split
  · split
    · exact .refl s
    · exact s.retryTranslation_keeps
    · exact s.proxyWaitFrameStart_keeps
    · exact s.attempt_keeps _
  · exact .refl s

theorem writerFrameStart_keeps : s.Keeps s.writerFrameStart := by
  unfold writerFrameStart
  extract_lets t
  split
  · exact s.writerWaitFrameStart_keeps.trans (t.attempt_keeps _)
  · exact s.writerWaitFrameStart_keeps

/-! ### The Intake, the report and the visit (R38, R39, R174, R183) -/

theorem lose_keeps : s.Keeps s.lose := by
  unfold lose
  split
  · exact .of_eq
  · exact .refl s

theorem loseCapture_keeps (c : Capture) : s.Keeps (s.loseCapture c) := by
  unfold loseCapture
  extract_lets k c t
  have cut : s.Keeps t := .of_eq
  exact (cut.trans (t.reportFault_keeps ..)).trans (lose_keeps _)

theorem intakeFrameStart_keeps (b : Bool) : s.Keeps (s.intakeFrameStart b) := by
  have begins : ∀ u : State, u.Keeps (u.beginCapture b) := by
    intro u
    unfold beginCapture
    split
    · exact .of_eq
    · extract_lets c k t
      have lost : u.Keeps t := .of_eq
      exact (lost.trans (t.reportFault_keeps ..)).trans (lose_keeps _)
  unfold intakeFrameStart cutCapture
  split
  · exact begins s
  · exact (s.loseCapture_keeps _).trans (begins _)

theorem frameReport_keeps (passed : List State) (l : Label) : s.Keeps (s.frameReport passed l) := by
  unfold frameReport
  extract_lets n body t u v w
  exact (Keeps.of_eq : s.Keeps w).trans (w.raise_keeps _)

theorem askVisit_keeps (b : Bool) : s.Keeps (s.askVisit b) := by
  obtain ⟨-, -, -, -, -, -, ht, hw, -, hn, hf, hc, -⟩ := s.askVisit_frame b
  exact .of_eq hn hf (by rw [hc]) ht (endsTake_congr (by rw [hw]))

theorem boardFrameStart_keeps (passed : List State) : s.Keeps (s.boardFrameStart passed) := by
  unfold boardFrameStart
  extract_lets t
  have reported : s.Keeps t := by
    simp only [t]
    split
    · exact s.frameReport_keeps ..
    · exact .refl s
  split
  · exact reported.trans (t.askVisit_keeps _)
  · exact reported.trans (t.askVisit_keeps _)
  · exact reported

end State

end Sys2Proof.Machine
end

