-- ==== Sys2Proof/Proofs/Ticks.lean ====
section
-- One proof at a time: a stack for every waiting proof of this text would pass the memory limit of the check.
set_option Elab.async false
/-! The Cadence Unit's ticks one by one, and what a frame start leaves due. -/

namespace Sys2Proof.Machine

/-! ### What a frame start leaves due (R2, R12, R25) -/

theorem baseRate_period_pos (code : Nat) : 0 < (baseRate code).period := by
  unfold baseRate
  (repeat' split) <;> decide

/-- What a boundary and the latch are made of: the base-period counter, the base code and the latched label. -/
def Timecode.clock (t : Timecode) : Nat × Nat × Label :=
  (t.baseCounter, t.base, t.latched)

theorem Timecode.recordStep_clock (t : Timecode) : t.recordStep.clock = t.clock := by
  unfold Timecode.recordStep
  split <;> rfl

theorem Timecode.followingFrameStart_frame (t : Timecode) :
    t.followingFrameStart.baseCounter = (baseRate t.base).period ∧ t.followingFrameStart.base = t.base := by
  unfold Timecode.followingFrameStart
  dsimp only
  split <;> exact ⟨rfl, rfl⟩

namespace State

variable (s : State)

theorem boundaryDue_iff : s.boundaryDue = true ↔ s.following = false ∧ s.timecode.baseCounter = 0 := by
  simp [boundaryDue]

theorem expiryDue_iff : s.expiryDue = true ↔
    s.cadence.run = .running ∧ s.cadence.lateOpen = false ∧ s.cadence.counter = 0 := by
  simp [expiryDue, and_assoc]

theorem closeDue_iff : s.closeDue = true ↔ s.cadence.run = .running ∧ s.cadence.windowed = true ∧
    s.cadence.lateOpen = true ∧ s.cadence.active.tolerance ≤ s.cadence.lateCount := by
  simp [closeDue, and_assoc]

theorem boundaryDue_congr {s t : State} (h : t.cadence = s.cadence) (hb : t.timecode.clock = s.timecode.clock) :
    t.boundaryDue = s.boundaryDue := by
  simp only [Timecode.clock, Prod.mk.injEq] at hb
  simp [boundaryDue, following, h, hb]

theorem boundaryDue_of_pos (h : 0 < s.timecode.baseCounter) : s.boundaryDue = false := by
  simp only [boundaryDue, Bool.and_eq_false_iff, decide_eq_false_iff_not]
  exact .inr (by omega)

theorem baseBoundary_baseCounter_pos (h : s.boundaryDue = true) : 0 < s.baseBoundary.timecode.baseCounter := by
  obtain ⟨hf, -⟩ := s.boundaryDue_iff.mp h
  simp only [baseBoundary, hf, Bool.false_eq_true, if_false]
  exact baseRate_period_pos _

theorem timecodeFrameStart_boundaryDue (c : FrameCause) (b : Bool) :
    (s.timecodeFrameStart c b).boundaryDue = false := by
  unfold timecodeFrameStart
  dsimp only
  split
  · refine boundaryDue_of_pos _ ?_
    exact (Timecode.followingFrameStart_frame _).1 ▸ baseRate_period_pos _
  · split
    · rename_i h
      exact boundaryDue_of_pos _ (s.baseBoundary_baseCounter_pos h)
    · rename_i h
      exact (Bool.not_eq_true _).mp h

theorem lose_clock : s.lose.timecode.clock = s.timecode.clock := by
  unfold lose
  split
  · exact s.timecode.recordStep_clock
  · rfl

/-- The Intake's part of a frame start can only step the record-run label (R28). -/
theorem intakeFrameStart_clock (b : Bool) : (s.intakeFrameStart b).timecode.clock = s.timecode.clock := by
  have begun : ∀ u : State, (u.beginCapture b).timecode.clock = u.timecode.clock := by
    intro u
    unfold beginCapture
    split
    · rfl
    · exact (lose_clock _).trans (by rw [reportFault_timecode])
  unfold intakeFrameStart cutCapture
  split
  · exact begun s
  · refine (begun _).trans ((lose_clock _).trans ?_)
    rw [reportFault_timecode]

/-- After a frame start has been handed on, no boundary is due: the frame start took it (R25, R26, log 23). -/
theorem handFrameStart_boundaryDue (c : FrameCause) : (s.handFrameStart c).boundaryDue = false := by
  unfold handFrameStart
  extract_lets a b i d e f
  have hb : b.boundaryDue = false := a.timecodeFrameStart_boundaryDue ..
  rw [← hb]
  have hi : i.cadence = b.cadence := (b.intakeFrameStart_frame _).1
  have ht : (f.boardFrameStart [b, i, d, e, f]).timecode = i.timecode := by
    simp [f, e, d, boardFrameStart_frame, writerFrameStart_frame, trimStore_frame]
  refine boundaryDue_congr ?_ (by rw [ht]; exact b.intakeFrameStart_clock _)
  simp [f, e, d, boardFrameStart_frame, writerFrameStart_frame, trimStore_frame, hi]

theorem frameStart_boundaryDue (c : FrameCause) : (s.frameStart c).boundaryDue = false :=
  handFrameStart_boundaryDue _ c

/-- A frame start's cadence is settled before it is handed on (R3, R4). -/
theorem frameStart_cadence (c : FrameCause) :
    (s.frameStart c).cadence = (((s.numberFrame c).edgeHandling c).settleCounter c).cadence :=
  (handFrameStart_frame _ c).1

/-- A frame start drops the late count (R11, R12). -/
theorem settleCounter_late (c : FrameCause) : (s.settleCounter c).cadence.lateOpen = false ∧
    (s.settleCounter c).cadence.lateCount = 0 := by
  unfold settleCounter
  split <;> exact ⟨rfl, rfl⟩

theorem frameStart_late (c : FrameCause) : (s.frameStart c).cadence.lateOpen = false := by
  rw [frameStart_cadence]
  exact (settleCounter_late _ c).1

theorem closeDue_of_early (h : s.cadence.lateOpen = false) : s.closeDue = false := by
  simp [closeDue, h]

theorem expiryDue_of_late (h : s.cadence.lateOpen = true) : s.expiryDue = false := by
  simp [expiryDue, h]

/-! ### What falls on the present tick -/

/-- An expiry outside LOCKED makes its frame start, and nothing else is left of the tick (R2). -/
theorem settle_expiry (he : s.expiryDue = true) (hw : s.cadence.windowed = false) :
    s.settle = s.frameStart .expiry := by
  simp [settle, takeExpiry, he, hw, closeDue_of_early _ (s.frameStart_late .expiry), frameStart_boundaryDue]

/-- A close makes its frame start, and nothing else is left of the tick (R12). -/
theorem settle_close (hc : s.closeDue = true) : s.settle = s.frameStart .close := by
  obtain ⟨-, -, hl, -⟩ := s.closeDue_iff.mp hc
  simp [settle, expiryDue_of_late s hl, hc, frameStart_boundaryDue]

/-- A boundary is all that falls on the tick (R25). -/
theorem settle_boundary (he : s.expiryDue = false) (hc : s.closeDue = false) (hb : s.boundaryDue = true) :
    s.settle = s.baseBoundary := by
  simp [settle, he, hc, hb]

/-- With no expiry and no close due, the cadence stands. -/
theorem settle_early (he : s.expiryDue = false) (hc : s.closeDue = false) :
    s.settle = { s with timecode := s.settle.timecode } := by
  cases hb : s.boundaryDue with
  | true =>
    rw [settle_boundary s he hc hb]
    unfold baseBoundary
    split <;> rfl
  | false => rw [settle_quiet s he hc hb]

theorem windowed_eq_false (c : Cadence) (h : c.active.mode = .free ∨ c.lock ≠ .locked) : c.windowed = false := by
  cases hm : c.active.mode <;> simp_all [Cadence.windowed]

/-! ### Ticks one by one (log 2) -/

@[simp] theorem count_edgeLatch (n : Nat) : (s.count n).cadence.edgeLatch = s.cadence.edgeLatch := by
  simp only [count, Cadence.count]
  split
  · rfl
  · split <;> rfl

@[simp] theorem count_windowed (n : Nat) : (s.count n).cadence.windowed = s.cadence.windowed := by
  simp only [count, Cadence.count]
  split
  · rfl
  · split <;> rfl

/-- A tick brings the cadence's next event one tick nearer. -/
theorem ticksToEvent_count (h : s.cadence.edgeLatch = false) :
    (s.count 1).cadence.ticksToEvent = s.cadence.ticksToEvent.map (· - 1) := by
  have hc : (s.count 1).cadence.edgeLatch = false := by rw [count_edgeLatch, h]
  have hw := s.count_windowed 1
  unfold Cadence.ticksToEvent
  rw [h, hc, hw]
  cases hr : s.cadence.run with
  | stopped => simp [count, Cadence.count_stopped _ _ hr, hr]
  | running =>
    cases hl : s.cadence.lateOpen with
    | false => simp [count, Cadence.count_early _ _ hr hl, hr, hl]
    | true =>
      cases s.cadence.windowed with
      | false => simp [count, Cadence.count_late _ _ hr hl, hr, hl]
      | true => simp [count, Cadence.count_late _ _ hr hl, hr, hl]; omega

theorem ticksToEvent_of_due (hl : s.cadence.edgeLatch = false) (h : s.expiryDue = true ∨ s.closeDue = true) :
    s.cadence.ticksToEvent = some 0 := by
  unfold Cadence.ticksToEvent
  rcases h with h | h
  · obtain ⟨hr, ho, hc⟩ := s.expiryDue_iff.mp h
    simp [hl, hr, ho, hc]
  · obtain ⟨hr, hw, ho, ht⟩ := s.closeDue_iff.mp h
    simp [hl, hr, hw, ho, Nat.sub_eq_zero_of_le ht]

/-- A run of quiet ticks is as long as the ticks asked for, the cadence's next event and the next boundary allow. -/
theorem quietTicks_eq (n : Nat) : s.quietTicks n = max 1 (min n (min (s.cadence.ticksToEvent.getD n)
    (if s.following = true then n else s.timecode.baseCounter))) := by
  unfold quietTicks
  cases s.cadence.ticksToEvent <;> cases s.following <;> simp [Nat.min_comm, Nat.min_left_comm]

/-- A run of more than one tick ends at the cadence's next event at the latest, and at the next boundary. -/
theorem quietTicks_bounds (n : Nat) (h : 2 ≤ s.quietTicks n) : s.quietTicks n ≤ n ∧
    (∀ k, s.cadence.ticksToEvent = some k → s.quietTicks n ≤ k) ∧
    (s.following = false → s.quietTicks n ≤ s.timecode.baseCounter) := by
  rw [quietTicks_eq] at h ⊢
  refine ⟨by omega, fun k hk => ?_, fun hf => ?_⟩
  · rw [hk, Option.getD_some] at h ⊢
    omega
  · rw [hf, if_neg Bool.false_ne_true] at h ⊢
    omega

/-- A run of more than one quiet tick is one tick, with nothing due at its end, and the rest of the run. -/
theorem quietTicks_split (n : Nat) (h : 2 ≤ s.quietTicks n) :
    s.cadence.edgeLatch = false ∧ (s.count 1).expiryDue = false ∧ (s.count 1).closeDue = false ∧
      (s.count 1).boundaryDue = false ∧ (s.count 1).quietTicks (n - 1) = s.quietTicks n - 1 := by
  obtain ⟨-, hk, hb⟩ := s.quietTicks_bounds n h
  have hl : s.cadence.edgeLatch = false := by
    cases hl : s.cadence.edgeLatch with
    | false => rfl
    | true => have := hk 1 (by simp [Cadence.ticksToEvent, hl]); omega
  have far : ¬ ((s.count 1).expiryDue = true ∨ (s.count 1).closeDue = true) := by
    intro hd
    have h0 := ticksToEvent_of_due _ (by rw [count_edgeLatch, hl]) hd
    rw [s.ticksToEvent_count hl, Option.map_eq_some_iff] at h0
    obtain ⟨k, hs, h1⟩ := h0
    have := hk k hs
    omega
  have hd : (s.count 1).boundaryDue = false := by
    rw [Bool.eq_false_iff]
    intro hd
    obtain ⟨hf, h0⟩ := (boundaryDue_iff _).mp hd
    rw [count_following] at hf
    have := hb hf
    have : (s.count 1).timecode.baseCounter = s.timecode.baseCounter - 1 := rfl
    omega
  refine ⟨hl, by simpa using (not_or.mp far).1, by simpa using (not_or.mp far).2, hd, ?_⟩
  have hc : (s.count 1).timecode.baseCounter = s.timecode.baseCounter - 1 := rfl
  rw [quietTicks_eq] at h
  rw [quietTicks_eq, quietTicks_eq, s.ticksToEvent_count hl, count_following, hc]
  have event : (s.cadence.ticksToEvent.map (· - 1)).getD (n - 1) = s.cadence.ticksToEvent.getD n - 1 := by
    cases s.cadence.ticksToEvent <;> rfl
  have label : (if s.following = true then n - 1 else s.timecode.baseCounter - 1) =
      (if s.following = true then n else s.timecode.baseCounter) - 1 := by
    split <;> rfl
  rw [event, label]
  omega

theorem pass_pass (m n : Nat) (h : s.cadence.edgeLatch = false) : (s.pass m).pass n = s.pass (m + n) := by
  rw [pass_quiet s m h, pass_quiet s _ h, pass_quiet _ n (by rw [count_edgeLatch, h]), count_count]

/-- n ticks are one run of quiet ticks after what falls on the present one, and then the rest. -/
theorem elapse_run (n : Nat) (h : n ≠ 0) :
    s.elapse n = (s.settle.pass (s.settle.quietTicks n)).elapse (n - s.settle.quietTicks n) := by
  obtain ⟨m, rfl⟩ := Nat.exists_eq_add_one_of_ne_zero h
  have := s.settle.quietTicks_pos (m + 1)
  show elapseIn (m + 1) (m + 1) s = _
  rw [elapseIn, if_neg h]
  exact elapseIn_fuel _ _ _ _ (by omega) (by omega)

/-- Ticks pass one by one: what falls on the present one, then the next, then the others. -/
theorem elapse_succ (n : Nat) : s.elapse (n + 1) = (s.settle.pass 1).elapse n := by
  rw [elapse_run s (n + 1) (by omega)]
  generalize s.settle = t
  have hpos := t.quietTicks_pos (n + 1)
  rcases Nat.lt_or_ge (t.quietTicks (n + 1)) 2 with h | h
  · have hone : t.quietTicks (n + 1) = 1 := by omega
    rw [hone, Nat.add_sub_cancel]
  · obtain ⟨hl, he, hc, hb, hq⟩ := t.quietTicks_split (n + 1) h
    obtain ⟨hn, -⟩ := t.quietTicks_bounds (n + 1) h
    rw [Nat.add_sub_cancel] at hq
    rw [← pass_quiet t 1 hl] at he hc hb hq
    rw [elapse_run _ n (by omega), settle_quiet _ he hc hb, hq, pass_pass t _ _ hl, Nat.add_sub_of_le hpos,
      Nat.sub_sub_right n hpos]

theorem elapse_add (m n : Nat) : s.elapse (m + n) = (s.elapse m).elapse n := by
  induction m generalizing s with
  | zero => rw [Nat.zero_add, elapse_zero]
  | succ m ih => rw [Nat.succ_add, elapse_succ, elapse_succ, ih]

/-! ### Ticks with no event of the cadence -/

/-- The state after ticks that bring no event of the cadence: it counts them, the labels take their boundaries, the
strobe ends with the first tick, and nothing else changes (R1, R5, R6, R11, R25). -/
def counted (s : State) (n : Nat) (tc : Timecode) : State :=
  { s with
    cadence := s.cadence.count n
    timecode := tc
    intake := { s.intake with strobe := s.intake.strobe && decide (n = 0) } }

theorem counted_zero (h : s.cadence.count 0 = s.cadence) : s.counted 0 s.timecode = s := by
  simp [counted, h]

theorem counted_count (n : Nat) (tc : Timecode) :
    (s.counted n tc).count 1 = s.counted (n + 1) { tc with baseCounter := tc.baseCounter - 1 } := by
  simp [count, counted, Cadence.count_add]

theorem elapse_early (n : Nat) (hl : s.cadence.edgeLatch = false) (h0 : s.cadence.count 0 = s.cadence)
    (hn : ∀ m, m < n → (s.cadence.count m).ticksToEvent ≠ some 0) : ∃ tc, s.elapse n = s.counted n tc := by
  induction n with
  | zero => exact ⟨s.timecode, (s.counted_zero h0).symm⟩
  | succ n ih =>
    obtain ⟨tc, ht⟩ := ih fun m hm => hn m (by omega)
    have hlatch : ∀ tc, (s.counted n tc).cadence.edgeLatch = false := fun _ => (s.count_edgeLatch n).trans hl
    have far : ¬ ((s.counted n tc).expiryDue = true ∨ (s.counted n tc).closeDue = true) := fun hd =>
      hn n (by omega) (ticksToEvent_of_due _ (hlatch _) hd)
    obtain ⟨he, hc⟩ := not_or.mp far
    have settled : (s.counted n tc).settle = s.counted n (s.counted n tc).settle.timecode :=
      settle_early (s.counted n tc) (by simpa using he) (by simpa using hc)
    rw [elapse_add, ht, elapse_one, settled, pass_quiet _ _ (hlatch _)]
    exact ⟨_, s.counted_count n _⟩

/-! ### The idle step -/

/-- With nothing due, the block's own events are not due either (log 1). -/
theorem due_none (h : s.due = none) : s.expiryDue = false ∧ s.closeDue = false ∧ s.boundaryDue = false := by
  unfold due at h
  (repeat' split at h) <;> simp_all

/-- One tick counted, field by field (R1, R5, R6, R11, R25, log 34). -/
theorem count_one : s.count 1 = { s with
    cadence :=
      if s.cadence.run = .stopped then s.cadence
      else if s.cadence.lateOpen = true then
        { s.cadence with
          measure := min (s.cadence.measure + 1) 268435455
          lateCount := min (s.cadence.lateCount + 1) s.cadence.active.tolerance }
      else
        { s.cadence with
          measure := min (s.cadence.measure + 1) 268435455
          counter := s.cadence.counter - 1 }
    timecode := { s.timecode with baseCounter := s.timecode.baseCounter - 1 }
    intake := { s.intake with strobe := false } } := by
  cases hr : s.cadence.run with
  | stopped => simp [count, Cadence.count_stopped _ _ hr]
  | running =>
    cases hl : s.cadence.lateOpen with
    | true => simp [count, Cadence.count_late _ _ hr hl, measureLimit]
    | false => simp [count, Cadence.count_early _ _ hr hl, measureLimit]

/-- A tick that samples the latch. -/
theorem pass_latched (n : Nat) (h : s.cadence.edgeLatch = true) : s.pass n = (s.count n).sampleEdge := by
  simp [pass, h]

end State

/-- Settles O3: on an empty queue with nothing due a step is `elapse 1`, and ticks pass one by one (`State.elapse_succ`). -/
theorem idleStepIsOneTick : Obligations.IdleStepIsOneTick := by
  intro s
  dsimp only
  rw [← s.count_one]
  refine ⟨fun hp hd => ?_, s.pass_quiet 1, s.pass_latched 1, s.elapse_zero, s.elapse_succ, s.settle_quiet,
    fun he hw => s.settle_expiry he (State.windowed_eq_false _ hw), s.settle_close⟩
  obtain ⟨he, hc, hb⟩ := s.due_none hd
  have hs : step s = .next (s.pass 1) := by
    simp only [step, hp, hd, s.elapse_one, s.settle_quiet he hc hb]
  exact ⟨fun h => by rw [hs, s.pass_quiet 1 h], fun h => by rw [hs, s.pass_latched 1 h]⟩

end Sys2Proof.Machine
end

