-- ==== Sys2Proof/Proofs/LockStates.lean ====
section
-- One proof at a time: a stack for every waiting proof of this text would pass the memory limit of the check.
set_option Elab.async false
/-! Lock states and settings (R3, R8, R10, R14, R15): the cadence a change of them leaves, and the LOCK it raises. -/

namespace Sys2Proof.Machine

/-! ### A change of the lock state (R15) -/

/-- The cadence replaced, with LOCK raised where its lock state is another (R15). -/
def State.relock (s : State) (c : Cadence) : State :=
  if c.lock = s.cadence.lock then { s with cadence := c }
  else State.withCauses { s with cadence := c } 0x20#8

/-- The cadence with its counts at 0 in a lock state (R8, R10, R14). -/
def Cadence.entering (c : Cadence) (l : LockState) : Cadence :=
  { c.zeroCounts with lock := l }

/-- The cadence as a change to SEEKING leaves it (R8). -/
def Cadence.seeking (c : Cadence) : Cadence :=
  { c.entering .seeking with edgeLatch := false, measure := measureLimit }

namespace State

variable (s : State)

theorem raise_lock : s.raise .lock = s.withCauses 0x20#8 :=
  s.raise_eq .lock

theorem relock_same {c : Cadence} (h : c.lock = s.cadence.lock := by rfl) : s.relock c = { s with cadence := c } := by
  simp [relock, h]

theorem relock_changed {c : Cadence} (h : c.lock ≠ s.cadence.lock) :
    s.relock c = State.withCauses { s with cadence := c } 0x20#8 := by
  simp [relock, h]

@[simp] theorem relock_cadence (c : Cadence) : (s.relock c).cadence = c := by
  unfold relock
  split <;> rfl

/-- A lock state change after other changes of the cadence that leave the lock state. -/
theorem setLock_relock (c : Cadence) (l : LockState) (h : c.lock = s.cadence.lock := by rfl) :
    State.setLock { s with cadence := c } l = s.relock { c with lock := l } := by
  by_cases hl : c.lock = l
  · subst hl
    rw [relock_same s (by exact h)]
    exact State.setLock_self _
  · rw [setLock_ne _ _ (by exact hl), raise_lock, relock_changed s (by rw [← h]; exact Ne.symm hl)]

theorem enterUnused_eq : s.enterUnused = s.relock (s.cadence.entering .unused) :=
  s.setLock_relock _ _

theorem enterLocked_eq : s.enterLocked = s.relock (s.cadence.entering .locked) :=
  s.setLock_relock _ _

theorem enterSeeking_eq : s.enterSeeking = s.relock s.cadence.seeking :=
  s.setLock_relock _ _

theorem enterHoldover_eq : s.enterHoldover = (s.relock (s.cadence.entering .holdover)).reportFault .referenceLost
    s.cadence.frameNumber s.openTakeNumber s.cadence.frameNumber := by
  have h : State.setLock { s with cadence := s.cadence.zeroCounts } .holdover =
      s.relock (s.cadence.entering .holdover) := s.setLock_relock _ _
  rw [← h]
  rfl

/-- Only the lock state before counts for LOCK. -/
theorem relock_relock (c d : Cadence) (h : c.lock = s.cadence.lock) :
    State.relock { s with cadence := c } d = s.relock d := by
  simp [relock, h, withCauses]

end State

/-! ### Settings (R3) -/

theorem CadenceMode.free_or_locked (m : CadenceMode) : m = .free ∨ m = .locked := by
  cases m <;> simp

theorem CadenceSetting.differs_iff (x a : CadenceSetting) :
    x.differs a = true ↔ x.period ≠ a.period ∨ x.mode ≠ a.mode := by
  simp [CadenceSetting.differs]

theorem CadenceSetting.regrids_iff (x a : CadenceSetting) :
    x.regrids a = true ↔ ¬ (x.period = a.period ∧ x.mode = a.mode ∧ x.polarity = a.polarity) := by
  simp only [CadenceSetting.regrids, CadenceSetting.differs, Bool.or_eq_true, bne_iff_ne, ne_eq]
  tauto

/-- The cadence as the table of R3 leaves it, but for the counter: UNUSED in FREE, SEEKING with a new mode, period or
polarity, and else the lock state and all that goes with it held. -/
def Cadence.applied (c : Cadence) (x : CadenceSetting) : Cadence :=
  let taken := { c with active := x, pending := none }
  match x.mode with
  | .free => taken.entering .unused
  | .locked => if x.regrids c.active = true then taken.seeking else taken

namespace State

variable (s : State)

theorem applySetting_eq (x : CadenceSetting) : s.applySetting x = s.relock (s.cadence.applied x) := by
  unfold applySetting Cadence.applied
  dsimp only
  simp only [enterUnused_eq, enterSeeking_eq, s.relock_relock { s.cadence with active := x, pending := none } _ rfl]
  have stays : { s with cadence := { s.cadence with active := x, pending := none } } =
      s.relock { s.cadence with active := x, pending := none } := s.relock_same.symm
  cases hm : x.mode with
  | free => rfl
  | locked =>
    cases ho : s.cadence.active.mode with
    | free =>
      have : x.regrids s.cadence.active = true := by
        rw [CadenceSetting.regrids_iff, hm, ho]
        simp
      simp [this]
    | locked => cases x.regrids s.cadence.active <;> simp [stays]

/-- A frame start that applies no setting only loads the counter (R2, R12). -/
theorem settleCounter_none (cause : FrameCause) (h : s.settingDue = none) :
    s.settleCounter cause = { s with cadence := s.cadence.load (decide (cause = .close)) } := by
  simp [settleCounter, h]

/-- A frame start that applies a setting (R3). -/
theorem settleCounter_some (cause : FrameCause) (x : CadenceSetting) (h : s.settingDue = some x) :
    s.settleCounter cause = s.relock ((s.cadence.applied x).load
      (decide (cause = .close) && !x.regrids s.cadence.active)) := by
  simp only [settleCounter, h, applySetting_eq, relock_cadence]
  by_cases hl : (s.cadence.applied x).lock = s.cadence.lock
  · rw [relock_same s hl, relock_same s (by exact hl)]
  · rw [relock_changed s hl, relock_changed s (by exact hl)]
    rfl

theorem settingDue_none (h : s.cadence.pending = none) : s.settingDue = none := by
  simp [settingDue, h]

/-- A setting is due at a frame start unless an OPEN take holds it back (R3). -/
theorem settingDue_some {x : CadenceSetting} (h : s.cadence.pending = some x)
    (hx : s.takeIsOpen = false ∨ (x.period = s.cadence.active.period ∧ x.mode = s.cadence.active.mode)) :
    s.settingDue = some x := by
  simp only [settingDue, h, Bool.and_eq_true, CadenceSetting.differs_iff]
  rw [if_neg]
  rintro ⟨ho, hd⟩
  rcases hx with hx | ⟨h1, h2⟩
  · simp [hx] at ho
  · exact hd.elim (· h1) (· h2)

theorem settingDue_held {x : CadenceSetting} (h : s.cadence.pending = some x) (ho : s.takeIsOpen = true)
    (hd : x.period ≠ s.cadence.active.period ∨ x.mode ≠ s.cadence.active.mode) : s.settingDue = none := by
  simp only [settingDue, h, Bool.and_eq_true, CadenceSetting.differs_iff]
  rw [if_pos ⟨ho, hd⟩]

end State

/-! ### The rows of R3's table -/

namespace Cadence

variable (c : Cadence) (x : CadenceSetting)

/-- A setting that becomes active with its counter loaded, the lock state aside: on the grid only where nothing but the
tolerance changes at a close (R3, R12). -/
def taken (cause : FrameCause) : Cadence :=
  { c with
    active := x, pending := none, lateOpen := false, lateCount := 0
    counter := if cause = .close ∧ x.period = c.active.period ∧ x.mode = c.active.mode ∧
        x.polarity = c.active.polarity then x.period - x.tolerance else x.period }

theorem load_grid (d : Cadence) (cause : FrameCause) (hd : d.active = x) :
    d.load (decide (cause = .close) && !x.regrids c.active) = { d with
      counter := (c.taken x cause).counter, lateOpen := false, lateCount := 0 } := by
  have h : (decide (cause = .close) && !x.regrids c.active) = true ↔ cause = .close ∧ x.period = c.active.period ∧
      x.mode = c.active.mode ∧ x.polarity = c.active.polarity := by
    rw [Bool.and_eq_true, decide_eq_true_iff, Bool.not_eq_true', Bool.eq_false_iff, ne_eq,
      CadenceSetting.regrids_iff, not_not]
  simp only [load, taken, hd, h]

/-- Into FREE: UNUSED. -/
theorem applied_free (cause : FrameCause) (hm : x.mode = .free) :
    (c.applied x).load (decide (cause = .close) && !x.regrids c.active) =
      (c.taken x cause).entering .unused := by
  rw [load_grid c x _ cause (by simp [applied, hm, entering, zeroCounts])]
  simp [applied, hm, entering, zeroCounts, taken]

/-- In LOCKED with a new mode, period or polarity: SEEKING. -/
theorem applied_seeks (cause : FrameCause) (hm : x.mode = .locked) (hx : x.regrids c.active = true) :
    (c.applied x).load (decide (cause = .close) && !x.regrids c.active) = (c.taken x cause).seeking := by
  rw [load_grid c x _ cause (by simp [applied, hm, hx, seeking, entering, zeroCounts])]
  simp [applied, hm, hx, seeking, entering, zeroCounts, taken]

/-- In LOCKED with none of the three: the lock state and all that goes with it hold. -/
theorem applied_holds (cause : FrameCause) (hm : x.mode = .locked) (hx : x.regrids c.active = false) :
    (c.applied x).load (decide (cause = .close) && !x.regrids c.active) = c.taken x cause := by
  rw [load_grid c x _ cause (by simp [applied, hm, hx])]
  simp [applied, hm, hx, taken]

end Cadence

/-- Settles O35: a setting that a frame start applies leaves a row of R3's table (`Cadence.applied_free`,
`Cadence.applied_seeks`, `Cadence.applied_holds`). -/
theorem pendingSettingTable : Obligations.PendingSettingTable := by
  intro s cause x hx
  dsimp only
  refine ⟨fun ho hd => ?_, fun hfree => ?_⟩
  · rw [s.settleCounter_none cause (s.settingDue_held hx ho hd)]
    cases cause <;> rfl
  · rw [s.settleCounter_some cause x (s.settingDue_some hx hfree), State.relock_cadence]
    have relocked : ∀ c : Cadence, (c.lock = s.cadence.lock → s.relock c = { s with cadence := c }) ∧
        (c.lock ≠ s.cadence.lock → s.relock c = State.withCauses { s with cadence := c } 0x20#8) :=
      fun c => ⟨fun h => s.relock_same h, fun h => s.relock_changed h⟩
    have grid : cause = .close → x.period = s.cadence.active.period → x.mode = s.cadence.active.mode →
        x.polarity = s.cadence.active.polarity → (s.cadence.taken x cause).counter = x.period - x.tolerance :=
      fun hc h1 h2 h3 => if_pos ⟨hc, h1, h2, h3⟩
    have full : cause ≠ .close ∨ x.period ≠ s.cadence.active.period ∨ x.mode ≠ s.cadence.active.mode ∨
        x.polarity ≠ s.cadence.active.polarity → (s.cadence.taken x cause).counter = x.period := by
      intro h
      refine if_neg ?_
      tauto
    rcases x.mode.free_or_locked with hm | hm
    · have unlocked : x.mode ≠ .locked := by simp [hm]
      rw [s.cadence.applied_free x cause hm]
      exact ⟨rfl, rfl, rfl, rfl, rfl, grid, full, fun _ => ⟨rfl, rfl⟩, fun h => absurd h unlocked,
        fun h => absurd h unlocked, (relocked _).1, (relocked _).2, fun _ => rfl, fun h => absurd h unlocked,
        fun h => absurd h unlocked⟩
    · have unfree : x.mode ≠ .free := by simp [hm]
      by_cases hr : x.regrids s.cadence.active = true
      · have changed := (CadenceSetting.regrids_iff _ _).mp hr
        rw [s.cadence.applied_seeks x cause hm hr]
        exact ⟨rfl, rfl, rfl, rfl, rfl, grid, full, fun h => absurd h unfree,
          fun _ _ => ⟨rfl, rfl, rfl, rfl, rfl, rfl⟩, fun _ h1 h2 h3 => absurd ⟨h2, hm.trans h1.symm, h3⟩ changed,
          (relocked _).1, (relocked _).2, fun h => absurd h unfree, fun _ _ => rfl, fun _ h => absurd h changed⟩
      · have held : x.period = s.cadence.active.period ∧ x.mode = s.cadence.active.mode ∧
            x.polarity = s.cadence.active.polarity := not_not.mp (mt (CadenceSetting.regrids_iff _ _).mpr hr)
        rw [s.cadence.applied_holds x cause hm ((Bool.not_eq_true _).mp hr)]
        refine ⟨rfl, rfl, rfl, rfl, rfl, grid, full, fun h => absurd h unfree, fun _ h => ?_,
          fun _ _ _ _ => ⟨rfl, rfl, rfl, rfl, rfl⟩, (relocked _).1, (relocked _).2, fun h => absurd h unfree,
          fun _ h => absurd held h, fun _ _ => rfl⟩
        obtain ⟨h1, h2, h3⟩ := held
        rcases h with h | h | h
        · exact absurd (h2.trans h) unfree
        · exact absurd h1 h
        · exact absurd h3 h

end Sys2Proof.Machine
end

