-- ==== Sys2Proof/Proofs/TakeCloses.lean ====
section
-- One proof at a time: a stack for every waiting proof of this text would pass the memory limit of the check.
set_option Elab.async false
/-! The close of a take (R117, R118): the one OPEN record becomes CLOSED. -/

namespace Sys2Proof.Machine

theorem TakePhase.closed_of_ne {p : TakePhase} (h : p ≠ .opened) : p = .closed := by
  cases p <;> simp_all

theorem TakeRecord.closeIf_number (n : Word) (c : CloseCause) (r : TakeRecord) :
    (r.closeIf n c).number = r.number := by
  unfold TakeRecord.closeIf
  split <;> rfl

/-- The record that is named and OPEN becomes CLOSED. -/
theorem TakeRecord.closeIf_open (c : CloseCause) {r : TakeRecord} (h : r.phase = .opened) :
    r.closeIf r.number c = { r with phase := .closed, cause := c } := by
  simp [TakeRecord.closeIf, h]

theorem TakeRecord.closeIf_closed (n : Word) (c : CloseCause) {r : TakeRecord} (h : r.phase = .closed) :
    r.closeIf n c = r := by
  simp [TakeRecord.closeIf, h]

theorem TakeRecord.onward_closeIf (n : Word) (c : CloseCause) : TakeRecord.Onward (TakeRecord.closeIf n c) where
  number := closeIf_number n c
  closed r h := by rw [closeIf_closed n c h, h]
  drained r h := by
    unfold closeIf at h
    split at h
    · exact .inl h
    · exact .inl h

namespace State

variable {s : State}

theorem testDrained_cause (s : State) (r : TakeRecord) : (s.testDrained r).cause = r.cause := by
  unfold testDrained
  (repeat' split) <;> rfl

/-- Only the newest record of a legal table can be OPEN (R114). -/
theorem TakesLegal.open_unique (h : s.TakesLegal) {x y : TakeRecord} (hx : x ∈ s.takes.table)
    (hy : y ∈ s.takes.table) (ox : x.phase = .opened) (oy : y.phase = .opened) : x = y := by
  have newest : ∀ r ∈ s.takes.table, r.phase = .opened → s.takes.table.getLast? = some r := by
    intro r hr ho
    by_contra hd
    have := h.newest r (List.mem_dropLast_of_mem_of_ne_getLast? hr (Ne.symm hd))
    rw [ho] at this
    exact absurd this nofun
  exact Option.some.inj ((newest x hx ox).symm.trans (newest y hy oy))

theorem openTake_some {r : TakeRecord} (h : s.openTake = some r) : r ∈ s.takes.table ∧ r.phase = .opened := by
  have := List.find?_some h
  exact ⟨List.mem_of_find?_eq_some h, by simpa using this⟩

/-- A close of a record that is not OPEN changes nothing (R117, R118). -/
theorem closeTake_none {n : Word} (c : CloseCause) (h : ∀ r ∈ s.takes.table, r.number = n → r.phase = .closed) :
    s.closeTake n c = s := by
  unfold closeTake
  rw [if_neg]
  simp only [List.any_eq_true, Bool.and_eq_true, beq_iff_eq, not_exists, not_and]
  intro r hr hn ho
  have := h r hr hn
  rw [ho] at this
  exact absurd this nofun

/-- The table that the close of an OPEN record leaves. -/
theorem closeTake_table {r : TakeRecord} (c : CloseCause) (hr : r ∈ s.takes.table) (ho : r.phase = .opened) :
    ∃ u : State, (s.closeTake r.number c).takes = { s.takes with
      table := s.takes.table.map (u.testDrained ∘ TakeRecord.closeIf r.number c) } := by
  unfold closeTake
  rw [if_pos (List.any_eq_true.mpr ⟨r, hr, by simp [ho]⟩)]
  exact ⟨_, by simp only [settleDrained, List.map_map]; rfl⟩

theorem closeTake_board {r : TakeRecord} (c : CloseCause) (hr : r ∈ s.takes.table) (ho : r.phase = .opened) :
    (s.closeTake r.number c).board = { s.board with mode := .standby } := by
  unfold closeTake
  rw [if_pos (List.any_eq_true.mpr ⟨r, hr, by simp [ho]⟩)]
  rfl

theorem onward_close (u : State) (n : Word) (c : CloseCause) :
    TakeRecord.Onward (u.testDrained ∘ TakeRecord.closeIf n c) :=
  u.steady_testDrained.onward.comp (TakeRecord.onward_closeIf n c)

/-- After the close of the OPEN record the table is legal, no take is OPEN, and the record is there, CLOSED with the
cause (R117, R118). -/
theorem TakesLegal.close (h : s.TakesLegal) {r : TakeRecord} (c : CloseCause) (hr : r ∈ s.takes.table)
    (ho : r.phase = .opened) :
    (s.closeTake r.number c).TakesLegal ∧ (s.closeTake r.number c).takeIsOpen = false ∧
      ∃ x ∈ (s.closeTake r.number c).takes.table, x.number = r.number ∧ x.phase = .closed ∧ x.cause = c := by
  obtain ⟨u, ht⟩ := closeTake_table c hr ho
  have table := congrArg Takes.table ht
  have hw : (s.closeTake r.number c).writer = s.writer := by simp [closeTake_frame]
  refine ⟨h.map (onward_close u r.number c) table (endsTake_congr (by rw [hw])), ?_, ?_⟩
  · rw [Bool.eq_false_iff, ne_eq, takeIsOpen_iff, table]
    simp only [List.mem_map, not_exists, not_and]
    rintro _ ⟨x, hx, rfl⟩
    have closed : (TakeRecord.closeIf r.number c x).phase = .closed := by
      by_cases hp : x.phase = .opened
      · rw [h.open_unique hx hr hp ho, TakeRecord.closeIf_open c ho]
      · exact (TakeRecord.onward_closeIf _ c).closed x (TakePhase.closed_of_ne hp)
    simp [u.steady_testDrained.phase, closed]
  · refine ⟨u.testDrained (r.closeIf r.number c), by rw [table]; exact List.mem_map_of_mem hr, ?_, ?_, ?_⟩
    · exact (onward_close u r.number c).number r
    · rw [u.steady_testDrained.phase, TakeRecord.closeIf_open c ho]
    · rw [testDrained_cause, TakeRecord.closeIf_open c ho]

end State
end Sys2Proof.Machine
end

