-- ==== Sys2Proof/Proofs/CadenceDirectives.lean ====
section
-- One proof at a time: a stack for every waiting proof of this text would pass the memory limit of the check.
set_option Elab.async false
/-! The cadence directives and the reset (R16 to R20). -/

namespace Sys2Proof.Machine

/-! ### What a directive command answers (R176) -/

namespace State

variable (s : State)

theorem attached_iff : s.attached = true ↔
    s.board.mode = .idle ∨ s.board.mode = .standby ∨ s.board.mode = .recording := by
  unfold attached
  cases s.board.mode <;> simp

/-- A directive that its owner refuses. -/
theorem direct_refuse {d : Directive} {code : ResultCode} (ha : s.attached = true)
    (hm : s.board.mode = .idle → d.inIdle = true)
    (h : s.applyOwner d = (s, DirectiveResult.refuse code)) : s.direct d = s.refusing code := by
  rw [s.direct_owner d ha hm, h]
  rfl

/-- A directive that its owner carries out, with its result data. -/
theorem direct_carry {d : Directive} {t : State} {code : ResultCode} {fields : List (Nat × List Byte)}
    {first : List Byte} {mask : Nat} (ha : s.attached = true) (hm : s.board.mode = .idle → d.inIdle = true)
    (h : s.applyOwner d = (t, DirectiveResult.carried code fields mask))
    (hd : layout 16 (fields ++ [(12, leBytes 4 mask)]) =
      first ++ List.replicate (12 - first.length) 0#8 ++ leBytes 4 mask := by rfl) :
    s.direct d = t.answering code first mask := by
  rw [s.direct_owner d ha hm, h]
  unfold countRefusal
  rw [if_neg (by simp only [DirectiveResult.carried]; split <;> simp)]
  simp only [DirectiveResult.carried, hd]
  rfl

end State

/-! ### Ticks up to the next expiry (R1, R2) -/

theorem Cadence.count_zero (c : Cadence) (hm : c.measure ≤ 268435455)
    (hl : c.lateOpen = true → c.lateCount ≤ c.active.tolerance) : c.count 0 = c := by
  cases hr : c.run with
  | stopped => exact c.count_stopped 0 hr
  | running =>
    cases ho : c.lateOpen with
    | false => simp [c.count_early 0 hr ho, measureLimit, hm]
    | true => simp [c.count_late 0 hr ho, measureLimit, hm, hl ho]

namespace State

variable {s : State}

/-- Up to its expiry a running cadence only counts (R1, R2). -/
theorem elapse_to_expiry (n : Nat) (hr : s.cadence.run = .running) (ho : s.cadence.lateOpen = false)
    (hl : s.cadence.edgeLatch = false) (hm : s.cadence.measure ≤ 268435455) (hn : n ≤ s.cadence.counter) :
    ∃ tc, s.elapse n = s.counted n tc := by
  refine s.elapse_early n hl (s.cadence.count_zero hm (by simp [ho])) fun m hlt => ?_
  simp [Cadence.ticksToEvent, s.cadence.count_early m hr ho, hl, hr, ho]
  omega

end State

/-! ### START_CADENCE and SET_CADENCE (R16, R18) -/

/-- A cadence that has started: the first expiry is one active period away (R18). -/
theorem State.startCadence_cadence (s : State) :
    s.startCadence.cadence.run = .running ∧ s.startCadence.cadence.lateOpen = false ∧
      s.startCadence.cadence.edgeLatch = false ∧ s.startCadence.cadence.measure = 268435455 ∧
      s.startCadence.cadence.counter = s.cadence.active.period := by
  unfold State.startCadence
  extract_lets c b t
  split
  · exact ⟨rfl, rfl, rfl, rfl, rfl⟩
  · rw [State.enterSeeking_eq, State.relock_cadence]
    exact ⟨rfl, rfl, rfl, rfl, rfl⟩

/-- Settles O20: the start is `State.startCadence`, and a started cadence counts down its period. -/
theorem startCadenceStarts : Obligations.StartCadenceStarts := by
  intro s
  refine ⟨fun hm hu => ?_, fun hm => ?_⟩
  · have hd : s.direct .startCadence = s.startCadence.answering .none [] 0 :=
      s.direct_carry (fields := []) (s.attached_iff.mpr (.inl hm)) (fun _ => rfl)
        (by simp only [State.applyOwner, State.applyStartCadence, hm])
    have hexec : exec .startCadence s = .next (s.startCadence.answering .none [] 0) := congrArg _ hd
    refine ⟨_, hexec, fun n hn => ?_, fun hf => ?_, fun hk => ?_⟩
    · obtain ⟨hr, ho, hl, hmeasure, hc⟩ := s.startCadence_cadence
      rw [← hc] at hn ⊢
      obtain ⟨tc, ht⟩ := State.elapse_to_expiry (s := s.startCadence.answering .none [] 0) n hr ho hl
        (Nat.le_of_eq hmeasure) hn
      have counted : (s.startCadence.cadence.count n).run = .running ∧
          (s.startCadence.cadence.count n).lateOpen = false ∧
          (s.startCadence.cadence.count n).counter = s.startCadence.cadence.counter - n := by
        rw [Cadence.count_early _ n hr ho]
        exact ⟨hr, ho, rfl⟩
      obtain ⟨h1, h2, h3⟩ := counted
      rw [ht, Bool.eq_iff_iff, State.expiryDue_iff, decide_eq_true_iff]
      show (s.startCadence.cadence.count n).run = .running ∧ (s.startCadence.cadence.count n).lateOpen = false ∧
        (s.startCadence.cadence.count n).counter = 0 ↔ _
      rw [h1, h2, h3]
      simp only [true_and]
      omega
    · simp [State.startCadence, hf]
      rfl
    · simp only [State.startCadence, hk, State.enterSeeking_eq]
      rw [State.relock_changed _ (by simp [Cadence.seeking, Cadence.entering, hu])]
      rfl
  · refine congrArg _ (s.direct_refuse (s.attached_iff.mpr (.inr hm)) (fun _ => rfl) ?_)
    rcases hm with h | h <;> simp [State.applyOwner, State.applyStartCadence, h]

/-! #### The operands of SET_CADENCE (R16) -/

theorem cadenceMode_bad {b : Byte} (h : 1 < b.toNat) : cadenceMode b = none := by
  have h0 : b ≠ 0#8 := by rintro rfl; simp at h
  have h1 : b ≠ 1#8 := by rintro rfl; simp at h
  simp [cadenceMode, h0, h1]

theorem polarityOf_bad {b : Byte} (h : 1 < b.toNat) : polarityOf b = none := by
  have h0 : b ≠ 0#8 := by rintro rfl; simp at h
  have h1 : b ≠ 1#8 := by rintro rfl; simp at h
  simp [polarityOf, h0, h1]

theorem cadenceMode_good {b : Byte} {m : CadenceMode} (h : (b = 0#8 ∧ m = .free) ∨ (b = 1#8 ∧ m = .locked)) :
    cadenceMode b = some m := by
  rcases h with ⟨rfl, rfl⟩ | ⟨rfl, rfl⟩ <;> rfl

theorem polarityOf_good {b : Byte} {p : Polarity} (h : (b = 0#8 ∧ p = .rising) ∨ (b = 1#8 ∧ p = .falling)) :
    polarityOf b = some p := by
  rcases h with ⟨rfl, rfl⟩ | ⟨rfl, rfl⟩ <;> rfl

theorem settingMask_eq (x : CadenceSetting) (period : BitVec 64) (tolerance : Word) :
    settingMask x period tolerance = (if x.period = period.toNat then 0 else 1) +
      (if x.tolerance = tolerance.toNat then 0 else 2) := by
  unfold settingMask bit
  congr 1
  · by_cases h : x.period = period.toNat <;> simp [h]
  · by_cases h : x.tolerance = tolerance.toNat <;> simp [h]

/-- A SET_CADENCE that is carried out answers the setting used (R16). -/
theorem State.direct_setCadence {s t : State} {period : BitVec 64} {mode polarity : Byte} {tolerance : Word}
    {code : ResultCode} {x : CadenceSetting} {mask : Nat} (ha : s.attached = true)
    (h : s.applySetCadence period mode polarity tolerance = (t, settingResult code x mask)) :
    s.direct (.setCadence period mode polarity tolerance) =
      t.answering code (leBytes 8 x.period ++ leBytes 4 x.tolerance) mask :=
  s.direct_carry (fields := [(0, leBytes 8 x.period), (8, leBytes 4 x.tolerance)]) ha (fun _ => rfl) h

/-- Settles O22: the codes, the clamps and the placing of a setting. -/
theorem setCadenceTakesSetting : Obligations.SetCadenceTakesSetting := by
  intro s period mode polarity tolerance ha
  refine ⟨fun hbad => ?_, fun m p hmode hpol => ?_⟩
  · refine congrArg _ (s.direct_refuse ha (fun _ => rfl) ?_)
    rcases hbad with h | h
    · simp [State.applyOwner, State.applySetCadence, cadenceMode_bad h]
    · simp [State.applyOwner, State.applySetCadence, polarityOf_bad h]
  · intro x mask data
    have hx : x = settingUsed period m p tolerance := by
      simp [x, settingUsed, clampNat]
    have hmask : mask = settingMask x period tolerance := (settingMask_eq ..).symm
    have used : s.applySetCadence period mode polarity tolerance = s.useSetting x mask := by
      simp only [State.applySetCadence, cadenceMode_good hmode, polarityOf_good hpol, ← hx, ← hmask]
    have differs : x.differs s.cadence.active = true ↔
        x.period ≠ s.cadence.active.period ∨ x.mode ≠ s.cadence.active.mode := x.differs_iff _
    refine ⟨fun hr => ?_, fun hr ho hd => ?_, fun hr hd => ?_⟩
    · refine congrArg _ (State.direct_setCadence ha (used.trans ?_))
      simp only [State.useSetting, hr]
    · refine congrArg _ (s.direct_refuse (d := .setCadence period mode polarity tolerance) ha (fun _ => rfl)
        (used.trans ?_))
      simp only [State.useSetting, hr, ho, differs.mpr hd, Bool.and_self, if_true]
    · refine congrArg _ (State.direct_setCadence ha (used.trans ?_))
      have staged : (s.takeIsOpen && x.differs s.cadence.active) = false := by
        rw [Bool.and_eq_false_iff]
        refine hd.imp_right fun h => ?_
        rw [Bool.eq_false_iff, ne_eq, differs, not_or, not_not, not_not]
        exact h
      simp only [State.useSetting, hr, staged, Bool.false_eq_true, if_false]

/-! ### STOP_CADENCE (R19) -/

namespace State

variable (s : State)

/-- The cadence as a stop leaves it, LOCK raised where the lock state was another than UNUSED (R8, R19, log 25). -/
def halted : State :=
  s.relock { s.cadence.halt with lock := .unused }

theorem halted_frame : s.halted.timecode = s.timecode ∧ s.halted.takes = s.takes ∧ s.halted.store = s.store ∧
    s.halted.governor = s.governor ∧ s.halted.board = s.board ∧ s.halted.writer = s.writer := by
  unfold halted relock
  split <;> exact ⟨rfl, rfl, rfl, rfl, rfl, rfl⟩

/-- A stop up to the activation of a pending profile (log 37). -/
def stopped : State :=
  (s.halted.boundaryAfter s.following).closeForStop

theorem stopCadence_eq : s.stopCadence =
    { s.stopped.activatePending with board := { s.stopped.activatePending.board with mode := .idle } } := by
  have h : State.setLock { s with cadence := s.cadence.halt } .unused = s.halted := s.setLock_relock _ _
  unfold stopCadence
  rw [h]
  rfl

/-- The boundary of a label that stops following at zero (R25, log 37). -/
theorem halted_boundaryAfter_timecode : (s.halted.boundaryAfter s.following).timecode =
    if s.following = true ∧ s.timecode.baseCounter = 0 then s.timecode.boundary else s.timecode := by
  obtain ⟨ht, -⟩ := s.halted_frame
  have unfollowed : s.halted.following = false := by
    simp [following, halted]
  unfold boundaryAfter baseBoundary
  rw [unfollowed, ht]
  split
  · simp
  · exact ht

/-- The take close of a stop (R19, R118): the newest record, where it is OPEN. -/
theorem TakesLegal.closeForStop {s : State} (h : s.TakesLegal) :
    s.closeForStop.TakesLegal ∧ s.closeForStop.takeIsOpen = false ∧
      s.closeForStop.takes.table.map TakeRecord.number = s.takes.table.map TakeRecord.number ∧
      (∀ r, s.openTake = some r → ∃ x ∈ s.closeForStop.takes.table,
        x.number = r.number ∧ x.phase = .closed ∧ x.cause = .cadenceStopped) ∧
      (s.openTake = none → s.closeForStop = s) ∧
      s.closeForStop.takes.profile = s.takes.profile ∧
      s.closeForStop.takes.pendingProfile = s.takes.pendingProfile := by
  unfold State.closeForStop
  cases ho : s.openTake with
  | none => exact ⟨h, by simp [takeIsOpen, ho], rfl, nofun, fun _ => rfl, rfl, rfl⟩
  | some r =>
    obtain ⟨hr, hp⟩ := openTake_some ho
    obtain ⟨hl, hc, hx⟩ := h.close .cadenceStopped hr hp
    obtain ⟨u, ht⟩ := closeTake_table .cadenceStopped hr hp
    refine ⟨hl, hc, ?_, fun _ e => Option.some.inj e ▸ hx, nofun, by rw [ht], by rw [ht]⟩
    have : TakeRecord.number ∘ (u.testDrained ∘ TakeRecord.closeIf r.number .cadenceStopped) = TakeRecord.number :=
      funext (onward_close u r.number .cadenceStopped).number
    rw [ht, List.map_map, this]

theorem stopped_frame : s.stopped.cadence = { s.cadence.halt with lock := .unused } ∧
    s.stopped.notices = s.halted.notices ∧ s.stopped.link = s.halted.link ∧ s.stopped.governor = s.governor ∧
    s.stopped.store = s.store ∧ (∀ m, { s.stopped.board with mode := m } = { s.board with mode := m }) ∧
    s.stopped.timecode =
      if s.following = true ∧ s.timecode.baseCounter = 0 then s.timecode.boundary else s.timecode := by
  obtain ⟨-, -, hst, hg, hb, -⟩ := s.halted_frame
  obtain ⟨k1, -, -, kg, kst, -, -, -, kb, -, kn, -, -, -, kl, -⟩ := s.halted.boundaryAfter_frame s.following
  obtain ⟨j1, jt, -, -, jg, jst, -, -, -, jn, -, -, -, jl, -⟩ :=
    (s.halted.boundaryAfter s.following).closeForStop_frame
  refine ⟨j1.trans (k1.trans (s.relock_cadence _)), jn.trans kn, jl.trans kl, jg.trans (kg.trans hg),
    jst.trans (kst.trans hst), fun m => ?_, jt.trans s.halted_boundaryAfter_timecode⟩
  rw [← hb, ← kb]
  show { (s.halted.boundaryAfter s.following).closeForStop.board with mode := m } = _
  generalize s.halted.boundaryAfter s.following = u
  unfold closeForStop closeTake
  split
  · rfl
  · split <;> rfl

theorem stopped_takes (h : s.TakesLegal) : s.stopped.takeIsOpen = false ∧
    s.stopped.takes.table.map TakeRecord.number = s.takes.table.map TakeRecord.number ∧
    (∀ r, s.openTake = some r → ∃ x ∈ s.stopped.takes.table,
      x.number = r.number ∧ x.phase = .closed ∧ x.cause = .cadenceStopped) ∧
    (s.openTake = none → s.stopped.takes.table = s.takes.table) ∧
    s.stopped.takes.profile = s.takes.profile ∧ s.stopped.takes.pendingProfile = s.takes.pendingProfile := by
  obtain ⟨-, ht, -, -, -, hw⟩ := s.halted_frame
  obtain ⟨-, -, -, -, -, kt, kw, -⟩ := s.halted.boundaryAfter_frame s.following
  rw [ht] at kt
  have hopen : (s.halted.boundaryAfter s.following).openTake = s.openTake := by simp only [openTake, kt]
  have legal : (s.halted.boundaryAfter s.following).TakesLegal :=
    h.map TakeRecord.Steady.id.onward (by rw [kt, List.map_id]) (endsTake_congr (by rw [kw, hw]))
  obtain ⟨-, h1, h2, h3, h4, h5, h6⟩ := legal.closeForStop
  rw [kt] at h2 h5 h6
  rw [hopen] at h3 h4
  exact ⟨h1, h2, h3, fun h => (congrArg (·.takes.table) (h4 h)).trans (congrArg Takes.table kt), h5, h6⟩

/-- The record limit under a profile that has just become active (R98, R113). -/
theorem activate_recordLimit (p : Profile) : (s.activate p).recordLimit =
    if p.mode = .recordRun ∨ s.cadence.active.period ≠ (baseRate p.base).period then 0 else min p.preroll 3584 := by
  have taken : (s.timecode.takeProfile p).base = p.base ∧ (s.timecode.takeProfile p).mode = p.mode := by
    unfold Timecode.takeProfile
    split
    · rename_i h
      exact ⟨h.1.symm, rfl⟩
    · exact ⟨rfl, rfl⟩
  unfold recordLimit unboundLimit effectiveMode
  show (match if s.cadence.active.period = (baseRate (s.timecode.takeProfile p).base).period
    then (s.timecode.takeProfile p).mode else .recordRun with
      | .recordRun => 0
      | .freeRun => min p.preroll 3584) = _
  rw [taken.1, taken.2]
  cases p.mode <;> by_cases h : s.cadence.active.period = (baseRate p.base).period <;> simp [h]

end State

theorem State.activatePending_table (s : State) : s.activatePending.takes.table = s.takes.table := by
  unfold State.activatePending
  split <;> rfl

/-- Settles O21: the stop is the halted cadence, the label's boundary, the take close and the activation in turn. -/
theorem stopCadenceStops : Obligations.StopCadenceStops := by
  intro s hm htakes
  have ha : s.attached = true := s.attached_iff.mpr (.inr hm)
  have hd : s.direct .stopCadence = s.stopCadence.answering .none [] 0 :=
    s.direct_carry (fields := []) ha (fun h => by rw [h] at hm; simp at hm) rfl
  have hexec : exec .stopCadence s = .next (s.stopCadence.answering .none [] 0) := congrArg Host.Outcome.next hd
  obtain ⟨hc, hn, hlink, hg, hst, hb, htc⟩ := s.stopped_frame
  obtain ⟨hopen, hnum, hclosed, hnone, hprofile, hpend⟩ := s.stopped_takes htakes
  obtain ⟨fi, fl, fw, fa, fch, ff, fco, fr, ft, -⟩ := s.stopCadence_frame
  obtain ⟨ac, -, -, -, -, ab, -, an, -, -, -, al, -⟩ := s.stopped.activatePending_frame
  have same : s.cadence.lock = .unused → s.halted.notices = s.notices ∧ s.halted.link = s.link := by
    intro hu
    rw [State.halted, State.relock_same _ hu.symm]
    exact ⟨rfl, rfl⟩
  have changed : s.cadence.lock ≠ .unused → s.halted.notices = (s.withCauses 0x20#8).notices ∧
      s.halted.link = (s.withCauses 0x20#8).link := by
    intro hu
    rw [State.halted, State.relock_changed _ hu.symm]
    exact ⟨rfl, rfl⟩
  rw [← hn, ← hlink] at same changed
  have fields : s.stopCadence.takes = s.stopped.activatePending.takes ∧
      s.stopCadence.governor = s.stopped.activatePending.governor ∧
      s.stopCadence.store = s.stopped.activatePending.store ∧
      s.stopCadence.timecode = s.stopped.activatePending.timecode ∧
      s.stopCadence.cadence = s.stopped.activatePending.cadence ∧
      s.stopCadence.notices = s.stopped.activatePending.notices ∧
      s.stopCadence.link = s.stopped.activatePending.link ∧
      s.stopCadence.board = { s.stopped.activatePending.board with mode := .idle } := by
    rw [State.stopCadence_eq]
    exact ⟨rfl, rfl, rfl, rfl, rfl, rfl, rfl, rfl⟩
  obtain ⟨et, eg, es, etc, ec, en, el, eb⟩ := fields
  have table : s.stopCadence.takes.table = s.stopped.takes.table :=
    (congrArg Takes.table et).trans s.stopped.activatePending_table
  have kept : s.following = false ∨ s.timecode.baseCounter ≠ 0 → s.stopped.timecode = s.timecode := fun h =>
    htc.trans (if_neg (by rcases h with h | h <;> simp [h]))
  have bounded : s.following = true → s.timecode.baseCounter = 0 → s.stopped.timecode = s.timecode.boundary :=
    fun h1 h2 => htc.trans (if_pos ⟨h1, h2⟩)
  refine ⟨_, hexec, ec.trans (ac.trans hc), eb.trans ((congrArg (fun b : Board => { b with mode := .idle }) ab).trans
      (hb _)), fun h => ⟨en.trans (an.trans (same h).1), el.trans (al.trans (same h).2)⟩,
    fun h => ⟨en.trans (an.trans (changed h).1), el.trans (al.trans (changed h).2)⟩,
    (State.takeIsOpen_congr table).trans hopen, (congrArg _ table).trans hnum,
    fun r hr => (hclosed r hr).imp fun x hx => ⟨table.symm ▸ hx.1, hx.2⟩,
    fun h => table.trans (hnone h), ?_⟩
  cases hp : s.takes.pendingProfile with
  | none =>
    have inactive : s.stopped.activatePending = s.stopped := by
      unfold State.activatePending
      rw [hpend, hp]
    rw [inactive] at et eg es etc
    exact ⟨(congrArg Takes.pendingProfile et).trans (hpend.trans hp), (congrArg Takes.profile et).trans hprofile, nofun,
      fun _ => ⟨eg.trans hg, es.trans hst, fun h => etc.trans (kept h), fun h1 h2 => etc.trans (bounded h1 h2)⟩, rfl,
      fi, fl, fw, fa, fch, ff, fco, fr, ft⟩
  | some p =>
    have active : s.stopped.activatePending = s.stopped.activateStopped p := by
      unfold State.activatePending
      rw [hpend, hp]
    rw [active] at et eg es etc
    refine ⟨congrArg Takes.pendingProfile et, congrArg Takes.profile et, fun q hq => ?_, nofun, rfl, fi, fl, fw, fa,
      fch, ff, fco, fr, ft⟩
    obtain rfl : p = q := Option.some.inj hq
    refine ⟨eg, es.trans ?_, fun h => etc.trans (congrArg (·.takeProfile p) (kept h)),
      fun h1 h2 => etc.trans (congrArg (·.takeProfile p) (bounded h1 h2))⟩
    show s.stopped.store.trim (s.stopped.activate p).recordLimit = _
    rw [hst, State.activate_recordLimit, hc]
    rfl

/-- Settles O10. -/
theorem cadenceAfterReset : Obligations.CadenceAfterReset := by
  intro s t h
  obtain rfl : { State.reset with
      link := s.link, nextTag := s.nextTag, freeIndex := s.freeIndex, pending := s.pending } = t :=
    Host.Outcome.next.inj h
  exact ⟨rfl, rfl, rfl, rfl, rfl, rfl, rfl, rfl, rfl, rfl, rfl, rfl, rfl, rfl, rfl, rfl, rfl, rfl⟩

end Sys2Proof.Machine
end

