-- ==== Sys2Proof/Proofs/FrameStarts.lean ====
section
-- One proof at a time: a stack for every waiting proof of this text would pass the memory limit of the check.
set_option Elab.async false
/-! What a frame start brings: its receivers in turn, and what each hands on (R4). -/

namespace Sys2Proof.Machine

namespace State

variable (s : State)

theorem attached_congr {s t : State} (h : t.board = s.board) : t.attached = s.attached := by
  simp only [attached, h]

/-! ### The receivers (R4, log 6) -/

/-- A frame start at its receivers, up to the Board Interface. -/
def beforeBoard (c : FrameCause) : State :=
  ((((s.profileFrameStart.timecodeFrameStart c (s.profileFrameStart.timecode.base != s.timecode.base)).intakeFrameStart
    (decide (c = .realign))).trimStore).writerFrameStart).coalesceFrameStart

/-- The Board Interface comes last. -/
theorem handFrameStart_board (c : FrameCause) :
    ∃ passed, s.handFrameStart c = (s.beforeBoard c).boardFrameStart passed :=
  ⟨_, rfl⟩

/-- From the activation of a profile on, the receivers keep what `State.Keeps` names. -/
theorem beforeBoard_keeps (c : FrameCause) : s.profileFrameStart.Keeps (s.beforeBoard c) := by
  have labelled : ∀ (u : State) b, u.Keeps (u.timecodeFrameStart c b) := by
    intro u b
    obtain ⟨-, -, -, -, -, ht, hw, -, -, -, hn, hf, hc, -⟩ := u.timecodeFrameStart_frame c b
    exact .of_eq hn hf (by rw [hc]) ht (endsTake_congr (by rw [hw]))
  exact ((((labelled _ _).trans (intakeFrameStart_keeps _ _)).trans (.of_eq : Keeps _ (trimStore _))).trans
    (writerFrameStart_keeps _)).trans (coalesceFrameStart_keeps _)

theorem handFrameStart_keeps (c : FrameCause) : s.profileFrameStart.Keeps (s.handFrameStart c) :=
  (s.beforeBoard_keeps c).trans (boardFrameStart_keeps _ _)

theorem beforeBoard_frame (c : FrameCause) : (s.beforeBoard c).cadence = s.cadence ∧
    (s.beforeBoard c).board = s.board ∧ (s.beforeBoard c).reportSequence = s.reportSequence ∧
    (s.beforeBoard c).chain = s.chain := by
  simp [beforeBoard, writerFrameStart_frame, trimStore_frame, intakeFrameStart_frame, timecodeFrameStart_frame,
    profileFrameStart_frame]

theorem relock_keeps (c : Cadence) : s.Keeps (s.relock c) := by
  by_cases h : c.lock = s.cadence.lock
  · rw [relock_same s h]
    exact .of_eq
  · rw [relock_changed s h, ← raise_lock]
    exact (Keeps.of_eq : s.Keeps { s with cadence := c }).trans (raise_keeps _ _)

theorem settleCounter_keeps (c : FrameCause) : s.Keeps (s.settleCounter c) := by
  cases h : s.settingDue with
  | none =>
    rw [settleCounter_none s c h]
    exact .of_eq
  | some x =>
    rw [settleCounter_some s c x h]
    exact s.relock_keeps _

/-- What the edge handling of a frame start did is still to be seen after the setting and the receivers. -/
theorem frameStart_keeps (c : FrameCause) :
    let edged := (s.numberFrame c).edgeHandling c
    (∀ i, edged.notices.cause.getLsbD i = true → (s.frameStart c).notices.cause.getLsbD i = true) ∧
      (edged.faultRecord.latch = true → (s.frameStart c).faultRecord.latch = true) ∧
      (s.frameStart c).counters.edges = edged.counters.edges := by
  intro edged
  have settled := edged.settleCounter_keeps c
  have k := (edged.settleCounter c).handFrameStart_keeps c
  obtain ⟨-, -, -, -, -, -, -, -, hn, hf, hc, -⟩ := (edged.settleCounter c).profileFrameStart_frame
  refine ⟨fun i hi => k.causes i (hn ▸ settled.causes i hi), fun hl => k.latch (hf ▸ settled.latch hl),
    k.counters.trans ?_⟩
  rw [hc, settled.counters]

/-! ### The cadence of a frame start (R2, R3, R10 to R12) -/

/-- A frame start with no setting to apply loads the counter over its edge handling's cadence. -/
theorem frameStart_cadence_none (c : FrameCause) (h : ((s.numberFrame c).edgeHandling c).settingDue = none) :
    (s.frameStart c).cadence = ((s.numberFrame c).edgeHandling c).cadence.load (decide (c = .close)) := by
  rw [frameStart_cadence, settleCounter_none _ _ h]

/-! ### The Intake (R38, R39) -/

theorem lose_intake : s.lose.intake.capture = s.intake.capture ∧ s.lose.intake.pendingMark = s.intake.pendingMark := by
  unfold lose
  split <;> exact ⟨rfl, rfl⟩

theorem cutCapture_intake : s.cutCapture.intake.capture = none ∧
    s.cutCapture.intake.pendingMark = s.intake.pendingMark := by
  unfold cutCapture
  split
  · exact ⟨‹_›, rfl⟩
  · simp [loseCapture, lose_intake, Intake.setSlot]

/-- The capture that a frame start begins carries its number and RETIMED; the mark stays pending (R39, R49). -/
theorem intakeFrameStart_intake (b : Bool) :
    (∀ k, (s.intakeFrameStart b).intake.capture = some k → k.retimed = b ∧ k.frame = s.cadence.frameNumber) ∧
      (s.intakeFrameStart b).intake.pendingMark = s.intake.pendingMark := by
  obtain ⟨hc, hm⟩ := s.cutCapture_intake
  unfold intakeFrameStart beginCapture
  split
  · refine ⟨?_, hm⟩
    rintro k hk
    obtain rfl := Option.some.inj hk
    exact ⟨rfl, congrArg Cadence.frameNumber s.cutCapture_frame.1⟩
  · simp only [lose_intake, reportFault_intake]
    refine ⟨fun k hk => ?_, hm⟩
    rw [hc] at hk
    exact absurd hk nofun

theorem handFrameStart_intake (c : FrameCause) :
    (∀ k, (s.handFrameStart c).intake.capture = some k →
        k.retimed = decide (c = .realign) ∧ k.frame = s.cadence.frameNumber) ∧
      (s.handFrameStart c).intake.pendingMark = s.intake.pendingMark := by
  have h : (s.handFrameStart c).intake = ((s.profileFrameStart.timecodeFrameStart c
      (s.profileFrameStart.timecode.base != s.timecode.base)).intakeFrameStart (decide (c = .realign))).intake := by
    simp [handFrameStart, boardFrameStart_frame, writerFrameStart_frame, trimStore_frame]
  rw [h]
  obtain ⟨hk, hm⟩ := (s.profileFrameStart.timecodeFrameStart c
      (s.profileFrameStart.timecode.base != s.timecode.base)).intakeFrameStart_intake (decide (c = .realign))
  simp only [timecodeFrameStart_frame, profileFrameStart_frame] at hk hm
  exact ⟨hk, hm⟩

/-! ### The Board Interface (R174, R183) -/

theorem frameReport_reportSequence (passed : List State) (l : Label) :
    (s.frameReport passed l).reportSequence = s.reportSequence + 1#32 := by
  simp [frameReport, post]

theorem beginVisit_phase (b : Bool) : (s.beginVisit b).chain.phase ≠ .idle := by
  unfold beginVisit
  extract_lets c t
  have h : (t.translate .chain t.chain.anchor).1.chain.phase = .anchorPage := by simp [translate_frame, t]
  split
  · simp [readNext]
  · rename_i e
    rw [e] at h
    exact fun hi => absurd (h.symm.trans hi) nofun

/-- A visit that is asked for is under way (R174). -/
theorem askVisit_phase (b : Bool) : (s.askVisit b).chain.phase ≠ .idle := by
  unfold askVisit
  split
  · exact s.beginVisit_phase b
  · simpa using ‹_›

theorem boardFrameStart_eq (passed : List State) : s.boardFrameStart passed =
    let shown := if s.attached = true then s.frameReport passed s.timecode.latched else s
    if s.board.mode = .standby ∨ s.board.mode = .recording then shown.askVisit true else shown := by
  unfold boardFrameStart
  cases s.board.mode <;> simp

theorem beginVisit_link (b : Bool) : s.link <+: (s.beginVisit b).link := by
  unfold beginVisit
  extract_lets c t
  have h := t.translate_link .chain t.chain.anchor
  split <;> (rename_i e; rw [e] at h)
  · exact h.trans (List.prefix_append _ _)
  · exact h

theorem askVisit_link (b : Bool) : s.link <+: (s.askVisit b).link := by
  unfold askVisit
  split
  · exact s.beginVisit_link b
  · exact List.prefix_refl _

/-- The Frame Report comes before all that the visit issues (R183, R174). -/
theorem boardFrameStart_link (passed : List State) (h : s.attached = true) :
    (s.frameReport passed s.timecode.latched).link <+: (s.boardFrameStart passed).link := by
  rw [boardFrameStart_eq]
  simp only [h, if_true]
  split
  · exact askVisit_link _ _
  · exact List.prefix_refl _

theorem boardFrameStart_reportSequence (passed : List State) : (s.boardFrameStart passed).reportSequence =
    if s.attached = true then s.reportSequence + 1#32 else s.reportSequence := by
  rw [boardFrameStart_eq]
  dsimp only
  split <;> split <;> simp [askVisit_frame, frameReport_reportSequence]

theorem boardFrameStart_phase (passed : List State) (h : s.board.mode = .standby ∨ s.board.mode = .recording) :
    (s.boardFrameStart passed).chain.phase ≠ .idle := by
  rw [boardFrameStart_eq]
  simp only [h, if_true]
  exact askVisit_phase _ _

/-! ### The labels of a frame start (R27) -/

theorem handFrameStart_latched (c : FrameCause) : (s.beforeBoard c).timecode.latched =
    (s.profileFrameStart.timecodeFrameStart c
      (s.profileFrameStart.timecode.base != s.timecode.base)).timecode.latched := by
  have h : (s.beforeBoard c).timecode = ((s.profileFrameStart.timecodeFrameStart c
      (s.profileFrameStart.timecode.base != s.timecode.base)).intakeFrameStart (decide (c = .realign))).timecode := by
    simp [beforeBoard, writerFrameStart_frame, trimStore_frame]
  rw [h]
  exact congrArg (·.2.2) (intakeFrameStart_clock _ _)

/-- The record limit, in the words of R98. -/
theorem recordLimit_eq :
    s.recordLimit = if s.effectiveMode = .recordRun then 0 else min s.takes.profile.preroll 3584 := by
  unfold recordLimit unboundLimit
  cases s.effectiveMode <;> rfl

/-- A frame start's activation of a pending profile, field by field (R33, R84, R113). -/
theorem profileFrameStart_eq : (match s.takes.pendingProfile with
    | none => s
    | some p =>
      if s.takeIsOpen = true then s
      else { s with
        takes := { s.takes with profile := p, pendingProfile := none }
        timecode := s.timecode.takeProfile p
        governor := Governor.ofProfile p }) = s.profileFrameStart := by
  unfold profileFrameStart
  cases s.takes.pendingProfile <;> rfl

theorem profileFrameStart_none (h : s.takes.pendingProfile = none) : s.profileFrameStart = s := by
  simp [profileFrameStart, h]

theorem profileFrameStart_some {p : Profile} (h : s.takes.pendingProfile = some p) :
    s.profileFrameStart = if s.takeIsOpen = true then s else s.activate p := by
  simp [profileFrameStart, h]

/-- Take Control's part of a frame start: a pending profile is active after it unless a take is OPEN (R113). -/
theorem profileFrameStart_takes :
    (s.takeIsOpen = false → s.profileFrameStart.takes = { s.takes with
      profile := s.takes.pendingProfile.getD s.takes.profile, pendingProfile := none }) ∧
    (s.takeIsOpen = true → s.profileFrameStart = s) := by
  cases hp : s.takes.pendingProfile with
  | none =>
    rw [s.profileFrameStart_none hp]
    exact ⟨fun _ => by rw [Option.getD_none, ← hp], fun _ => rfl⟩
  | some p =>
    rw [s.profileFrameStart_some hp]
    exact ⟨fun h => by simp [h, activate], fun h => by simp [h]⟩

end State

/-! ### A frame start, whole -/

namespace State

variable (s : State)

/-- The cadence's own part of a frame start leaves what the receivers act on. -/
theorem settled_frame (c : FrameCause) :
    let t := ((s.numberFrame c).edgeHandling c).settleCounter c
    t.board = s.board ∧ t.takes = s.takes ∧ t.intake = s.intake ∧ t.reportSequence = s.reportSequence := by
  simp [settleCounter_frame, edgeHandling_frame, numberFrame_frame]

theorem frameStart_reportSequence (c : FrameCause) : (s.frameStart c).reportSequence =
    if s.attached = true then s.reportSequence + 1#32 else s.reportSequence := by
  obtain ⟨hb, -, -, hr⟩ := s.settled_frame c
  obtain ⟨-, hb', hr', -⟩ := (((s.numberFrame c).edgeHandling c).settleCounter c).beforeBoard_frame c
  obtain ⟨passed, h⟩ := (((s.numberFrame c).edgeHandling c).settleCounter c).handFrameStart_board c
  rw [frameStart, h, boardFrameStart_reportSequence, hr', hr, attached_congr (hb'.trans hb)]

theorem frameStart_phase (c : FrameCause) (h : s.board.mode = .standby ∨ s.board.mode = .recording) :
    (s.frameStart c).chain.phase ≠ .idle := by
  obtain ⟨hb, -⟩ := s.settled_frame c
  obtain ⟨-, hb', -⟩ := (((s.numberFrame c).edgeHandling c).settleCounter c).beforeBoard_frame c
  obtain ⟨passed, e⟩ := (((s.numberFrame c).edgeHandling c).settleCounter c).handFrameStart_board c
  rw [frameStart, e]
  exact boardFrameStart_phase _ _ (by rw [hb', hb]; exact h)

/-- A pending profile is active after a frame start, unless a take is OPEN (R113). -/
theorem frameStart_profiles (c : FrameCause) :
    (s.takeIsOpen = false → (s.frameStart c).takes.pendingProfile = none ∧
      (s.frameStart c).takes.profile = s.takes.pendingProfile.getD s.takes.profile) ∧
    (s.takeIsOpen = true → (s.frameStart c).takes.pendingProfile = s.takes.pendingProfile ∧
      (s.frameStart c).takes.profile = s.takes.profile) := by
  obtain ⟨-, ht, -⟩ := s.settled_frame c
  have k := (((s.numberFrame c).edgeHandling c).settleCounter c).handFrameStart_keeps c
  obtain ⟨hp, hq⟩ := k.profiles
  obtain ⟨free, held⟩ := (((s.numberFrame c).edgeHandling c).settleCounter c).profileFrameStart_takes
  rw [takeIsOpen_congr (congrArg Takes.table ht)] at free held
  refine ⟨fun h => ⟨hq.trans ?_, hp.trans ?_⟩, fun h => ⟨hq.trans ?_, hp.trans ?_⟩⟩
  · rw [free h]
  · rw [free h, ht]
  · rw [held h, ht]
  · rw [held h, ht]

theorem frameStart_intake (c : FrameCause) :
    (∀ k, (s.frameStart c).intake.capture = some k →
        k.retimed = decide (c = .realign) ∧ k.frame = (s.frameStart c).cadence.frameNumber) ∧
      (s.frameStart c).intake.pendingMark = s.intake.pendingMark := by
  obtain ⟨-, -, hi, -⟩ := s.settled_frame c
  obtain ⟨hk, hm⟩ := (((s.numberFrame c).edgeHandling c).settleCounter c).handFrameStart_intake c
  refine ⟨?_, hm.trans (by rw [hi])⟩
  rw [frameStart_cadence]
  exact hk

end State

/-! ### CADENCE_EXPIRY -/

namespace State

variable {s : State}

/-- Up to an expiry that is due at the end of the run. -/
theorem counted_expiryDue (n : Nat) (tc : Timecode) (hr : s.cadence.run = .running)
    (ho : s.cadence.lateOpen = false) (hn : s.cadence.counter ≤ n) : (s.counted n tc).expiryDue = true := by
  rw [expiryDue_iff]
  show (s.cadence.count n).run = _ ∧ (s.cadence.count n).lateOpen = _ ∧ (s.cadence.count n).counter = _
  rw [Cadence.count_early _ n hr ho]
  exact ⟨hr, ho, by dsimp only; omega⟩

/-- The frame start of an expiry, with no setting pending (R2, R4). -/
theorem frameStart_expiry_cadence (h : s.cadence.pending = none) : (s.frameStart .expiry).cadence = { s.cadence with
    counter := s.cadence.active.period, lateOpen := false, lateCount := 0
    frameNumber := s.cadence.frameNumber + 1#32 } := by
  rw [frameStart_cadence_none _ _ (settingDue_none _ (by exact h))]
  rfl

end State

/-- What a frame start is handed to, receiver by receiver, and what it leaves alone (R4, log 6). -/
theorem State.handFrameStart_parts (s : State) (cause : FrameCause) :
    let profiled : State := match s.takes.pendingProfile with
      | none => s
      | some p =>
        if s.takeIsOpen = true then s
        else { s with
          takes := { s.takes with profile := p, pendingProfile := none }
          timecode := s.timecode.takeProfile p
          governor := Governor.ofProfile p }
    let labelled := profiled.timecodeFrameStart cause (decide (profiled.timecode.base ≠ s.timecode.base))
    let taken := labelled.intakeFrameStart (decide (cause = .realign))
    let trimmed : State := { taken with
      store := taken.store.trim
        (if taken.effectiveMode = .recordRun then 0 else min taken.takes.profile.preroll 3584) }
    let written := trimmed.writerFrameStart
    let aged := written.coalesceFrameStart
    let shown := if s.attached = true then
      aged.frameReport [labelled, taken, trimmed, written, aged] labelled.timecode.latched else aged
    let u := s.handFrameStart cause
    u = (if s.board.mode = .standby ∨ s.board.mode = .recording then shown.askVisit true else shown) ∧
      u.cadence = s.cadence ∧ u.governor = profiled.governor ∧ u.timecode = taken.timecode ∧
      u.intake = taken.intake ∧ u.lanes = s.lanes ∧ u.board = s.board ∧ u.lastResult = s.lastResult := by
  rw [s.profileFrameStart_eq]
  intro profiled labelled taken trimmed written aged shown u
  have changed : decide (profiled.timecode.base ≠ s.timecode.base) =
      (profiled.timecode.base != s.timecode.base) := by
    rw [Bool.eq_iff_iff]; simp
  have hlabelled : labelled = profiled.timecodeFrameStart cause (profiled.timecode.base != s.timecode.base) :=
    congrArg (profiled.timecodeFrameStart cause) changed
  have htrimmed : trimmed = taken.trimStore :=
    congrArg (fun n => { taken with store := taken.store.trim n }) taken.recordLimit_eq.symm
  clear_value labelled trimmed
  subst hlabelled htrimmed
  have hu : u = aged.boardFrameStart [_, taken, _, written, aged] := rfl
  obtain ⟨-, hb, -, -⟩ : aged.cadence = s.cadence ∧ aged.board = s.board ∧ _ := s.beforeBoard_frame cause
  obtain ⟨hc, hl, hbu, hr, -⟩ := s.handFrameStart_frame cause
  obtain ⟨-, ht, hi, -, hg, -⟩ := aged.boardFrameStart_frame [_, taken, _, written, aged]
  have ha : aged.attached = s.attached := State.attached_congr hb
  have hlatched : aged.timecode.latched = _ := s.handFrameStart_latched cause
  have before : aged.timecode = taken.timecode ∧ aged.intake = taken.intake ∧ aged.governor = profiled.governor := by
    simp [aged, written, taken, State.writerFrameStart_frame, State.trimStore_frame, State.intakeFrameStart_frame,
      State.timecodeFrameStart_frame]
  obtain ⟨bt, bi, bg⟩ := before
  refine ⟨?_, hc, hg.trans bg, ht.trans bt, hi.trans bi, hl, hbu, hr⟩
  rw [hu, State.boardFrameStart_eq, ha, hb, hlatched]

theorem State.elapse_settled {s t : State} (h : s.settle = t) (ht : t.settle = t) (n : Nat) :
    s.elapse (n + 1) = t.elapse (n + 1) := by
  rw [State.elapse_succ, State.elapse_succ, h, ht]

/-- Settles O31: the parts of a frame start are the lemmas above, and the ticks to the expiry are quiet. -/
theorem expiryMakesFrameStart : Obligations.ExpiryMakesFrameStart := by
  intro s
  refine ⟨fun h => ?_, fun hr ho => ?_, fun passed ha => s.boardFrameStart_link passed ha, fun cause => ?_,
    fun hp cause => ?_, fun legal hr ho hl => ?_⟩
  · show execCadenceExpiry s = _
    unfold execCadenceExpiry
    rcases h with h | h
    · simp [h]
    · cases s.cadence.run <;> simp [h]
  · show execCadenceExpiry s = _
    simp [execCadenceExpiry, hr, ho]
  · intro numbered settled
    have handed : s.frameStart cause = settled.handFrameStart cause := rfl
    have lanes : settled.lanes = s.lanes ∧ settled.board = s.board ∧ settled.lastResult = s.lastResult := by
      simp [settled, numbered, State.settleCounter_frame, State.edgeHandling_frame]
    rw [handed, ← lanes.1, ← lanes.2.1, ← lanes.2.2]
    rw [← State.attached_congr lanes.2.1]
    clear_value settled
    exact settled.handFrameStart_parts cause
  · rw [s.settleCounter_none cause (s.settingDue_none hp)]
    cases cause <;> rfl
  · have hcount := s.cadence.count_early s.cadence.counter hr ho
    have hm := legal.measure.1
    obtain ⟨tc, hu⟩ := State.elapse_to_expiry s.cadence.counter hr ho hl hm (Nat.le_refl _)
    have hdue : (s.counted s.cadence.counter tc).expiryDue = true :=
      State.counted_expiryDue _ tc hr ho (Nat.le_refl _)
    have hcad : (s.counted s.cadence.counter tc).cadence = { s.cadence with
        measure := min (s.cadence.measure + s.cadence.counter) 268435455, counter := 0 } := by
      show s.cadence.count s.cadence.counter = _
      rw [hcount, Nat.sub_self]
      rfl
    have hexec : exec .cadenceExpiry s = .next (s.counted s.cadence.counter tc).takeExpiry := by
      show execCadenceExpiry s = _
      simp [execCadenceExpiry, hr, ho, hu, hdue]
    rw [hexec]
    refine ⟨fun hmode hlock => ?_, fun hfree hp => ?_⟩
    · have hw : (s.counted s.cadence.counter tc).cadence.windowed = true := by
        rw [hcad]; simp [Cadence.windowed, hmode, hlock]
      rw [State.takeExpiry, if_pos hw, hcad, hu]
    · have hw : (s.counted s.cadence.counter tc).cadence.windowed = false :=
        State.windowed_eq_false _ (by rw [hcad]; exact hfree)
      have htake : (s.counted s.cadence.counter tc).takeExpiry =
          (s.counted s.cadence.counter tc).frameStart .expiry := by
        rw [State.takeExpiry, hw]; rfl
      have hpending : (s.counted s.cadence.counter tc).cadence.pending = none := by rw [hcad]; exact hp
      have hframe := State.frameStart_expiry_cadence hpending
      rw [hcad] at hframe
      obtain ⟨-, -, hedges⟩ := (s.counted s.cadence.counter tc).frameStart_keeps .expiry
      obtain ⟨free, held⟩ := (s.counted s.cadence.counter tc).frameStart_profiles .expiry
      have hseq := (s.counted s.cadence.counter tc).frameStart_reportSequence .expiry
      obtain ⟨hlanes, hboard, hresult, -⟩ := (s.counted s.cadence.counter tc).frameStart_frame .expiry
      refine ⟨fun n hn => ?_, _, congrArg _ htake, hframe, fun ha => hseq.trans (if_pos ha),
        fun ha => hseq.trans (if_neg ((Bool.not_eq_true _).mpr ha)),
        State.frameStart_phase (s.counted s.cadence.counter tc) .expiry, free, held,
        congrArg Prod.fst hedges, hlanes, hboard, (State.frameStart_intake _ .expiry).2, hresult⟩
      have hsettle := State.settle_expiry _ hdue hw
      have hquiet : ((s.counted s.cadence.counter tc).frameStart .expiry).boundaryDue = false :=
        State.frameStart_boundaryDue _ .expiry
      clear hlanes hboard hresult free held hseq hedges htake hexec
      generalize (s.counted s.cadence.counter tc).frameStart .expiry = t at *
      have hstands : t.settle = t := by
        refine t.settle_quiet ?_ (t.closeDue_of_early (by rw [hframe])) hquiet
        rw [Bool.eq_false_iff, ne_eq, State.expiryDue_iff, hframe]
        rintro ⟨-, -, h0⟩
        dsimp only at h0
        omega
      obtain ⟨tc', ht⟩ := State.elapse_to_expiry (s := t) (n + 1) (by rw [hframe]; exact hr) (by rw [hframe])
        (by rw [hframe]; exact hl) (by rw [hframe]; exact Nat.min_le_right _ _) (by rw [hframe]; exact hn)
      rw [Nat.add_assoc, Nat.add_comm 1 n, State.elapse_add, hu, State.elapse_settled hsettle hstands, ht]
      show t.cadence.count (n + 1) = _
      rw [Cadence.count_early _ _ (by rw [hframe]; exact hr) (by rw [hframe]), hframe]
      simp only [measureLimit, Cadence.mk.injEq, true_and, and_true]
      constructor <;> omega

end Sys2Proof.Machine
end

