-- ==== Sys2Proof/Proofs/EdgesAndWindows.lean ====
section
-- One proof at a time: a stack for every waiting proof of this text would pass the memory limit of the check.
set_option Elab.async false
/-! Sampled edges and windows (R5 to R14). -/

namespace Sys2Proof.Machine

/-! ### The edge handling of a frame start (R10 to R12, R14) -/

/-- The cadence after the test for a lost reference (R14). -/
def Cadence.checked (c : Cadence) : Cadence :=
  if 2 ≤ c.bad ∨ 2 ≤ c.missed then c.entering .holdover else c

/-- The cadence after the edge handling of a frame start. -/
def Cadence.edged (c : Cadence) : FrameCause → Cadence
  | .expiry => c
  | .realign => c.entering .locked
  | .edge true => { c with bad := 0, missed := 0 }
  | .edge false => Cadence.checked { c with bad := c.bad + 1 }
  | .close => Cadence.checked { c with missed := c.missed + 1 }

namespace State

variable (s : State)

theorem reportFault_latch (c : FaultClass) (f k d : Word) : (s.reportFault c f k d).faultRecord.latch = true := by
  cases h : s.faultRecord.latch with
  | true => rw [reportFault_held s c f k d h]; exact h
  | false => simp [reportFault_free s c f k d h]

@[simp] theorem checkLost_cadence : s.checkLost.cadence = s.cadence.checked := by
  unfold checkLost Cadence.checked
  split
  · rw [enterHoldover_eq, reportFault_cadence, relock_cadence]
  · rfl

theorem checkLost_kept (h : s.cadence.bad ≤ 1 ∧ s.cadence.missed ≤ 1) : s.checkLost = s := by
  unfold checkLost
  rw [if_neg (by omega)]

/-- A lock state that becomes another raises LOCK (R15, R186). -/
theorem relock_cause {c : Cadence} (h : c.lock ≠ s.cadence.lock) :
    (s.relock c).notices.cause.getLsbD 5 = true := by
  rw [relock_changed s h]
  simp [withCauses]

/-- A lost reference raises LOCK and reports its fault (R14). -/
theorem checkLost_lost (h : 2 ≤ s.cadence.bad ∨ 2 ≤ s.cadence.missed) (hl : s.cadence.lock = .locked) :
    s.checkLost.notices.cause.getLsbD 5 = true ∧ s.checkLost.faultRecord.latch = true := by
  have hc := s.relock_cause (c := s.cadence.entering .holdover) (by rw [hl]; nofun)
  unfold checkLost
  rw [if_pos h, enterHoldover_eq]
  exact ⟨(reportFault_keeps _ _ _ _ _).causes 5 hc, reportFault_latch _ _ _ _ _⟩

@[simp] theorem edgeHandling_cadence (c : FrameCause) : (s.edgeHandling c).cadence = s.cadence.edged c := by
  cases c with
  | expiry => rfl
  | realign => rw [edgeHandling, enterLocked_eq, relock_cadence]; rfl
  | edge good => cases good <;> simp [edgeHandling, Cadence.edged]
  | close => simp [edgeHandling, Cadence.edged]

theorem edged_setting (c : Cadence) (cause : FrameCause) :
    (c.edged cause).pending = c.pending ∧ (c.edged cause).active = c.active := by
  have checked : ∀ d : Cadence, d.checked.pending = d.pending ∧ d.checked.active = d.active := by
    intro d
    unfold Cadence.checked
    split <;> exact ⟨rfl, rfl⟩
  cases cause with
  | expiry => exact ⟨rfl, rfl⟩
  | realign => exact ⟨rfl, rfl⟩
  | edge good => cases good with
    | true => exact ⟨rfl, rfl⟩
    | false => exact checked _
  | close => exact checked _

/-- The cadence of a frame start with no setting pending (R2, R4, R10 to R12, R14). -/
theorem frameStart_cadence_edged (c : FrameCause) (h : s.cadence.pending = none) : (s.frameStart c).cadence =
    (Cadence.edged { s.cadence with frameNumber := s.cadence.frameNumber + 1#32 } c).load (decide (c = .close)) := by
  have hp : ((s.numberFrame c).edgeHandling c).cadence.pending = none := by
    rw [edgeHandling_cadence, (edged_setting _ c).1]
    exact h
  rw [frameStart_cadence_none _ _ (settingDue_none _ hp), edgeHandling_cadence]
  rfl

/-- The counters that a frame start moves (R4, R12, R185). -/
theorem frameStart_counters (c : FrameCause) :
    (s.frameStart c).counters.retimed =
        (if c = .realign then min 4294967295 (s.counters.retimed + 1) else s.counters.retimed) ∧
      (s.frameStart c).counters.badEdges = s.counters.badEdges ∧
      (s.frameStart c).counters.missedWindows =
        if c = .close then min 4294967295 (s.counters.missedWindows + 1) else s.counters.missedWindows := by
  have checked : ∀ u : State, u.checkLost.counters = u.counters := fun u => by simp [checkLost_frame]
  obtain ⟨-, -, h⟩ := s.frameStart_keeps c
  have handled : ((s.numberFrame c).edgeHandling c).counters.edges =
      (if c = .realign then min 4294967295 (s.counters.retimed + 1) else s.counters.retimed, s.counters.badEdges,
        if c = .close then min 4294967295 (s.counters.missedWindows + 1) else s.counters.missedWindows) := by
    cases c with
    | expiry => rfl
    | realign => simp only [edgeHandling, enterLocked_frame]; rfl
    | edge good => cases good with
      | true => rfl
      | false => simp only [edgeHandling, checked]; rfl
    | close => simp only [edgeHandling, checked]; rfl
  rw [handled] at h
  simpa [Counters.edges] using h

theorem checked_kept (c : Cadence) (h : c.bad ≤ 1 ∧ c.missed ≤ 1) : c.checked = c := by
  unfold Cadence.checked
  rw [if_neg (by omega)]

theorem checked_lost (c : Cadence) (h : 2 ≤ c.bad ∨ 2 ≤ c.missed) : c.checked = c.entering .holdover := by
  unfold Cadence.checked
  rw [if_pos h]

/-- A frame start in LOCKED with the second bad edge or the second missed window: LOCK and REFERENCE_LOST (R14). -/
theorem frameStart_lost (c : FrameCause) (hl : s.cadence.lock = .locked)
    (h : (c = .edge false ∧ 1 ≤ s.cadence.bad) ∨ (c = .close ∧ 1 ≤ s.cadence.missed)) :
    (s.frameStart c).notices.cause.getLsbD 5 = true ∧ (s.frameStart c).faultRecord.latch = true := by
  obtain ⟨hc, hf, -⟩ := s.frameStart_keeps c
  have lost : ((s.numberFrame c).edgeHandling c).notices.cause.getLsbD 5 = true ∧
      ((s.numberFrame c).edgeHandling c).faultRecord.latch = true := by
    rcases h with ⟨rfl, h⟩ | ⟨rfl, h⟩
    · exact checkLost_lost _ (.inl (Nat.succ_le_succ h)) hl
    · exact checkLost_lost _ (.inr (Nat.succ_le_succ h)) hl
  exact ⟨hc 5 lost.1, hf lost.2⟩

/-! ### Sampling (R5 to R7) -/

/-- Ticks move the measure, the counter and the late count alone (R1, R6, R11). -/
theorem count_kept (n : Nat) : (s.count n).cadence = { s.cadence with
    measure := (s.count n).cadence.measure
    counter := (s.count n).cadence.counter
    lateCount := (s.count n).cadence.lateCount } := by
  simp only [count, Cadence.count]
  split
  · rfl
  · split <;> rfl

theorem count_measure (n : Nat) (h : s.cadence.run = .running) :
    (s.count n).cadence.measure = min (s.cadence.measure + n) 268435455 := by
  cases ho : s.cadence.lateOpen with
  | true => simp [count, Cadence.count_late _ n h ho, measureLimit]
  | false => simp [count, Cadence.count_early _ n h ho, measureLimit]

/-- The state in which a sampled edge is handled: the interval is measured, the latch clear (R6). -/
def sampled : State :=
  { s with cadence := { s.cadence with lastInterval := s.cadence.measure, measure := 0, edgeLatch := false } }

theorem sampleEdge_seek (h : s.cadence.lock = .seeking ∨ s.cadence.lock = .holdover) :
    s.sampleEdge = s.sampled.seekEdge (s.cadence.judge s.cadence.measure) := by
  rcases h with h | h <;> simp [sampleEdge, sampled, h]

theorem sampleEdge_locked (h : s.cadence.lock = .locked) :
    s.sampleEdge = s.sampled.lockedEdge (s.cadence.judge s.cadence.measure) := by
  simp [sampleEdge, sampled, h]

/-- The judgement of R7. -/
theorem judge_iff (c : Cadence) (m : Nat) : c.judge m = true ↔
    m < 268435455 ∧ m ≤ c.active.period + c.active.tolerance ∧ c.active.period ≤ m + c.active.tolerance := by
  simp only [Cadence.judge, Bool.and_eq_true, decide_eq_true_iff, and_assoc]
  exact Iff.rfl

/-- The latch set (R5). -/
def latched : State :=
  { s with cadence := { s.cadence with edgeLatch := true } }

theorem latchEdge_counts (p : Polarity) (hr : s.cadence.run = .running) (hm : s.cadence.active.mode = .locked)
    (hp : s.cadence.active.polarity = p) : s.latchEdge p = s.latched := by
  simp [latchEdge, Cadence.latches, hr, hm, hp, latched]

theorem latchEdge_other (p : Polarity)
    (h : s.cadence.run = .stopped ∨ s.cadence.active.mode = .free ∨ s.cadence.active.polarity ≠ p) :
    s.latchEdge p = s := by
  have : s.cadence.latches p = false := by
    rcases h with h | h | h <;> simp [Cadence.latches, h]
  simp [latchEdge, this]

theorem latchEdge_latched (p : Polarity) (h : s.cadence.edgeLatch = true) : s.latchEdge p = s := by
  unfold latchEdge
  split
  · rw [← h]
  · rfl

/-- An edge that comes with one tick, with nothing due before it. -/
theorem latched_elapse_one (he : s.expiryDue = false) (hc : s.closeDue = false) (hb : s.boundaryDue = false) :
    s.latched.elapse 1 = (s.latched.count 1).sampleEdge := by
  rw [elapse_one, settle_quiet s.latched he hc hb, pass_latched _ 1 rfl]

/-- An edge sampled one tick on, as it is handled: the interval measured, the counter one lower, the strobe ended. -/
theorem latched_sampled (hr : s.cadence.run = .running) (ho : s.cadence.lateOpen = false) :
    (s.latched.count 1).sampled = { s with
      cadence := { s.cadence with
        measure := 0, lastInterval := min (s.cadence.measure + 1) 268435455, edgeLatch := false
        counter := s.cadence.counter - 1 }
      timecode := { s.timecode with baseCounter := s.timecode.baseCounter - 1 }
      intake := { s.intake with strobe := false } } := by
  simp [sampled, latched, count_one, hr, ho]

theorem latched_judge (h : s.cadence.run = .running) :
    let m := min (s.cadence.measure + 1) 268435455
    (s.latched.count 1).cadence.judge (s.latched.count 1).cadence.measure = true ↔
      m < 268435455 ∧ m ≤ s.cadence.active.period + s.cadence.active.tolerance ∧
        s.cadence.active.period ≤ m + s.cadence.active.tolerance := by
  intro m
  have hm : (s.latched.count 1).cadence.measure = m := s.latched.count_measure 1 h
  have ha : (s.latched.count 1).cadence.active = s.cadence.active := by rw [count_kept]; rfl
  rw [judge_iff, hm, ha]

end State

/-! ### The window (R11, R12) -/

namespace State

variable {s : State}

/-- Up to the close of its late part a window only counts (R11, R12). -/
theorem elapse_to_close (hr : s.cadence.run = .running) (ho : s.cadence.lateOpen = true)
    (hw : s.cadence.windowed = true) (hl : s.cadence.edgeLatch = false) (hm : s.cadence.measure ≤ 268435455)
    (ht : s.cadence.lateCount ≤ s.cadence.active.tolerance) :
    ∃ tc, s.elapse (s.cadence.active.tolerance - s.cadence.lateCount) =
      s.counted (s.cadence.active.tolerance - s.cadence.lateCount) tc := by
  refine s.elapse_early _ hl (s.cadence.count_zero hm fun _ => ht) fun m hlt => ?_
  have hwc : (s.cadence.count m).windowed = true := (s.count_windowed m).trans hw
  simp only [Cadence.windowed, s.cadence.count_late m hr ho] at hwc
  simp [Cadence.ticksToEvent, s.cadence.count_late m hr ho, Cadence.windowed, hl, hr, ho, hwc]
  omega

/-- The late part of a window has opened (R11). -/
def opened (s : State) : State :=
  { s with cadence := { s.cadence with lateOpen := true, lateCount := 0 } }

theorem settle_opened (he : s.expiryDue = true) (hw : s.cadence.windowed = true) : s.settle = s.opened.settle := by
  have hl : s.opened.expiryDue = false := expiryDue_of_late _ rfl
  simp only [settle, he, hl, takeExpiry, hw, if_true, Bool.false_eq_true, if_false]
  rfl

theorem openLate_late (ho : s.cadence.lateOpen = true) : s.openLate = s := by
  simp [openLate, expiryDue_of_late s ho]

/-- An expiry that is due in LOCKED opens the late part, ahead of whatever ticks pass (R11). -/
theorem elapse_opened (n : Nat) (he : s.expiryDue = true) (hw : s.cadence.windowed = true) :
    (s.elapse n).openLate = (s.opened.elapse n).openLate := by
  cases n with
  | zero =>
    rw [elapse_zero, elapse_zero, openLate_late (s := s.opened) rfl, openLate, if_pos ⟨he, hw⟩, takeExpiry, if_pos hw]
    rfl
  | succ n => rw [elapse_succ, elapse_succ, settle_opened he hw]

/-- What the ticks to the close of a window leave, from a cadence `c` on that counts `n` of them (R6, R11, R12). -/
structure WindowClosing (s u : State) (n : Nat) : Prop where
  due : u.closeDue = true
  lanes : u.lanes = s.lanes
  board : u.board = s.board
  counters : u.counters = s.counters
  cadence : u.cadence = { s.cadence with
    measure := min (s.cadence.measure + n) 268435455
    counter := 0, lateOpen := true, lateCount := s.cadence.active.tolerance }

theorem elapse_late (hr : s.cadence.run = .running) (ho : s.cadence.lateOpen = true)
    (hw : s.cadence.windowed = true) (hl : s.cadence.edgeLatch = false) (hm : s.cadence.measure ≤ 268435455)
    (ht : s.cadence.lateCount ≤ s.cadence.active.tolerance) (hc : s.cadence.counter = 0) :
    s.WindowClosing (s.elapse (s.cadence.active.tolerance - s.cadence.lateCount)).openLate
      (s.cadence.active.tolerance - s.cadence.lateCount) := by
  obtain ⟨tc, hu⟩ := elapse_to_close hr ho hw hl hm ht
  have hcad : (s.counted (s.cadence.active.tolerance - s.cadence.lateCount) tc).cadence = { s.cadence with
      measure := min (s.cadence.measure + (s.cadence.active.tolerance - s.cadence.lateCount)) 268435455
      counter := 0, lateOpen := true, lateCount := s.cadence.active.tolerance } := by
    show s.cadence.count _ = _
    rw [s.cadence.count_late _ hr ho, Nat.add_sub_of_le ht, Nat.min_self, ← hc, ← ho]
    rfl
  rw [hu, openLate_late (by rw [hcad])]
  refine ⟨?_, rfl, rfl, rfl, hcad⟩
  rw [closeDue_iff, hcad]
  exact ⟨hr, hw, rfl, Nat.le_refl _⟩

/-- In LOCKED the ticks to the close of the window bring it about (R11, R12). -/
theorem elapse_window (legal : s.cadence.Legal) (hr : s.cadence.run = .running) (hw : s.cadence.windowed = true)
    (hl : s.cadence.edgeLatch = false) :
    s.WindowClosing (s.elapse s.cadence.ticksToClose).openLate s.cadence.ticksToClose := by
  have hm := legal.measure.1
  unfold Cadence.ticksToClose
  cases ho : s.cadence.lateOpen with
  | true =>
    obtain ⟨-, hc, ht⟩ := legal.late ho
    exact elapse_late hr ho hw hl hm ht hc
  | false =>
    obtain ⟨tc, hu⟩ := elapse_to_expiry s.cadence.counter hr ho hl hm (Nat.le_refl _)
    have hcad : (s.counted s.cadence.counter tc).opened.cadence = { s.cadence with
        measure := min (s.cadence.measure + s.cadence.counter) 268435455
        counter := 0, lateOpen := true, lateCount := 0 } := by
      show { s.cadence.count s.cadence.counter with lateOpen := true, lateCount := 0 } = _
      rw [s.cadence.count_early _ hr ho, Nat.sub_self]
      rfl
    have hwc : (s.counted s.cadence.counter tc).cadence.windowed = true := (s.count_windowed _).trans hw
    have late := elapse_late (s := (s.counted s.cadence.counter tc).opened) (by rw [hcad]; exact hr) rfl hwc
      (by rw [hcad]; exact hl) (by rw [hcad]; exact Nat.min_le_right _ _) (Nat.zero_le _) (by rw [hcad])
    have ht : (s.counted s.cadence.counter tc).opened.cadence.active.tolerance -
        (s.counted s.cadence.counter tc).opened.cadence.lateCount = s.cadence.active.tolerance := by rw [hcad]; rfl
    rw [ht] at late
    rw [if_neg Bool.false_ne_true, elapse_add, hu,
      elapse_opened _ (counted_expiryDue _ tc hr ho (Nat.le_refl _)) hwc]
    refine ⟨late.due, late.lanes, late.board, late.counters, late.cadence.trans ?_⟩
    rw [hcad]
    simp only [Cadence.mk.injEq, true_and, and_true]
    omega

end State

/-- Settles O34: the ticks to the close leave `State.WindowClosing`, and the close makes its frame start. -/
theorem windowCloseKeepsGrid : Obligations.WindowCloseKeepsGrid := by
  intro s n
  have hexec : exec .windowClose s = execWindowClose s := rfl
  refine ⟨fun h => ?_, fun hr hm hlock => ?_, fun legal hr hm hlock hp hl => ?_⟩
  · rw [hexec, execWindowClose, if_neg]
    rintro ⟨hr, hw⟩
    rcases h with h | h
    · rw [h] at hr; exact absurd hr nofun
    · rw [State.windowed_eq_false _ h] at hw; exact absurd hw nofun
  · rw [hexec, execWindowClose, if_pos ⟨hr, by simp [Cadence.windowed, hm, hlock]⟩]
    rfl
  · intro framed
    have hw : s.cadence.windowed = true := by simp [Cadence.windowed, hm, hlock]
    obtain ⟨hdue, ul, ub, uc, hcad⟩ := State.elapse_window legal hr hw hl
    have hclose : exec .windowClose s = .next ((s.elapse s.cadence.ticksToClose).openLate.frameStart .close) := by
      rw [hexec, execWindowClose, if_pos ⟨hr, hw⟩]
      simp only [hdue, if_true]
    generalize (s.elapse s.cadence.ticksToClose).openLate = u at *
    obtain ⟨fl, fb, -⟩ := u.frameStart_frame .close
    obtain ⟨fr, fe, fm⟩ := u.frameStart_counters .close
    rw [uc] at fr fe fm
    have hframe := u.frameStart_cadence_edged .close (by rw [hcad]; exact hp)
    rw [hcad] at hframe
    refine ⟨_, hclose, fm, fe, fr, fl.trans ul, fb.trans ub, fun h0 => ?_, fun h1 => ⟨?_, ?_⟩⟩
    · rw [hframe, Cadence.edged, State.checked_kept _ (by exact ⟨legal.counts.2.1, by simp [h0]⟩)]
      simp only [h0]
      rfl
    · rw [hframe, Cadence.edged, State.checked_lost _ (.inr (by simp [h1]))]
      rfl
    · exact u.frameStart_lost .close (by rw [hcad]; exact hlock) (.inr ⟨rfl, by rw [hcad]; exact h1.ge⟩)

/-- Settles O33: the edge is handled in the state that `State.latched_sampled` gives. -/
theorem edgeWhileLocked : Obligations.EdgeWhileLocked := by
  intro s hr hm hlock hbad hmissed edge m good sampled framed badEdges
  have hlatch : s.latchEdge s.cadence.active.polarity = s.latched := s.latchEdge_counts _ hr hm rfl
  have hedge : edge = .next (s.latched.elapse 1) := by
    show execRefEdge _ _ s = _
    rw [execRefEdge, hlatch]
  have hjudge := s.latched_judge hr
  have one : s.expiryDue = false → s.closeDue = false → s.boundaryDue = false →
      edge = .next ((s.latched.count 1).sampled.lockedEdge
        ((s.latched.count 1).cadence.judge (s.latched.count 1).cadence.measure)) := by
    intro he hc hb
    rw [hedge, s.latched_elapse_one he hc hb, State.sampleEdge_locked]
    rw [State.count_kept]
    exact hlock
  refine ⟨fun he hb ho hfar => ?_, fun he hb hwin hp => ?_, fun legal hdue hp h0 h1 => ?_⟩
  · intro u
    have hone := one he (s.closeDue_of_early ho) hb
    have hout : ∀ g, (s.latched.count 1).sampled.lockedEdge g = _ := fun g => if_neg (by
      rw [s.latched_sampled hr ho]
      simp only [Cadence.inWindow, ho]
      simp
      omega)
    rw [hout, s.latched_sampled hr ho] at hone
    rw [hone]
    refine ⟨fun h => congrArg _ ?_, fun h => congrArg _ ?_⟩
    · rw [State.checkLost_kept _ (by simp [h, hmissed])]
      simp only [h]
      rfl
    · rw [State.checkLost, if_pos (by simp [h]), State.enterHoldover_eq,
        State.relock_changed _ (by simp [hlock, Cadence.entering])]
      rfl
  · have hc : s.closeDue = false := by
      rcases hwin with ⟨ho, -⟩ | ⟨-, ht⟩
      · exact s.closeDue_of_early ho
      · rw [Bool.eq_false_iff, ne_eq, State.closeDue_iff]
        omega
    have hone := one he hc hb
    have hin : (s.latched.count 1).sampled.cadence.inWindow = true := by
      rw [State.sampled, Cadence.inWindow]
      rcases hwin with ⟨ho, ht⟩ | ⟨ho, ht⟩
      · simpa [State.count_one, State.latched, hr, ho] using ht
      · simp [State.count_one, State.latched, hr, ho]
    obtain ⟨n, l, hv⟩ : ∃ n l, (s.latched.count 1).sampled.cadence = { sampled with counter := n, lateCount := l } := by
      refine ⟨(s.latched.count 1).cadence.counter, (s.latched.count 1).cadence.lateCount, ?_⟩
      rw [State.sampled, State.count_measure s.latched 1 hr, State.count_kept]
      rfl
    have kept : (s.latched.count 1).sampled.lanes = s.lanes ∧ (s.latched.count 1).sampled.board = s.board ∧
        (s.latched.count 1).sampled.counters = s.counters := ⟨rfl, rfl, rfl⟩
    rw [State.lockedEdge, if_pos hin] at hone
    generalize (s.latched.count 1).sampled = v at hone hv kept
    obtain ⟨hl, hboard, hcount⟩ := kept
    by_cases hg : good
    · have hg' := hjudge.mpr hg
      rw [hg', if_pos rfl] at hone
      obtain ⟨fl, fb, -⟩ := v.frameStart_frame (.edge true)
      obtain ⟨fr, fe, fm⟩ := v.frameStart_counters (.edge true)
      refine ⟨_, hone, fl.trans hl, fb.trans hboard, fr.trans (by rw [hcount]; rfl), fm.trans (by rw [hcount]; rfl),
        fun _ => ⟨?_, fe.trans (by rw [hcount])⟩, fun h => absurd hg h⟩
      rw [State.frameStart_cadence_edged _ _ (by rw [hv]; exact hp), hv]
      rfl
    · have hg' : (s.latched.count 1).cadence.judge (s.latched.count 1).cadence.measure = false := by
        rw [Bool.eq_false_iff]
        exact fun h => hg (hjudge.mp h)
      rw [hg', if_neg Bool.false_ne_true] at hone
      obtain ⟨fl, fb, -⟩ := v.countBadEdge.frameStart_frame (.edge false)
      obtain ⟨fr, fe, fm⟩ := v.countBadEdge.frameStart_counters (.edge false)
      have hcad : v.countBadEdge.cadence = v.cadence := rfl
      have hbumped : v.countBadEdge.counters = { s.counters with badEdges := badEdges } :=
        congrArg (fun c : Counters => { c with badEdges := bump c.badEdges }) hcount
      rw [hbumped] at fr fe fm
      refine ⟨_, hone, fl.trans hl, fb.trans hboard, fr, fm, fun h => absurd h hg, fun _ =>
        ⟨fe, fun h0 => ?_, fun h1 => ⟨?_, ?_⟩⟩⟩
      · rw [State.frameStart_cadence_edged _ _ (by rw [hcad, hv]; exact hp), hcad, hv, Cadence.edged,
          State.checked_kept _ (by simp [sampled, h0, hmissed])]
        simp [Cadence.load, framed, sampled, h0]
      · rw [State.frameStart_cadence_edged _ _ (by rw [hcad, hv]; exact hp), hcad, hv, Cadence.edged,
          State.checked_lost _ (by simp [sampled, h1])]
        rfl
      · exact State.frameStart_lost _ _ (by rw [hcad, hv]; exact hlock) (.inl ⟨rfl, by rw [hcad, hv]; exact h1.ge⟩)
  · have hsettle : s.latched.settle = s.latched.frameStart .close := s.latched.settle_close hdue
    obtain ⟨fl, fb, -⟩ := s.latched.frameStart_frame .close
    obtain ⟨fr, fe, fm⟩ := s.latched.frameStart_counters .close
    have hcad : (s.latched.frameStart .close).cadence = { s.latched.cadence with
        counter := s.cadence.active.period - s.cadence.active.tolerance, lateOpen := false, lateCount := 0
        frameNumber := s.cadence.frameNumber + 1#32, missed := 1 } := by
      rw [State.frameStart_cadence_edged _ _ (by exact hp), Cadence.edged,
        State.checked_kept _ (by simp [State.latched, h0, h1])]
      simp [Cadence.load, State.latched, h1]
    rw [hedge, State.elapse_one, hsettle]
    clear hedge one hjudge hsettle
    generalize s.latched.frameStart .close = w at *
    have hlate : w.cadence.lateOpen = false := by rw [hcad]
    have hrun : w.cadence.run = .running := by rw [hcad]; exact hr
    obtain ⟨hp1, -, ht1⟩ := legal.active
    have hout : (w.count 1).sampled.cadence = { sampled with
        counter := s.cadence.active.period - s.cadence.active.tolerance - 1, lateOpen := false, lateCount := 0
        frameNumber := s.cadence.frameNumber + 1#32, missed := 1 } := by
      rw [State.sampled, State.count_measure w 1 hrun, State.count_one, if_neg (by rw [hrun]; nofun),
        if_neg (by rw [hlate]; nofun), hcad]
      rfl
    have hcounters : (w.count 1).sampled.counters = w.counters := rfl
    rw [State.pass_latched w 1 (by rw [hcad]; rfl),
      State.sampleEdge_locked _ (by rw [State.count_kept, hcad]; exact hlock), State.lockedEdge, if_neg ?window,
      State.checkLost_kept _ (by rw [hout]; simp [sampled, h0])]
    case window =>
      rw [hout]
      simp [Cadence.inWindow, sampled]
      omega
    refine ⟨_, rfl, ?_, fm, congrArg bump fe, fr, fl, fb⟩
    rw [hout]
    simp [sampled, h0]

end Sys2Proof.Machine
end

