-- ==== Sys2Proof/Proofs/Realignment.lean ====
section
-- One proof at a time: a stack for every waiting proof of this text would pass the memory limit of the check.
set_option Elab.async false
/-! Edges in SEEKING and HOLDOVER (R5 to R10), with a setting pending at the third good one (R3). -/

namespace Sys2Proof.Machine

/-! ### The frame start of a realignment (R3, R10) -/

/-- The cadence as the third good edge leaves it, but for a setting that is pending (R10). -/
def Cadence.realigned (c : Cadence) : Cadence :=
  { c with
    lock := .locked, good := 0, bad := 0, missed := 0, counter := c.active.period
    lateOpen := false, lateCount := 0, frameNumber := c.frameNumber + 1#32 }

namespace State

variable (s : State)

/-- The state at a realignment when its setting is looked at: the pending and the active setting, and the takes, are
as before. -/
theorem realigning :
    let e := (s.numberFrame .realign).edgeHandling .realign
    e.cadence = Cadence.entering { s.cadence with frameNumber := s.cadence.frameNumber + 1#32 } .locked ∧
      e.takeIsOpen = s.takeIsOpen :=
  ⟨edgeHandling_cadence _ _, takeIsOpen_congr (by simp [edgeHandling_frame, numberFrame_frame])⟩

theorem realign_cadence_none (h : s.cadence.pending = none) :
    (s.frameStart .realign).cadence = s.cadence.realigned :=
  s.frameStart_cadence_edged .realign h

theorem realign_cadence_held {x : CadenceSetting} (h : s.cadence.pending = some x) (ho : s.takeIsOpen = true)
    (hd : x.period ≠ s.cadence.active.period ∨ x.mode ≠ s.cadence.active.mode) :
    (s.frameStart .realign).cadence = s.cadence.realigned := by
  obtain ⟨hc, ht⟩ := s.realigning
  rw [frameStart_cadence_none _ _ (settingDue_held _ (by rw [hc]; exact h) (ht.trans ho) (by rw [hc]; exact hd)), hc]
  rfl

/-- A setting that is pending at the third good edge is applied after it (R3). -/
theorem realign_cadence_applied {x : CadenceSetting} (h : s.cadence.pending = some x)
    (hx : s.takeIsOpen = false ∨ (x.period = s.cadence.active.period ∧ x.mode = s.cadence.active.mode)) :
    (s.frameStart .realign).cadence =
      (Cadence.applied (Cadence.entering { s.cadence with frameNumber := s.cadence.frameNumber + 1#32 } .locked) x).load
        (decide (FrameCause.realign = .close) && !x.regrids s.cadence.active) := by
  obtain ⟨hc, ht⟩ := s.realigning
  rw [frameStart_cadence, settleCounter_some _ _ x (settingDue_some _ (by rw [hc]; exact h) (by rw [ht, hc]; exact hx)),
    relock_cadence, hc]
  rfl

/-- The rows of R3's table for the setting of a realignment. -/
theorem realign_cadence_rows {x : CadenceSetting} (h : s.cadence.pending = some x)
    (hx : s.takeIsOpen = false ∨ (x.period = s.cadence.active.period ∧ x.mode = s.cadence.active.mode))
    (hm : s.cadence.active.mode = .locked) :
    let taken := { s.cadence.realigned with active := x, pending := none, counter := x.period }
    let seeks : Prop := x.mode = .locked ∧
      (x.period ≠ s.cadence.active.period ∨ x.polarity ≠ s.cadence.active.polarity)
    (x.mode = .free → (s.frameStart .realign).cadence = { taken with lock := .unused }) ∧
      (seeks → (s.frameStart .realign).cadence =
        { taken with lock := .seeking, edgeLatch := false, measure := 268435455 }) ∧
      (x.mode = .locked → ¬ seeks → (s.frameStart .realign).cadence = taken) := by
  intro taken seeks
  rw [s.realign_cadence_applied h hx]
  refine ⟨fun hf => ?_, fun ⟨hl, hd⟩ => ?_, fun hl hd => ?_⟩
  · exact Cadence.applied_free _ x .realign hf
  · refine Cadence.applied_seeks _ x .realign hl ((CadenceSetting.regrids_iff _ _).mpr ?_)
    rintro ⟨hp, -, hq⟩
    exact hd.elim (· hp) (· hq)
  · refine Cadence.applied_holds _ x .realign hl ?_
    rw [Bool.eq_false_iff, ne_eq, CadenceSetting.regrids_iff, not_not]
    have same : x.period = s.cadence.active.period ∧ x.polarity = s.cadence.active.polarity := by
      refine ⟨not_not.mp fun hp => hd ⟨hl, .inl hp⟩, not_not.mp fun hq => hd ⟨hl, .inr hq⟩⟩
    exact ⟨same.1, hl.trans hm.symm, same.2⟩

/-- The realignment of a cadence not in LOCKED, but for the cadence: LOCK, RETIMED, and what stays (R10, R15, R39). -/
theorem realign_effects (h : s.cadence.lock ≠ .locked) :
    let t := s.frameStart .realign
    t.notices.cause.getLsbD 5 = true ∧ t.counters.retimed = min 4294967295 (s.counters.retimed + 1) ∧
      (∀ k, t.intake.capture = some k → k.retimed = true ∧ k.frame = t.cadence.frameNumber) ∧
      t.counters.badEdges = s.counters.badEdges ∧ t.lanes = s.lanes ∧ t.board = s.board := by
  intro t
  obtain ⟨hl, hb, -⟩ := s.frameStart_frame .realign
  obtain ⟨hr, he, -⟩ := s.frameStart_counters .realign
  have raised : ((s.numberFrame .realign).edgeHandling .realign).notices.cause.getLsbD 5 = true := by
    rw [edgeHandling, enterLocked_eq]
    exact relock_cause _ (Ne.symm h)
  exact ⟨(s.frameStart_keeps .realign).1 5 raised, hr, (s.frameStart_intake .realign).1, he, hl, hb⟩

/-! ### An edge in SEEKING and HOLDOVER (R9, R10) -/

theorem seekEdge_bad : s.seekEdge false = State.countBadEdge { s with cadence := { s.cadence with good := 0 } } := rfl

theorem seekEdge_step (h : s.cadence.good < 2) :
    s.seekEdge true = { s with cadence := { s.cadence with good := s.cadence.good + 1 } } := by
  rw [seekEdge, if_pos rfl, if_neg (by omega)]

theorem seekEdge_third (h : 2 ≤ s.cadence.good) : s.seekEdge true = s.frameStart .realign := by
  rw [seekEdge, if_pos rfl, if_pos (by omega)]

theorem windowed_of_seek (h : s.cadence.lock = .seeking ∨ s.cadence.lock = .holdover) : s.cadence.windowed = false :=
  windowed_eq_false _ (.inr (by rcases h with h | h <;> rw [h] <;> nofun))

theorem closeDue_of_seek (h : s.cadence.lock = .seeking ∨ s.cadence.lock = .holdover) : s.closeDue = false := by
  rw [Bool.eq_false_iff, ne_eq, closeDue_iff, s.windowed_of_seek h]
  rintro ⟨-, hw, -⟩
  exact Bool.false_ne_true hw

end State

/-- Settles O32: the edge is handled in the state that `State.latched_sampled` gives, and what is due goes first. -/
theorem edgeWhileSeeking : Obligations.EdgeWhileSeeking := by
  intro s polarity
  have hexec : ∀ ticks, exec (.refEdge polarity ticks) s = .next ((s.latchEdge polarity).elapse ticks) :=
    fun _ => rfl
  refine ⟨fun h ticks => ?_, fun hr hm hp ticks => ?_, fun h => ?_, fun hr hm hp hlock he hb ho => ?_,
    fun hr hm hp hlock => ?_⟩
  · rw [hexec, s.latchEdge_other _ h]
  · rw [hexec, s.latchEdge_counts _ hr hm hp]
    rfl
  · rw [hexec, s.latchEdge_latched _ h, State.elapse_zero]
  · intro m good u
    have hu : (s.latched.count 1).sampled = u := s.latched_sampled hr ho
    have hjudge := s.latched_judge hr
    have hone : exec (.refEdge polarity 1) s = .next (u.seekEdge
        ((s.latched.count 1).cadence.judge (s.latched.count 1).cadence.measure)) := by
      rw [hexec, s.latchEdge_counts _ hr hm hp, s.latched_elapse_one he (s.closeDue_of_early ho) hb,
        State.sampleEdge_seek _ (by rw [State.count_kept]; exact hlock), hu]
    have isGood : good → exec (.refEdge polarity 1) s = .next (u.seekEdge true) := fun h => by
      rw [hone, hjudge.mpr h]
    have open_eq : u.takeIsOpen = s.takeIsOpen := State.takeIsOpen_congr rfl
    have unlocked : u.cadence.lock ≠ .locked := by
      show s.cadence.lock ≠ .locked
      rcases hlock with h | h <;> rw [h] <;> nofun
    obtain ⟨hc, hret, hcap, hbad, hl, hboard⟩ := u.realign_effects unlocked
    refine ⟨fun h => ?_, fun h h2 => ?_, fun h h2 hn => ?_, fun h h2 => ⟨?_, hc, hret, hl, hboard, fun x hx => ?_⟩⟩
    · rw [hone, Bool.eq_false_iff.mpr (mt hjudge.mp h)]
      rfl
    · rw [isGood h, u.seekEdge_step h2]
    · refine ⟨_, by rw [isGood h, u.seekEdge_third h2], ?_, hc, hret, hcap, hbad, hl, hboard⟩
      exact u.realign_cadence_none hn
    · rw [isGood h, u.seekEdge_third h2]
    · refine ⟨fun hopen hd => ?_, fun hfree => ?_⟩
      · exact u.realign_cadence_held hx (open_eq.trans hopen)
          (by rw [show u.cadence.active.mode = .locked from hm]; exact hd)
      · exact u.realign_cadence_rows hx
          (by rw [open_eq, show u.cadence.active.mode = .locked from hm]; exact hfree) hm
  · intro latched
    have hlat : s.latchEdge polarity = latched := s.latchEdge_counts _ hr hm hp
    have hw : latched.cadence.windowed = false := latched.windowed_of_seek hlock
    refine ⟨fun he => ?_, fun he hb => ?_⟩
    · rw [hexec, hlat, State.elapse_one, latched.settle_expiry he hw]
    · rw [hexec, hlat, State.elapse_one, latched.settle_boundary he (latched.closeDue_of_seek hlock) hb]

end Sys2Proof.Machine
end

