-- ==== Sys2Proof/Proofs/LegalCadence.lean ====
section
-- One proof at a time: a stack for every waiting proof of this text would pass the memory limit of the check.
set_option Elab.async false
/-! A legal cadence stays legal: ticks, sampled edges, frame starts, settings and stops (R1, R8, R9, R11, R14). -/

namespace Sys2Proof.Machine

namespace Cadence

variable {c : Cadence}

/-! ### Ticks, edges and stops -/

theorem Legal.count (h : c.Legal) (n : Nat) : (c.count n).Legal := by
  cases hr : c.run with
  | stopped => rwa [c.count_stopped n hr]
  | running =>
    have bound : min (c.measure + n) 268435455 ≤ 268435455 := Nat.min_le_right ..
    cases ho : c.lateOpen with
    | false =>
      rw [c.count_early n hr ho]
      exact { h with
        counter := (Nat.sub_le ..).trans h.counter
        measure := ⟨bound, h.measure.2⟩
        stopped := fun hs => absurd (hr.symm.trans hs) nofun
        late := fun hl => absurd (ho.symm.trans hl) nofun }
    | true =>
      obtain ⟨hlock, hc, -⟩ := h.late ho
      rw [c.count_late n hr ho]
      exact { h with
        measure := ⟨bound, h.measure.2⟩
        late := fun _ => ⟨hlock, hc, Nat.min_le_right ..⟩ }

/-- A running cadence is in lock state UNUSED exactly in FREE (R8). -/
theorem Legal.unused_iff (h : c.Legal) (hr : c.run = .running) : c.lock = .unused ↔ c.active.mode = .free := by
  rw [h.unused, hr]
  simp

/-- The late count starts only where an expiry is due in LOCKED (R11). -/
theorem Legal.openLate (h : c.Legal) (hw : c.windowed = true) (hc : c.counter = 0) :
    Legal { c with lateOpen := true, lateCount := 0 } := by
  have hlock : c.lock = .locked := by simp_all [windowed]
  exact { h with
    stopped := fun hs => absurd ((h.stopped hs).2.2.1.symm.trans hlock) nofun
    late := fun _ => ⟨hlock, hc, Nat.zero_le _⟩ }

/-- The interval of a sampled edge is measured, and the latch clear (R6). -/
theorem Legal.sampled (h : c.Legal) :
    Legal { c with lastInterval := c.measure, measure := 0, edgeLatch := false } :=
  { h with measure := ⟨Nat.zero_le _, h.measure.1⟩, latch := nofun }

/-- The good count below the third good edge (R9). -/
theorem Legal.good (h : c.Legal) {n : Nat} (hn : n ≤ 2) : Legal { c with good := n } :=
  { h with counts := ⟨hn, h.counts.2⟩ }

/-- A cadence that has stopped, a pending setting applied (R8, R19, R21). -/
theorem Legal.halt (h : c.Legal) : Legal { c.halt with lock := .unused } where
  active := by
    show (c.pending.getD c.active).Legal
    cases hp : c.pending with
    | none => exact h.active
    | some x => exact h.pending x hp
  pending := nofun
  counter := Nat.zero_le _
  measure := h.measure
  counts := ⟨Nat.zero_le _, Nat.zero_le _, Nat.zero_le _⟩
  latch := nofun
  stopped _ := ⟨rfl, rfl, rfl, rfl⟩
  unused := ⟨fun _ => .inl rfl, fun _ => rfl⟩
  late := nofun

/-! ### Frame starts (R2, R3, R10 to R14) -/

/-- A running cadence that is legal but for its counter and its late count: what a frame start loads. -/
structure Loadable (c : Cadence) : Prop where
  running : c.run = .running
  active : c.active.Legal
  pending : ∀ x, c.pending = some x → x.Legal
  measure : c.measure ≤ 268435455 ∧ c.lastInterval ≤ 268435455
  counts : c.good ≤ 2 ∧ c.bad ≤ 1 ∧ c.missed ≤ 1
  unused : c.lock = .unused ↔ c.active.mode = .free

theorem Legal.loadable (h : c.Legal) (hr : c.run = .running) : c.Loadable :=
  { h with running := hr, unused := h.unused_iff hr }

theorem Loadable.load (h : c.Loadable) (grid : Bool) : (c.load grid).Legal where
  active := h.active
  pending := h.pending
  counter := by
    obtain ⟨-, hp, -⟩ := h.active
    show (if grid = true then c.active.period - c.active.tolerance else c.active.period) ≤ _
    split <;> omega
  measure := h.measure
  counts := h.counts
  latch _ := h.running
  stopped hs := absurd (h.running.symm.trans hs) nofun
  unused := by
    show c.lock = .unused ↔ c.run = .stopped ∨ c.active.mode = .free
    rw [h.unused, h.running]
    simp
  late := nofun

/-- In LOCKED mode the lock state may change to any but UNUSED (R8, R10, R14). -/
theorem Loadable.entering (h : c.Loadable) (hu : c.lock ≠ .unused) {l : LockState} (hl : l ≠ .unused) :
    (c.entering l).Loadable :=
  { h with
    counts := ⟨Nat.zero_le _, Nat.zero_le _, Nat.zero_le _⟩
    unused := ⟨fun he => absurd he hl, fun hm => absurd (h.unused.mpr hm) hu⟩ }

/-- After the test for a lost reference the counts are below 2 again (R14). -/
theorem Loadable.checked (h : c.Loadable) (hu : c.lock ≠ .unused) (b m : Nat) :
    (Cadence.checked { c with bad := b, missed := m }).Loadable := by
  by_cases lost : 2 ≤ b ∨ 2 ≤ m
  · rw [State.checked_lost _ lost]
    exact { h.entering hu (l := .holdover) nofun with }
  · rw [State.checked_kept _ (by dsimp only; omega)]
    exact { h with counts := ⟨h.counts.1, by dsimp only; omega⟩ }

/-- The causes other than an expiry come in LOCKED mode alone. -/
theorem Loadable.edged (h : c.Loadable) (cause : FrameCause) (hc : cause = .expiry ∨ c.lock ≠ .unused) :
    (c.edged cause).Loadable := by
  cases cause with
  | expiry => exact h
  | realign => exact h.entering (hc.resolve_left nofun) nofun
  | edge good =>
    cases good with
    | true => exact { h with counts := ⟨h.counts.1, Nat.zero_le _, Nat.zero_le _⟩ }
    | false => exact h.checked (hc.resolve_left nofun) (c.bad + 1) c.missed
  | close => exact h.checked (hc.resolve_left nofun) c.bad (c.missed + 1)

/-- The table of R3 keeps the lock state with the mode. -/
theorem Loadable.applied (h : c.Loadable) {x : CadenceSetting} (hx : x.Legal) : (c.applied x).Loadable := by
  have taken : ∀ d : Cadence, d.run = c.run → d.active = x → d.pending = none → d.measure ≤ 268435455 →
      d.lastInterval = c.lastInterval → d.good ≤ c.good ∧ d.bad ≤ c.bad ∧ d.missed ≤ c.missed →
      (d.lock = .unused ↔ x.mode = .free) → d.Loadable := by
    intro d hr ha hp hm hi ⟨h1, h2, h3⟩ hu
    obtain ⟨c1, c2, c3⟩ := h.counts
    exact ⟨hr.trans h.running, ha ▸ hx, fun y hy => absurd (hp.symm.trans hy) nofun, ⟨hm, hi ▸ h.measure.2⟩,
      ⟨h1.trans c1, h2.trans c2, h3.trans c3⟩, ha ▸ hu⟩
  have zeroed : 0 ≤ c.good ∧ 0 ≤ c.bad ∧ 0 ≤ c.missed := ⟨Nat.zero_le _, Nat.zero_le _, Nat.zero_le _⟩
  unfold Cadence.applied
  rcases x.mode.free_or_locked with hm | hm
  · simp only [hm]
    exact taken _ rfl rfl rfl h.measure.1 rfl zeroed (by simp [Cadence.entering, hm])
  · simp only [hm]
    split
    · exact taken _ rfl rfl rfl (Nat.le_refl _) rfl zeroed (by simp [Cadence.seeking, Cadence.entering, hm])
    · rename_i same
      have mode : x.mode = c.active.mode := (not_not.mp (mt (CadenceSetting.regrids_iff x c.active).mpr same)).2.1
      exact taken _ rfl rfl rfl h.measure.1 rfl ⟨le_rfl, le_rfl, le_rfl⟩ (by rw [mode]; exact h.unused)

end Cadence

namespace State

variable {s : State}

theorem settingDue_pending {x : CadenceSetting} (h : s.settingDue = some x) : s.cadence.pending = some x := by
  unfold settingDue at h
  split at h
  · exact absurd h nofun
  · split at h
    · exact absurd h nofun
    · rw [‹s.cadence.pending = _›, h]

/-- The cadence after a frame start is legal, and runs on. -/
theorem frameStart_cadence_legal (h : s.cadence.Legal) (hr : s.cadence.run = .running) (cause : FrameCause)
    (hc : cause = .expiry ∨ s.cadence.lock ≠ .unused) :
    (s.frameStart cause).cadence.Legal ∧ (s.frameStart cause).cadence.run = .running := by
  have numbered : Cadence.Loadable { s.cadence with frameNumber := s.cadence.frameNumber + 1#32 } :=
    { h.loadable hr with }
  have edged : ((s.numberFrame cause).edgeHandling cause).cadence.Loadable := by
    rw [edgeHandling_cadence]
    exact numbered.edged cause hc
  rw [frameStart_cadence]
  generalize (s.numberFrame cause).edgeHandling cause = e at edged
  cases hd : e.settingDue with
  | none =>
    rw [settleCounter_none e cause hd]
    exact ⟨edged.load _, edged.running⟩
  | some x =>
    have applied := edged.applied (edged.pending x (settingDue_pending hd))
    rw [settleCounter_some e cause x hd, relock_cadence]
    exact ⟨applied.load _, applied.running⟩

end State
end Sys2Proof.Machine
end

