-- ==== Sys2Proof/Proofs/LegalControl.lean ====
section
-- One proof at a time: a stack for every waiting proof of this text would pass the memory limit of the check.
set_option Elab.async false
/-! Cadence, take table, mode and visit stay legal with each other: what keeps them, and the ticks and their events. -/

namespace Sys2Proof.Machine.State

variable {s t : State}

/-! ### What keeps a legal control state -/

namespace ControlLegal

/-- An act that leaves the Board and the run state as they are, and the take table legal with a take OPEN or none as
before. -/
theorem keep (h : s.ControlLegal) (hc : t.cadence.Legal) (hr : t.cadence.run = s.cadence.run)
    (ht : s.TakesLegal → t.TakesLegal ∧ t.takeIsOpen = s.takeIsOpen) (hb : t.board = s.board)
    (hv : t.chain.phase ≠ .idle → s.attached = true) : t.ControlLegal where
  cadence := hc
  takes := (ht h.takes).1
  mode := by
    obtain ⟨-, ho⟩ := ht h.takes
    refine ⟨?_, ?_, ?_⟩
    · rw [hb, ho]; exact h.mode.recording
    · rw [hb, hr]; exact h.mode.running
    · rw [hb]; exact h.mode.reading
  visiting hp := (attached_congr hb).trans (hv hp)

/-- An act that leaves cadence, Board and chain, and keeps the rest. -/
theorem still (h : s.ControlLegal) (k : s.Keeps t)
    (hf : t.cadence = s.cadence ∧ t.board = s.board ∧ t.chain = s.chain) : t.ControlLegal := by
  obtain ⟨hc, hb, hch⟩ := hf
  exact h.keep (hc ▸ h.cadence) (hc ▸ rfl) k.takes hb fun hp => h.visiting (hch ▸ hp)

end ControlLegal

/-- The take records and the writer's work stand. -/
theorem TakesLegal.stand (ht : t.takes.table = s.takes.table) (hw : t.writer.work = s.writer.work)
    (hs : s.TakesLegal) : t.TakesLegal ∧ t.takeIsOpen = s.takeIsOpen :=
  ⟨hs.map TakeRecord.Steady.id.onward (by rw [ht, List.map_id]) (endsTake_congr hw), takeIsOpen_congr ht⟩

namespace ControlLegal

/-- An act on other blocks. -/
theorem aside (h : s.ControlLegal) (hf : t.cadence = s.cadence ∧ t.takes.table = s.takes.table ∧
    t.writer.work = s.writer.work ∧ t.board = s.board ∧ t.chain = s.chain) : t.ControlLegal := by
  obtain ⟨hc, ht, hw, hb, hch⟩ := hf
  exact h.keep (hc ▸ h.cadence) (hc ▸ rfl) (TakesLegal.stand ht hw) hb fun hp => h.visiting (hch ▸ hp)

/-- An act of the chain, with a Board. -/
theorem visit (h : s.ControlLegal) (ha : s.attached = true) (hf : t.cadence = s.cadence ∧
    t.takes = s.takes ∧ t.writer = s.writer ∧ t.board = s.board) : t.ControlLegal := by
  obtain ⟨hc, ht, hw, hb⟩ := hf
  exact h.keep (hc ▸ h.cadence) (hc ▸ rfl) (TakesLegal.stand (by rw [ht]) (by rw [hw])) hb fun _ => ha

/-- An act on the cadence that does not start or stop it. -/
theorem recadence (h : s.ControlLegal) (hc : t.cadence.Legal) (hr : t.cadence.run = s.cadence.run)
    (hf : t.takes = s.takes ∧ t.writer = s.writer ∧ t.board = s.board ∧ t.chain = s.chain) : t.ControlLegal := by
  obtain ⟨ht, hw, hb, hch⟩ := hf
  exact h.keep hc hr (TakesLegal.stand (by rw [ht]) (by rw [hw])) hb fun hp => h.visiting (hch ▸ hp)

theorem attached (h : s.ControlLegal) (hr : s.cadence.run = .running) : s.attached = true :=
  s.attached_iff.mpr (.inr (h.mode.running.mp hr))

/-- Without a Board nothing runs, no take is OPEN and no visit is under way. -/
theorem detached (h : s.ControlLegal) (ha : s.attached = false) :
    s.cadence.run = .stopped ∧ s.takeIsOpen = false ∧ s.chain.phase = .idle := by
  have unattached : ¬ s.attached = true := by rw [ha]; exact Bool.false_ne_true
  refine ⟨?_, ?_, not_not.mp (mt h.visiting unattached)⟩
  · cases hr : s.cadence.run with
    | stopped => rfl
    | running => exact absurd (h.attached hr) unattached
  · rw [Bool.eq_false_iff]
    exact fun ho => unattached (s.attached_iff.mpr (.inr (.inr (h.mode.recording.mpr ho))))

end ControlLegal

/-! ### A frame start (R4) -/

theorem profileFrameStart_stands : s.profileFrameStart.takes.table = s.takes.table ∧
    s.profileFrameStart.writer.work = s.writer.work := by
  refine ⟨?_, by simp [profileFrameStart_frame]⟩
  obtain ⟨free, held⟩ := s.profileFrameStart_takes
  cases ho : s.takeIsOpen with
  | false => rw [free ho]
  | true => rw [held ho]

/-- A frame start keeps a legal take table, with a take OPEN or none as before. -/
theorem frameStart_takes (cause : FrameCause) (hs : s.TakesLegal) :
    (s.frameStart cause).TakesLegal ∧ (s.frameStart cause).takeIsOpen = s.takeIsOpen := by
  have settled : (((s.numberFrame cause).edgeHandling cause).settleCounter cause).takes = s.takes ∧
      (((s.numberFrame cause).edgeHandling cause).settleCounter cause).writer = s.writer := by
    simp [settleCounter_frame, edgeHandling_frame, numberFrame_frame]
  unfold frameStart
  generalize ((s.numberFrame cause).edgeHandling cause).settleCounter cause = u at settled
  obtain ⟨ht, hw⟩ := settled
  obtain ⟨pt, pw⟩ := u.profileFrameStart_stands
  obtain ⟨hp, ho⟩ := TakesLegal.stand (pt.trans (by rw [ht])) (pw.trans (by rw [hw])) hs
  obtain ⟨hl, hlo⟩ := (u.handFrameStart_keeps cause).takes hp
  exact ⟨hl, hlo.trans ho⟩

/-- A frame start of a running cadence; in LOCKED mode alone where it is not an expiry's. -/
theorem ControlLegal.frameStart (h : s.ControlLegal) (hr : s.cadence.run = .running) (cause : FrameCause)
    (hc : cause = .expiry ∨ s.cadence.lock ≠ .unused) : (s.frameStart cause).ControlLegal := by
  obtain ⟨legal, runs⟩ := frameStart_cadence_legal h.cadence hr cause hc
  obtain ⟨-, hb, -⟩ := s.frameStart_frame cause
  exact h.keep legal (runs.trans hr.symm) (frameStart_takes cause) hb fun _ => h.attached hr

/-! ### Sampled edges (R6 to R13) -/

theorem sampleEdge_unused (h : s.cadence.lock = .unused) : s.sampleEdge =
    if s.cadence.judge s.cadence.measure = true then s.sampled else s.sampled.countBadEdge := by
  simp [sampleEdge, State.sampled, h]

namespace ControlLegal

theorem sampled (h : s.ControlLegal) : s.sampled.ControlLegal :=
  h.recadence h.cadence.sampled rfl ⟨rfl, rfl, rfl, rfl⟩

theorem countBadEdge (h : s.ControlLegal) : s.countBadEdge.ControlLegal :=
  h.aside ⟨rfl, rfl, rfl, rfl, rfl⟩

theorem seekEdge (h : s.ControlLegal) (hr : s.cadence.run = .running) (hu : s.cadence.lock ≠ .unused) (good : Bool) :
    (s.seekEdge good).ControlLegal := by
  cases good with
  | false =>
    rw [s.seekEdge_bad]
    exact countBadEdge (h.recadence (h.cadence.good (n := 0) (Nat.zero_le _)) rfl ⟨rfl, rfl, rfl, rfl⟩)
  | true =>
    by_cases hg : s.cadence.good < 2
    · rw [s.seekEdge_step hg]
      exact h.recadence (h.cadence.good hg) rfl ⟨rfl, rfl, rfl, rfl⟩
    · rw [s.seekEdge_third (Nat.le_of_not_lt hg)]
      exact h.frameStart hr .realign (.inr hu)

/-- A bad edge outside the window: no late count is open, so none outlives LOCKED (R13, R14). -/
theorem outsideEdge (h : s.ControlLegal) (hr : s.cadence.run = .running) (hu : s.cadence.lock ≠ .unused)
    (ho : s.cadence.lateOpen = false) :
    (State.checkLost { s with cadence := { s.cadence with bad := s.cadence.bad + 1 } }).ControlLegal := by
  have lost := (h.cadence.loadable hr).checked hu (s.cadence.bad + 1) s.cadence.missed
  have kept : (Cadence.checked { s.cadence with bad := s.cadence.bad + 1 }).counter = s.cadence.counter ∧
      (Cadence.checked { s.cadence with bad := s.cadence.bad + 1 }).lateOpen = false := by
    unfold Cadence.checked
    split <;> exact ⟨rfl, ho⟩
  obtain ⟨hcount, hlate⟩ := kept
  refine h.recadence ?_ ?_ (by simp [checkLost_frame]) <;> rw [checkLost_cadence]
  · exact { lost with
      counter := hcount ▸ h.cadence.counter
      latch := fun _ => lost.running
      stopped := fun hs => absurd (lost.running.symm.trans hs) nofun
      unused := lost.unused.trans (by simp [lost.running])
      late := fun hl => absurd (hlate.symm.trans hl) nofun }
  · exact lost.running.trans hr.symm

theorem lockedEdge (h : s.ControlLegal) (hr : s.cadence.run = .running) (hl : s.cadence.lock = .locked) (good : Bool) :
    (s.lockedEdge good).ControlLegal := by
  have hu : s.cadence.lock ≠ .unused := by rw [hl]; nofun
  by_cases hin : s.cadence.inWindow = true
  · rw [State.lockedEdge, if_pos hin]
    cases good with
    | true => exact h.frameStart hr _ (.inr hu)
    | false => exact h.countBadEdge.frameStart hr _ (.inr hu)
  · rw [State.lockedEdge, if_neg hin]
    refine h.countBadEdge.outsideEdge hr hu ?_
    cases ho : s.cadence.lateOpen with
    | false => exact ho
    | true =>
      obtain ⟨-, -, ht⟩ := h.cadence.late ho
      exact absurd (by simp [Cadence.inWindow, ho, ht]) hin

theorem sampleEdge (h : s.ControlLegal) (hr : s.cadence.run = .running) : s.sampleEdge.ControlLegal := by
  cases hl : s.cadence.lock with
  | unused =>
    rw [sampleEdge_unused hl]
    split
    · exact h.sampled
    · exact h.sampled.countBadEdge
  | seeking =>
    rw [sampleEdge_seek s (.inl hl)]
    exact h.sampled.seekEdge hr (fun hu => absurd (hl.symm.trans hu) nofun) _
  | locked =>
    rw [sampleEdge_locked s hl]
    exact h.sampled.lockedEdge hr hl _
  | holdover =>
    rw [sampleEdge_seek s (.inr hl)]
    exact h.sampled.seekEdge hr (fun hu => absurd (hl.symm.trans hu) nofun) _

/-! ### Ticks and the events that fall on them (R2, R5, R11, R12, R25) -/

theorem baseBoundary (h : s.ControlLegal) : s.baseBoundary.ControlLegal :=
  h.aside (by simp [baseBoundary_frame])

theorem takeExpiry (h : s.ControlLegal) (hd : s.expiryDue = true) : s.takeExpiry.ControlLegal := by
  obtain ⟨hr, -, hc⟩ := s.expiryDue_iff.mp hd
  unfold State.takeExpiry
  split
  · exact h.recadence (h.cadence.openLate ‹_› hc) rfl ⟨rfl, rfl, rfl, rfl⟩
  · exact h.frameStart hr .expiry (.inl rfl)

theorem takeClose (h : s.ControlLegal) (hd : s.closeDue = true) : (s.frameStart .close).ControlLegal := by
  obtain ⟨hr, hw, -⟩ := s.closeDue_iff.mp hd
  exact h.frameStart hr .close (.inr fun hu => by simp [Cadence.windowed, hu] at hw)

/-- What an event that may be due leaves, it leaves legal. -/
theorem ifDue {due : Bool} (h : s.ControlLegal) (ht : due = true → t.ControlLegal) :
    (if due = true then t else s).ControlLegal := by
  split
  · exact ht ‹_›
  · exact h

theorem settle (h : s.ControlLegal) : s.settle.ControlLegal := by
  have expired := h.ifDue h.takeExpiry
  have closed := expired.ifDue expired.takeClose
  exact closed.ifDue fun _ => closed.baseBoundary

theorem pass (h : s.ControlLegal) (n : Nat) : (s.pass n).ControlLegal := by
  have counted : (s.count n).ControlLegal :=
    h.recadence (h.cadence.count n) (by rw [count_kept]) ⟨rfl, rfl, rfl, rfl⟩
  exact counted.ifDue fun hl => counted.sampleEdge (counted.cadence.latch hl)

theorem elapse (h : s.ControlLegal) (n : Nat) : (s.elapse n).ControlLegal := by
  induction n generalizing s with
  | zero => exact h
  | succ n ih =>
    rw [elapse_succ]
    exact ih (h.settle.pass 1)

/-! ### The timed commands -/

theorem cadenceExpiry (h : s.ControlLegal) (ht : exec .cadenceExpiry s = .next t) : t.ControlLegal := by
  have next : execCadenceExpiry s = .next t := ht
  have elapsed := h.elapse s.cadence.counter
  unfold execCadenceExpiry at next
  split at next
  · exact Host.Outcome.next.inj next ▸ h
  · split at next
    · exact Host.Outcome.next.inj next ▸ h
    · exact Host.Outcome.next.inj next ▸ elapsed.ifDue elapsed.takeExpiry

theorem refEdge (h : s.ControlLegal) (p : Polarity) (n : Nat) : ((s.latchEdge p).elapse n).ControlLegal := by
  refine elapse ?_ n
  unfold State.latchEdge
  refine h.ifDue fun hl => h.recadence { h.cadence with latch := fun _ => ?_ } rfl ⟨rfl, rfl, rfl, rfl⟩
  simp only [Cadence.latches, Bool.and_eq_true, beq_iff_eq] at hl
  exact hl.1.1

theorem openLate (h : s.ControlLegal) : s.openLate.ControlLegal := by
  unfold State.openLate
  split
  · exact h.takeExpiry (And.left ‹_›)
  · exact h

theorem windowClose (h : s.ControlLegal) (ht : exec .windowClose s = .next t) : t.ControlLegal := by
  have next : execWindowClose s = .next t := ht
  unfold execWindowClose at next
  split at next
  · have opened := (h.elapse s.cadence.ticksToClose).openLate
    exact Host.Outcome.next.inj next ▸ opened.ifDue opened.takeClose
  · exact Host.Outcome.next.inj next ▸ h

theorem basePeriodBoundary (h : s.ControlLegal) (ht : exec .basePeriodBoundary s = .next t) : t.ControlLegal := by
  have next : execBasePeriodBoundary s = .next t := ht
  unfold execBasePeriodBoundary at next
  split at next
  · exact Host.Outcome.next.inj next ▸ h
  · have elapsed := h.elapse s.timecode.baseCounter
    exact Host.Outcome.next.inj next ▸ elapsed.ifDue fun _ => elapsed.baseBoundary

end ControlLegal
end Sys2Proof.Machine.State
end

