-- ==== Sys2Proof/Proofs/LegalDirectives.lean ====
section
-- One proof at a time: a stack for every waiting proof of this text would pass the memory limit of the check.
set_option Elab.async false
/-! The directives keep cadence, take table and mode legal (R16 to R19, R112, R115 to R119, R176). -/

namespace Sys2Proof.Machine

/-- A stopped cadence as START_CADENCE sets it running, but for its lock state (R18). -/
def Cadence.starting (c : Cadence) : Cadence :=
  { c with
    run := .running, counter := c.active.period, lateOpen := false, lateCount := 0, edgeLatch := false
    measure := 268435455 }

namespace State

variable {s t : State}

/-! ### Takes (R115 to R119) -/

namespace ControlLegal

/-- RECORDING with a running cadence, from an OPEN take. -/
theorem ofOpen (h : s.ControlLegal) (ho : s.takeIsOpen = true) : s.cadence.run = .running ∧ s.attached = true := by
  have hr : s.cadence.run = .running := h.mode.running.mpr (.inr (h.mode.recording.mpr ho))
  exact ⟨hr, h.attached hr⟩

theorem closeTake (h : s.ControlLegal) (n : Word) (c : CloseCause) : (s.closeTake n c).ControlLegal := by
  by_cases hn : ∃ r ∈ s.takes.table, r.number = n ∧ r.phase = .opened
  · obtain ⟨r, hr, rfl, ho⟩ := hn
    obtain ⟨runs, -⟩ := h.ofOpen (s.takeIsOpen_iff.mpr ⟨r, hr, ho⟩)
    obtain ⟨hl, hclosed, -⟩ := h.takes.close c hr ho
    have hb := closeTake_board c hr ho
    have hcad : (s.closeTake r.number c).cadence = s.cadence := by simp [closeTake_frame]
    exact {
      cadence := hcad ▸ h.cadence
      takes := hl
      mode :=
        { recording := by rw [hb, hclosed]; simp
          running := by rw [hb, hcad, runs]; simp
          reading := by
            rw [hb]
            intro hread
            have := h.mode.reading hread
            exact absurd (h.mode.running.mp runs) (by rw [this]; simp) }
      visiting := fun _ => (State.attached_iff _).mpr (by rw [hb]; exact .inr (.inl rfl)) }
  · rwa [closeTake_none c fun r hr hrn => TakePhase.closed_of_ne fun ho => hn ⟨r, hr, hrn, ho⟩]

end ControlLegal

/-- A record that OPEN_TAKE appends, with no other OPEN, room for it and its number new (R115, R116). -/
theorem TakesLegal.open (h : s.TakesLegal) {take : Word} {header : TakeHeader} {count : Nat} (h0 : take ≠ 0#32)
    (ho : s.takeIsOpen = false) (hroom : s.takes.table.length < 4) (hnew : ∀ r ∈ s.takes.table, r.number ≠ take)
    (ht : t.takes.table = s.takes.table ++ [TakeRecord.opening take header count])
    (hw : t.writer.work = s.writer.work) : t.TakesLegal ∧ t.takeIsOpen = true := by
  have closed : ∀ r ∈ s.takes.table, r.phase = .closed := by
    intro r hr
    refine TakePhase.closed_of_ne fun hp => ?_
    rw [Bool.eq_false_iff, ne_eq, takeIsOpen_iff] at ho
    exact ho ⟨r, hr, hp⟩
  refine ⟨⟨?_, ?_, ?_, ?_, ?_, ?_⟩, ?_⟩
  · rw [ht, List.length_append]
    exact hroom
  · rw [ht]
    intro r hr
    rcases List.mem_append.mp hr with hr | hr
    · exact h.numbered r hr
    · rw [List.mem_singleton.mp hr]
      exact h0
  · rw [ht, List.map_append, List.nodup_append]
    refine ⟨h.distinct, List.nodup_singleton _, ?_⟩
    intro a ha b hb
    obtain ⟨r, hr, rfl⟩ := List.mem_map.mp ha
    rw [List.mem_singleton.mp hb]
    exact hnew r hr
  · rw [ht, List.dropLast_concat]
    exact closed
  · rw [ht]
    intro r hr hd
    rcases List.mem_append.mp hr with hr | hr
    · exact closed r hr
    · rw [List.mem_singleton.mp hr] at hd
      exact absurd hd Bool.false_ne_true
  · rw [ht, hw]
    intro k hk he
    obtain ⟨r, hr, hc⟩ := h.ending k hk he
    exact ⟨r, by rw [List.head?_append, hr]; rfl, hc⟩
  · rw [takeIsOpen_iff, ht]
    exact ⟨_, List.mem_append_right _ (List.mem_singleton_self _), rfl⟩

namespace ControlLegal

theorem openTake (h : s.ControlLegal) (ha : s.attached = true) (hm : s.board.mode ≠ .idle) (take : Word) :
    (s.applyOpenTake take).1.ControlLegal := by
  unfold applyOpenTake
  split
  · exact h
  split
  · exact h
  split
  · exact h
  split
  · exact h
  rename_i h0 ho hroom hnew
  have numbers : ∀ r ∈ s.takes.table, r.number ≠ take := by simpa using hnew
  have runs : s.cadence.run = .running := h.mode.running.mpr ((s.attached_iff.mp ha).resolve_left hm)
  obtain ⟨legal, opened⟩ := h.takes.open (t := s.openTakeAct take) h0 ((Bool.not_eq_true _).mp ho)
    (Nat.lt_of_not_le hroom) numbers rfl rfl
  exact {
    cadence := h.cadence
    takes := legal
    mode :=
      { recording := ⟨fun _ => opened, fun _ => rfl⟩
        running := ⟨fun _ => .inr rfl, fun _ => runs⟩
        reading := fun hread => absurd (h.mode.running.mp runs) (by rw [h.mode.reading hread]; simp) }
    visiting := fun _ => rfl }

/-! ### The cadence directives (R16 to R19) -/

theorem setCadence (h : s.ControlLegal) (period : BitVec 64) (mode polarity : Byte) (tolerance : Word) :
    (s.applySetCadence period mode polarity tolerance).1.ControlLegal := by
  have used : ∀ m p, (settingUsed period m p tolerance).Legal := by
    intro m p
    simp only [settingUsed, clampNat, CadenceSetting.Legal]
    omega
  unfold applySetCadence
  split
  · rename_i m p _ _
    unfold useSetting
    dsimp only
    split
    · rename_i hr
      exact h.recadence { h.cadence with
        active := used m p
        unused := ⟨fun _ => .inl hr, fun _ => (h.cadence.stopped hr).2.2.1⟩
        late := fun hl => absurd ((h.cadence.stopped hr).2.1.symm.trans hl) nofun } rfl ⟨rfl, rfl, rfl, rfl⟩
    · rename_i hr
      split
      · exact h
      · exact h.recadence { h.cadence with
          pending := fun x hx => Option.some.inj hx ▸ used m p
          stopped := fun hs => absurd (hr.symm.trans hs) nofun } rfl ⟨rfl, rfl, rfl, rfl⟩
  · exact h

theorem startCadence_cadence_eq : s.startCadence.cadence = match s.cadence.active.mode with
    | .free => s.cadence.starting
    | .locked => s.cadence.starting.seeking := by
  unfold startCadence
  extract_lets c b u
  cases s.cadence.active.mode with
  | free => rfl
  | locked =>
    show u.enterSeeking.cadence = _
    rw [enterSeeking_eq, relock_cadence]
    rfl

/-- The lock state of a started cadence is UNUSED in FREE and SEEKING in LOCKED (R8, R18). -/
theorem startCadence_legal (h : s.cadence.Legal) (hr : s.cadence.run = .stopped) : s.startCadence.cadence.Legal := by
  obtain ⟨-, -, hlock, -⟩ := h.stopped hr
  have measure : 268435455 ≤ 268435455 ∧ s.cadence.lastInterval ≤ 268435455 := ⟨le_rfl, h.measure.2⟩
  rw [startCadence_cadence_eq]
  cases hm : s.cadence.active.mode with
  | free =>
    have : s.cadence.starting.Loadable :=
      { h with
        running := rfl, measure := measure
        unused := ⟨fun _ => hm, fun _ => hlock⟩ }
    exact this.load false
  | locked =>
    have : s.cadence.starting.seeking.Loadable :=
      { h with
        running := rfl, measure := measure
        counts := ⟨Nat.zero_le _, Nat.zero_le _, Nat.zero_le _⟩
        unused := ⟨nofun, fun hf => absurd (hm.symm.trans hf) nofun⟩ }
    exact this.load false

theorem startCadence_board : s.startCadence.board = { s.board with mode := .standby } := by
  unfold startCadence
  extract_lets c b u
  split
  · rfl
  · simp [enterSeeking_frame, u, b]

theorem startCadence (h : s.ControlLegal) : s.applyStartCadence.1.ControlLegal := by
  unfold applyStartCadence
  split
  · rename_i hm
    have stopped : s.cadence.run = .stopped := by
      cases hr : s.cadence.run with
      | stopped => rfl
      | running => exact absurd (h.mode.running.mp hr) (by rw [hm]; simp)
    have shut : s.takeIsOpen = false := by
      rw [Bool.eq_false_iff, ne_eq, ← h.mode.recording, hm]
      nofun
    obtain ⟨runs, -⟩ := s.startCadence_cadence
    have hb := startCadence_board (s := s)
    obtain ⟨legal, ho⟩ := h.takes.stand (t := s.startCadence) (by simp [startCadence_frame])
      (by simp [startCadence_frame])
    exact {
      cadence := startCadence_legal h.cadence stopped
      takes := legal
      mode :=
        { recording := by rw [hb, ho, shut]; simp
          running := by rw [hb, runs]; simp
          reading := by
            rw [hb]
            intro hread
            exact absurd (hm.symm.trans (h.mode.reading hread)) nofun }
      visiting := fun _ => (State.attached_iff _).mpr (by rw [hb]; exact .inr (.inl rfl)) }
  · exact h

end ControlLegal

theorem activatePending_stands : s.activatePending.takes.table = s.takes.table ∧
    s.activatePending.writer.work = s.writer.work :=
  ⟨s.activatePending_table, by simp [activatePending_frame]⟩

/-- A stop leaves a legal take table with no take OPEN (R19, R118). -/
theorem TakesLegal.stopCadence (h : s.TakesLegal) : s.stopCadence.TakesLegal ∧ s.stopCadence.takeIsOpen = false := by
  obtain ⟨-, ht, -, -, -, hw⟩ := s.halted_frame
  obtain ⟨-, -, -, -, -, kt, kw, -⟩ := s.halted.boundaryAfter_frame s.following
  obtain ⟨before, -⟩ := h.stand (t := s.halted.boundaryAfter s.following) (by rw [kt, ht]) (by rw [kw, hw])
  obtain ⟨legal, shut, -⟩ := before.closeForStop
  obtain ⟨at', aw⟩ := activatePending_stands (s := s.stopped)
  obtain ⟨active, ho⟩ := TakesLegal.stand at' aw legal
  rw [stopCadence_eq]
  exact ⟨{ active with }, ho.trans shut⟩

namespace ControlLegal

theorem stopCadence (h : s.ControlLegal) (ha : s.attached = true) (hm : s.board.mode ≠ .idle) :
    s.stopCadence.ControlLegal := by
  obtain ⟨legal, shut⟩ := h.takes.stopCadence
  obtain ⟨hc, -, -, -, -, hb, -⟩ := s.stopped_frame
  obtain ⟨ac, -, -, -, -, ab, -⟩ := s.stopped.activatePending_frame
  have cadence : s.stopCadence.cadence = { s.cadence.halt with lock := .unused } := by
    rw [stopCadence_eq]
    exact ac.trans hc
  have board : s.stopCadence.board = { s.board with mode := .idle } := by
    rw [stopCadence_eq]
    exact (congrArg (fun b : Board => { b with mode := .idle }) ab).trans (hb _)
  have unread : s.board.headerRead.isSome = true → False := by
    intro hread
    rcases (s.attached_iff.mp ha).resolve_left hm with hs | hs <;> exact absurd ((h.mode.reading hread).symm.trans hs) nofun
  exact {
    cadence := cadence ▸ h.cadence.halt
    takes := legal
    mode :=
      { recording := by rw [board, shut]; simp
        running := by rw [board, cadence]; simp [Cadence.halt]
        reading := by rw [board]; exact fun hread => (unread hread).elim }
    visiting := fun _ => (State.attached_iff _).mpr (by rw [board]; exact .inl rfl) }

/-! ### The other directives -/

theorem setProfile (h : s.ControlLegal) (p : ProfileParams) : (s.applySetProfile p).1.ControlLegal := by
  unfold applySetProfile
  split
  · split
    · exact h.aside ⟨rfl, rfl, rfl, rfl, rfl⟩
    · exact h.aside ⟨rfl, rfl, rfl, rfl, rfl⟩
  · exact h

theorem closeTakeDirective (h : s.ControlLegal) : s.applyCloseTake.1.ControlLegal := by
  unfold applyCloseTake
  split
  · exact h
  · exact h.closeTake _ _

theorem remap (h : s.ControlLegal) (first count : Nat) : (s.applyRemap first count).1.ControlLegal := by
  unfold applyRemap
  split
  · exact h
  · extract_lets n last mask a ways discarded released u
    have remapped : u.ControlLegal := h.aside ⟨rfl, rfl, rfl, rfl, rfl⟩
    split
    · exact remapped.still u.retryTranslation_keeps (by simp [retryTranslation_frame])
    · exact remapped

/-- The owner of a directive, none that is refused in IDLE before it (R176). -/
theorem owner (h : s.ControlLegal) (ha : s.attached = true) (d : Directive)
    (hm : s.board.mode = .idle → d.inIdle = true) : (s.applyOwner d).1.ControlLegal := by
  have notIdle : d.inIdle = false → s.board.mode ≠ .idle := fun hd hi => by simp [hm hi] at hd
  cases d with
  | setCadence period mode polarity tolerance => exact h.setCadence ..
  | startCadence => exact h.startCadence
  | stopCadence => exact h.stopCadence ha (notIdle rfl)
  | jamTimecode hh mm ss ff target => exact h.aside (by simp [applyOwner, applyJam_frame])
  | setProfile p => exact h.setProfile p
  | openTake take => exact h.openTake ha (notIdle rfl) take
  | closeTake => exact h.closeTakeDirective
  | mark value => exact h.aside (by simp [applyOwner, applyMark_frame])
  | remapApertures first count => exact h.remap ..
  | probeAperture page => exact h.aside (by simp [applyOwner, applyProbe_frame])
  | snapshot => exact h.aside (by simp [applyOwner, applySnapshot_frame])
  | setNotice count age => exact h.aside (by simp [applyOwner, applySetNotice_frame])

end ControlLegal
end State
end Sys2Proof.Machine
end

