-- ==== Sys2Proof/Proofs/LegalSteps.lean ====
section
-- One proof at a time: a stack for every waiting proof of this text would pass the memory limit of the check.
set_option Elab.async false
/-! Every step keeps cadence, take table, mode and visit legal: Board, chain, lanes, Intake and writer, and the dispatch. -/

namespace Sys2Proof.Machine

namespace State

variable {s t : State}

namespace ControlLegal

/-! ### Detach, Attach and the reset (R163 to R167) -/

theorem reset : State.reset.ControlLegal where
  cadence :=
    { active := ⟨by decide, by decide, by decide⟩, pending := nofun, counter := by decide, measure := by decide
      counts := by decide
      latch := nofun, stopped := fun _ => ⟨rfl, rfl, rfl, rfl⟩, unused := ⟨fun _ => .inl rfl, fun _ => rfl⟩
      late := nofun }
  takes := { room := by decide, numbered := nofun, distinct := List.nodup_nil, newest := nofun, drained := nofun
             ending := nofun }
  mode := { recording := by decide, running := by decide, reading := nofun }
  visiting hp := absurd rfl hp

/-- A stopped cadence, an empty take table and an idle chain, in a mode without a take (R165, R166). -/
theorem cleared (hc : t.cadence.Legal) (hr : t.cadence.run = .stopped) (ht : t.takes.table = [])
    (hw : t.writer.work = none) (hv : t.chain.phase = .idle)
    (hm : t.board.mode ≠ .standby ∧ t.board.mode ≠ .recording)
    (hread : t.board.headerRead.isSome = true → t.board.mode = .attaching) : t.ControlLegal where
  cadence := hc
  takes := by
    refine ⟨?_, ?_, ?_, ?_, ?_, fun k hk => absurd (hw.symm.trans hk) nofun⟩ <;> rw [ht]
    · exact Nat.zero_le _
    · nofun
    · exact List.nodup_nil
    · nofun
    · nofun
  mode :=
    { recording := ⟨fun h => absurd h hm.2, fun h => by simp [takeIsOpen, State.openTake, ht] at h⟩
      running := ⟨fun h => absurd (hr.symm.trans h) nofun, fun h => (h.elim hm.1 hm.2).elim⟩
      reading := hread }
  visiting hp := absurd hv hp

theorem detach_cadence : s.detach.cadence = { s.cadence.halt with lock := .unused } := by
  show s.detachCadence.cadence = _
  simp [detachCadence, boundaryAfter_frame]

theorem detach (h : s.ControlLegal) : s.detach.ControlLegal :=
  cleared (by rw [detach_cadence]; exact h.cadence.halt) (by rw [detach_cadence]; rfl) rfl rfl rfl ⟨nofun, nofun⟩ nofun

/-- A change of the Board's fields without a Board (R163, R164). -/
theorem unattached (h : s.ControlLegal) (ha : s.attached = false)
    (hb : t.board.mode = .detached ∨ t.board.mode = .attaching)
    (hread : t.board.headerRead.isSome = true → t.board.mode = .attaching)
    (hf : t.cadence = s.cadence ∧ t.takes = s.takes ∧ t.writer = s.writer ∧ t.chain = s.chain) : t.ControlLegal := by
  obtain ⟨hc, ht, hw, hch⟩ := hf
  obtain ⟨hr, ho, hi⟩ := h.detached ha
  obtain ⟨legal, hopen⟩ := h.takes.stand (t := t) (by rw [ht]) (by rw [hw])
  exact {
    cadence := hc ▸ h.cadence
    takes := legal
    mode :=
      { recording := by rw [hopen, ho]; rcases hb with hb | hb <;> simp [hb]
        running := by rw [hc, hr]; rcases hb with hb | hb <;> simp [hb]
        reading := hread }
    visiting := fun hp => absurd (hch ▸ hi) hp }

theorem loseHost (h : s.ControlLegal) : s.loseHost.ControlLegal :=
  h.detach.unattached rfl (.inl rfl) nofun ⟨rfl, rfl, rfl, rfl⟩

theorem attachFailed (h : s.ControlLegal) (ha : s.attached = false) (r : AttachResult) :
    (s.attachFailed r).ControlLegal := by
  have failed : ControlLegal { s with board := { s.board with mode := .detached, result := r, headerRead := none } } :=
    h.unattached ha (.inl rfl) nofun ⟨rfl, rfl, rfl, rfl⟩
  exact failed.still (t := State.raise _ .attach) (raise_keeps _ .attach) (by simp)

theorem commitAnchor (h : s.ControlLegal) (a : HostAddr) : (s.commitAnchor a).ControlLegal := by
  unfold State.commitAnchor
  extract_lets d b u
  have anchored : u.ControlLegal := h.detach.unattached rfl (.inl rfl) nofun ⟨rfl, rfl, rfl, rfl⟩
  split
  · exact anchored
  · split
    · exact anchored.unattached rfl (.inr rfl) (fun _ => rfl) ⟨rfl, rfl, rfl, rfl⟩
    · exact anchored.attachFailed rfl _

/-- Attach sets the blocks up with the cadence stopped, as it was (R165). -/
theorem setUp (h : s.ControlLegal) (ha : s.attached = false) (bytes : List Byte) : (s.setUp bytes).ControlLegal := by
  obtain ⟨hr, -⟩ := h.detached ha
  exact cleared (t := s.setUp bytes) { h.cadence with measure := ⟨h.cadence.measure.1, Nat.zero_le _⟩ } hr rfl rfl rfl
    ⟨nofun, nofun⟩ nofun

theorem judgeHeader (h : s.ControlLegal) (ha : s.attached = false) (data : Option (List Byte)) :
    (s.judgeHeader data).ControlLegal := by
  unfold State.judgeHeader
  split
  · exact h.attachFailed ha _
  · rename_i bytes
    split
    · have reported := (h.setUp ha bytes).still (frameReport_keeps _ [s.setUp bytes] (s.setUp bytes).timecode.freeRun)
        (by simp [frameReport_frame])
      exact reported.still (t := State.raise _ .attach) (raise_keeps _ .attach) (by simp)
    · exact h.attachFailed ha _

theorem boardAnchorLow (h : s.ControlLegal) (value : Word) :
    ControlLegal { s with board := { s.board with staging := value } } where
  cadence := h.cadence
  takes := { h.takes with }
  mode := { h.mode with }
  visiting := h.visiting

theorem headerReadDone (h : s.ControlLegal) {tag : Nat} {data : Option (List Byte)}
    (ht : execHeaderReadDone tag data s = .next t) : t.ControlLegal := by
  unfold execHeaderReadDone at ht
  split at ht
  · exact Host.Outcome.next.inj ht ▸ h
  · rename_i r hread
    split at ht
    · have mode := h.mode.reading (by rw [hread]; rfl)
      exact Host.Outcome.next.inj ht ▸ h.judgeHeader (by simp [State.attached, mode]) data
    · exact Host.Outcome.next.inj ht ▸ h

theorem visitRequest (h : s.ControlLegal) {value : Word} (ht : execVisitRequest value s = .next t) :
    t.ControlLegal := by
  unfold execVisitRequest at ht
  split at ht
  case isFalse => exact Host.Outcome.next.inj ht ▸ h
  rename_i ha
  refine Host.Outcome.next.inj ht ▸ ?_
  have retried := h.still s.writerVisit_keeps (by simp [writerVisit_frame])
  have hb : s.writerVisit.board = s.board := by simp [writerVisit_frame]
  exact retried.visit (t := State.askVisit _ false) ((attached_congr hb).trans ha)
    (by simp [askVisit_frame, frameReport_frame])

/-! ### Directives (R176) -/

theorem judgeDirective (h : s.ControlLegal) (ha : s.attached = true) (d : Option Directive) :
    (s.judgeDirective d).1.ControlLegal := by
  unfold State.judgeDirective
  split
  · exact h
  · rename_i x
    split
    · exact h
    · rename_i hrefused
      refine h.owner ha x fun hi => ?_
      cases hx : x.inIdle with
      | false => exact absurd ⟨hi, hx⟩ hrefused
      | true => rfl

theorem applyDirective (h : s.ControlLegal) (ha : s.attached = true) (d : Option Directive) :
    (s.applyDirective d).1.ControlLegal :=
  (h.judgeDirective ha d).aside ⟨rfl, rfl, rfl, rfl, rfl⟩

theorem direct (h : s.ControlLegal) (d : Directive) : (s.direct d).ControlLegal := by
  unfold State.direct
  split
  · exact (h.applyDirective ‹_› (some d)).aside (by simp [countRefusal_frame])
  · exact h

/-! ### The chain (R155, R172 to R179) -/

theorem underWay (h : s.ControlLegal) {p : ChainPhase} (hp : s.chain.phase = p) (hi : p ≠ .idle := by nofun) :
    s.attached = true :=
  h.visiting (hp ▸ hi)

theorem chainFault (h : s.ControlLegal) (ha : s.attached = true) (a : Nat) : (s.chainFault a).ControlLegal :=
  h.visit ha (by simp [chainFault_frame])

theorem takeNext (h : s.ControlLegal) (ha : s.attached = true) (n : Nat) : (s.takeNext n).ControlLegal :=
  h.visit ha (by simp [takeNext_frame])

/-- The visit that fetched the record still has its Board after the directive. -/
theorem takeRecordBytes (h : s.ControlLegal) (hp : s.chain.phase ≠ .idle) (addr : Nat) (bytes : List Byte) :
    (s.takeRecordBytes addr bytes).ControlLegal := by
  have ha := h.visiting hp
  unfold State.takeRecordBytes
  split
  · have applied := h.applyDirective ha (directiveOf bytes)
    have chain : (s.applyDirective (directiveOf bytes)).1.chain = s.chain := by simp [applyDirective_frame]
    generalize s.applyDirective (directiveOf bytes) = x at applied chain
    obtain ⟨u, r⟩ := x
    have asked : ∀ p, let v := ((u.setPhase p).translate .chain addr).1
        v.cadence = u.cadence ∧ v.takes = u.takes ∧ v.writer = u.writer ∧ v.board = u.board := by
      simp [translate_frame]
    refine applied.visit (applied.visiting (by rwa [chain])) ?_
    dsimp only
    specialize asked (.resultPage ⟨addr, fieldAt bytes 0 4, notifyFlag bytes, r⟩)
    split <;> (rename_i e; rw [e] at asked)
    · simpa [completeRecord_frame] using asked
    · exact asked
  · exact h.visit ha (by simp [endVisit_frame])

theorem chainNextReadDone (h : s.ControlLegal) {tag : Nat} {data : Option (List Byte)}
    (ht : execChainNextReadDone tag data s = .next t) : t.ControlLegal := by
  unfold execChainNextReadDone at ht
  split at ht
  · rename_i hp
    have ha := h.underWay hp
    split at ht
    · split at ht
      · exact Host.Outcome.next.inj ht ▸ h.chainFault ha _
      · exact Host.Outcome.next.inj ht ▸ h.takeNext ha _
    · exact Host.Outcome.next.inj ht ▸ h
  · exact Host.Outcome.next.inj ht ▸ h

theorem chainRecordFetchDone (h : s.ControlLegal) {tag : Nat} {data : Option (List Byte)}
    (ht : execChainRecordFetchDone tag data s = .next t) : t.ControlLegal := by
  unfold execChainRecordFetchDone at ht
  split at ht
  · rename_i hp
    split at ht
    · split at ht
      · exact Host.Outcome.next.inj ht ▸ h.chainFault (h.underWay hp) _
      · exact Host.Outcome.next.inj ht ▸ h.takeRecordBytes (by rw [hp]; nofun) _ _
    · exact Host.Outcome.next.inj ht ▸ h
  · exact Host.Outcome.next.inj ht ▸ h

theorem answerChain (h : s.ControlLegal) (a : Answer) : (s.answerChain a).ControlLegal := by
  by_cases hp : s.chain.phase = .idle
  · have idle : s.answerChain a = s := by simp [State.answerChain, hp]
    rwa [idle]
  · exact h.visit (h.visiting hp) (by simp [answerChain_frame])

theorem answerAll (h : s.ControlLegal) (answers : List (Miss × Answer)) : (s.answerAll answers).ControlLegal := by
  induction answers generalizing s with
  | nil => exact h
  | cons x rest ih =>
    refine ih (s := s.answerMiss x.1 x.2) ?_
    unfold answerMiss
    split
    · exact h.still (s.answerWriter_keeps ..) (by simp [answerWriter_frame])
    · exact h.answerChain x.2

theorem apertureFetchDone (h : s.ControlLegal) {tag : Nat} {data : Option (List Byte)}
    (ht : execApertureFetchDone tag data s = .next t) : t.ControlLegal := by
  have done : ∀ f, (s.fetchDone f data).ControlLegal := by
    intro f
    unfold fetchDone
    split
    · exact h.aside ⟨rfl, rfl, rfl, rfl, rfl⟩
    · exact (h.aside (t := (s.settleFetch f.page (fetchAnswer data)).1) (by simp [settleFetch_frame])).answerAll _
  unfold execApertureFetchDone at ht
  split at ht
  · exact Host.Outcome.next.inj ht ▸ h
  · split at ht
    · exact Host.Outcome.next.inj ht ▸ done _
    · exact Host.Outcome.next.inj ht ▸ h

/-! ### Lanes (R55 to R65) -/

theorem reservationFailure (h : s.ControlLegal) (k : Ticket) (lack : Lack) :
    (s.reservationFailure k lack).ControlLegal := by
  unfold State.reservationFailure
  split
  · have reported := (h.closeTake k.take .storeOverrun).still
      (reportFault_keeps _ .storeOverrun k.frame k.take lack.detail) (by simp)
    refine ControlLegal.still ?_ (settleDrained_keeps _) ⟨rfl, rfl, rfl⟩
    exact reported.aside (by simp [dropTicket_frame, showLoss_frame])
  · exact h.aside (by simp [dropTicket_frame])

theorem complete (h : s.ControlLegal) (l : Lane) (k : Ticket) (g : Nat) (r : LaneResult) :
    (s.complete l k g r).ControlLegal :=
  h.aside (by simp [complete_frame])

theorem settleJob (h : s.ControlLegal) (l : Lane) (k : Ticket) (q : Option Nat) (j : Job) (v : Verdict) :
    (s.settleJob l k q j v).ControlLegal := by
  unfold State.settleJob
  dsimp only
  split
  · exact h.reservationFailure ..
  · split
    · exact h.complete ..
    · exact h.aside (by simp [startJob_frame])
  · split
    · exact h.reservationFailure ..
    · exact h.complete ..

theorem jobStart (h : s.ControlLegal) {l : Lane} (ht : execJobStart l s = .next t) : t.ControlLegal := by
  unfold execJobStart at ht
  split at ht
  · exact Host.Outcome.next.inj ht ▸ h
  · refine Host.Outcome.next.inj ht ▸ settleJob (h.aside ?_) ..
    simp [withReservation_frame]

theorem pass1End (h : s.ControlLegal) {l : Lane} {tag size : Nat} (ht : execPass1End l tag size s = .next t) :
    t.ControlLegal := by
  unfold execPass1End at ht
  split at ht
  · exact Host.Outcome.next.inj ht ▸ h
  · exact Host.Outcome.next.inj ht ▸ h.aside (by simp [endPass1_frame])

theorem pass2End (h : s.ControlLegal) {l : Lane} {tag size : Nat} (ht : execPass2End l tag size s = .next t) :
    t.ControlLegal := by
  unfold execPass2End at ht
  split at ht
  · exact Host.Outcome.next.inj ht ▸ h
  · exact Host.Outcome.next.inj ht ▸ h.aside (by simp [endPass2_frame])

/-! ### The Intake (R40 to R47) -/

theorem frameBegin (h : s.ControlLegal) (ht : execFrameBegin s = .next t) : t.ControlLegal := by
  unfold execFrameBegin at ht
  split at ht
  · exact Host.Outcome.next.inj ht ▸ h.aside ⟨rfl, rfl, rfl, rfl, rfl⟩
  · split at ht
    · exact Host.Outcome.next.inj ht ▸ h.aside ⟨rfl, rfl, rfl, rfl, rfl⟩
    · exact Host.Outcome.next.inj ht ▸ h.aside ⟨rfl, rfl, rfl, rfl, rfl⟩

theorem lineEvent (h : s.ControlLegal) {index : Nat} {samples : List (BitVec 16)} {passed : Bool}
    (ht : execLineEvent index samples passed s = .next t) : t.ControlLegal := by
  unfold execLineEvent at ht
  split at ht
  · exact Host.Outcome.next.inj ht ▸ h
  · split at ht
    · exact Host.Outcome.next.inj ht ▸ h
    · split at ht
      · split at ht
        · exact Host.Outcome.next.inj ht ▸ h.aside ⟨rfl, rfl, rfl, rfl, rfl⟩
        · exact absurd ht nofun
      · exact Host.Outcome.next.inj ht ▸ h

theorem frameEnd (h : s.ControlLegal) (ht : execFrameEnd s = .next t) : t.ControlLegal := by
  unfold execFrameEnd at ht
  split at ht
  · exact Host.Outcome.next.inj ht ▸ h.aside ⟨rfl, rfl, rfl, rfl, rfl⟩
  · split at ht
    · exact Host.Outcome.next.inj ht ▸ h.still (s.loseCapture_keeps _) (by simp [loseCapture_frame])
    · exact Host.Outcome.next.inj ht ▸ h.aside (by simp [makeTicket_frame, usableFrame_frame])

/-! ### The writer and the notices (R133 to R147, R186, R187) -/

theorem writerStartWork (h : s.ControlLegal) (ht : execWriterStartWork s = .next t) : t.ControlLegal := by
  unfold execWriterStartWork at ht
  split at ht
  · exact Host.Outcome.next.inj ht ▸ h
  · exact Host.Outcome.next.inj ht ▸ h.still s.chooseWork_keeps (by simp [chooseWork_frame])

theorem chunkEntryReadDone (h : s.ControlLegal) {tag : Nat} {data : Option (List Byte)}
    (ht : execChunkEntryReadDone tag data s = .next t) : t.ControlLegal := by
  have read : ∀ p a, (s.entryRead p a data).ControlLegal := fun p a =>
    h.still (s.entryRead_keeps p a data) (by simp [entryRead_frame])
  unfold execChunkEntryReadDone at ht
  split at ht
  · exact Host.Outcome.next.inj ht ▸ read ..
  · split at ht
    · exact Host.Outcome.next.inj ht ▸ read ..
    · split at ht
      · exact Host.Outcome.next.inj ht ▸ read ..
      · exact Host.Outcome.next.inj ht ▸ h

theorem proxySuspended (h : s.ControlLegal) (ht : execProxySuspended s = .next t) : t.ControlLegal := by
  unfold execProxySuspended at ht
  split at ht
  · exact Host.Outcome.next.inj ht ▸ h.still s.beginSuspension_keeps (by simp [beginSuspension_frame])
  · exact Host.Outcome.next.inj ht ▸ h

theorem coalescingAgeLimit (h : s.ControlLegal) (ht : execCoalescingAgeLimit s = .next t) : t.ControlLegal := by
  have announced : s.announce.ControlLegal := h.still s.announce_keeps (by simp)
  exact Host.Outcome.next.inj ht ▸ h.ifDue fun _ => announced

/-! ### The dispatch -/

theorem command (h : s.ControlLegal) {i : Instr} (ht : exec i s = .next t) : t.ControlLegal := by
  cases i with
  | fundamentalReset => exact Host.Outcome.next.inj ht ▸ reset.aside ⟨rfl, rfl, rfl, rfl, rfl⟩
  | linkDown => exact Host.Outcome.next.inj ht ▸ h.loseHost
  | functionLevelReset => exact Host.Outcome.next.inj ht ▸ h.loseHost
  | boardAnchorLow value => exact Host.Outcome.next.inj ht ▸ h.boardAnchorLow value
  | boardAnchorHigh value => exact Host.Outcome.next.inj ht ▸ h.commitAnchor _
  | visitRequest value => exact h.visitRequest (value := value) ht
  | noticeCause value => exact Host.Outcome.next.inj ht ▸ h.aside ⟨rfl, rfl, rfl, rfl, rfl⟩
  | noticeMaskSet value => exact Host.Outcome.next.inj ht ▸ h.aside ⟨rfl, rfl, rfl, rfl, rfl⟩
  | noticeMaskClear value => exact Host.Outcome.next.inj ht ▸ h.aside (by simp)
  | ignoredRegisterWrite offset bytes value => exact Host.Outcome.next.inj ht ▸ h
  | headerReadDone tag data => exact h.headerReadDone ht
  | cadenceExpiry => exact h.cadenceExpiry ht
  | refEdge polarity ticks => exact Host.Outcome.next.inj ht ▸ h.refEdge polarity ticks
  | windowClose => exact h.windowClose ht
  | basePeriodBoundary => exact h.basePeriodBoundary ht
  | frameBegin => exact h.frameBegin ht
  | lineEvent index samples passed => exact h.lineEvent ht
  | frameEnd => exact h.frameEnd ht
  | jobStart lane => exact h.jobStart ht
  | pass1End lane tag size => exact h.pass1End ht
  | pass2End lane tag size => exact h.pass2End ht
  | setCadence period mode polarity tolerance => exact Host.Outcome.next.inj ht ▸ h.direct _
  | startCadence => exact Host.Outcome.next.inj ht ▸ h.direct _
  | stopCadence => exact Host.Outcome.next.inj ht ▸ h.direct _
  | jamTimecode hh mm ss ff target => exact Host.Outcome.next.inj ht ▸ h.direct _
  | setProfile params => exact Host.Outcome.next.inj ht ▸ h.direct _
  | openTake take => exact Host.Outcome.next.inj ht ▸ h.direct _
  | closeTake => exact Host.Outcome.next.inj ht ▸ h.direct _
  | mark value => exact Host.Outcome.next.inj ht ▸ h.direct _
  | remapApertures first count => exact Host.Outcome.next.inj ht ▸ h.direct _
  | probeAperture page => exact Host.Outcome.next.inj ht ▸ h.direct _
  | snapshot => exact Host.Outcome.next.inj ht ▸ h.direct _
  | setNotice count age => exact Host.Outcome.next.inj ht ▸ h.direct _
  | chainNextReadDone tag data => exact h.chainNextReadDone ht
  | chainRecordFetchDone tag data => exact h.chainRecordFetchDone ht
  | apertureFetchDone tag data => exact h.apertureFetchDone ht
  | writerStartWork => exact h.writerStartWork ht
  | chunkEntryReadDone tag data => exact h.chunkEntryReadDone ht
  | proxySuspended => exact h.proxySuspended ht
  | coalescingAgeLimit => exact h.coalescingAgeLimit ht

end ControlLegal
end State

/-- Settles O58: a step is a command, an event of the block's own, or one tick, and each keeps the state legal. -/
theorem stepKeepsControl : Obligations.StepKeepsControl := by
  intro s t h ht
  unfold step at ht
  split at ht
  · rename_i rest _
    have taken : State.ControlLegal { s with pending := rest } := h.aside ⟨rfl, rfl, rfl, rfl, rfl⟩
    exact taken.command ht
  · split at ht
    · exact h.command ht
    · exact Host.Outcome.next.inj ht ▸ h.elapse 1

end Sys2Proof.Machine
end

