-- ==== Sys2Proof/Proofs/Labels.lean ====
section
-- One proof at a time: a stack for every waiting proof of this text would pass the memory limit of the check.
set_option Elab.async false
/-! The labels: their increment, their conversion and their steps, the jam and the boundary (R24 to R28, R31 to R33). -/

namespace Sys2Proof.Machine

/-! ### Dropped labels (R24) -/

theorem baseRate_d_lt_n (code : Nat) : (baseRate code).d < (baseRate code).n := by
  unfold baseRate
  (repeat' split) <;> decide

namespace Label

theorem dropped_iff (base : Nat) (l : Label) : l.dropped base = true ↔
    l.df = true ∧ l.ss = 0 ∧ l.ff < (baseRate base).d ∧ l.mm % 10 ≠ 0 := by
  simp [dropped, and_assoc]

/-- A dropped label takes FF d, in the words of R24. -/
theorem undrop_eq (base : Nat) (l : Label) : l.undrop base =
    if l.df = true ∧ l.ss = 0 ∧ l.ff < (baseRate base).d ∧ l.mm % 10 ≠ 0 then { l with ff := (baseRate base).d }
    else l :=
  if_congr (l.dropped_iff base) rfl rfl

theorem undrop_not_dropped (base : Nat) (l : Label) : ¬ (l.undrop base).dropped base = true := by
  unfold undrop
  split
  · rw [dropped_iff]
    rintro ⟨-, -, hff, -⟩
    exact absurd hff (Nat.lt_irrefl _)
  · assumption

/-! ### The increment (R24) -/

/-- The ranges of R23: HH, MM and SS of a day, and FF below n. -/
def InRange (base : Nat) (l : Label) : Prop :=
  l.hh < 24 ∧ l.mm < 60 ∧ l.ss < 60 ∧ l.ff < (baseRate base).n

/-- The seconds since midnight. -/
def seconds (l : Label) : Nat :=
  (l.hh * 60 + l.mm) * 60 + l.ss

variable {base : Nat} {l : Label}

theorem InRange.seconds_lt (h : l.InRange base) : l.seconds < 86400 := by
  obtain ⟨hh, hm, hs, -⟩ := h
  unfold seconds
  omega

theorem InRange.undrop (h : l.InRange base) : (l.undrop base).InRange base := by
  unfold Label.undrop
  split
  · obtain ⟨hh, hm, hs, -⟩ := h
    exact ⟨hh, hm, hs, baseRate_d_lt_n base⟩
  · exact h

theorem carry_df (base : Nat) (l : Label) : (l.carry base).df = l.df := by
  unfold carry
  (repeat' split) <;> rfl

/-- The carry counts FF up to n, or begins the next second of the day. -/
theorem InRange.carry_cases (h : l.InRange base) : (l.carry base).InRange base ∧
    ((l.ff + 1 < (baseRate base).n ∧ (l.carry base).seconds = l.seconds ∧ (l.carry base).ff = l.ff + 1) ∨
      (l.ff + 1 = (baseRate base).n ∧ (l.carry base).seconds = (l.seconds + 1) % 86400 ∧
        (l.carry base).ff = 0)) := by
  obtain ⟨hh, hm, hs, hf⟩ := h
  unfold carry InRange seconds
  (repeat' split) <;> dsimp only <;> omega

/-- The carry adds one to the frames since midnight, around the day. -/
theorem InRange.carry_frames (h : l.InRange base) :
    (l.carry base).seconds * (baseRate base).n + (l.carry base).ff =
      (l.seconds * (baseRate base).n + l.ff + 1) % (86400 * (baseRate base).n) := by
  obtain ⟨-, ⟨hf, hs, hc⟩ | ⟨hf, hs, hc⟩⟩ := h.carry_cases
  · have day : (l.seconds + 1) * (baseRate base).n ≤ 86400 * (baseRate base).n :=
      Nat.mul_le_mul_right _ h.seconds_lt
    rw [Nat.succ_mul] at day
    rw [hs, hc, Nat.mod_eq_of_lt (by omega), Nat.add_assoc]
  · rw [hs, hc, Nat.add_assoc, hf, ← Nat.succ_mul, Nat.mul_mod_mul_right, Nat.add_zero]

end Label

/-- Settles O36: the increment is the carry, which counts a frame, and then the step over a dropped label. -/
theorem labelIncrement : Obligations.LabelIncrement := by
  intro base l n d inRange dropped count h
  have range : l.InRange base := h
  obtain ⟨carried, -⟩ := range.carry_cases
  refine ⟨⟨l.carry base, carried, Label.carry_df base l, range.carry_frames, fun hd => ?_, fun hd => ?_⟩,
    carried.undrop, fun hd => ?_⟩
  · exact if_neg (mt (Label.dropped_iff base _).mp hd)
  · exact if_pos ((Label.dropped_iff base _).mpr hd)
  · exact Label.undrop_not_dropped base _ ((Label.dropped_iff base _).mpr hd)

/-! ### JAM_TIMECODE (R31) -/

theorem bit_bne (m n k : Nat) : bit (m != n) k = if m = n then 0 else 2 ^ k := by
  by_cases h : m = n <;> simp [bit, h]

theorem jamTarget_bad {code : Nat} (h : 1 < code) : jamTarget code = none := by
  unfold jamTarget
  rw [if_neg (by omega), if_neg (by omega)]

theorem jamTarget_good {b : Byte} {g : JamTarget} (h : (b = 0#8 ∧ g = .free) ∨ (b = 1#8 ∧ g = .record)) :
    jamTarget b.toNat = some g := by
  rcases h with ⟨rfl, rfl⟩ | ⟨rfl, rfl⟩ <;> rfl

theorem leBytes_one (b : Byte) : leBytes 1 b.toNat = [b] := by
  simp [leBytes]

/-- Settles O23: the target code, the clamps, the step over a dropped label, and the answer of the staged jam. -/
theorem jamTimecodeStages : Obligations.JamTimecodeStages := by
  intro s hh mm ss ff target ha
  refine ⟨fun hbad => ?_, fun g hg => ?_⟩
  · refine congrArg _ (s.direct_refuse ha (fun _ => rfl) ?_)
    simp only [State.applyOwner, State.applyJam, jamTarget_bad hbad]
  · intro l drops staged
    have code : (if s.timecode.jam.isSome = true then ResultCode.replaced else .pending) =
        if s.timecode.jam = none then .pending else .replaced := by
      cases s.timecode.jam <;> rfl
    rw [← leBytes_one target, ← code]
    refine congrArg _ (s.direct_carry (fields := [(0, staged.bytes), (4, leBytes 1 target.toNat)]) ha
      (fun _ => rfl) ?_)
    simp only [State.applyOwner, State.applyJam, jamTarget_good hg, bit_bne]
    rfl

/-! ### The steps of the labels (R25, R26, R28, R32) -/

namespace Timecode

variable {t : Timecode}

/-- A boundary with a FREE jam staged (R25, R31). -/
theorem boundary_of_free {l : Label} (h : t.jam = some { label := l, target := .free }) :
    t.boundary = { t with freeRun := l, jam := none, baseCounter := (baseRate t.base).period } := by
  simp only [boundary, stepped, jamAfterFree, h]

/-- A boundary loads the base-period counter, whatever it held (R25). -/
theorem boundary_baseCounter (t : Timecode) (n : Nat) : boundary { t with baseCounter := n } = t.boundary :=
  rfl

/-- No FREE jam is staged: none at all, or a RECORD jam. -/
theorem jam_cases (h : ∀ l, t.jam ≠ some { label := l, target := .free }) :
    t.jam = none ∨ ∃ l, t.jam = some { label := l, target := .record } := by
  rcases hj : t.jam with - | ⟨l, - | -⟩
  · exact .inl rfl
  · exact absurd hj (h l)
  · exact .inr ⟨l, rfl⟩

theorem jamAfterFree_eq (h : ∀ l, t.jam ≠ some { label := l, target := .free }) : t.jamAfterFree = t.jam := by
  rcases jam_cases h with hj | ⟨l, hj⟩ <;> simp only [jamAfterFree, hj]

/-- A boundary with no FREE jam staged (R25). -/
theorem boundary_of_no_free (h : ∀ l, t.jam ≠ some { label := l, target := .free }) :
    t.boundary = { t with freeRun := t.freeRun.increment t.base, baseCounter := (baseRate t.base).period } := by
  have stepped : t.stepped = t.freeRun.increment t.base := by
    rcases jam_cases h with hj | ⟨l, hj⟩ <;> simp only [stepped, hj]
  rw [boundary, stepped, jamAfterFree_eq h]

/-- A following frame start is a boundary with a FREE jam staged, or once half of the base period has passed (R26). -/
theorem followingFrameStart_eq_boundary
    (h : (∃ l, t.jam = some { label := l, target := .free }) ∨ 2 * t.baseCounter ≤ (baseRate t.base).period) :
    t.followingFrameStart = t.boundary := by
  refine if_pos ?_
  rcases h with ⟨l, hj⟩ | h
  · simp [jamAfterFree, hj]
  · simp [h]

theorem followingFrameStart_early (hj : ∀ l, t.jam ≠ some { label := l, target := .free })
    (h : (baseRate t.base).period < 2 * t.baseCounter) :
    t.followingFrameStart = { t with baseCounter := (baseRate t.base).period } := by
  refine if_neg ?_
  simp [jamAfterFree_eq hj, h]

/-- The record-run step with a RECORD jam staged (R32). -/
theorem recordStep_of_record {l : Label} (h : t.jam = some { label := l, target := .record }) :
    t.recordStep = { t with recordRun := l.increment t.base, jam := none } := by
  simp only [recordStep, h]

/-- The record-run step with no RECORD jam staged (R28). -/
theorem recordStep_of_no_record (h : ∀ l, t.jam ≠ some { label := l, target := .record }) :
    t.recordStep = { t with recordRun := t.recordRun.increment t.base } := by
  unfold recordStep
  split
  · exact absurd ‹_› (h _)
  · rfl

theorem recordStep_freeRun (t : Timecode) : t.recordStep.freeRun = t.freeRun := by
  unfold recordStep
  split <;> rfl

theorem recordStep_latched (t : Timecode) : t.recordStep.latched = t.latched := by
  unfold recordStep
  split <;> rfl

end Timecode

/-! ### The conversion (R33) -/

/-- The conversion of a label, in the words of R33. -/
theorem Label.convert_eq (base : Nat) (df : Bool) (l : Label) : l.convert base df =
    let x : Label := { l with ff := min l.ff ((baseRate base).n - 1), df := df }
    if x.df = true ∧ x.ss = 0 ∧ x.ff < (baseRate base).d ∧ x.mm % 10 ≠ 0 then { x with ff := (baseRate base).d }
    else x :=
  Label.undrop_eq base _

theorem Timecode.takeProfile_same {t : Timecode} {p : Profile} (hb : p.base = t.base) (hd : p.df = t.df) :
    t.takeProfile p = { t with mode := p.mode } :=
  if_pos ⟨hb, hd⟩

theorem Timecode.takeProfile_changed {t : Timecode} {p : Profile} (h : p.base ≠ t.base ∨ p.df ≠ t.df) :
    t.takeProfile p = { t with
      freeRun := t.freeRun.convert p.base p.df
      recordRun := t.recordRun.convert p.base p.df
      jam := t.jam.map (fun j => { j with label := j.label.convert p.base p.df })
      baseCounter := if p.base = t.base then t.baseCounter else (baseRate p.base).period
      base := p.base
      df := p.df
      mode := p.mode } :=
  if_neg (not_and_or.mpr h)

/-! ### The latch of a frame start (R27) -/

namespace State

variable {s : State}

theorem following_iff : s.following = true ↔
    s.cadence.lock = .locked ∧ s.cadence.active.period = (baseRate s.timecode.base).period := by
  simp [following]

theorem following_eq_false : s.following = false ↔
    s.cadence.lock ≠ .locked ∨ s.cadence.active.period ≠ (baseRate s.timecode.base).period := by
  rw [Bool.eq_false_iff, ne_eq, following_iff, not_and_or]

/-- A boundary that is due is taken. -/
theorem baseBoundary_of_due (h : s.boundaryDue = true) :
    s.baseBoundary = { s with timecode := s.timecode.boundary } := by
  obtain ⟨hf, -⟩ := s.boundaryDue_iff.mp h
  simp [baseBoundary, hf]

/-- The Timecode Unit at a frame start: the following step, else the boundary that is due, and then the latch. -/
theorem timecodeFrameStart_eq (s : State) (cause : FrameCause) (baseChanged : Bool) :
    let stepped : Timecode :=
      if cause ≠ .expiry ∧ s.cadence.active.period = (baseRate s.timecode.base).period ∧
          baseChanged = false then s.timecode.followingFrameStart
      else if s.timecode.baseCounter = 0 ∧ (s.cadence.lock ≠ .locked ∨
          s.cadence.active.period ≠ (baseRate s.timecode.base).period) then s.timecode.boundary
      else s.timecode
    s.timecodeFrameStart cause baseChanged =
      { s with timecode := { stepped with latched := stepped.freeRun } } := by
  have follows : (decide (cause ≠ .expiry) && decide (s.cadence.active.period = (baseRate s.timecode.base).period) &&
      !baseChanged) = true ↔ cause ≠ .expiry ∧ s.cadence.active.period = (baseRate s.timecode.base).period ∧
        baseChanged = false := by
    simp [and_assoc]
  have due : s.boundaryDue = true ↔ s.timecode.baseCounter = 0 ∧ (s.cadence.lock ≠ .locked ∨
      s.cadence.active.period ≠ (baseRate s.timecode.base).period) := by
    rw [boundaryDue_iff, following_eq_false, and_comm]
  unfold timecodeFrameStart
  simp only [follows, ← due]
  split
  · rfl
  · split
    · rw [baseBoundary_of_due ‹_›]
    · rfl

/-- All that the Intake can do to the labels at a frame start is the record-run step of a loss (R28, R38, R39). -/
theorem intakeFrameStart_timecode {P : Timecode → Prop} (step : ∀ t, P t → P t.recordStep) (b : Bool)
    (h : P s.timecode) : P (s.intakeFrameStart b).timecode := by
  have lost : ∀ u : State, P u.timecode → P u.lose.timecode := by
    intro u hu
    unfold lose
    split
    · exact step _ hu
    · exact hu
  have cut : P s.cutCapture.timecode := by
    unfold cutCapture
    split
    · exact h
    · exact lost _ (by rw [reportFault_timecode]; exact h)
  unfold intakeFrameStart beginCapture
  split
  · exact cut
  · exact lost _ (by rw [reportFault_timecode]; exact cut)

/-- After a frame start the latch holds the free-run label (R27). -/
theorem frameStart_latched (s : State) (cause : FrameCause) :
    (s.frameStart cause).timecode.latched = (s.frameStart cause).timecode.freeRun := by
  obtain ⟨-, -, -, taken, -⟩ :=
    (((s.numberFrame cause).edgeHandling cause).settleCounter cause).handFrameStart_parts cause
  unfold frameStart
  rw [taken]
  refine intakeFrameStart_timecode (P := fun t => t.latched = t.freeRun) (fun t ht => ?_) _ ?_
  · rw [t.recordStep_latched, t.recordStep_freeRun, ht]
  · rw [timecodeFrameStart_eq]

end State

/-- Settles O38: the steps by the staged jam, the latch of a frame start, and the conversion of an activation. -/
theorem labelSteps : Obligations.LabelSteps := by
  refine ⟨fun t => ⟨fun l hj => ?_, fun hj => ?_, fun l => Timecode.recordStep_of_record,
    fun hj => Timecode.recordStep_of_no_record (by simp [hj])⟩, fun s cause baseChanged =>
      ⟨s.timecodeFrameStart_eq cause baseChanged, s.frameStart_latched cause⟩, fun t p =>
      ⟨Timecode.takeProfile_same, fun h => ?_⟩⟩
  · have bounded := Timecode.boundary_of_free hj
    exact ⟨bounded, (Timecode.followingFrameStart_eq_boundary (.inl ⟨l, hj⟩)).trans bounded,
      Timecode.recordStep_of_no_record (by simp [hj])⟩
  · have bounded := Timecode.boundary_of_no_free hj
    exact ⟨bounded, fun h => (Timecode.followingFrameStart_eq_boundary (.inr h)).trans bounded,
      Timecode.followingFrameStart_early hj⟩
  · rw [Timecode.takeProfile_changed h]
    simp only [Label.convert_eq]

/-! ### BASE_PERIOD_BOUNDARY (R25) -/

/-- The cadence has no event of its own on the present tick or the n - 1 after it. -/
def Cadence.QuietFor (c : Cadence) (n : Nat) : Prop :=
  c.edgeLatch = false ∧ (c.run = .stopped ∨ (c.lateOpen = false ∧ n ≤ c.counter))

theorem Cadence.QuietFor.count_one {c : Cadence} {n : Nat} (h : c.QuietFor (n + 1)) : (c.count 1).QuietFor n := by
  obtain ⟨hl, hq⟩ := h
  cases hr : c.run with
  | stopped =>
    rw [c.count_stopped 1 hr]
    exact ⟨hl, .inl hr⟩
  | running =>
    obtain ⟨ho, hn⟩ := hq.resolve_left (by simp [hr])
    rw [c.count_early 1 hr ho]
    exact ⟨hl, .inr ⟨ho, Nat.le_sub_of_add_le hn⟩⟩

namespace State

theorem due_of_quietFor {s : State} {n : Nat} (h : s.cadence.QuietFor (n + 1)) :
    s.expiryDue = false ∧ s.closeDue = false := by
  obtain ⟨-, hr | ⟨ho, hn⟩⟩ := h
  · simp [expiryDue, closeDue, hr]
  · refine ⟨?_, s.closeDue_of_early ho⟩
    rw [Bool.eq_false_iff, ne_eq, expiryDue_iff]
    omega

/-- Up to the next boundary of a label that does not follow, quiet ticks only count (R25). -/
theorem elapse_to_boundary {s : State} {n : Nat} (hq : s.cadence.QuietFor n) (hf : s.following = false)
    (hn : n ≤ s.timecode.baseCounter) :
    (s.elapse n).timecode = { s.timecode with baseCounter := s.timecode.baseCounter - n } ∧
      (s.elapse n).following = false := by
  induction n generalizing s with
  | zero => exact ⟨rfl, hf⟩
  | succ n ih =>
    obtain ⟨he, hc⟩ := due_of_quietFor hq
    have tick : s.elapse (n + 1) = (s.count 1).elapse n := by
      rw [elapse_succ, settle_quiet s he hc (s.boundaryDue_of_pos (by omega)), pass_quiet s 1 hq.1]
    obtain ⟨ht, hu⟩ := ih hq.count_one ((s.count_following 1).trans hf) (Nat.le_sub_of_add_le hn)
    rw [tick]
    exact ⟨by rw [ht, count, Nat.sub_sub, Nat.add_comm 1 n], hu⟩

/-- A boundary that the ticks end on, with none of the cadence's own events on the way (R25, log 2). -/
theorem elapse_boundary {s : State} (hq : s.cadence.QuietFor s.timecode.baseCounter) (hf : s.following = false) :
    let u := s.elapse s.timecode.baseCounter
    (if u.boundaryDue = true then u.baseBoundary else u) =
      { u with timecode := s.timecode.boundary } := by
  intro u
  obtain ⟨ht, hu⟩ := elapse_to_boundary hq hf (Nat.le_refl _)
  rw [Nat.sub_self] at ht
  have due : u.boundaryDue = true := u.boundaryDue_iff.mpr ⟨hu, congrArg Timecode.baseCounter ht⟩
  rw [if_pos due, baseBoundary_of_due due, ht, Timecode.boundary_baseCounter]

end State

/-- Settles O37: the ticks to the boundary leave it due, and it is the step of O38 with or without a FREE jam. -/
theorem basePeriodBoundaryTaken : Obligations.BasePeriodBoundaryTaken := by
  intro s u
  refine ⟨fun hl hp => ?_, fun h => ?_⟩
  · exact if_pos (State.following_iff.mpr ⟨hl, hp⟩)
  · have hf := State.following_eq_false.mpr h
    have taken : exec .basePeriodBoundary s = .next (if u.boundaryDue = true then u.baseBoundary else u) :=
      if_neg (by simp [hf])
    refine ⟨taken, fun hl hq => ?_⟩
    intro t
    rw [taken, State.elapse_boundary ⟨hl, hq⟩ hf]
    exact ⟨fun l hj => by rw [Timecode.boundary_of_free hj], fun hj => by rw [Timecode.boundary_of_no_free hj]⟩

end Sys2Proof.Machine
end

