-- ==== Sys2Proof/Proofs/CacheForms.lean ====
section
-- One proof at a time: a stack for every waiting proof of this text would pass the memory limit of the check.
set_option Elab.async false
/-! The translation cache keeps eight sets of four ways, with no page in two ways of a set (R152, R153, R155, R157). -/

namespace Sys2Proof.Machine

/-- A set of the cache with four ways and no tag in two of them. -/
def CacheSet.Legal (c : CacheSet) : Prop :=
  c.ways.length = 4 ∧ ((c.ways.filterMap id).map Way.tag).Nodup

/-- Eight legal sets. -/
def Aperture.Legal (a : Aperture) : Prop :=
  a.sets.length = 8 ∧ ∀ c ∈ a.sets, c.Legal

theorem State.cacheLegal_iff (s : State) : s.cacheLegal ↔ s.aperture.Legal :=
  Iff.rfl

/-- The ways of a list differ in their tags, way by way. -/
theorem tags_nodup_iff (ways : List (Option Way)) : ((ways.filterMap id).map Way.tag).Nodup ↔
    ways.Pairwise fun v w => ∀ x ∈ v, ∀ y ∈ w, x.tag ≠ y.tag := by
  rw [List.Nodup, List.pairwise_map, List.pairwise_filterMap]
  rfl

/-! ### Finding a way (R152, R153) -/

theorem wayHolds_iff (tag : Nat) (w : Option Way) : wayHolds tag w = true ↔ ∃ x ∈ w, x.tag = tag := by
  cases w <;> simp [wayHolds]

theorem findWay_none {tag : Nat} {ways : List (Option Way)} {k : Nat} (h : findWay tag k ways = none) :
    ∀ w ∈ ways, ∀ x ∈ w, x.tag ≠ tag := by
  induction ways generalizing k with
  | nil => exact nofun
  | cons v ways ih =>
    unfold findWay at h
    split at h
    · exact absurd h nofun
    · rename_i hv
      intro w hw x hx ht
      rcases List.mem_cons.mp hw with rfl | hw
      · exact hv ((wayHolds_iff tag w).mpr ⟨x, hx, ht⟩)
      · exact ih h w hw x hx ht

theorem findWay_some {tag : Nat} {ways : List (Option Way)} {k i : Nat} (h : findWay tag k ways = some i) :
    k ≤ i ∧ ∃ x, ways[i - k]? = some (some x) ∧ x.tag = tag := by
  induction ways generalizing k with
  | nil => exact absurd h nofun
  | cons v ways ih =>
    unfold findWay at h
    split at h
    · rename_i hv
      obtain rfl : k = i := Option.some.inj h
      obtain ⟨x, rfl, ht⟩ := (wayHolds_iff tag v).mp hv
      exact ⟨Nat.le_refl _, x, by simp, ht⟩
    · obtain ⟨hk, x, hx, ht⟩ := ih h
      have : i - k = i - (k + 1) + 1 := by omega
      exact ⟨by omega, x, by rw [this, List.getElem?_cons_succ, hx], ht⟩

/-! ### The acts on a set -/

namespace CacheSet

variable {c : CacheSet}

theorem touch_ways (c : CacheSet) (i : Nat) : (c.touch i).ways = c.ways := by
  unfold touch
  (repeat' split) <;> rfl

theorem Legal.touch (h : c.Legal) (i : Nat) : (c.touch i).Legal := by
  unfold CacheSet.Legal
  rw [touch_ways]
  exact h

/-- No way but the one that receives the entry holds its tag. -/
theorem Legal.tag_ne_of_ne_fillWay (h : c.Legal) (tag : Nat) {j : Nat} {y : Way} (hy : c.ways[j]? = some (some y))
    (hj : j ≠ c.fillWay tag) : y.tag ≠ tag := by
  unfold fillWay at hj
  split at hj
  · rename_i i hi
    obtain ⟨-, x, hx, rfl⟩ := findWay_some hi
    have apart := List.pairwise_iff_getElem.mp ((tags_nodup_iff _).mp h.2)
    obtain ⟨hil, hxi⟩ := List.getElem?_eq_some_iff.mp hx
    obtain ⟨hjl, hyj⟩ := List.getElem?_eq_some_iff.mp hy
    rcases Nat.lt_or_gt_of_ne hj with hlt | hlt
    · exact apart j i hjl hil hlt y hyj x hxi
    · exact (apart i j hil hjl hlt x hxi y hyj).symm
  · rename_i hn
    exact findWay_none hn _ (List.mem_of_getElem? hy) y rfl

theorem Legal.install (h : c.Legal) (tag : Nat) (base : HostAddr) : (c.install tag base).Legal := by
  refine Legal.touch ⟨by simp [h.1], (tags_nodup_iff _).mpr (List.pairwise_iff_getElem.mpr ?_)⟩ _
  have apart := List.pairwise_iff_getElem.mp ((tags_nodup_iff _).mp h.2)
  intro i j hi hj hlt x hx y hy
  simp only [List.length_set] at hi hj
  simp only [List.getElem_set] at hx hy
  split at hx
  · obtain rfl := Option.some.inj hx
    rw [if_neg (by omega)] at hy
    exact (h.tag_ne_of_ne_fillWay tag (List.getElem?_eq_some_iff.mpr ⟨hj, hy⟩) (by omega)).symm
  · split at hy
    · obtain rfl := Option.some.inj hy
      exact h.tag_ne_of_ne_fillWay tag (List.getElem?_eq_some_iff.mpr ⟨hi, hx⟩) (by omega)
    · exact apart i j hi hj hlt x hx y hy

/-- An invalidated way was in the set before. -/
theorem Legal.invalidate (h : c.Legal) (i first last : Nat) : (c.invalidate i first last).Legal := by
  refine ⟨by simp [CacheSet.invalidate, h.1], (tags_nodup_iff _).mpr (List.pairwise_map.mpr ?_)⟩
  have kept : ∀ (w : Option Way), ∀ x ∈ (match w with
      | none => none
      | some x => if first ≤ x.tag * 8 + i ∧ x.tag * 8 + i ≤ last then none else some x), x ∈ w := by
    intro w x hx
    cases w with
    | none => exact hx
    | some y =>
      dsimp only at hx
      split at hx
      · exact absurd hx nofun
      · exact hx
  exact ((tags_nodup_iff _).mp h.2).imp fun apart x hx y hy => apart x (kept _ x hx) y (kept _ y hy)

end CacheSet

theorem invalidateSets_length (first last : Nat) (sets : List CacheSet) (i : Nat) :
    (invalidateSets first last i sets).length = sets.length := by
  induction sets generalizing i with
  | nil => rfl
  | cons c sets ih => simp [invalidateSets, ih]

theorem invalidateSets_legal (first last : Nat) {sets : List CacheSet} (h : ∀ c ∈ sets, c.Legal) (i : Nat) :
    ∀ c ∈ invalidateSets first last i sets, c.Legal := by
  induction sets generalizing i with
  | nil => exact h
  | cons d sets ih =>
    intro c hc
    rcases List.mem_cons.mp hc with rfl | hc
    · exact (h d List.mem_cons_self).invalidate i first last
    · exact ih (fun x hx => h x (List.mem_cons_of_mem _ hx)) (i + 1) c hc

/-! ### The acts on the cache -/

namespace Aperture.Legal

variable {a : Aperture}

theorem reset : Aperture.reset.Legal := by
  refine ⟨rfl, fun c hc => ?_⟩
  rw [List.eq_of_mem_replicate hc]
  exact ⟨rfl, List.nodup_nil⟩

theorem set (h : a.Legal) (page : Nat) : (a.set (setIndex page)).Legal := by
  have hi : setIndex page < a.sets.length := by
    rw [h.1]
    exact Nat.mod_lt _ (by decide)
  unfold Aperture.set
  rw [List.getD_eq_getElem _ _ hi]
  exact h.2 _ (List.getElem_mem hi)

theorem putSet (h : a.Legal) (i : Nat) {c : CacheSet} (hc : c.Legal) : (a.putSet i c).Legal := by
  refine ⟨by simp [Aperture.putSet, h.1], fun d hd => ?_⟩
  rcases List.mem_or_eq_of_mem_set hd with hd | rfl
  · exact h.2 d hd
  · exact hc

theorem use (h : a.Legal) (page way : Nat) : (a.use page way).Legal :=
  h.putSet _ ((h.set page).touch way)

theorem afterFetch (h : a.Legal) (page : Nat) (answer : Answer) : (a.afterFetch page answer).Legal := by
  cases answer with
  | translated base => exact h.putSet _ ((h.set page).install _ base)
  | invalid => exact h
  | readFailed => exact h

theorem remap (h : a.Legal) (first last : Nat) : (a.remap first last).Legal :=
  ⟨(invalidateSets_length ..).trans h.1, invalidateSets_legal first last h.2 0⟩

end Aperture.Legal

end Sys2Proof.Machine
end

