-- ==== Sys2Proof/Proofs/KeepsForms.lean ====
section
-- One proof at a time: a stack for every waiting proof of this text would pass the memory limit of the check.
set_option Elab.async false
/-! What an act keeps of the raw slots' form, the translation cache and the notices: the shared operations, the writer,
the Intake, the chain and a frame start. -/

namespace Sys2Proof.Machine

/-- From `s` to `t` raw slots in canonical form stay so, and so do a legal cache and legal notices. -/
structure State.KeepsForms (s t : State) : Prop where
  slots : s.slotsCanonical → t.slotsCanonical
  cache : s.cacheLegal → t.cacheLegal
  notices : s.notices.Legal → t.notices.Legal

/-! ### The notices (R187) -/

theorem Notices.zeroCounts_legal {n : Notices} (threshold : 1 ≤ n.threshold ∧ n.threshold ≤ 16)
    (limit : n.ageLimit ≤ 255) : n.zeroCounts.Legal :=
  ⟨threshold, limit, threshold.1⟩

theorem Notices.Legal.detached {n : Notices} (h : n.Legal) : n.detached.Legal :=
  ⟨h.threshold, h.ageLimit, h.threshold.1⟩

theorem Notices.attached_legal (n : Notices) : n.attached.Legal where
  threshold := (by decide : 1 ≤ 1 ∧ 1 ≤ 16)
  ageLimit := Nat.zero_le _
  waiting := Nat.zero_lt_one

theorem Notices.reset_legal : Notices.reset.Legal :=
  zeroCounts_legal (n := Notices.reset) (by decide) (by decide)

namespace State

variable {s t u : State}

/-- The canonical form is a matter of the samples alone. -/
theorem slotsCanonical_congr (h : t.intake.slots.map Slot.samples = s.intake.slots.map Slot.samples) :
    s.slotsCanonical → t.slotsCanonical := by
  intro hs x hx
  obtain ⟨y, hy, he⟩ := List.mem_map.mp (h ▸ List.mem_map_of_mem hx)
  exact he ▸ hs y hy

theorem slotsCanonical.modify (h : s.slotsCanonical) (i : Nat) {f : Slot → Slot}
    (hf : ∀ x ∈ s.intake.slots, x.samples.wf → (f x).samples.wf)
    (ht : t.intake.slots = s.intake.slots.modify i f) : t.slotsCanonical := by
  intro x hx
  rw [ht] at hx
  obtain ⟨j, hj, hx⟩ := List.mem_iff_getElem.mp hx
  rw [List.getElem_modify] at hx
  rw [List.length_modify] at hj
  have hm := List.getElem_mem hj
  split at hx
  · exact hx ▸ hf _ hm (h _ hm)
  · exact hx ▸ h _ hm

/-- A change of the state of a slot leaves the samples. -/
theorem modify_samples (slots : List Slot) (i : Nat) (x : SlotState) :
    (slots.modify i (fun y => { y with state := x })).map Slot.samples = slots.map Slot.samples := by
  refine List.ext_getElem (by simp) fun j hj hk => ?_
  simp only [List.getElem_map, List.getElem_modify]
  split <;> rfl

namespace KeepsForms

theorem refl (s : State) : s.KeepsForms s :=
  ⟨fun h => h, fun h => h, fun h => h⟩

/-- An act that leaves the samples, the sets of the cache and the notices. -/
theorem aside (h : s.KeepsForms t) (hi : u.intake.slots.map Slot.samples = t.intake.slots.map Slot.samples := by rfl)
    (ha : u.aperture.sets = t.aperture.sets := by rfl) (hn : u.notices = t.notices := by rfl) : s.KeepsForms u where
  slots hs := slotsCanonical_congr hi (h.slots hs)
  cache hs := by
    obtain ⟨length, sets⟩ := h.cache hs
    exact ⟨ha ▸ length, ha ▸ sets⟩
  notices hs := hn ▸ h.notices hs

/-- An act that leaves the whole of the three blocks. -/
theorem still (h : s.KeepsForms t) (hf : u.intake = t.intake ∧ u.aperture = t.aperture ∧ u.notices = t.notices) :
    s.KeepsForms u := by
  obtain ⟨hi, ha, hn⟩ := hf
  exact h.aside (by rw [hi]) (by rw [ha]) hn

/-- An act on the notices. -/
theorem renotice (h : s.KeepsForms t) (hn : t.notices.Legal → u.notices.Legal) (hi : u.intake = t.intake := by rfl)
    (ha : u.aperture = t.aperture := by rfl) : s.KeepsForms u :=
  { h.aside (u := { u with notices := t.notices }) (by rw [hi]) (by rw [ha]) rfl with
    notices := fun hs => hn (h.notices hs) }

/-- An act on the cache. -/
theorem recache (h : s.KeepsForms t) (ha : t.aperture.Legal → u.aperture.Legal) (hi : u.intake = t.intake := by rfl)
    (hn : u.notices = t.notices := by rfl) : s.KeepsForms u :=
  { h.aside (u := { u with aperture := t.aperture }) (by rw [hi]) rfl hn with
    cache := fun hs => u.cacheLegal_iff.mpr (ha (t.cacheLegal_iff.mp (h.cache hs))) }

/-- An event that may be due. -/
theorem ifDue {due : Prop} [Decidable due] (h : s.KeepsForms t) (hu : due → s.KeepsForms u) :
    s.KeepsForms (if due then u else t) := by
  split
  · exact hu ‹_›
  · exact h

/-! ### Notices and faults (R186, R187, R190) -/

/-- New causes and masks leave settings and counts. -/
theorem recause (h : s.KeepsForms t) (cause mask : Byte) (latch : Bool)
    (hn : u.notices = { t.notices with cause := cause, mask := mask, snapshotLatch := latch })
    (hi : u.intake = t.intake := by rfl) (ha : u.aperture = t.aperture := by rfl) : s.KeepsForms u :=
  h.renotice (fun l => hn ▸ ⟨l.threshold, l.ageLimit, l.waiting⟩) hi ha

theorem raise (h : s.KeepsForms t) (c : Notice) : s.KeepsForms (t.raise c) :=
  h.recause _ t.notices.mask t.notices.snapshotLatch (by rw [raise_notices]) (by simp) (by simp)

theorem zeroCounts (h : s.KeepsForms t) : s.KeepsForms { t with notices := t.notices.zeroCounts } :=
  h.renotice fun l => Notices.zeroCounts_legal l.threshold l.ageLimit

theorem announce (h : s.KeepsForms t) : s.KeepsForms t.announce :=
  h.zeroCounts.raise .chunk

theorem reportFault (h : s.KeepsForms t) (c : FaultClass) (f k d : Word) : s.KeepsForms (t.reportFault c f k d) := by
  cases hl : t.faultRecord.latch with
  | true => exact reportFault_held t c f k d hl ▸ h.aside
  | false => exact reportFault_free t c f k d hl ▸ raise (h.aside) .fault

theorem writerFault (h : s.KeepsForms t) (c : FaultClass) (d : Word) : s.KeepsForms (t.writerFault c d) :=
  h.reportFault ..

/-- A close announces the chunks once they reach the threshold (R187). -/
theorem countClose (h : s.KeepsForms t) (p : Pool) : s.KeepsForms (t.countClose p) := by
  refine h.renotice (fun l => ?_) (by simp) (by simp)
  obtain ⟨threshold, limit, total⟩ := t.countClose_total p l.threshold.1
  exact ⟨threshold ▸ l.threshold, limit ▸ l.ageLimit, threshold ▸ total⟩

theorem coalesceFrameStart (h : s.KeepsForms t) : s.KeepsForms t.coalesceFrameStart := by
  unfold State.coalesceFrameStart
  split
  · exact h
  · extract_lets n counted u
    have aged : s.KeepsForms u := h.renotice fun l => ⟨l.threshold, l.ageLimit, l.waiting⟩
    exact aged.ifDue fun _ => aged.announce

/-! ### Translations (R152 to R155) -/

theorem translate (h : s.KeepsForms t) (c : Client) (addr : Nat) : s.KeepsForms (t.translate c addr).1 := by
  cases hl : t.aperture.lookup (pageOf addr) with
  | some x =>
    rw [t.translate_hit c addr x.1 x.2 hl]
    exact h.recache fun l => l.use _ _
  | none =>
    cases hf : t.aperture.fetch with
    | some f =>
      rw [t.translate_join c addr f hl hf]
      exact h.aside
    | none =>
      rw [t.translate_miss c addr hl hf]
      exact h.aside

theorem serveMisses (h : s.KeepsForms t) (n : Nat) : s.KeepsForms (State.serveMisses n t).1 := by
  induction n generalizing t with
  | zero => exact h
  | succ n ih =>
    unfold State.serveMisses
    split
    · exact h
    · split
      · exact h.aside
      · exact ih (h.recache fun l => l.use _ _)

theorem settleFetch (h : s.KeepsForms t) (page : Nat) (a : Answer) : s.KeepsForms (t.settleFetch page a).1 :=
  serveMisses (h.recache fun l => l.afterFetch page a) _

/-! ### The writer (R131 to R145) -/

theorem setWriter (h : s.KeepsForms t) (w : Writer) : s.KeepsForms (t.setWriter w) :=
  h.aside

theorem setPool (h : s.KeepsForms t) (p : Pool) (x : PoolState) : s.KeepsForms (t.setPool p x) :=
  h.aside

theorem setWork (h : s.KeepsForms t) (k : Work) : s.KeepsForms (t.setWork k) :=
  h.aside

theorem closeChunk (h : s.KeepsForms t) (p : Pool) (last : Bool) : s.KeepsForms (t.closeChunk p last) := by
  unfold State.closeChunk
  dsimp only
  split
  · exact h
  · exact countClose (h.aside) p

theorem attempt (h : s.KeepsForms t) (p : Pool) : s.KeepsForms (t.attempt p) :=
  h.still (by simp [attempt_frame])

theorem placeBytes (h : s.KeepsForms t) (p : Pool) (k : Work) (x : Source) (n : Nat) :
    s.KeepsForms (t.placeBytes p k x n).1 := by
  unfold State.placeBytes
  dsimp only
  split
  · exact h.attempt p
  · rename_i c _
    have asked := h.translate .writer (c.addr + c.used)
    split
    · exact h.closeChunk p false
    · split
      · split
        · exact h.aside
        · split <;> (rename_i e; rw [e] at asked)
          · exact asked.setWork _
          · exact asked
      · split <;> (rename_i e; rw [e] at asked)
        · exact asked.setWork _
        · exact asked

theorem headerStep (h : s.KeepsForms t) (k : Work) (r : TakeRecord) : s.KeepsForms (t.headerStep k r).1 := by
  unfold State.headerStep
  split
  · exact h.placeBytes ..
  · exact h.aside

theorem fullStep (h : s.KeepsForms t) (k : Work) (r : PairRecord) : s.KeepsForms (t.fullStep k r).1 := by
  unfold State.fullStep
  split
  · exact h.setWork _
  · split
    · exact h.placeBytes ..
    · exact h.setWork _

theorem settleProxy (h : s.KeepsForms t) (k : Work) (x : ProxyState) : s.KeepsForms (t.settleProxy k x).1 :=
  h.setWork _

theorem proxyStep (h : s.KeepsForms t) (k : Work) (r : PairRecord) (d : PairData) :
    s.KeepsForms (t.proxyStep k r d).1 := by
  unfold State.proxyStep
  split
  · exact h.settleProxy ..
  · exact h.settleProxy ..
  · split
    · exact h.settleProxy ..
    · split
      · exact h.settleProxy ..
      · split
        · exact h.settleProxy ..
        · split
          · exact h.closeChunk ..
          · exact h.placeBytes ..

theorem entryStep (h : s.KeepsForms t) (k : Work) (r : PairRecord) (d : PairData) :
    s.KeepsForms (t.entryStep k r d).1 := by
  unfold State.entryStep
  extract_lets ordinal e
  split
  · exact h.placeBytes ..
  · exact h.still (by simp [finishPair_frame])

theorem finishTake (h : s.KeepsForms t) : s.KeepsForms t.finishTake := by
  unfold State.finishTake
  extract_lets v table dropped raised w
  have announced : s.KeepsForms v := (h.closeChunk .index true).announce
  have left : s.KeepsForms dropped := announced.aside
  exact (left.raise .take).aside

theorem trailerStep (h : s.KeepsForms t) (k : Work) (r : TakeRecord) : s.KeepsForms (t.trailerStep k r).1 := by
  unfold State.trailerStep
  split
  · split
    · exact h.placeBytes ..
    · split
      · exact h
      · exact (h.closeChunk ..).finishTake
  · split
    · exact h
    · exact ((h.closeChunk ..).closeChunk ..).setWork _

theorem writerStep (h : s.KeepsForms t) : s.KeepsForms t.writerStep.1 := by
  unfold State.writerStep
  split
  · exact h
  · split
    · exact h
    · split
      · split
        · exact h.headerStep ..
        · exact h.trailerStep ..
      · split
        · exact h
        · split
          · exact h.headerStep ..
          · exact h.fullStep ..
          · exact h.proxyStep ..
          · exact h.entryStep ..
          · exact h

theorem runWriter (h : s.KeepsForms t) (n : Nat) : s.KeepsForms (t.runWriter n) := by
  induction n generalizing t with
  | zero => exact h
  | succ n ih =>
    have stepped := h.writerStep
    unfold State.runWriter
    split <;> (rename_i e; rw [e] at stepped)
    · exact ih stepped
    · exact stepped

theorem work (h : s.KeepsForms t) : s.KeepsForms t.work :=
  h.runWriter _

/-! ### Choosing work, and the ends of waits (R133, R141 to R145) -/

theorem chooseWork (h : s.KeepsForms t) : s.KeepsForms t.chooseWork := by
  unfold State.chooseWork
  split
  · exact h.aside
  · split
    · exact work (h.still (by simp [beginEnding_frame]))
    · split
      · exact h.aside
      · exact work (h.still (by simp [beginPair_frame]))

theorem beginSuspension (h : s.KeepsForms t) : s.KeepsForms t.beginSuspension :=
  work ((h.writerFault ..).setWriter _)

theorem resumeEnding (h : s.KeepsForms t) : s.KeepsForms t.resumeEnding := by
  unfold State.resumeEnding
  split
  · exact h
  · exact h.ifDue fun _ => h.work

theorem attemptFailed (h : s.KeepsForms t) (p : Pool) (c : WaitCause) : s.KeepsForms (t.attemptFailed p c) := by
  unfold State.attemptFailed
  extract_lets pool u
  have ended : s.KeepsForms u := h.setPool p _
  split
  · exact ended.resumeEnding
  · split
    · exact ended.beginSuspension
    · exact ended.aside

theorem takeEntry (h : s.KeepsForms t) (p : Pool) (i a : Nat) : s.KeepsForms (t.takeEntry p i a) := by
  unfold State.takeEntry
  extract_lets x take offset v chunk u
  have taken : s.KeepsForms u := h.aside
  split
  · exact (taken.setWriter _).resumeEnding
  · exact (taken.setWriter _).work

theorem scanOn (h : s.KeepsForms t) (p : Pool) (a : Attempt) : s.KeepsForms (t.scanOn p a) := by
  unfold State.scanOn
  split
  · exact h.attemptFailed ..
  · exact h.aside

theorem rejectEntry (h : s.KeepsForms t) (p : Pool) (i : Nat) : s.KeepsForms (t.rejectEntry p i) :=
  writerFault (h.aside) ..

theorem entryRead (h : s.KeepsForms t) (p : Pool) (a : Attempt) (d : Option (List Byte)) :
    s.KeepsForms (t.entryRead p a d) := by
  unfold State.entryRead
  split
  · exact (h.writerFault ..).attemptFailed ..
  · dsimp only
    split
    · exact h.scanOn ..
    · split
      · exact h.takeEntry ..
      · exact (h.rejectEntry ..).scanOn ..

theorem answerWriter (h : s.KeepsForms t) (page : Nat) (a : Answer) : s.KeepsForms (t.answerWriter page a) := by
  unfold State.answerWriter
  dsimp only
  split
  · exact (h.setWriter _).work
  · split
    · exact h
    · exact writerFault (h.aside) ..
  · exact (h.setWriter _).writerFault ..

theorem retryTranslation (h : s.KeepsForms t) : s.KeepsForms t.retryTranslation := by
  unfold State.retryTranslation
  split
  · exact h
  · dsimp only
    have asked := h.translate .writer t.nextAddress
    split <;> (rename_i e; rw [e] at asked)
    · exact asked.answerWriter ..
    · exact asked

theorem writerVisit (h : s.KeepsForms t) : s.KeepsForms t.writerVisit := by
  unfold State.writerVisit
  split
  · exact h
  · exact h
  · exact h.retryTranslation
  · split
    · exact h
    · exact h.retryTranslation
    · exact h.attempt _
    · exact h.attempt _

theorem proxyWaitFrameStart (h : s.KeepsForms t) : s.KeepsForms t.proxyWaitFrameStart := by
  unfold State.proxyWaitFrameStart
  extract_lets n out w u
  have counted : s.KeepsForms u := h.setWriter _
  split
  · exact counted.ifDue fun _ => counted.beginSuspension
  · exact counted.attempt _

theorem writerWaitFrameStart (h : s.KeepsForms t) : s.KeepsForms t.writerWaitFrameStart := by
  unfold State.writerWaitFrameStart
  split
  · split
    · exact h
    · exact h.retryTranslation
    · exact h.proxyWaitFrameStart
    · exact h.attempt _
  · exact h

theorem writerFrameStart (h : s.KeepsForms t) : s.KeepsForms t.writerFrameStart := by
  unfold State.writerFrameStart
  exact h.writerWaitFrameStart.ifDue fun _ => h.writerWaitFrameStart.attempt _

/-! ### The Intake (R37 to R49) -/

theorem lose (h : s.KeepsForms t) : s.KeepsForms t.lose := by
  unfold State.lose
  exact h.ifDue fun _ => h.aside

theorem loseCapture (h : s.KeepsForms t) (c : Capture) : s.KeepsForms (t.loseCapture c) :=
  lose (reportFault (h.aside (modify_samples ..)) ..)

theorem intakeFrameStart (h : s.KeepsForms t) (b : Bool) : s.KeepsForms (t.intakeFrameStart b) := by
  have cut : s.KeepsForms t.cutCapture := by
    unfold cutCapture
    split
    · exact h
    · exact h.loseCapture _
  unfold State.intakeFrameStart beginCapture
  split
  · exact cut.aside (modify_samples ..)
  · exact lose (reportFault (cut.aside) ..)

theorem setSamples (h : s.KeepsForms t) (i : Nat) {m : Memory} (hm : t.slotsCanonical → m.wf)
    (hi : u.intake.slots = t.intake.slots.modify i (fun y => { y with samples := m }))
    (ha : u.aperture = t.aperture := by rfl) (hn : u.notices = t.notices := by rfl) : s.KeepsForms u :=
  { h.aside (u := { u with intake := t.intake }) rfl (by rw [ha]) hn with
    slots := fun hs => slotsCanonical.modify (h.slots hs) i (fun _ _ _ => hm (h.slots hs)) hi }


end KeepsForms
end State
end Sys2Proof.Machine
end

