-- ==== Sys2Proof/Proofs/FormsSteps.lean ====
section
-- One proof at a time: a stack for every waiting proof of this text would pass the memory limit of the check.
set_option Elab.async false
/-! Every step keeps the raw slots' form, the translation cache and the notices: the sensor, the lanes, frame starts and
ticks, directives, the chain, the Board, and the dispatch. -/

namespace Sys2Proof.Machine

theorem Memory.wf_nil : Memory.wf [] :=
  ⟨List.Pairwise.nil, nofun⟩

namespace State

variable {s t u : State}

/-- The slot at an index; one that there is not reads as a slot at reset. -/
theorem slotsCanonical.slot (h : s.slotsCanonical) (i : Nat) : (s.intake.slot i).samples.wf := by
  unfold Intake.slot
  rw [List.getD_eq_getElem?_getD]
  cases hi : s.intake.slots[i]? with
  | none => exact Memory.wf_nil
  | some x => exact h x (List.mem_of_getElem? hi)

theorem commitIfDone_samples (s : State) (i : Nat) :
    (s.commitIfDone i).intake.slots.map Slot.samples = s.intake.slots.map Slot.samples := by
  unfold commitIfDone
  split
  · rfl
  · split
    · exact modify_samples ..
    · rfl

theorem complete_samples (s : State) (l : Lane) (k : Ticket) (g : Nat) (r : LaneResult) :
    (s.complete l k g r).intake.slots.map Slot.samples = s.intake.slots.map Slot.samples :=
  commitIfDone_samples ..

theorem dropTicket_samples (s : State) (k : Ticket) :
    (s.dropTicket k).intake.slots.map Slot.samples = s.intake.slots.map Slot.samples :=
  modify_samples ..

theorem detached_samples (k : Intake) : k.detached.slots.map Slot.samples = k.slots.map Slot.samples := by
  simp [Intake.detached, Function.comp_def]

namespace KeepsForms

/-! ### The sensor (R40 to R47) -/

theorem usableFrame (h : s.KeepsForms t) (c : Capture) : s.KeepsForms (t.usableFrame c) := by
  unfold State.usableFrame
  dsimp only
  split
  · exact h.aside
  · exact h.setSamples c.slot (fun hs => repairLines_wf _ _ _ _ _ _ (hs.slot _)) rfl

theorem makeTicket (h : s.KeepsForms t) (c : Capture) : s.KeepsForms (t.makeTicket c) := by
  unfold State.makeTicket
  split
  · exact h.aside (modify_samples ..)
  · split
    · exact h.aside (modify_samples ..)
    · exact h.aside (modify_samples ..)

theorem frameBegin (h : s.KeepsForms t) (hu : execFrameBegin t = .next u) : s.KeepsForms u := by
  unfold execFrameBegin at hu
  split at hu
  · exact Host.Outcome.next.inj hu ▸ h.aside
  · split at hu
    · exact Host.Outcome.next.inj hu ▸ h.aside
    · exact Host.Outcome.next.inj hu ▸ h.aside

theorem lineEvent (h : s.KeepsForms t) {index : Nat} {samples : List (BitVec 16)} {passed : Bool}
    (hu : execLineEvent index samples passed t = .next u) : s.KeepsForms u := by
  unfold execLineEvent at hu
  split at hu
  · exact Host.Outcome.next.inj hu ▸ h
  · rename_i c _
    split at hu
    · exact Host.Outcome.next.inj hu ▸ h
    · split at hu
      · split at hu
        · exact Host.Outcome.next.inj hu ▸ h.setSamples c.slot (fun hs => Memory.write_wf _ (hs.slot _) _ _) rfl
        · exact absurd hu nofun
      · exact Host.Outcome.next.inj hu ▸ h

theorem frameEnd (h : s.KeepsForms t) (hu : execFrameEnd t = .next u) : s.KeepsForms u := by
  unfold execFrameEnd at hu
  split at hu
  · exact Host.Outcome.next.inj hu ▸ h.aside
  · split at hu
    · exact Host.Outcome.next.inj hu ▸ h.loseCapture _
    · exact Host.Outcome.next.inj hu ▸ (h.usableFrame _).makeTicket _

/-! ### The lanes (R55 to R65) -/

theorem complete (h : s.KeepsForms t) (l : Lane) (k : Ticket) (g : Nat) (r : LaneResult) :
    s.KeepsForms (t.complete l k g r) :=
  h.aside (complete_samples ..) (by simp [complete_frame]) (by simp [complete_frame])

theorem dropTicket (h : s.KeepsForms t) (k : Ticket) : s.KeepsForms (t.dropTicket k) :=
  h.aside (dropTicket_samples ..) (by simp [dropTicket_frame]) (by simp [dropTicket_frame])

theorem showLoss (h : s.KeepsForms t) (k : Ticket) : s.KeepsForms (t.showLoss k) :=
  h.still (by simp [showLoss_frame])

theorem closeTake (h : s.KeepsForms t) (n : Word) (c : CloseCause) : s.KeepsForms (t.closeTake n c) :=
  h.still (by simp [closeTake_frame])

theorem reservationFailure (h : s.KeepsForms t) (k : Ticket) (lack : Lack) :
    s.KeepsForms (t.reservationFailure k lack) := by
  unfold State.reservationFailure
  split
  · have reported := (h.closeTake k.take .storeOverrun).reportFault .storeOverrun k.frame k.take lack.detail
    exact aside ((reported.showLoss k).dropTicket k)
  · exact dropTicket (h.aside) k

theorem settleJob (h : s.KeepsForms t) (l : Lane) (k : Ticket) (q : Option Nat) (j : Job) (v : Verdict) :
    s.KeepsForms (t.settleJob l k q j v) := by
  unfold State.settleJob
  dsimp only
  split
  · exact h.reservationFailure ..
  · split
    · exact h.complete ..
    · exact h.aside
  · split
    · exact h.reservationFailure ..
    · exact h.complete ..

theorem jobStart (h : s.KeepsForms t) {l : Lane} (hu : execJobStart l t = .next u) : s.KeepsForms u := by
  unfold execJobStart at hu
  split at hu
  · exact Host.Outcome.next.inj hu ▸ h
  · exact Host.Outcome.next.inj hu ▸ settleJob (h.still (by simp [withReservation_frame])) ..

theorem pass1End (h : s.KeepsForms t) {l : Lane} {tag size : Nat} (hu : execPass1End l tag size t = .next u) :
    s.KeepsForms u := by
  unfold execPass1End at hu
  split at hu
  · exact Host.Outcome.next.inj hu ▸ h
  · refine Host.Outcome.next.inj hu ▸ ?_
    unfold endPass1
    split
    · exact h.complete ..
    · exact ifDue (h.complete ..) fun _ => h.aside

theorem pass2End (h : s.KeepsForms t) {l : Lane} {tag size : Nat} (hu : execPass2End l tag size t = .next u) :
    s.KeepsForms u := by
  unfold execPass2End at hu
  split at hu
  · exact Host.Outcome.next.inj hu ▸ h
  · exact Host.Outcome.next.inj hu ▸ ifDue (h.complete ..) fun _ => h.complete ..

/-! ### Visits and reports (R172 to R179, R183) -/

theorem beginVisit (h : s.KeepsForms t) (b : Bool) : s.KeepsForms (t.beginVisit b) := by
  unfold State.beginVisit
  extract_lets c v
  have begun : s.KeepsForms v := h.aside
  have asked := begun.translate .chain v.chain.anchor
  split <;> (rename_i e; rw [e] at asked)
  · exact asked.aside
  · exact asked

theorem askVisit (h : s.KeepsForms t) (b : Bool) : s.KeepsForms (t.askVisit b) := by
  unfold State.askVisit
  split
  · exact h.beginVisit b
  · exact h.aside

theorem endVisit (h : s.KeepsForms t) (b : Bool) : s.KeepsForms (t.endVisit b) := by
  unfold State.endVisit
  extract_lets v w more
  have ended : s.KeepsForms v := h.aside
  have told : s.KeepsForms w := ended.ifDue fun _ => ended.raise .directive
  exact told.ifDue fun _ => told.beginVisit false

theorem chainFault (h : s.KeepsForms t) (a : Nat) : s.KeepsForms (t.chainFault a) :=
  endVisit (ifDue (reportFault (h.aside) ..) fun _ => h) false

theorem followNext (h : s.KeepsForms t) (n : Nat) : s.KeepsForms (t.followNext n) := by
  unfold State.followNext
  split
  · exact h.endVisit false
  · split
    · exact h.chainFault n
    · have asked := translate (t := t.setPhase (.recordPage n)) (h.aside) .chain n
      split <;> (rename_i e; rw [e] at asked)
      · exact asked.aside
      · exact asked

theorem frameReport (h : s.KeepsForms t) (passed : List State) (l : Label) : s.KeepsForms (t.frameReport passed l) :=
  raise (h.aside) .report

/-! ### Frame starts (R4) -/

theorem setLock (h : s.KeepsForms t) (l : LockState) : s.KeepsForms (t.setLock l) := by
  by_cases hl : t.cadence.lock = l
  · exact hl ▸ t.setLock_self.symm ▸ h
  · exact t.setLock_ne l hl ▸ raise (h.aside) .lock

theorem checkLost (h : s.KeepsForms t) : s.KeepsForms t.checkLost :=
  h.ifDue fun _ => reportFault (setLock (h.aside) _) ..

theorem edgeHandling (h : s.KeepsForms t) (cause : FrameCause) : s.KeepsForms (t.edgeHandling cause) := by
  unfold State.edgeHandling
  split
  · exact h
  · exact setLock (h.aside) _
  · exact h.aside
  · exact checkLost (h.aside)
  · exact checkLost (h.aside)

theorem applySetting (h : s.KeepsForms t) (x : CadenceSetting) : s.KeepsForms (t.applySetting x) := by
  unfold State.applySetting
  extract_lets old c v
  have applied : s.KeepsForms v := h.aside
  have sought : s.KeepsForms v.enterSeeking := setLock (applied.aside) _
  split
  · exact setLock (applied.aside) _
  · split
    · exact sought
    · exact applied.ifDue fun _ => sought

theorem settleCounter (h : s.KeepsForms t) (cause : FrameCause) : s.KeepsForms (t.settleCounter cause) := by
  unfold State.settleCounter
  split
  · exact h.aside
  · exact (h.applySetting _).aside

theorem boardFrameStart (h : s.KeepsForms t) (passed : List State) : s.KeepsForms (t.boardFrameStart passed) := by
  unfold State.boardFrameStart
  extract_lets v
  have reported : s.KeepsForms v := h.ifDue fun _ => h.frameReport ..
  split
  · exact reported.askVisit true
  · exact reported.askVisit true
  · exact reported

theorem handFrameStart (h : s.KeepsForms t) (cause : FrameCause) : s.KeepsForms (t.handFrameStart cause) := by
  unfold State.handFrameStart
  extract_lets a b c d e f
  have activated : s.KeepsForms a := h.still (by simp only [a, profileFrameStart_frame, and_self])
  have labelled : s.KeepsForms b := activated.still (by simp only [b, timecodeFrameStart_frame, and_self])
  have trimmed : s.KeepsForms d := aside (labelled.intakeFrameStart _)
  exact trimmed.writerFrameStart.coalesceFrameStart.boardFrameStart _

theorem frameStart (h : s.KeepsForms t) (cause : FrameCause) : s.KeepsForms (t.frameStart cause) :=
  (settleCounter (edgeHandling (h.aside) cause) cause).handFrameStart cause

/-! ### Sampled edges and ticks (R2, R5 to R13, R25) -/

theorem seekEdge (h : s.KeepsForms t) (good : Bool) : s.KeepsForms (t.seekEdge good) := by
  unfold State.seekEdge
  split
  · exact ifDue (h.aside) fun _ => h.frameStart .realign
  · exact h.aside

theorem lockedEdge (h : s.KeepsForms t) (good : Bool) : s.KeepsForms (t.lockedEdge good) := by
  unfold State.lockedEdge
  split
  · exact (ifDue (h.aside) fun _ => h).frameStart _
  · exact checkLost (h.aside)

theorem sampleEdge (h : s.KeepsForms t) : s.KeepsForms t.sampleEdge := by
  unfold State.sampleEdge
  extract_lets interval good c v
  have sampled : s.KeepsForms v := h.aside
  split
  · exact ifDue (sampled.aside) fun _ => sampled
  · exact sampled.seekEdge good
  · exact sampled.seekEdge good
  · exact sampled.lockedEdge good

theorem baseBoundary (h : s.KeepsForms t) : s.KeepsForms t.baseBoundary :=
  h.still (by simp [baseBoundary_frame])

theorem takeExpiry (h : s.KeepsForms t) : s.KeepsForms t.takeExpiry :=
  ifDue (h.frameStart .expiry) fun _ => h.aside

theorem settle (h : s.KeepsForms t) : s.KeepsForms t.settle := by
  unfold State.settle
  extract_lets v w
  have expired : s.KeepsForms v := h.ifDue fun _ => h.takeExpiry
  have closed : s.KeepsForms w := expired.ifDue fun _ => expired.frameStart .close
  exact closed.ifDue fun _ => closed.baseBoundary

theorem pass (h : s.KeepsForms t) (n : Nat) : s.KeepsForms (t.pass n) :=
  have counted : s.KeepsForms (t.count n) := h.aside
  counted.ifDue fun _ => counted.sampleEdge

theorem elapse (h : s.KeepsForms t) (n : Nat) : s.KeepsForms (t.elapse n) := by
  induction n generalizing t with
  | zero => exact h
  | succ n ih =>
    rw [elapse_succ]
    exact ih (h.settle.pass 1)

theorem cadenceExpiry (h : s.KeepsForms t) (hu : execCadenceExpiry t = .next u) : s.KeepsForms u := by
  have elapsed := h.elapse t.cadence.counter
  unfold execCadenceExpiry at hu
  split at hu
  · exact Host.Outcome.next.inj hu ▸ h
  · split at hu
    · exact Host.Outcome.next.inj hu ▸ h
    · exact Host.Outcome.next.inj hu ▸ elapsed.ifDue fun _ => elapsed.takeExpiry

theorem refEdge (h : s.KeepsForms t) (p : Polarity) (n : Nat) : s.KeepsForms ((t.latchEdge p).elapse n) :=
  elapse (h.still (by simp [latchEdge_frame])) n

theorem windowClose (h : s.KeepsForms t) (hu : execWindowClose t = .next u) : s.KeepsForms u := by
  have elapsed := h.elapse t.cadence.ticksToClose
  have opened : s.KeepsForms (t.elapse t.cadence.ticksToClose).openLate := elapsed.ifDue fun _ => elapsed.takeExpiry
  unfold execWindowClose at hu
  split at hu
  · exact Host.Outcome.next.inj hu ▸ opened.ifDue fun _ => opened.frameStart .close
  · exact Host.Outcome.next.inj hu ▸ h

theorem basePeriodBoundary (h : s.KeepsForms t) (hu : execBasePeriodBoundary t = .next u) : s.KeepsForms u := by
  have elapsed := h.elapse t.timecode.baseCounter
  unfold execBasePeriodBoundary at hu
  split at hu
  · exact Host.Outcome.next.inj hu ▸ h
  · exact Host.Outcome.next.inj hu ▸ elapsed.ifDue fun _ => elapsed.baseBoundary

/-! ### Directives (R16 to R19, R112 to R120, R156 to R159, R176, R188, R189) -/

theorem applyStartCadence (h : s.KeepsForms t) : s.KeepsForms t.applyStartCadence.1 := by
  unfold State.applyStartCadence
  split
  · unfold State.startCadence
    extract_lets cadence board started
    split
    · exact h.aside
    · exact setLock (h.aside) _
  · exact h

theorem stopCadence (h : s.KeepsForms t) : s.KeepsForms t.stopCadence := by
  unfold State.stopCadence
  extract_lets halted v
  have unlocked : s.KeepsForms halted := setLock (h.aside) _
  have stopped : s.KeepsForms v :=
    unlocked.still (by simp [v, boundaryAfter_frame, closeForStop_frame, activatePending_frame])
  exact stopped.aside

theorem applyOpenTake (h : s.KeepsForms t) (take : Word) : s.KeepsForms (t.applyOpenTake take).1 := by
  have opened : s.KeepsForms (t.openTakeAct take) := h.aside
  unfold State.applyOpenTake
  (repeat' split) <;> assumption

theorem applyMark (h : s.KeepsForms t) (value : BitVec 16) : s.KeepsForms (t.applyMark value).1 := by
  unfold State.applyMark
  split
  · exact h
  · exact h.aside

theorem applyRemap (h : s.KeepsForms t) (first count : Nat) : s.KeepsForms (t.applyRemap first count).1 := by
  unfold State.applyRemap
  split
  · exact h
  · extract_lets n last mask a ways discarded released v
    have remapped : s.KeepsForms v := h.recache fun l => l.remap first last
    exact remapped.ifDue fun _ => remapped.retryTranslation

theorem applySnapshot (h : s.KeepsForms t) : s.KeepsForms t.applySnapshot.1 := by
  unfold State.applySnapshot
  split
  · exact h
  · exact raise (h.recause t.notices.cause t.notices.mask true rfl) .snapshot

/-- The threshold in force is from 1 to 16, the age limit from 0 to 255, and chunks that reach the threshold are
announced (R188). -/
theorem applySetNotice (h : s.KeepsForms t) (count age : Nat) : s.KeepsForms (t.applySetNotice count age).1 := by
  have threshold : 1 ≤ clampNat 1 16 count ∧ clampNat 1 16 count ≤ 16 := by
    simp only [clampNat]
    omega
  have limit : clampNat 0 255 age ≤ 255 := by
    simp only [clampNat]
    omega
  unfold State.applySetNotice
  extract_lets c a mask before n v w
  show s.KeepsForms (if _ then _ else _)
  split
  · exact raise (h.renotice fun _ => Notices.zeroCounts_legal (n := n) threshold limit) .chunk
  · rename_i waiting
    exact h.renotice fun _ => ⟨threshold, limit, Nat.lt_of_not_le fun hc => waiting (.inl hc)⟩

theorem applyOwner (h : s.KeepsForms t) (d : Directive) : s.KeepsForms (t.applyOwner d).1 := by
  cases d with
  | setCadence period mode polarity tolerance => exact h.still (by simp [State.applyOwner, applySetCadence_frame])
  | startCadence => exact h.applyStartCadence
  | stopCadence => exact h.stopCadence
  | jamTimecode hh mm ss ff target => exact h.still (by simp [State.applyOwner, applyJam_frame])
  | setProfile p => exact h.still (by simp [State.applyOwner, applySetProfile_frame])
  | openTake take => exact h.applyOpenTake take
  | closeTake => exact h.still (by simp [State.applyOwner, applyCloseTake_frame])
  | mark value => exact h.applyMark value
  | remapApertures first count => exact h.applyRemap ..
  | probeAperture page => exact h.still (by simp [State.applyOwner, applyProbe_frame])
  | snapshot => exact h.applySnapshot
  | setNotice count age => exact h.applySetNotice ..

theorem applyDirective (h : s.KeepsForms t) (d : Option Directive) : s.KeepsForms (t.applyDirective d).1 := by
  have judged : s.KeepsForms (t.judgeDirective d).1 := by
    unfold judgeDirective
    split
    · exact h
    · split
      · exact h
      · exact h.applyOwner _
  exact judged.aside

theorem countRefusal (h : s.KeepsForms t) (r : DirectiveResult) : s.KeepsForms (t.countRefusal r) :=
  h.still (by simp [countRefusal_frame])

theorem direct (h : s.KeepsForms t) (d : Directive) : s.KeepsForms (t.direct d) :=
  h.ifDue fun _ => (h.applyDirective (some d)).countRefusal _

/-! ### The chain (R155, R175 to R178) -/

theorem completeRecord (h : s.KeepsForms t) (p : PendingResult) (base : HostAddr) :
    s.KeepsForms (t.completeRecord p base) := by
  unfold State.completeRecord
  extract_lets v c w
  have written : s.KeepsForms v := countRefusal (h.still (by simp [writeResult_frame])) _
  have consumed : s.KeepsForms w := written.aside
  exact ifDue (consumed.followNext _) fun _ => consumed.endVisit true

theorem takeRecordBytes (h : s.KeepsForms t) (addr : Nat) (bytes : List Byte) :
    s.KeepsForms (t.takeRecordBytes addr bytes) := by
  unfold State.takeRecordBytes
  split
  · have applied := h.applyDirective (directiveOf bytes)
    generalize t.applyDirective (directiveOf bytes) = x at applied
    obtain ⟨v, r⟩ := x
    have asked : ∀ p, s.KeepsForms ((v.setPhase (.resultPage p)).translate .chain addr).1 := fun p =>
      translate (applied.aside) .chain addr
    dsimp only
    specialize asked ⟨addr, fieldAt bytes 0 4, notifyFlag bytes, r⟩
    split <;> (rename_i e; rw [e] at asked)
    · exact asked.completeRecord ..
    · exact asked
  · exact h.endVisit false

theorem takeNext (h : s.KeepsForms t) (n : Nat) : s.KeepsForms (t.takeNext n) :=
  ifDue (h.followNext n) fun _ => followNext (h.aside) 0

theorem chainNextReadDone (h : s.KeepsForms t) {tag : Nat} {data : Option (List Byte)}
    (hu : execChainNextReadDone tag data t = .next u) : s.KeepsForms u := by
  unfold execChainNextReadDone at hu
  split at hu
  · split at hu
    · split at hu
      · exact Host.Outcome.next.inj hu ▸ h.chainFault _
      · exact Host.Outcome.next.inj hu ▸ h.takeNext _
    · exact Host.Outcome.next.inj hu ▸ h
  · exact Host.Outcome.next.inj hu ▸ h

theorem chainRecordFetchDone (h : s.KeepsForms t) {tag : Nat} {data : Option (List Byte)}
    (hu : execChainRecordFetchDone tag data t = .next u) : s.KeepsForms u := by
  unfold execChainRecordFetchDone at hu
  split at hu
  · split at hu
    · split at hu
      · exact Host.Outcome.next.inj hu ▸ h.chainFault _
      · exact Host.Outcome.next.inj hu ▸ h.takeRecordBytes ..
    · exact Host.Outcome.next.inj hu ▸ h
  · exact Host.Outcome.next.inj hu ▸ h

theorem answerChain (h : s.KeepsForms t) (a : Answer) : s.KeepsForms (t.answerChain a) := by
  unfold State.answerChain
  split
  · exact h.aside
  · exact h.chainFault _
  · exact h.aside
  · exact h.chainFault _
  · exact h.completeRecord ..
  · exact chainFault (h.aside) _
  · exact h

theorem answerAll (h : s.KeepsForms t) (answers : List (Miss × Answer)) : s.KeepsForms (t.answerAll answers) := by
  induction answers generalizing t with
  | nil => exact h
  | cons x rest ih =>
    refine ih (t := t.answerMiss x.1 x.2) ?_
    unfold answerMiss
    split
    · exact h.answerWriter ..
    · exact h.answerChain x.2

theorem apertureFetchDone (h : s.KeepsForms t) {tag : Nat} {data : Option (List Byte)}
    (hu : execApertureFetchDone tag data t = .next u) : s.KeepsForms u := by
  unfold execApertureFetchDone at hu
  split at hu
  · exact Host.Outcome.next.inj hu ▸ h
  · split at hu
    · exact Host.Outcome.next.inj hu ▸ ifDue ((h.settleFetch ..).answerAll _) fun _ => h.aside
    · exact Host.Outcome.next.inj hu ▸ h

/-! ### The Board (R163 to R168) -/

theorem detach (h : s.KeepsForms t) : s.KeepsForms t.detach := by
  have halted : s.KeepsForms t.detachCadence := h.still (by simp [detachCadence_frame])
  have freed : s.KeepsForms { t.detachCadence with intake := t.detachCadence.intake.detached } :=
    halted.aside (detached_samples _)
  have emptied : s.KeepsForms { t.detachCadence with
      intake := t.detachCadence.intake.detached, aperture := Aperture.reset } :=
    freed.recache fun _ => .reset
  exact emptied.renotice Notices.Legal.detached

theorem attachFailed (h : s.KeepsForms t) (r : AttachResult) : s.KeepsForms (t.attachFailed r) :=
  raise (h.aside) .attach

theorem commitAnchor (h : s.KeepsForms t) (a : HostAddr) : s.KeepsForms (t.commitAnchor a) := by
  unfold State.commitAnchor
  extract_lets d b v
  have anchored : s.KeepsForms v := h.detach.aside
  split
  · exact anchored
  · exact ifDue (anchored.attachFailed _) fun _ => anchored.aside

/-- Attach sets the blocks up afresh, with the raw slots' samples as they were (R165). -/
theorem setUp (h : s.KeepsForms t) (bytes : List Byte) : s.KeepsForms (t.setUp bytes) := by
  have freed : s.KeepsForms { t with intake := t.intake.detached } := h.aside (detached_samples _)
  have emptied : s.KeepsForms { t with intake := t.intake.detached, aperture := Aperture.reset } :=
    freed.recache fun _ => .reset
  exact emptied.renotice fun _ => t.notices.attached_legal

theorem judgeHeader (h : s.KeepsForms t) (data : Option (List Byte)) : s.KeepsForms (t.judgeHeader data) := by
  unfold State.judgeHeader
  split
  · exact h.attachFailed _
  · exact ifDue (h.attachFailed _) fun _ => ((h.setUp _).frameReport ..).raise .attach

theorem headerReadDone (h : s.KeepsForms t) {tag : Nat} {data : Option (List Byte)}
    (hu : execHeaderReadDone tag data t = .next u) : s.KeepsForms u := by
  unfold execHeaderReadDone at hu
  split at hu
  · exact Host.Outcome.next.inj hu ▸ h
  · split at hu
    · exact Host.Outcome.next.inj hu ▸ h.judgeHeader data
    · exact Host.Outcome.next.inj hu ▸ h

theorem visitRequest (h : s.KeepsForms t) {value : Word} (hu : execVisitRequest value t = .next u) :
    s.KeepsForms u := by
  unfold execVisitRequest at hu
  split at hu
  · exact Host.Outcome.next.inj hu ▸ (h.writerVisit.frameReport ..).askVisit false
  · exact Host.Outcome.next.inj hu ▸ h

/-- A fundamental reset sets all three up, whatever they were (R167). -/
theorem fundamentalReset (s t : State) (hu : execFundamentalReset t = .next u) : s.KeepsForms u := by
  obtain rfl := Host.Outcome.next.inj hu
  exact ⟨fun _ => reset_slots_wf, fun _ => Aperture.Legal.reset, fun _ => Notices.reset_legal⟩

/-! ### The writer's commands (R131, R133, R142) -/

theorem writerStartWork (h : s.KeepsForms t) (hu : execWriterStartWork t = .next u) : s.KeepsForms u := by
  unfold execWriterStartWork at hu
  split at hu
  · exact Host.Outcome.next.inj hu ▸ h
  · exact Host.Outcome.next.inj hu ▸ h.chooseWork

theorem chunkEntryReadDone (h : s.KeepsForms t) {tag : Nat} {data : Option (List Byte)}
    (hu : execChunkEntryReadDone tag data t = .next u) : s.KeepsForms u := by
  unfold execChunkEntryReadDone at hu
  split at hu
  · exact Host.Outcome.next.inj hu ▸ h.entryRead ..
  · split at hu
    · exact Host.Outcome.next.inj hu ▸ h.entryRead ..
    · split at hu
      · exact Host.Outcome.next.inj hu ▸ h.entryRead ..
      · exact Host.Outcome.next.inj hu ▸ h

theorem proxySuspended (h : s.KeepsForms t) (hu : execProxySuspended t = .next u) : s.KeepsForms u := by
  unfold execProxySuspended at hu
  split at hu
  · exact Host.Outcome.next.inj hu ▸ h.beginSuspension
  · exact Host.Outcome.next.inj hu ▸ h

/-! ### The dispatch -/

theorem command (h : s.KeepsForms t) {i : Instr} (hu : exec i t = .next u) : s.KeepsForms u := by
  cases i with
  | fundamentalReset => exact fundamentalReset s t hu
  | linkDown => exact Host.Outcome.next.inj hu ▸ h.detach.aside
  | functionLevelReset => exact Host.Outcome.next.inj hu ▸ h.detach.aside
  | boardAnchorLow value => exact Host.Outcome.next.inj hu ▸ h.aside
  | boardAnchorHigh value => exact Host.Outcome.next.inj hu ▸ h.commitAnchor _
  | visitRequest value => exact h.visitRequest (value := value) hu
  | noticeCause value => exact Host.Outcome.next.inj hu ▸ h.recause _ _ _ rfl
  | noticeMaskSet value => exact Host.Outcome.next.inj hu ▸ h.recause _ _ _ rfl
  | noticeMaskClear value =>
    exact Host.Outcome.next.inj hu ▸ h.recause _ _ _ (signal_notices ..) (by simp) (by simp)
  | ignoredRegisterWrite offset bytes value => exact Host.Outcome.next.inj hu ▸ h
  | headerReadDone tag data => exact h.headerReadDone hu
  | cadenceExpiry => exact h.cadenceExpiry hu
  | refEdge polarity ticks => exact Host.Outcome.next.inj hu ▸ h.refEdge polarity ticks
  | windowClose => exact h.windowClose hu
  | basePeriodBoundary => exact h.basePeriodBoundary hu
  | frameBegin => exact h.frameBegin hu
  | lineEvent index samples passed => exact h.lineEvent hu
  | frameEnd => exact h.frameEnd hu
  | jobStart lane => exact h.jobStart hu
  | pass1End lane tag size => exact h.pass1End hu
  | pass2End lane tag size => exact h.pass2End hu
  | setCadence period mode polarity tolerance => exact Host.Outcome.next.inj hu ▸ h.direct _
  | startCadence => exact Host.Outcome.next.inj hu ▸ h.direct _
  | stopCadence => exact Host.Outcome.next.inj hu ▸ h.direct _
  | jamTimecode hh mm ss ff target => exact Host.Outcome.next.inj hu ▸ h.direct _
  | setProfile params => exact Host.Outcome.next.inj hu ▸ h.direct _
  | openTake take => exact Host.Outcome.next.inj hu ▸ h.direct _
  | closeTake => exact Host.Outcome.next.inj hu ▸ h.direct _
  | mark value => exact Host.Outcome.next.inj hu ▸ h.direct _
  | remapApertures first count => exact Host.Outcome.next.inj hu ▸ h.direct _
  | probeAperture page => exact Host.Outcome.next.inj hu ▸ h.direct _
  | snapshot => exact Host.Outcome.next.inj hu ▸ h.direct _
  | setNotice count age => exact Host.Outcome.next.inj hu ▸ h.direct _
  | chainNextReadDone tag data => exact h.chainNextReadDone hu
  | chainRecordFetchDone tag data => exact h.chainRecordFetchDone hu
  | apertureFetchDone tag data => exact h.apertureFetchDone hu
  | writerStartWork => exact h.writerStartWork hu
  | chunkEntryReadDone tag data => exact h.chunkEntryReadDone hu
  | proxySuspended => exact h.proxySuspended hu
  | coalescingAgeLimit => exact Host.Outcome.next.inj hu ▸ h.ifDue fun _ => h.announce

end KeepsForms

theorem step_keepsForms (h : step s = .next t) : s.KeepsForms t := by
  unfold step at h
  split at h
  · rename_i rest _
    have taken : s.KeepsForms { s with pending := rest } := (KeepsForms.refl s).aside
    exact taken.command h
  · split at h
    · exact (KeepsForms.refl s).command h
    · exact Host.Outcome.next.inj h ▸ (KeepsForms.refl s).elapse 1

end State

/-- Settles O60: a step is a command, an event of the block's own, or one tick, and each is made of acts that keep the
slots' form, the cache and the notices. -/
theorem stepKeepsForms : Obligations.StepKeepsForms := by
  intro s t h
  obtain ⟨slots, cache, notices⟩ := State.step_keepsForms h
  exact ⟨slots, cache, notices⟩

end Sys2Proof.Machine
end

