-- ==== Sys2Proof/Proofs/RawSlots.lean ====
section
-- One proof at a time: a stack for every waiting proof of this text would pass the memory limit of the check.
set_option Elab.async false
/-! The lines of a raw slot: events out of turn, a line stored and marked, and the repair of a damaged frame (R37, R40,
R41, R43). -/

namespace Sys2Proof.Machine

/-! ### Events out of turn (R40 to R42) -/

/-- Settles O39: each event's capture phase, case by case. -/
theorem sensorEvents : Obligations.SensorEvents := by
  intro s index samples passed stray
  have strayed : s.stray = stray := rfl
  refine ⟨fun hc => ?_, fun c hc => ⟨fun hp => ?_, fun hp => ?_⟩⟩
  · simp [exec, execFrameBegin, execLineEvent, execFrameEnd, hc, strayed]
  · simp [exec, execFrameBegin, execLineEvent, hc, hp]
  · refine ⟨by simp [exec, execFrameBegin, hc, hp, strayed], fun hi => ?_⟩
    simp [exec, execLineEvent, hc, hp, Nat.not_lt_of_le hi]

/-! ### The bytes of a line (R37) -/

theorem leBytes_two (x : BitVec 16) : leBytes 2 x.toNat = [x.setWidth 8, (x >>> 8).setWidth 8] := by
  simp only [leBytes, List.cons.injEq, and_true]
  constructor <;> apply BitVec.eq_of_toNat_eq
  · simp
  · simp [Nat.shiftRight_eq_div_pow]

theorem sampleBytes_length (xs : List (BitVec 16)) : (sampleBytes xs).length = 2 * xs.length := by
  induction xs with
  | nil => rfl
  | cons x xs ih =>
    rw [sampleBytes, List.flatMap_cons, List.length_append, leBytes_two, ← sampleBytes, ih]
    simp only [List.length_cons, List.length_nil]
    omega

/-- A sample lies low byte first at twice its number. -/
theorem sampleBytes_getD {xs : List (BitVec 16)} {k : Nat} {x : BitVec 16} (h : xs[k]? = some x) :
    (sampleBytes xs).getD (2 * k) 0#8 = x.setWidth 8 ∧
      (sampleBytes xs).getD (2 * k + 1) 0#8 = (x >>> 8).setWidth 8 := by
  induction xs generalizing k with
  | nil => exact absurd h (by simp)
  | cons y xs ih =>
    rw [sampleBytes, List.flatMap_cons, leBytes_two, ← sampleBytes]
    cases k with
    | zero =>
      obtain rfl : y = x := by simpa using h
      exact ⟨rfl, rfl⟩
    | succ k => exact ih (by simpa using h)

/-! ### Marks (R41) -/

theorem markOf_cons (x : Nat × LineMark) (xs : List (Nat × LineMark)) (i : Nat) :
    markOf (x :: xs) i = if x.1 = i then some x.2 else markOf xs i := by
  unfold markOf
  by_cases h : x.1 = i <;> simp [h]

theorem markOf_markLine (index : Nat) (m : LineMark) (lines : List (Nat × LineMark)) (i : Nat) :
    markOf (markLine index m lines) i = if i = index then some m else markOf lines i := by
  induction lines with
  | nil => simp [markLine, markOf_cons, eq_comm]
  | cons x xs ih =>
    unfold markLine
    split
    · rw [markOf_cons, markOf_cons, ih]
      split
      · rw [if_neg (by omega)]
      · rfl
    · split
      · simp only [markOf_cons, eq_comm (a := index)]
        split
        · rfl
        · rw [if_neg (by omega)]
      · simp only [markOf_cons, eq_comm (a := index)]

/-- Settles O41: what a write of the line's bytes reads back as, and the marks of the new line map. -/
theorem lineStored : Obligations.LineStored := by
  intro s c index samples passed hc hp hi
  have taken : exec (.lineEvent index samples passed) s =
      if lineOffset c.width (index + 1) ≤ slotBytes then .next (s.takeLine c index samples passed)
      else .fault .slotAddress := by
    simp only [exec, execLineEvent, hc, hp, if_pos hi]
  have length : (sampleBytes (samples.take c.width)).length = 2 * min samples.length c.width := by
    rw [sampleBytes_length, List.length_take, Nat.min_comm]
  refine ⟨fun hb => taken.trans (if_neg (Nat.not_le_of_lt hb)), fun hb _ => ?_⟩
  refine ⟨_, _, taken.trans (if_pos hb), fun k x hk hx => ?_, fun a ha => ?_, ?_, fun i hne => ?_⟩
  · have stored := sampleBytes_getD (xs := samples.take c.width) (k := k) (by rw [List.getElem?_take_of_lt hk, hx])
    obtain ⟨hlen, -⟩ := List.getElem?_eq_some_iff.mp hx
    have inside : ∀ b, b < 2 → lineOffset c.width index ≤ index * c.width * 2 + (2 * k + b) ∧
        index * c.width * 2 + (2 * k + b) < lineOffset c.width index + 2 * min samples.length c.width := by
      intro b hb
      unfold lineOffset
      omega
    have read : ∀ b, b < 2 → Memory.read (Memory.write (s.intake.slot c.slot).samples (lineOffset c.width index)
        (sampleBytes (samples.take c.width))) (index * c.width * 2 + (2 * k + b)) =
          (sampleBytes (samples.take c.width)).getD (2 * k + b) 0#8 := by
      intro b hb
      rw [Memory.read_write, length, if_pos (inside b hb), lineOffset, Nat.add_sub_cancel_left]
    exact ⟨(read 0 (by decide)).trans stored.1, (read 1 (by decide)).trans stored.2⟩
  · rw [Memory.read_write, length, if_neg (by unfold lineOffset; omega)]
  · rw [markOf_markLine, if_pos rfl]
    rfl
  · rw [markOf_markLine, if_neg hne]

/-! ### The repair (R43) -/

theorem lineOffset_add_le {w i j : Nat} (h : i < j) : lineOffset w i + 2 * w ≤ lineOffset w j := by
  have := Nat.mul_le_mul_right w h
  rw [Nat.succ_mul] at this
  unfold lineOffset
  omega

/-- A byte of a line lies in no other line. -/
theorem lineOffset_disjoint {w i j b : Nat} (hb : b < 2 * w) (h : j ≠ i) :
    ¬ (lineOffset w i ≤ lineOffset w j + b ∧ lineOffset w j + b < lineOffset w i + 2 * w) := by
  rcases Nat.lt_or_gt_of_ne h with h | h
  · have := lineOffset_add_le (w := w) h
    omega
  · have := lineOffset_add_le (w := w) h
    omega

theorem readBlock_length (m : Memory) (a n : Nat) : (Memory.readBlock m a n).length = n := by
  simp [Memory.readBlock]

theorem copyLine_read_self {w b : Nat} (hb : b < 2 * w) (src dst : Nat) (m : Memory) :
    Memory.read (copyLine w src dst m) (lineOffset w dst + b) = Memory.read m (lineOffset w src + b) := by
  unfold copyLine
  rw [Memory.read_write, readBlock_length, if_pos (by omega), Nat.add_sub_cancel_left]
  simp [Memory.readBlock, List.getD_eq_getElem?_getD, hb]

theorem copyLine_read_other {w a : Nat} (src dst : Nat) (m : Memory)
    (ha : ¬ (lineOffset w dst ≤ a ∧ a < lineOffset w dst + 2 * w)) :
    Memory.read (copyLine w src dst m) a = Memory.read m a := by
  unfold copyLine
  rw [Memory.read_write, readBlock_length, if_neg ha]

/-- The repair from a line on takes the line itself as the next source when it is GOOD, and else overwrites it. -/
theorem repairLines_succ (w : Nat) (lines : List (Nat × LineMark)) (k i src : Nat) (m : Memory) :
    repairLines w lines (k + 1) i src m =
      if goodLine lines i = true then repairLines w lines k (i + 1) i m
      else repairLines w lines k (i + 1) src (copyLine w src i m) :=
  rfl

/-- The repair of some lines leaves every byte outside of them. -/
theorem repairLines_read_outside {w : Nat} {lines : List (Nat × LineMark)} {k i src a : Nat} {m : Memory}
    (ha : a < lineOffset w i ∨ lineOffset w (i + k) ≤ a) :
    Memory.read (repairLines w lines k i src m) a = Memory.read m a := by
  induction k generalizing i src m with
  | zero => rfl
  | succ k ih =>
    have next := lineOffset_add_le (w := w) (show i < i + 1 by omega)
    have last := lineOffset_add_le (w := w) (show i < i + (k + 1) by omega)
    have outside : a < lineOffset w (i + 1) ∨ lineOffset w (i + 1 + k) ≤ a := by
      rw [Nat.add_right_comm]
      exact ha.imp_left (by omega)
    rw [repairLines_succ]
    split
    · exact ih outside
    · rw [ih outside, copyLine_read_other _ _ _ (by omega)]

/-- Line g is what the repair from line i on, with source src, makes of line j: the nearest GOOD line from i to j, or
src where there is none. -/
def RepairSource (lines : List (Nat × LineMark)) (i src j g : Nat) : Prop :=
  (i ≤ g ∧ g ≤ j ∧ ∀ x, g < x → x ≤ j → goodLine lines x = false) ∨
    (g = src ∧ ∀ x, i ≤ x → x ≤ j → goodLine lines x = false)

namespace RepairSource

variable {lines : List (Nat × LineMark)} {i src j g : Nat}

/-- A GOOD first line is the source from there on. -/
theorem step_good (h : RepairSource lines i src j g) (hij : i ≤ j) (hi : goodLine lines i = true) :
    RepairSource lines (i + 1) i j g := by
  rcases h with ⟨hig, hgj, last⟩ | ⟨-, none⟩
  · rcases Nat.eq_or_lt_of_le hig with rfl | hlt
    · exact .inr ⟨rfl, last⟩
    · exact .inl ⟨hlt, hgj, last⟩
  · exact absurd hi (by simp [none i (Nat.le_refl i) hij])

/-- Past a first line that is not GOOD the source stays. -/
theorem step_bad (h : RepairSource lines i src j g) (hg : goodLine lines g = true) (hi : ¬ goodLine lines i = true) :
    RepairSource lines (i + 1) src j g := by
  rcases h with ⟨hig, hgj, last⟩ | ⟨rfl, none⟩
  · exact .inl ⟨Nat.lt_of_le_of_ne hig fun he => hi (he ▸ hg), hgj, last⟩
  · exact .inr ⟨rfl, fun x hx => none x (Nat.le_of_succ_le hx)⟩

/-- Past the line there is only the source left. -/
theorem eq_src (h : RepairSource lines (i + 1) src i g) : g = src := by
  rcases h with ⟨hig, hgi, -⟩ | ⟨he, -⟩
  · omega
  · exact he

end RepairSource

/-- A line under repair reads as its source did: GOOD lines are never overwritten (R43). -/
theorem repairLines_read {w : Nat} {lines : List (Nat × LineMark)} {k i src j g b : Nat} {m : Memory}
    (hij : i ≤ j) (hj : j < i + k) (hb : b < 2 * w) (hg : goodLine lines g = true)
    (h : RepairSource lines i src j g) :
    Memory.read (repairLines w lines k i src m) (lineOffset w j + b) = Memory.read m (lineOffset w g + b) := by
  induction k generalizing i src m with
  | zero => omega
  | succ k ih =>
    have next := lineOffset_add_le (w := w) (show i < i + 1 by omega)
    rw [repairLines_succ]
    split
    · rename_i good
      have source := h.step_good hij good
      rcases Nat.eq_or_lt_of_le hij with rfl | hlt
      · rw [repairLines_read_outside (.inl (by omega)), source.eq_src]
      · exact ih hlt (by omega) source
    · rename_i bad
      have source := h.step_bad hg bad
      rcases Nat.eq_or_lt_of_le hij with rfl | hlt
      · rw [repairLines_read_outside (.inl (by omega)), copyLine_read_self hb, source.eq_src]
      · have apart : g ≠ i := fun he => bad (he ▸ hg)
        rw [ih hlt (by omega) source, copyLine_read_other _ _ _ (lineOffset_disjoint hb apart)]

/-! ### The line map in order -/

theorem goodLine_iff {lines : List (Nat × LineMark)} (h : lines.Pairwise fun x y => x.1 < y.1) (i : Nat) :
    goodLine lines i = true ↔ (i, LineMark.good) ∈ lines := by
  induction lines with
  | nil => simp [goodLine, markOf]
  | cons x xs ih =>
    obtain ⟨below, rest⟩ := List.pairwise_cons.mp h
    have marks : goodLine (x :: xs) i = ((if x.1 = i then some x.2 else markOf xs i) == some .good) := by
      rw [goodLine, markOf_cons]
    rw [marks, List.mem_cons]
    split
    · rename_i hx
      obtain ⟨a, mark⟩ := x
      obtain rfl : a = i := hx
      have absent : (a, LineMark.good) ∉ xs := fun hm => Nat.lt_irrefl a (below (a, .good) hm)
      cases mark <;> simp [absent]
    · rename_i hx
      rw [← goodLine, ih rest, or_iff_right]
      exact fun he => hx (he ▸ rfl)

/-- The first GOOD line, where there is one, has no GOOD line below it. -/
theorem firstGood_least {lines : List (Nat × LineMark)} (h : lines.Pairwise fun x y => x.1 < y.1) {j : Nat}
    (hj : goodLine lines j = true) :
    goodLine lines (firstGood lines) = true ∧ ∀ g < firstGood lines, goodLine lines g = false := by
  unfold firstGood
  split
  · rename_i none
    have := List.find?_eq_none.mp none _ ((goodLine_iff h j).mp hj)
    simp at this
  · rename_i x found
    obtain ⟨good, before, after, rfl, notBefore⟩ := List.find?_eq_some_iff_append.mp found
    obtain ⟨i, m⟩ := x
    obtain rfl : m = .good := by simpa using good
    refine ⟨(goodLine_iff h i).mpr (by simp), fun g hg => Bool.eq_false_iff.mpr fun hgood => ?_⟩
    obtain ⟨-, later, -⟩ := List.pairwise_append.mp h
    rcases List.mem_append.mp ((goodLine_iff h g).mp hgood) with hm | hm
    · exact absurd (notBefore _ hm) (by simp)
    · rcases List.mem_cons.mp hm with he | hm
      · obtain rfl : g = i := congrArg Prod.fst he
        exact Nat.lt_irrefl _ hg
      · exact Nat.lt_asymm hg ((List.pairwise_cons.mp later).1 _ hm)

/-- Settles O43: the repair from line 0 with the first GOOD line as its source. -/
theorem repairUsesNearestGood : Obligations.RepairUsesNearestGood := by
  intro c m ordered _
  refine ⟨fun i j k hi hj hk nearest => ?_, fun a ha => ?_⟩
  · refine repairLines_read (Nat.zero_le i) (by omega) hk hj ?_
    rcases nearest with ⟨hji, last⟩ | ⟨hij, first⟩
    · exact .inl ⟨Nat.zero_le j, hji, last⟩
    · obtain ⟨good, least⟩ := firstGood_least ordered hj
      refine .inr ⟨?_, fun x _ hx => first x (by omega)⟩
      rcases Nat.lt_trichotomy j (firstGood c.lines) with hlt | he | hlt
      · exact absurd hj (by simp [least j hlt])
      · exact he
      · exact absurd good (by simp [first _ hlt])
  · exact repairLines_read_outside (.inr (by rwa [Nat.zero_add]))

end Sys2Proof.Machine
end

