-- ==== Sys2Proof/Proofs/IntakeFrames.lean ====
section
-- One proof at a time: a stack for every waiting proof of this text would pass the memory limit of the check.
set_option Elab.async false
/-! The Intake at a frame start and at FRAME_END: losses, captures and tickets (R38, R39, R42 to R49). -/

namespace Sys2Proof.Machine

/-! ### The lowest FREE slot (R39) -/

theorem freeSlot_of_least {slots : List Slot} {k : Nat} (n : Nat) (hk : (slots.map Slot.state)[k]? = some .free)
    (least : ∀ j < k, (slots.map Slot.state)[j]? ≠ some .free) : freeSlot n slots = some (n + k) := by
  induction slots generalizing n k with
  | nil => exact absurd hk (by simp)
  | cons x xs ih =>
    unfold freeSlot
    cases k with
    | zero => exact if_pos (by simpa using hk)
    | succ k =>
      rw [if_neg (by simpa using least 0 (Nat.succ_pos k)), ih (n + 1) (by simpa using hk)]
      · rw [Nat.add_right_comm, Nat.add_assoc]
      · exact fun j hj => by simpa using least (j + 1) (Nat.succ_lt_succ hj)

theorem freeSlot_eq_none_iff {slots : List Slot} (n : Nat) :
    freeSlot n slots = none ↔ ∀ x ∈ slots, x.state ≠ .free := by
  induction slots generalizing n with
  | nil => simp [freeSlot]
  | cons x xs ih =>
    unfold freeSlot
    split
    · simp [*]
    · simp [*]

/-! ### A slot written twice -/

theorem modify_samples_state (slots : List Slot) (i : Nat) (m : Memory) (x : SlotState) :
    (slots.modify i (fun z => { z with samples := m })).modify i (fun z => { z with state := x }) =
      slots.modify i (fun z => { z with state := x, samples := m }) :=
  List.modify_modify_eq ..

/-- Writing a slot's own samples again changes nothing. -/
theorem modify_own_samples (k : Intake) (i : Nat) :
    k.slots.modify i (fun z => { z with samples := (k.slot i).samples }) = k.slots := by
  refine List.ext_getElem (by simp) fun j hj hk => ?_
  rw [List.getElem_modify]
  split
  · rename_i he
    subst he
    simp [Intake.slot, hk]
  · rfl

namespace State

variable {s u : State}

/-! ### Faults beside other blocks (R190) -/

theorem reportFault_beside (s : State) (k : Intake) (n : Counters) (c : FaultClass) (f t d : Word) :
    State.reportFault { s with intake := k, counters := n } c f t d =
      { s.reportFault c f t d with intake := k, counters := n } := by
  cases h : s.faultRecord.latch with
  | true => rw [reportFault_held s c f t d h, reportFault_held { s with intake := k, counters := n } c f t d h]
  | false =>
    rw [reportFault_free s c f t d h, reportFault_free { s with intake := k, counters := n } c f t d h, raise_eq,
      raise_eq]

theorem openTakeNumber_congr (h : u.takes = s.takes) : u.openTakeNumber = s.openTakeNumber := by
  simp only [openTakeNumber, openTake, h]

theorem openTakeNumber_shut (h : s.takeIsOpen = false) : s.openTakeNumber = 0#32 := by
  have none : s.openTake = none := by simpa [takeIsOpen] using h
  simp only [openTakeNumber, none]

/-! ### Losses (R28, R45) -/

/-- From `u`, which has the takes of `s`, a frame's loss is reported, and shown to the OPEN take. -/
def lossOf (s u : State) (cls : FaultClass) (frame : Word) : State :=
  { u.reportFault cls frame s.openTakeNumber 0#32 with
    timecode := if s.takeIsOpen = true then u.timecode.recordStep else u.timecode
    intake := { u.intake with
      pendingGap := if s.takeIsOpen = true then min 65535 (u.intake.pendingGap + 1) else u.intake.pendingGap } }

theorem lose_eq (s : State) : s.lose = { s with
    timecode := if s.takeIsOpen = true then s.timecode.recordStep else s.timecode
    intake := { s.intake with
      pendingGap := if s.takeIsOpen = true then min 65535 (s.intake.pendingGap + 1) else s.intake.pendingGap } } := by
  unfold lose
  cases s.takeIsOpen <;> rfl

theorem reportFault_lose (h : u.takes = s.takes) (cls : FaultClass) (frame : Word) :
    (u.reportFault cls frame u.openTakeNumber 0#32).lose = s.lossOf u cls frame := by
  have same : (u.reportFault cls frame s.openTakeNumber 0#32).takeIsOpen = s.takeIsOpen :=
    takeIsOpen_congr (by rw [reportFault_takes, h])
  rw [openTakeNumber_congr h, lose_eq, same, reportFault_timecode, reportFault_intake]
  rfl

theorem lossOf_latch (s u : State) (cls : FaultClass) (frame : Word) :
    (s.lossOf u cls frame).faultRecord.latch = true :=
  reportFault_latch ..

theorem lossOf_counters (s u : State) (cls : FaultClass) (frame : Word) :
    (s.lossOf u cls frame).counters = u.counters :=
  reportFault_counters ..

theorem lossOf_takes (s u : State) (cls : FaultClass) (frame : Word) : (s.lossOf u cls frame).takes = u.takes :=
  reportFault_takes ..

theorem lossOf_cadence (s u : State) (cls : FaultClass) (frame : Word) :
    (s.lossOf u cls frame).cadence = u.cadence :=
  reportFault_cadence ..

theorem lossOf_latched (s u : State) (cls : FaultClass) (frame : Word) :
    (s.lossOf u cls frame).timecode.latched = u.timecode.latched := by
  unfold lossOf
  dsimp only
  split
  · exact u.timecode.recordStep_latched
  · rfl

/-- A loss with a take OPEN steps the record-run label and the gap count. -/
theorem lossOf_open (h : s.takeIsOpen = true) (u : State) (cls : FaultClass) (frame : Word) :
    (s.lossOf u cls frame).timecode = u.timecode.recordStep ∧
      (s.lossOf u cls frame).intake.pendingGap = min 65535 (u.intake.pendingGap + 1) :=
  ⟨if_pos h, if_pos h⟩

theorem lossOf_shut (h : s.takeIsOpen = false) (u : State) (cls : FaultClass) (frame : Word) :
    (s.lossOf u cls frame).timecode = u.timecode ∧
      (s.lossOf u cls frame).intake.pendingGap = u.intake.pendingGap :=
  ⟨if_neg (by simp [h]), if_neg (by simp [h])⟩

/-! ### A capture cut short (R38) -/

/-- The capture is gone, its slot FREE, and the loss counted; it is not reported yet. -/
def dropped (s : State) (c : Capture) : State :=
  { s with
    intake := { s.intake with
      slots := s.intake.slots.modify c.slot (fun x => { x with state := .free }), capture := none }
    counters := { s.counters with lostInCapture := min 4294967295 (s.counters.lostInCapture + 1) } }

theorem loseCapture_eq (s : State) (c : Capture) :
    s.loseCapture c = s.lossOf (s.dropped c) .frameLost c.frame :=
  reportFault_lose (u := s.dropped c) rfl ..

theorem cutCapture_none (h : s.intake.capture = none) : s.cutCapture = s := by
  simp only [cutCapture, h]

theorem cutCapture_some {c : Capture} (h : s.intake.capture = some c) :
    s.cutCapture = s.lossOf (s.dropped c) .frameLost c.frame := by
  simp only [cutCapture, h, loseCapture_eq]

/-- What a cut leaves for the capture that may follow. -/
theorem cutCapture_leaves (s : State) : s.cutCapture.cadence = s.cadence ∧ s.cutCapture.takes = s.takes ∧
    s.cutCapture.timecode.latched = s.timecode.latched ∧
    s.cutCapture.counters.lostNoSlot = s.counters.lostNoSlot := by
  cases hc : s.intake.capture with
  | none =>
    rw [cutCapture_none hc]
    exact ⟨rfl, rfl, rfl, rfl⟩
  | some c =>
    rw [cutCapture_some hc, lossOf_cadence, lossOf_takes, lossOf_latched, lossOf_counters]
    exact ⟨rfl, rfl, rfl, rfl⟩

/-- The slots once a capture under way has freed its own. -/
def slotsLeft (s : State) : List Slot :=
  match s.intake.capture with
  | none => s.intake.slots
  | some c => s.intake.slots.modify c.slot (fun x => { x with state := .free })

theorem cutCapture_slots (s : State) : s.cutCapture.intake.slots = s.slotsLeft := by
  cases hc : s.intake.capture with
  | none => rw [cutCapture_none hc]; simp only [slotsLeft, hc]
  | some c => rw [cutCapture_some hc]; simp only [slotsLeft, hc]; rfl

/-! ### The capture of a frame start (R39) -/

/-- The capture that a frame start begins in a slot. -/
def captureIn (s : State) (k : Nat) (retimed : Bool) : Capture :=
  { phase := .awaitingBegin, slot := k, frame := s.cadence.frameNumber, retimed := retimed
    width := s.takes.profile.width, height := s.takes.profile.height
    label := s.timecode.latched, lines := [] }

/-- A frame start that finds a FREE slot, the capture before it cut. -/
theorem intakeFrameStart_free (s : State) (b : Bool) {k : Nat} (h : freeSlot 0 s.slotsLeft = some k) :
    s.intakeFrameStart b = { s.cutCapture with intake := { s.cutCapture.intake with
      slots := s.slotsLeft.modify k (fun x => { x with state := .capturing })
      strobe := true, capture := some (s.captureIn k b) } } := by
  obtain ⟨hc, ht, hl, -⟩ := s.cutCapture_leaves
  rw [← cutCapture_slots] at h ⊢
  unfold intakeFrameStart beginCapture
  simp only [h, hc, ht, hl, Intake.setSlot]
  rfl

/-- A frame start that finds none. -/
theorem intakeFrameStart_full (s : State) (b : Bool) (h : freeSlot 0 s.slotsLeft = none) :
    s.intakeFrameStart b = s.lossOf { s.cutCapture with
      intake := { s.cutCapture.intake with strobe := false }
      counters := { s.cutCapture.counters with
        lostNoSlot := min 4294967295 (s.counters.lostNoSlot + 1) } } .intakeOverrun s.cadence.frameNumber := by
  obtain ⟨hc, ht, -, hn⟩ := s.cutCapture_leaves
  rw [← cutCapture_slots] at h
  unfold intakeFrameStart beginCapture
  simp only [h, hc]
  rw [← reportFault_lose (s := s) (by exact ht), ← hn]
  rfl

/-- What the rest of a frame start leaves of the cut: the lost-in-capture count, a held fault latch, and, with no take
OPEN, the labels and the gap. -/
theorem intakeFrameStart_afterCut (s : State) (b : Bool) :
    (s.intakeFrameStart b).counters.lostInCapture = s.cutCapture.counters.lostInCapture ∧
      (s.cutCapture.faultRecord.latch = true → (s.intakeFrameStart b).faultRecord.latch = true) ∧
      (s.takeIsOpen = false → (s.intakeFrameStart b).timecode = s.cutCapture.timecode ∧
        (s.intakeFrameStart b).intake.pendingGap = s.cutCapture.intake.pendingGap) := by
  cases h : freeSlot 0 s.slotsLeft with
  | some k =>
    rw [s.intakeFrameStart_free b h]
    exact ⟨rfl, fun hl => hl, fun _ => ⟨rfl, rfl⟩⟩
  | none =>
    rw [s.intakeFrameStart_full b h, lossOf_counters]
    exact ⟨rfl, fun _ => lossOf_latch .., fun ho => lossOf_shut ho ..⟩

theorem cutCapture_shut (h : s.takeIsOpen = false) : s.cutCapture.timecode = s.timecode ∧
    s.cutCapture.intake.pendingGap = s.intake.pendingGap := by
  cases hc : s.intake.capture with
  | none =>
    rw [cutCapture_none hc]
    exact ⟨rfl, rfl⟩
  | some c =>
    rw [cutCapture_some hc]
    exact lossOf_shut h ..

/-- The fault record of a cut is that of its report in the state before. -/
theorem cutCapture_faultRecord {c : Capture} (h : s.intake.capture = some c) :
    s.cutCapture.faultRecord = (s.reportFault .frameLost c.frame s.openTakeNumber 0#32).faultRecord := by
  rw [cutCapture_some h]
  show ((s.dropped c).reportFault .frameLost c.frame s.openTakeNumber 0#32).faultRecord = _
  rw [dropped, reportFault_beside]

end State

/-- Settles O40: the cut, then the lowest FREE slot or the loss of the frame; the rest is read off these. -/
theorem frameStartAtIntake : Obligations.FrameStartAtIntake := by
  intro s retimed t i slots lost cut
  have cutIs : s.cutCapture = cut := by
    cases hc : s.intake.capture with
    | none => rw [State.cutCapture_none hc]; simp only [cut, i, hc]
    | some c => rw [State.cutCapture_some hc]; simp only [cut, i, slots, hc]; rfl
  have least : ∀ k, (slots.map Slot.state)[k]? = some .free →
      (∀ j < k, (slots.map Slot.state)[j]? ≠ some .free) → freeSlot 0 s.slotsLeft = some k := fun k hk hl =>
    (freeSlot_of_least 0 hk hl).trans (by rw [Nat.zero_add])
  have none : freeSlot 0 s.slotsLeft = none ↔ ∀ x ∈ slots, x.state ≠ .free := freeSlot_eq_none_iff 0
  obtain ⟨-, -, -, lostNoSlot⟩ := s.cutCapture_leaves
  obtain ⟨lostInCapture, latched, shut⟩ := s.intakeFrameStart_afterCut retimed
  obtain ⟨noCapture, -⟩ := s.cutCapture_intake
  obtain ⟨-, mark⟩ := s.intakeFrameStart_intake retimed
  obtain ⟨hcad, hlanes, hgov, hstore, htakes, hwriter, hap, hboard, hchain, hseq, htag, -⟩ :=
    s.intakeFrameStart_frame retimed
  refine ⟨fun k hk hl => cutIs ▸ s.intakeFrameStart_free retimed (least k hk hl),
    fun hn => cutIs ▸ s.intakeFrameStart_full retimed (none.mpr hn), fun c hc hx => ?_, fun hc => ?_, fun hc => ?_,
    fun k hk hl => ?_, fun hn => ?_, fun ho => ?_, hlanes, htakes, hcad, hstore, mark, hboard, hwriter, hgov, hap,
    hchain, hseq, htag⟩
  · obtain ⟨k, hk⟩ := Option.ne_none_iff_exists'.mp fun hn => by
      obtain ⟨x, hx, hf⟩ := hx
      exact none.mp hn x hx hf
    rw [show t = _ from s.intakeFrameStart_free retimed hk]
    refine ⟨State.cutCapture_faultRecord hc, fun ho => ?_⟩
    rw [State.cutCapture_some hc]
    exact State.lossOf_open ho (s.dropped c) .frameLost c.frame
  · exact lostInCapture.trans (by rw [State.cutCapture_none hc])
  · obtain ⟨c, hc⟩ := Option.ne_none_iff_exists'.mp hc
    rw [State.cutCapture_some hc] at latched lostInCapture
    exact ⟨latched (State.lossOf_latch ..), lostInCapture.trans (by rw [State.lossOf_counters]; rfl)⟩
  · rw [show t = _ from s.intakeFrameStart_free retimed (least k hk hl)]
    exact ⟨rfl, rfl, rfl, lostNoSlot⟩
  · rw [show t = _ from s.intakeFrameStart_full retimed (none.mpr hn)]
    refine ⟨noCapture, s.cutCapture_slots, rfl, State.lossOf_latch .., by rw [State.lossOf_counters],
      fun ho hc => ?_⟩
    rw [State.cutCapture_none hc]
    exact State.lossOf_open ho _ .intakeOverrun s.cadence.frameNumber
  · obtain ⟨stepped, gap⟩ := shut ho
    obtain ⟨cutStepped, cutGap⟩ := State.cutCapture_shut ho
    exact ⟨stepped.trans cutStepped, gap.trans cutGap⟩

/-! ### FRAME_END (R42 to R49) -/

namespace State

variable {s : State}

/-- A frame lost at its end, or cut short, whole. -/
theorem loseCapture_whole (s : State) (c : Capture) :
    s.loseCapture c = { s.reportFault .frameLost c.frame s.openTakeNumber 0#32 with
      intake := { s.intake with
        slots := s.intake.slots.modify c.slot (fun x => { x with state := .free }), capture := none
        pendingGap := if s.takeIsOpen = true then min 65535 (s.intake.pendingGap + 1) else s.intake.pendingGap }
      timecode := if s.takeIsOpen = true then s.timecode.recordStep else s.timecode
      counters := { s.counters with lostInCapture := min 4294967295 (s.counters.lostInCapture + 1) } } := by
  rw [loseCapture_eq, lossOf, dropped, reportFault_beside]

/-- The samples of a usable frame's slot: repaired when a line is faulty (R43). -/
def usableSamples (s : State) (c : Capture) : Memory :=
  if c.faultLines = 0 then (s.intake.slot c.slot).samples else c.repair (s.intake.slot c.slot).samples

/-- The counters of a usable frame. -/
def usableCounters (s : State) (c : Capture) : Counters :=
  { s.counters with
    captured := min 4294967295 (s.counters.captured + 1)
    damaged := if c.faultLines = 0 then s.counters.damaged else min 4294967295 (s.counters.damaged + 1) }

theorem usableFrame_eq (s : State) (c : Capture) : s.usableFrame c = { s with
    counters := s.usableCounters c
    intake := { s.intake with
      slots := s.intake.slots.modify c.slot (fun x => { x with samples := s.usableSamples c }) } } := by
  unfold usableFrame usableCounters usableSamples
  by_cases h : c.faultLines = 0
  · simp only [h, if_true, modify_own_samples]
    rfl
  · simp only [h, if_false]
    rfl

theorem effectiveMode_recordStep (s : State) :
    effectiveMode { s with timecode := s.timecode.recordStep } = s.effectiveMode := by
  have h : s.timecode.recordStep.base = s.timecode.base ∧ s.timecode.recordStep.mode = s.timecode.mode := by
    unfold Timecode.recordStep
    split <;> exact ⟨rfl, rfl⟩
  simp only [effectiveMode, h]

theorem ticketLabel_eq (s : State) (c : Capture) :
    s.ticketLabel c = if s.effectiveMode = .freeRun then c.label else s.timecode.recordRun := by
  unfold ticketLabel
  cases s.effectiveMode <;> rfl

/-- With a take OPEN the ticket is bound to it, after the record-run step (R46). -/
theorem makeTicket_open (h : s.takeIsOpen = true) (c : Capture) :
    s.makeTicket c = State.keepTicket { s with timecode := s.timecode.recordStep } c s.openTakeNumber :=
  if_pos h

/-- With none OPEN it is kept unbound for the pre-roll in FREE_RUN, and else discarded (R47). -/
theorem makeTicket_shut (h : s.takeIsOpen = false) (c : Capture) :
    s.makeTicket c = if 0 < s.takes.profile.preroll ∧ s.effectiveMode = .freeRun then s.keepTicket c 0#32
      else s.discardTicket c := by
  simp [makeTicket, keepsUnbound, h]

/-- The ticket of a frame that ends in `s`, for a take and the record-run label after its step (R46, R48, R49). -/
def ticketOf (s : State) (c : Capture) (take : Word) (recordRun : Label) : Ticket :=
  { slot := c.slot, frame := c.frame, damaged := decide (c.faultLines ≠ 0), retimed := c.retimed
    mark := s.intake.pendingMark, preroll := false, width := c.width, height := c.height
    hasRecord := false, fullResult := none, proxyResult := none
    take := take, gap := if take = 0#32 then 0 else s.intake.pendingGap
    label := if s.effectiveMode = .freeRun then c.label else recordRun }

/-- A usable frame whose ticket joins both queues, whole (R54). -/
def ticketJoined (s : State) (c : Capture) (take : Word) (labels : Timecode) : State :=
  { s with
    counters := s.usableCounters c
    timecode := labels
    intake := { s.intake with
      slots := s.intake.slots.modify c.slot
        (fun x => { x with state := .heldByLanes, samples := s.usableSamples c })
      capture := none, pendingGap := if take = 0#32 then s.intake.pendingGap else 0, pendingMark := none }
    lanes := { s.lanes with
      tickets := s.lanes.tickets ++ [s.ticketOf c take labels.recordRun]
      full := { s.lanes.full with queue := s.lanes.full.queue ++ [c.slot] }
      proxy := { s.lanes.proxy with queue := s.lanes.proxy.queue ++ [c.slot] } } }

theorem keepTicket_usable {labels : Timecode}
    (h : effectiveMode { s with timecode := labels } = s.effectiveMode) (c : Capture) (take : Word) :
    State.keepTicket { s.usableFrame c with timecode := labels } c take = s.ticketJoined c take labels := by
  rw [usableFrame_eq]
  unfold keepTicket newTicket Intake.setSlot
  simp only [modify_samples_state, ticketLabel_eq]
  unfold ticketJoined ticketOf
  rw [← h]
  rfl

theorem usableFrame_ticket_open (ho : s.takeIsOpen = true) (c : Capture) :
    (s.usableFrame c).makeTicket c = s.ticketJoined c s.openTakeNumber s.timecode.recordStep := by
  obtain ⟨ht, hk⟩ : (s.usableFrame c).timecode = s.timecode ∧ (s.usableFrame c).takes = s.takes := by
    simp [usableFrame_frame]
  rw [makeTicket_open ((takeIsOpen_congr (by rw [hk])).trans ho), openTakeNumber_congr hk, ht]
  exact keepTicket_usable s.effectiveMode_recordStep c _

/-- A usable frame whose ticket is discarded, whole (R47). -/
def ticketDiscarded (s : State) (c : Capture) : State :=
  { s with
    counters := { s.usableCounters c with
      discardedUnbound := min 4294967295 (s.counters.discardedUnbound + 1) }
    intake := { s.intake with
      slots := s.intake.slots.modify c.slot (fun x => { x with state := .free, samples := s.usableSamples c })
      capture := none } }

theorem discardTicket_usable (s : State) (c : Capture) :
    (s.usableFrame c).discardTicket c = s.ticketDiscarded c := by
  rw [usableFrame_eq]
  unfold discardTicket Intake.setSlot
  simp only [modify_samples_state]
  rfl

theorem usableFrame_ticket_shut (ho : s.takeIsOpen = false) (c : Capture) :
    (s.usableFrame c).makeTicket c = if 0 < s.takes.profile.preroll ∧ s.effectiveMode = .freeRun then
      s.ticketJoined c 0#32 s.timecode else s.ticketDiscarded c := by
  obtain ⟨hc, ht, hk⟩ : (s.usableFrame c).cadence = s.cadence ∧ (s.usableFrame c).timecode = s.timecode ∧
      (s.usableFrame c).takes = s.takes := by
    simp [usableFrame_frame]
  have mode : (s.usableFrame c).effectiveMode = s.effectiveMode := by simp only [effectiveMode, hc, ht]
  have kept : (s.usableFrame c).keepTicket c 0#32 = s.ticketJoined c 0#32 s.timecode := by
    rw [← keepTicket_usable (labels := s.timecode) rfl, ← ht]
  rw [makeTicket_shut ((takeIsOpen_congr (by rw [hk])).trans ho), kept, discardTicket_usable, hk, mode]

end State

/-- Settles O42: the loss, or the usable frame and then its ticket by the OPEN take and the pre-roll. -/
theorem frameEndOutcomes : Obligations.FrameEndOutcomes := by
  intro s c hc _ faulty gap
  have ended : exec .frameEnd s = if c.height < 2 * c.faultLines then .next (s.loseCapture c)
      else .next ((s.usableFrame c).makeTicket c) := by
    simp only [exec, execFrameEnd, hc]
  refine ⟨fun hf => ?_, fun hf => ?_⟩
  · rw [ended, if_pos (show c.height < 2 * c.faultLines from hf), State.loseCapture_whole]
  · intro samples counted held ticket joined
    have usable : ¬ c.height < 2 * c.faultLines := Nat.not_lt_of_le hf
    rw [ended, if_neg usable]
    refine ⟨fun ho h0 => congrArg _ ?_, fun ho hp hm => congrArg _ ?_, fun ho hd => congrArg _ ?_⟩
    · have made : s.ticketOf c s.openTakeNumber s.timecode.recordStep.recordRun = ticket := by
        simp only [State.ticketOf, ticket, ho, if_true, if_neg h0]
        rfl
      rw [State.usableFrame_ticket_open ho, State.ticketJoined, made, if_neg h0]
      rfl
    · have made : s.ticketOf c 0#32 s.timecode.recordRun = ticket := by
        simp only [State.ticketOf, ticket, ho, if_true, State.openTakeNumber_shut ho]
        rfl
      rw [State.usableFrame_ticket_shut ho, if_pos ⟨hp, hm⟩, State.ticketJoined, made, if_pos rfl]
      rfl
    · have unkept : ¬ (0 < s.takes.profile.preroll ∧ s.effectiveMode = .freeRun) := by
        rintro ⟨hp, hm⟩
        rcases hd with h0 | hr
        · exact absurd h0 (Nat.ne_of_gt hp)
        · exact absurd (hm.symm.trans hr) nofun
      rw [State.usableFrame_ticket_shut ho, if_neg unkept]
      rfl

end Sys2Proof.Machine
end

