-- ==== Sys2Proof/Proofs/StoreRecords.lean ====
section
-- One proof at a time: a stack for every waiting proof of this text would pass the memory limit of the check.
set_option Elab.async false
/-! The records and the areas of the store: what is measured, shortened, released and appended (R92 to R94, R103, R104,
R107). -/

namespace Sys2Proof.Machine

/-! ### Areas and extents (R92) -/

@[simp] theorem Store.area_setArea (st : Store) (lane : Lane) (a : Area) : (st.setArea lane a).area lane = a := by
  cases lane <;> rfl

@[simp] theorem Store.area_setArea_other (st : Store) (lane : Lane) (a : Area) :
    (st.setArea lane a).area (otherLane lane) = st.area (otherLane lane) := by
  cases lane <;> rfl

@[simp] theorem Store.setArea_list (st : Store) (lane : Lane) (a : Area) : (st.setArea lane a).list = st.list := by
  cases lane <;> rfl

@[simp] theorem Store.mapRecord_area (st : Store) (frame : Word) (f : PairRecord → PairRecord) (lane : Lane) :
    (st.mapRecord frame f).area lane = st.area lane := by
  cases lane <;> rfl

@[simp] theorem Store.refresh_area (st : Store) (lane : Lane) : st.refresh.area lane = st.area lane := by
  cases lane <;> rfl

@[simp] theorem PairRecord.extent_setExtent (x : PairRecord) (lane : Lane) (e : Option Extent) :
    (x.setExtent lane e).extent lane = e := by
  cases lane <;> rfl

theorem extentsOf_eq_nil_iff {rs : List PairRecord} {lane : Lane} :
    extentsOf rs lane = [] ↔ ∀ y ∈ rs, y.extent lane = none :=
  List.filterMap_eq_nil_iff

theorem extentsOf_append (xs ys : List PairRecord) (lane : Lane) :
    extentsOf (xs ++ ys) lane = extentsOf xs lane ++ extentsOf ys lane :=
  List.filterMap_append ..

/-- The tail goes back behind the newest extent of a list. -/
theorem Area.retreatTail_append (a : Area) (xs : List Extent) (e : Extent) :
    a.retreatTail (xs ++ [e]) = { a with tail := (e.start + e.len) % a.size } := by
  simp [Area.retreatTail, Area.after]

/-! ### The first record of a frame number (log 48) -/

section Split

variable {before later : List PairRecord} {x : PairRecord} {frame : Word}

theorem takeWhile_frame (hx : x.frame = frame) (hb : ∀ y ∈ before, y.frame ≠ frame) :
    (before ++ x :: later).takeWhile (fun r => r.frame != frame) = before := by
  rw [List.takeWhile_append_of_pos (by simpa using hb)]
  simp [hx]

theorem dropWhile_frame (hx : x.frame = frame) (hb : ∀ y ∈ before, y.frame ≠ frame) :
    (before ++ x :: later).dropWhile (fun r => r.frame != frame) = x :: later := by
  rw [List.dropWhile_append_of_pos (by simpa using hb)]
  simp [hx]

theorem map_frame_none {l : List PairRecord} (hl : ∀ y ∈ l, y.frame ≠ frame) (f : PairRecord → PairRecord) :
    l.map (fun r => if r.frame = frame then f r else r) = l :=
  (List.map_congr_left fun y hy => if_neg (hl y hy)).trans (List.map_id' l)

/-- A change of the record of a frame number, where that record is the one appended. -/
theorem Store.mapRecord_appended {st : Store} (hl : ∀ y ∈ st.list, y.frame ≠ frame) (hx : x.frame = frame)
    (f : PairRecord → PairRecord) :
    (({ st with list := st.list ++ [x] } : Store).mapRecord frame f).list = st.list ++ [f x] := by
  show (st.list ++ [x]).map _ = _
  rw [List.map_append, map_frame_none hl, List.map_singleton, if_pos hx]

end Split

/-! ### The pressure (R107, R108) -/

/-- A change of the records that moves no binding and no extent leaves the measure. -/
theorem Store.measured_map (st : Store) (f : PairRecord → PairRecord)
    (bound : ∀ x ∈ st.list, (f x).bound = x.bound)
    (extent : ∀ x ∈ st.list, ∀ lane, (f x).extent lane = x.extent lane) :
    ({ st with list := st.list.map f } : Store).measured = st.measured := by
  have kept : (st.list.map f).filter (fun r => r.bound == true) =
      (st.list.filter (fun r => r.bound == true)).map f := by
    rw [List.filter_map]
    exact congrArg _ (List.filter_congr fun x hx => by simp [bound x hx])
  have live (lane : Lane) :
      ({ st with list := st.list.map f } : Store).liveBytes lane true = st.liveBytes lane true := by
    unfold Store.liveBytes extentsOf
    rw [kept, List.filterMap_map]
    exact congrArg (fun l : List Extent => (l.map Extent.len).sum)
      (List.filterMap_congr fun x hx => extent x (List.mem_of_mem_filter hx) lane)
  unfold Store.measured
  rw [live, live]
  simp only [Store.records, kept, List.length_map]

/-! ### The shortened extent (R93, R103) -/

/-- A record whose extent in a lane's area is cut to a size when it is of a frame number. -/
def PairRecord.cutTo (frame : Word) (lane : Lane) (size : Nat) (x : PairRecord) : PairRecord :=
  if x.frame = frame then x.setExtent lane ((x.extent lane).map (fun e => { e with len := size })) else x

theorem PairRecord.cutTo_extent_none {lane : Lane} {x : PairRecord} (frame : Word) (size : Nat)
    (h : x.extent lane = none) : (x.cutTo frame lane size).extent lane = none := by
  unfold PairRecord.cutTo
  split
  · simp [h]
  · exact h

namespace Store

variable (st : Store) (frame : Word) (lane : Lane) (size : Nat)

theorem shorten_pressure : (st.shorten frame lane size).pressure = (st.shorten frame lane size).measured := rfl

theorem shorten_list : (st.shorten frame lane size).list = st.list.map (PairRecord.cutTo frame lane size) := by
  unfold shorten
  dsimp only
  split
  · exact setArea_list ..
  · rfl

theorem shorten_area_other : (st.shorten frame lane size).area (otherLane lane) = st.area (otherLane lane) := by
  unfold shorten
  dsimp only
  split <;> simp

variable {st frame} {before later : List PairRecord} {x : PairRecord} {e : Extent}

/-- A record behind whose own no later one holds an extent: the tail stands behind what is left of it. -/
theorem shorten_area_tail (hl : st.list = before ++ x :: later) (hx : x.frame = frame)
    (hb : ∀ y ∈ before, y.frame ≠ frame) (he : x.extent lane = some e) (hn : ∀ y ∈ later, y.extent lane = none) :
    (st.shorten frame lane size).area lane =
      { st.area lane with tail := (e.start + size) % (st.area lane).size } := by
  have empty : extentsOf later lane = [] := extentsOf_eq_nil_iff.mpr hn
  have stillEmpty : extentsOf (later.map (PairRecord.cutTo frame lane size)) lane = [] :=
    extentsOf_eq_nil_iff.mpr (List.forall_mem_map.mpr fun y hy => y.cutTo_extent_none frame size (hn y hy))
  have own : extentsOf [x.cutTo frame lane size] lane = [{ e with len := size }] := by
    simp [PairRecord.cutTo, extentsOf, hx, he]
  have newest : extentsOf (st.list.map (PairRecord.cutTo frame lane size)) lane =
      extentsOf (before.map (PairRecord.cutTo frame lane size)) lane ++ [{ e with len := size }] := by
    rw [hl, List.map_append, List.map_cons, ← List.singleton_append, extentsOf_append, extentsOf_append, own,
      stillEmpty, List.append_nil]
  have tail := Area.retreatTail_append (st.area lane)
    (extentsOf (before.map (PairRecord.cutTo frame lane size)) lane) { e with len := size }
  rw [← newest] at tail
  unfold shorten
  rw [show st.list.dropWhile (fun r => r.frame != frame) = x :: later from hl ▸ dropWhile_frame hx hb]
  simp only [List.drop_one, List.tail_cons, empty, List.isEmpty_nil, if_true, refresh_area, area_setArea]
  exact tail

/-- With a later extent in the area, the rest of the shortened one is slack. -/
theorem shorten_area_slack (hl : st.list = before ++ x :: later) (hx : x.frame = frame)
    (hb : ∀ y ∈ before, y.frame ≠ frame) (hs : ∃ y ∈ later, y.extent lane ≠ none) :
    (st.shorten frame lane size).area lane = st.area lane := by
  have used : extentsOf later lane ≠ [] := by
    rw [ne_eq, extentsOf_eq_nil_iff]
    push Not
    exact hs
  unfold shorten
  rw [hl, dropWhile_frame hx hb]
  simp [used]

end Store

/-! ### A record released (R93, R104) -/

/-- An area that an extent leaves: at the tail, at the head, or as slack (log 14). -/
def Area.giveUp (a : Area) (e : Option Extent) (before later : List Extent) : Area :=
  if e = none then a
  else match later.head?, before.getLast? with
    | none, none => { a with tail := a.head }
    | none, some y => { a with tail := (y.start + y.len) % a.size }
    | some y, none => { a with head := y.start }
    | some _, some _ => a

theorem Store.freeExtentAt_eq (st : Store) (lane : Lane) (x : PairRecord) (before later : List PairRecord) :
    st.freeExtentAt lane x before later =
      (st.area lane).giveUp (x.extent lane) (extentsOf before lane) (extentsOf later lane) := by
  unfold Store.freeExtentAt Area.giveUp
  cases x.extent lane with
  | none => rfl
  | some e =>
    cases hl : extentsOf later lane with
    | nil =>
      cases hb : (extentsOf before lane).getLast? with
      | none => simp [Area.retreatTail, hb]
      | some y => simp [Area.retreatTail, Area.after, hb]
    | cons y ys =>
      cases hb : (extentsOf before lane).getLast? with
      | none => simp [Area.advanceHead, List.getLast?_eq_none_iff.mp hb]
      | some z =>
        have used : extentsOf before lane ≠ [] := fun h => by simp [h] at hb
        simp [used]

/-- The first record of the frame number leaves the list and its extents leave their areas. -/
theorem Store.release_of_split {st : Store} {before later : List PairRecord} {x : PairRecord} {frame : Word}
    (hl : st.list = before ++ x :: later) (hx : x.frame = frame) (hb : ∀ y ∈ before, y.frame ≠ frame) :
    st.release frame = ({ st with
      list := before ++ later
      fullArea := st.fullArea.giveUp x.full (before.filterMap PairRecord.full) (later.filterMap PairRecord.full)
      proxyArea := st.proxyArea.giveUp x.proxy (before.filterMap PairRecord.proxy)
        (later.filterMap PairRecord.proxy) } : Store).refresh := by
  unfold Store.release
  rw [hl, takeWhile_frame hx hb, dropWhile_frame hx hb]
  simp only [Store.freeExtentAt_eq]
  rfl

/-- A record that holds no extent yet, released again: the areas are as they were. -/
theorem Store.release_fresh {st : Store} {before : List PairRecord} {frame take : Word}
    (hl : st.list = before ++ [PairRecord.fresh frame take]) (hb : ∀ y ∈ before, y.frame ≠ frame) :
    st.release frame = ({ st with list := before } : Store).refresh := by
  rw [Store.release_of_split (frame := frame) hl rfl hb, List.append_nil]
  rfl

end Sys2Proof.Machine
end

