-- ==== Sys2Proof/Proofs/Admission.lean ====
section
-- One proof at a time: a stack for every waiting proof of this text would pass the memory limit of the check.
set_option Elab.async false
/-! What the store answers to a request (R96 to R99): bound ones by room, unbound ones after evictions. -/

namespace Sys2Proof.Machine

namespace Store

variable {st : Store} {limit : Nat} {r : Request}

/-! ### Bound requests (R97) -/

theorem request_bound (limit : Nat) (h : r.take ≠ 0#32) : st.request limit r = st.requestBound r := if_pos h

theorem request_unbound (limit : Nat) (h : r.take = 0#32) :
    st.request limit r = st.takeUnbound limit r st.list.length :=
  if_neg (not_not_intro h)

theorem requestBound_refused (h : r.wantRecord = true ∧ 4096 ≤ st.list.length) :
    st.requestBound r = (st, .refused .records) := if_pos h

theorem requestBound_granted (h : ¬ (r.wantRecord = true ∧ 4096 ≤ st.list.length))
    (hb : r.bytes ≤ st.freeRoom r.lane) : st.requestBound r = (((st.addRecord r).place r).refresh, .granted) :=
  (if_neg h).trans (if_pos hb)

theorem requestBound_bytesRefused (h : ¬ (r.wantRecord = true ∧ 4096 ≤ st.list.length))
    (hb : st.freeRoom r.lane < r.bytes) :
    st.requestBound r = ((st.addRecord r).refresh, .bytesRefused (byteLack r.lane)) :=
  (if_neg h).trans (if_neg (Nat.not_le_of_lt hb))

theorem addRecord_unwanted (h : r.wantRecord = false) : st.addRecord r = st := by
  simp [addRecord, h]

theorem addRecord_wanted (h : r.wantRecord = true) :
    st.addRecord r = { st with list := st.list ++ [PairRecord.fresh r.frame r.take] } := if_pos h

theorem place_nothing (h : r.bytes = 0) : st.place r = st := if_pos h

theorem place_bytes (h : 0 < r.bytes) : st.place r = (st.mapRecord r.frame (fun x => x.setExtent r.lane
    (some { start := (st.area r.lane).tail, len := r.bytes }))).setArea r.lane
      { st.area r.lane with tail := ((st.area r.lane).tail + r.bytes) % (st.area r.lane).size } :=
  if_neg (Nat.ne_of_gt h)

/-! ### Unbound requests (R98, R99) -/

theorem recordMet_iff : st.recordMet limit r = true ↔ (r.wantRecord = true →
    (st.list.filter (fun y => y.take = 0#32)).length + 1 ≤ limit ∧ st.list.length < 4096) := by
  have same : st.records false = (st.list.filter (fun y => y.take = 0#32)).length :=
    congrArg List.length (List.filter_congr fun y _ => by
      by_cases h : y.take = 0#32 <;> simp [PairRecord.bound, h])
  unfold recordMet
  rw [same]
  cases r.wantRecord <;> simp

theorem bytesMet_iff : st.bytesMet r = true ↔ r.bytes ≤ st.freeRoom r.lane ∧
    8 * (st.liveBytes r.lane false + r.bytes) ≤ 7 * (st.area r.lane).size := by
  simp [bytesMet, and_comm]

theorem headEvictable_iff : st.headEvictable = true ↔
    ∃ y rest, st.list = y :: rest ∧ y.take = 0#32 ∧ y.pair ≠ none := by
  unfold headEvictable
  cases st.list with
  | nil => simp
  | cons y rest => simp [PairRecord.bound, Option.isSome_iff_ne_none, and_comm]

theorem dropHead_list (st : Store) : st.dropHead.list = st.list.tail := by
  unfold dropHead
  cases h : st.list with
  | nil => exact h
  | cons y rest => rfl

theorem iterate_dropHead_list (n : Nat) (st : Store) : (Nat.iterate dropHead n st).list = st.list.drop n := by
  induction n generalizing st with
  | zero => rfl
  | succ n ih => rw [Function.iterate_succ_apply, ih, dropHead_list, List.drop_tail, Nat.add_comm]

/-- How a request is settled on the store that the evictions leave (R99). -/
structure Settles (x : Store) (limit : Nat) (r : Request) (answer : Store × Verdict) : Prop where
  granted : x.recordMet limit r = true → x.bytesMet r = true → answer = ((x.addRecord r).place r, .granted)
  refused : x.recordMet limit r = false → x.headEvictable = false ∧ answer = (x, .refused .records)
  bytesRefused : x.recordMet limit r = true → x.bytesMet r = false →
    x.headEvictable = false ∧ answer = (x.addRecord r, .bytesRefused (byteLack r.lane))

/-- A request that is met is granted, at any fuel. -/
theorem takeUnbound_met (fuel : Nat) (hm : st.recordMet limit r = true) (hb : st.bytesMet r = true) :
    st.Settles limit r (takeUnbound limit r fuel st) where
  granted _ _ := by unfold takeUnbound; simp [hm, hb]
  refused h := absurd hm (by simp [h])
  bytesRefused _ h := absurd hb (by simp [h])

/-- A request that is not met ends where no head pair can be evicted, at any fuel. -/
theorem takeUnbound_stuck (fuel : Nat) (hn : (st.recordMet limit r && st.bytesMet r) = false)
    (he : st.headEvictable = false) : st.Settles limit r (takeUnbound limit r fuel st) where
  granted hm hb := absurd hn (by simp [hm, hb])
  refused h := ⟨he, by unfold takeUnbound; simp [h, he]⟩
  bytesRefused hm hb := ⟨he, by unfold takeUnbound; simp [hm, hb, he]⟩

theorem takeUnbound_evicts (fuel : Nat) (hn : (st.recordMet limit r && st.bytesMet r) = false)
    (he : st.headEvictable = true) :
    takeUnbound limit r (fuel + 1) st = takeUnbound limit r fuel st.dropHead := by
  conv_lhs => unfold takeUnbound
  simp [hn, he]

/-- Evictions go on while the request is not met and one can be made; fuel for every record is enough. -/
theorem takeUnbound_settles (limit : Nat) (r : Request) (fuel : Nat) (st : Store) (hf : st.list.length ≤ fuel) :
    ∃ n ≤ st.list.length,
      (∀ k < n, (Nat.iterate dropHead k st).headEvictable = true ∧
        ((Nat.iterate dropHead k st).recordMet limit r && (Nat.iterate dropHead k st).bytesMet r) = false) ∧
      (Nat.iterate dropHead n st).Settles limit r (takeUnbound limit r fuel st) := by
  induction fuel generalizing st with
  | zero =>
    refine ⟨0, Nat.zero_le _, nofun, ?_⟩
    have he : st.headEvictable = false := by simp [headEvictable, List.eq_nil_of_length_eq_zero (Nat.le_zero.mp hf)]
    cases hn : st.recordMet limit r && st.bytesMet r with
    | true =>
      obtain ⟨hm, hb⟩ := Bool.and_eq_true_iff.mp hn
      exact takeUnbound_met 0 hm hb
    | false => exact takeUnbound_stuck 0 hn he
  | succ fuel ih =>
    cases hn : st.recordMet limit r && st.bytesMet r with
    | true =>
      obtain ⟨hm, hb⟩ := Bool.and_eq_true_iff.mp hn
      exact ⟨0, Nat.zero_le _, nofun, takeUnbound_met _ hm hb⟩
    | false =>
      cases he : st.headEvictable with
      | false => exact ⟨0, Nat.zero_le _, nofun, takeUnbound_stuck _ hn he⟩
      | true =>
        obtain ⟨y, rest, hl, -⟩ := headEvictable_iff.mp he
        have one : st.list.length = st.dropHead.list.length + 1 := by rw [dropHead_list, hl]; rfl
        obtain ⟨n, hle, before, after⟩ := ih st.dropHead (by omega)
        refine ⟨n + 1, by omega, fun k hk => ?_, ?_⟩
        · cases k with
          | zero => exact ⟨he, hn⟩
          | succ k => exact before k (by omega)
        · rw [takeUnbound_evicts fuel hn he]
          exact after

/-! ### Every request -/

/-- What a request can end in (R96): granted; refused its record, on what evictions leave of the list; or, with the
record it wanted there, refused its bytes. -/
theorem request_cases (st : Store) (limit : Nat) (r : Request) :
    (st.request limit r).2 = .granted ∨
    ((st.request limit r).2 = .refused .records ∧ r.wantRecord = true ∧
      ∃ n, (st.request limit r).1.list = st.list.drop n) ∨
    ((st.request limit r).2 = .bytesRefused (byteLack r.lane) ∧
      ∃ x : Store, (∃ n, x.list = st.list.drop n) ∧ (st.request limit r).1.list = (x.addRecord r).list) := by
  by_cases ht : r.take = 0#32
  · rw [request_unbound limit ht]
    obtain ⟨n, -, -, settled⟩ := takeUnbound_settles limit r _ st (Nat.le_refl _)
    have dropped : ∃ k, (Nat.iterate dropHead n st).list = st.list.drop k := ⟨n, iterate_dropHead_list n st⟩
    cases hm : (Nat.iterate dropHead n st).recordMet limit r with
    | false =>
      have wanted : r.wantRecord = true := by
        by_contra hw
        exact absurd (hm.symm.trans (recordMet_iff.mpr fun h => absurd h hw)) nofun
      obtain ⟨-, answer⟩ := settled.refused hm
      rw [answer]
      exact .inr (.inl ⟨rfl, wanted, dropped⟩)
    | true =>
      cases hb : (Nat.iterate dropHead n st).bytesMet r with
      | true => exact .inl (settled.granted hm hb ▸ rfl)
      | false =>
        obtain ⟨-, answer⟩ := settled.bytesRefused hm hb
        rw [answer]
        exact .inr (.inr ⟨rfl, _, dropped, rfl⟩)
  · rw [request_bound limit ht]
    by_cases hn : r.wantRecord = true ∧ 4096 ≤ st.list.length
    · rw [requestBound_refused hn]
      exact .inr (.inl ⟨rfl, hn.1, 0, rfl⟩)
    · rcases Nat.lt_or_ge (st.freeRoom r.lane) r.bytes with hb | hb
      · rw [requestBound_bytesRefused hn hb]
        exact .inr (.inr ⟨rfl, st, ⟨0, rfl⟩, rfl⟩)
      · exact .inl (by rw [requestBound_granted hn hb])

/-- A lack that refuses the whole request is one of records, and the request wanted one. -/
theorem request_refused {lack : Lack} (h : (st.request limit r).2 = .refused lack) :
    lack = .records ∧ r.wantRecord = true := by
  rcases request_cases st limit r with hg | ⟨hr, wanted, -⟩ | ⟨hb, -⟩
  · exact absurd (hg.symm.trans h) nofun
  · exact ⟨Verdict.refused.inj (h.symm.trans hr), wanted⟩
  · exact absurd (hb.symm.trans h) nofun

/-- A request for bytes alone is granted them or refused them. -/
theorem request_bytes_only (hw : r.wantRecord = false) (hg : (st.request limit r).2 ≠ .granted) :
    (st.request limit r).2 = .bytesRefused (byteLack r.lane) := by
  rcases request_cases st limit r with h | ⟨-, wanted, -⟩ | ⟨h, -⟩
  · exact absurd h hg
  · exact absurd (hw.symm.trans wanted) nofun
  · exact h

end Store
end Sys2Proof.Machine
end

