-- ==== Sys2Proof/Proofs/LaneCompletions.lean ====
section
-- One proof at a time: a stack for every waiting proof of this text would pass the memory limit of the check.
set_option Elab.async false
/-! The end of a pass: fitted, retried, CLIPPED or discarded, and the pair that a second completion commits (R63 to R65,
R67, R69). -/

namespace Sys2Proof.Machine

/-- A place that is not a slot, in the form the statements write it. -/
theorem bne_slot (k : Nat) : (fun i : Nat => i != k) = fun i => decide (i ≠ k) := by
  funext i
  by_cases h : i = k <;> simp [h]

namespace State

variable {s : State} {lane : Lane} {t : Ticket} {j : Job}

/-! ### Tickets by their slots (R54) -/

theorem ticket_slot {i : Nat} (h : s.ticket i = some t) : t.slot = i := by
  simpa using List.find?_some h

theorem mapTicket_ticket (s : State) (i k : Nat) {f : Ticket → Ticket} (hf : ∀ x, (f x).slot = x.slot) :
    (s.mapTicket i f).ticket k = (s.ticket k).map (fun x => if x.slot = i then f x else x) := by
  have kept : (fun x : Ticket => x.slot == k) ∘ (fun x => if x.slot = i then f x else x) =
      fun x => x.slot == k := by
    funext x
    by_cases h : x.slot = i <;> simp [h, hf]
  unfold ticket mapTicket
  rw [List.find?_map, kept]

theorem attach_slot (lane : Lane) (r : LaneResult) (x : Ticket) : (x.attach lane r).slot = x.slot := by
  cases lane <;> rfl

/-- A ticket that leaves takes with it what was changed of it. -/
theorem filter_mapTicket (tickets : List Ticket) (i : Nat) {f : Ticket → Ticket} (hf : ∀ x, (f x).slot = x.slot) :
    (tickets.map (fun x => if x.slot = i then f x else x)).filter (fun x => x.slot ≠ i) =
      tickets.filter (fun x => x.slot ≠ i) := by
  have same : (fun x : Ticket => decide (x.slot ≠ i)) ∘ (fun x => if x.slot = i then f x else x) =
      fun x => decide (x.slot ≠ i) := by
    funext x
    by_cases h : x.slot = i <;> simp [h, hf]
  rw [List.filter_map, same]
  refine (List.map_congr_left fun x hx => ?_).trans (List.map_id' _)
  exact if_neg (by simpa using (List.mem_filter.mp hx).2)

theorem endTicket_whole (s : State) (i : Nat) : s.endTicket i = { s with
    lanes := { s.lanes with tickets := s.lanes.tickets.filter (fun x => x.slot ≠ i) }
    intake := { s.intake with slots := s.intake.slots.modify i (fun y => { y with state := .free }) } } := by
  have same : (fun x : Ticket => x.slot != i) = fun x => decide (x.slot ≠ i) :=
    funext fun x => congrFun (bne_slot i) x.slot
  unfold endTicket
  rw [same]

/-! ### A completion (R65, R67) -/

/-- A lane has completed a ticket, before a commit. -/
def laneDone (s : State) (lane : Lane) (t : Ticket) (target : Nat) (r : LaneResult) : State :=
  { s with
    lanes := { s.lanes.setLane lane { queue := (s.lanes.lane lane).queue.filter (fun k => k ≠ t.slot)
                                      phase := .idle, job := none } with
      tickets := s.lanes.tickets.map (fun x => if x.slot = t.slot then x.attach lane r else x)
      heldReference := s.lanes.referenceAfter lane t r }
    store := s.store.afterResult t.frame lane r
    governor := s.governor.update lane target r.size
    counters := s.counters.countResult lane r }

/-- A lane has completed a ticket that the other lane completed before: the pair is committed and the ticket gone. -/
def pairDone (s : State) (lane : Lane) (t : Ticket) (target : Nat) (r other : LaneResult) : State :=
  { s.laneDone lane t target r with
    lanes := { (s.laneDone lane t target r).lanes with
      tickets := s.lanes.tickets.filter (fun x => x.slot ≠ t.slot) }
    intake := { s.intake with slots := s.intake.slots.modify t.slot (fun x => { x with state := .free }) }
    store := (s.store.afterResult t.frame lane r).commit t.frame t.take t.preroll
      (t.pairData (if lane = .full then r else other) (if lane = .full then other else r)) }

theorem complete_eq (s : State) (lane : Lane) (t : Ticket) (target : Nat) (r : LaneResult) :
    s.complete lane t target r = (s.laneDone lane t target r).commitIfDone t.slot := by
  unfold complete laneDone
  simp only [bne_slot]
  cases lane <;> rfl

theorem laneDone_ticket (h : s.ticket t.slot = some t) (lane : Lane) (target : Nat) (r : LaneResult) :
    (s.laneDone lane t target r).ticket t.slot = some (t.attach lane r) := by
  refine (s.mapTicket_ticket t.slot t.slot (attach_slot lane r)).trans ?_
  rw [h, Option.map_some, if_pos rfl]

/-- The other lane has still to complete the ticket. -/
theorem complete_waits (h : s.ticket t.slot = some t) (ho : t.result (otherLane lane) = none) (target : Nat)
    (r : LaneResult) : s.complete lane t target r = s.laneDone lane t target r := by
  rw [complete_eq]
  unfold commitIfDone
  rw [laneDone_ticket h]
  cases lane with
  | full => simp only [Ticket.attach, show t.proxyResult = none from ho]
  | proxy => simp only [Ticket.attach, show t.fullResult = none from ho]

/-- The other lane has completed it. -/
theorem complete_commits {other : LaneResult} (h : s.ticket t.slot = some t)
    (ho : t.result (otherLane lane) = some other) (target : Nat) (r : LaneResult) :
    s.complete lane t target r = s.pairDone lane t target r other := by
  have gone := filter_mapTicket s.lanes.tickets t.slot (attach_slot lane r)
  rw [complete_eq]
  unfold commitIfDone
  rw [laneDone_ticket h]
  cases lane with
  | full =>
    simp only [Ticket.attach, show t.proxyResult = some other from ho, endTicket_whole]
    unfold pairDone
    rw [← gone]
    rfl
  | proxy =>
    simp only [Ticket.attach, show t.fullResult = some other from ho, endTicket_whole]
    unfold pairDone
    rw [← gone]
    rfl

/-! ### PRESENT pictures (R60, R64) -/

theorem referenceAfter_present (l : Lanes) (lane : Lane) (t : Ticket) {r : LaneResult} (h : r.state = .present) :
    l.referenceAfter lane t r = if lane = .proxy ∧ t.take ≠ 0#32 then t.take else l.heldReference := by
  cases lane <;> simp [Lanes.referenceAfter, h]

theorem countResult_present (c : Counters) (lane : Lane) {r : LaneResult} (h : r.state = .present) :
    c.countResult lane r = { c with
      clippedF := if lane = .full ∧ r.clipped = true then min 4294967295 (c.clippedF + 1) else c.clippedF
      clippedP := if lane = .proxy ∧ r.clipped = true then min 4294967295 (c.clippedP + 1) else c.clippedP } := by
  cases lane <;> cases hc : r.clipped <;> simp [Counters.countResult, h, hc, bump, satAdd, counterLimit]

theorem afterResult_present (st : Store) (frame : Word) (lane : Lane) {r : LaneResult} (h : r.state = .present) :
    st.afterResult frame lane r = st.shorten frame lane r.size := by
  simp only [Store.afterResult, h]

theorem laneDone_lane (s : State) (lane : Lane) (t : Ticket) (target : Nat) (r : LaneResult) :
    (s.laneDone lane t target r).lanes.lane lane =
      { queue := (s.lanes.lane lane).queue.filter (fun k => k ≠ t.slot), phase := .idle, job := none } := by
  cases lane <;> rfl

theorem laneDone_lane_other (s : State) (lane : Lane) (t : Ticket) (target : Nat) (r : LaneResult) :
    (s.laneDone lane t target r).lanes.lane (otherLane lane) = s.lanes.lane (otherLane lane) := by
  cases lane <;> rfl

theorem commit_area (st : Store) (frame take : Word) (preroll : Bool) (d : PairData) (lane : Lane) :
    (st.commit frame take preroll d).area lane = st.area lane :=
  st.mapRecord_area ..

/-- A commit that leaves each record its take leaves the measure. -/
theorem commit_measured (st : Store) {frame take : Word} (preroll : Bool) (d : PairData)
    (h : ∀ x ∈ st.list, x.frame = frame → x.take = take) :
    (st.commit frame take preroll d).measured = st.measured := by
  refine st.measured_map _ (fun x hx => ?_) (fun x _ l => ?_)
  · split
    · simp [PairRecord.bound, h x hx ‹_›]
    · rfl
  · split
    · cases l <;> rfl
    · rfl

/-! ### The ends of the passes (R63, R64, R69) -/

/-- The end of a job that is not the lane's is discarded (R69, log 3). -/
theorem exec_passEnd_abandoned {tag : Nat} (size : Nat)
    (h : ∀ j, (s.lanes.lane lane).job = some j → j.tag ≠ tag) :
    exec (.pass1End lane tag size) s = .next s ∧ exec (.pass2End lane tag size) s = .next s := by
  have noJob (phase : JobPhase) : s.runningJob lane phase tag = none := by
    cases hj : (s.lanes.lane lane).job with
    | none => simp [runningJob, hj]
    | some j => simp [runningJob, hj, h j hj]
  simp only [exec, execPass1End, execPass2End, noJob, and_self]

theorem runningJob_eq {phase : JobPhase} (hj : (s.lanes.lane lane).job = some j)
    (hp : (s.lanes.lane lane).phase = phase) (ht : s.ticket j.slot = some t) :
    s.runningJob lane phase j.tag = some (j, t) := by
  simp [runningJob, hj, hp, ht]

theorem padded_pos {size : Nat} (h : 0 < size) : padded size = (size + 255) / 256 * 256 := by
  rw [padded, Nat.max_eq_left h]

section PassEnd

variable {size : Nat} (hs : 0 < size) (hj : (s.lanes.lane lane).job = some j) (ht : s.ticket j.slot = some t)
include hs hj ht

theorem exec_pass1End_fits (hp : (s.lanes.lane lane).phase = .pass1) (hf : (size + 255) / 256 * 256 ≤ j.cap) :
    exec (.pass1End lane j.tag size) s = .next (s.complete lane t j.target
      { state := .present, size := (size + 255) / 256 * 256, q := j.q, clipped := false }) := by
  simp only [exec, execPass1End, runningJob_eq hj hp ht, endPass1, padded_pos hs, if_pos hf]
  rfl

theorem exec_pass1End_retries (hp : (s.lanes.lane lane).phase = .pass1) (hf : j.cap < (size + 255) / 256 * 256)
    (hq : j.q < 63) : exec (.pass1End lane j.tag size) s =
      .next (s.setLane lane { s.lanes.lane lane with phase := .pass2 }) := by
  simp only [exec, execPass1End, runningJob_eq hj hp ht, endPass1, padded_pos hs, if_neg (Nat.not_le_of_lt hf),
    if_pos hq]

theorem exec_pass1End_clips (hp : (s.lanes.lane lane).phase = .pass1) (hf : j.cap < (size + 255) / 256 * 256)
    (hq : 63 ≤ j.q) : exec (.pass1End lane j.tag size) s = .next (s.complete lane t j.target
      { state := .present, size := j.cap, q := 63, clipped := true }) := by
  simp only [exec, execPass1End, runningJob_eq hj hp ht, endPass1, padded_pos hs, if_neg (Nat.not_le_of_lt hf),
    if_neg (Nat.not_lt_of_le hq)]
  rfl

theorem exec_pass2End_fits (hp : (s.lanes.lane lane).phase = .pass2) (hf : (size + 255) / 256 * 256 ≤ j.cap) :
    exec (.pass2End lane j.tag size) s = .next (s.complete lane t j.target
      { state := .present, size := (size + 255) / 256 * 256, q := j.retryQ, clipped := false }) := by
  simp only [exec, execPass2End, runningJob_eq hj hp ht, endPass2, padded_pos hs, if_pos hf]
  rfl

theorem exec_pass2End_clips (hp : (s.lanes.lane lane).phase = .pass2) (hf : j.cap < (size + 255) / 256 * 256) :
    exec (.pass2End lane j.tag size) s = .next (s.complete lane t j.target
      { state := .present, size := j.cap, q := j.retryQ, clipped := true }) := by
  simp only [exec, execPass2End, runningJob_eq hj hp ht, endPass2, padded_pos hs, if_neg (Nat.not_le_of_lt hf)]
  rfl

end PassEnd
end State

/-- Settles O46: every end of a pass but the retry is a completion, and one that waits for the other lane leaves the
state `laneDone`. -/
theorem passEnds : Obligations.PassEnds := by
  intro s lane tag size hs
  refine ⟨State.exec_passEnd_abandoned size, ?_⟩
  rintro j t hj rfl ht ho padded ended fits clips
  have slot := State.ticket_slot ht
  have whole (r : LaneResult) : s.complete lane t j.target r = s.laneDone lane t j.target r :=
    State.complete_waits (slot ▸ ht) ho j.target r
  have completes (r : LaneResult) (hr : r.state = .present) {o : Host.Outcome State Fault Refusal}
      (h : o = .next (s.complete lane t j.target r)) : ended r o := by
    have store : (s.laneDone lane t j.target r).store = s.store.shorten t.frame lane r.size :=
      State.afterResult_present _ _ _ hr
    refine ⟨_, h.trans (congrArg _ (whole r)), slot ▸ s.laneDone_lane .., s.laneDone_lane_other .., slot ▸ rfl,
      State.referenceAfter_present _ _ _ hr, rfl, State.countResult_present _ _ hr, ?_, ?_, ?_, ?_,
      rfl, rfl, rfl, rfl, rfl, rfl⟩
    · rw [store]
      exact Store.shorten_list ..
    · rw [store, Store.shorten_area_other]
    · intro before later x e hl hx hb he
      rw [store]
      exact ⟨Store.shorten_area_tail lane r.size hl hx hb he, Store.shorten_area_slack lane r.size hl hx hb⟩
    · rw [store]
      exact Store.shorten_pressure ..
  refine ⟨fun hp => ⟨fun hf => ?_, fun hf hq => ?_, fun hf hq => ?_⟩, fun hp => ⟨fun hf => ?_, fun hf => ?_⟩⟩
  · exact completes (fits j.q) rfl (State.exec_pass1End_fits hs hj ht hp hf)
  · exact State.exec_pass1End_retries hs hj ht hp hf hq
  · exact completes (clips 63) rfl (State.exec_pass1End_clips hs hj ht hp hf hq)
  · exact completes (fits j.retryQ) rfl (State.exec_pass2End_fits hs hj ht hp hf)
  · exact completes (clips j.retryQ) rfl (State.exec_pass2End_clips hs hj ht hp hf)

/-- Settles O47: the end of a pass, as the second completion of its ticket, leaves the state `pairDone`. -/
theorem pairCommits : Obligations.PairCommits := by
  intro s lane j t size other hs hj ht ho padded commits fits clips
  have slot := State.ticket_slot ht
  have whole (r : LaneResult) : s.complete lane t j.target r = s.pairDone lane t j.target r other :=
    State.complete_commits (slot ▸ ht) ho j.target r
  have completes (r : LaneResult) (hr : r.state = .present) {o : Host.Outcome State Fault Refusal}
      (h : o = .next (s.complete lane t j.target r)) : commits r o := by
    let data := t.pairData (if lane = .full then r else other) (if lane = .full then other else r)
    have store : (s.pairDone lane t j.target r other).store =
        (s.store.shorten t.frame lane r.size).commit t.frame t.take t.preroll data :=
      congrArg (Store.commit · t.frame t.take t.preroll data) (State.afterResult_present _ _ _ hr)
    have area (l : Lane) : (s.pairDone lane t j.target r other).store.area l =
        (s.store.shorten t.frame lane r.size).area l := by
      rw [store, State.commit_area]
    refine ⟨_, h.trans (congrArg _ (whole r)), slot ▸ rfl, slot ▸ s.laneDone_lane lane t j.target r,
      s.laneDone_lane_other lane t j.target r, State.referenceAfter_present _ _ _ hr, ?_, ?_, ?_, ?_, ?_, ?_⟩
    · rw [store]
      show (s.store.shorten t.frame lane r.size).list.map _ = _
      rw [Store.shorten_list, List.map_map]
      refine List.map_congr_left fun x _ => ?_
      by_cases hx : x.frame = t.frame
      · cases lane <;> simp [PairRecord.cutTo, PairRecord.setExtent, hx, data, Ticket.pairData]
      · simp [PairRecord.cutTo, hx]
    · rw [area, Store.shorten_area_other]
    · intro before later x e hl hx hb he
      rw [area]
      exact ⟨Store.shorten_area_tail lane r.size hl hx hb he, Store.shorten_area_slack lane r.size hl hx hb⟩
    · rw [store]
      rfl
    · intro takes
      rw [store, State.commit_measured _ _ _ ?_]
      · rfl
      · rw [Store.shorten_list]
        refine List.forall_mem_map.mpr fun x hx => ?_
        unfold PairRecord.cutTo
        split
        · cases lane <;> exact takes x hx
        · exact takes x hx
    · rw [← slot, ← State.countResult_present s.counters lane hr]
      rfl
  refine ⟨fun hp => ⟨fun hf => ?_, fun hf hq => ?_⟩, fun hp => ⟨fun hf => ?_, fun hf => ?_⟩⟩
  · exact completes (fits j.q) rfl (State.exec_pass1End_fits hs hj ht hp hf)
  · exact completes (clips 63) rfl (State.exec_pass1End_clips hs hj ht hp hf hq)
  · exact completes (fits j.retryQ) rfl (State.exec_pass2End_fits hs hj ht hp hf)
  · exact completes (clips j.retryQ) rfl (State.exec_pass2End_clips hs hj ht hp hf)

end Sys2Proof.Machine
end

