-- ==== Sys2Proof/Proofs/ReservationFailures.lean ====
section
-- One proof at a time: a stack for every waiting proof of this text would pass the memory limit of the check.
set_option Elab.async false
/-! A ticket that goes for want of a reservation, and what it takes along (R58, R59, R60, R104). -/

namespace Sys2Proof.Machine

/-! ### The lanes without a ticket (R59) -/

theorem LaneState.without_queue (x : LaneState) (i : Nat) :
    (x.without i).queue = x.queue.filter (fun k => k ≠ i) := by
  unfold LaneState.without
  rw [bne_slot]

theorem LaneState.without_mine {x : LaneState} {i : Nat} {j : Job} (hj : x.job = some j) (hs : j.slot = i) :
    (x.without i).phase = .idle ∧ (x.without i).job = none := by
  simp [LaneState.without, hj, hs]

theorem LaneState.without_others {x : LaneState} {i : Nat} (h : ∀ j, x.job = some j → j.slot ≠ i) :
    (x.without i).phase = x.phase ∧ (x.without i).job = x.job := by
  cases hj : x.job with
  | none => simp [LaneState.without, hj]
  | some j => simp [LaneState.without, hj, h j hj]

theorem LaneState.without_idle {x : LaneState} (i : Nat) (h : x.phase = .idle) : (x.without i).phase = .idle := by
  simp [LaneState.without, h]

/-- An idle lane loses the ticket at its head. -/
theorem LaneState.without_head {x : LaneState} {i : Nat} {rest : List Nat} (hp : x.phase = .idle)
    (hj : x.job = none) (hq : x.queue = i :: rest) :
    x.without i = { queue := rest.filter (fun k => k ≠ i), phase := .idle, job := none } := by
  unfold LaneState.without
  simp only [bne_slot, hp, hj, hq, ite_self]
  simp

theorem behind_head (i : Nat) (rest : List Nat) : behind i (i :: rest) = rest := by
  simp [behind]

theorem behind_eq (i : Nat) (queue : List Nat) : behind i queue =
    if i ∈ queue then (queue.dropWhile (fun k => decide (k ≠ i))).drop 1 else queue := by
  simp only [behind, bne_slot, List.contains_iff_mem]

/-- A ticket to which a reserved record belongs (R57). -/
def Ticket.withRecord (x : Ticket) : Ticket :=
  { x with hasRecord := true }

namespace State

variable {s u : State} {t : Ticket}

/-! ### A dropped ticket, and the loss shown (R58, R59) -/

theorem dropTicket_whole (s : State) (t : Ticket) : s.dropTicket t = { s with
    lanes := {
      tickets := s.lanes.tickets.filter (fun x => x.slot ≠ t.slot)
      full := s.lanes.full.without t.slot
      proxy := s.lanes.proxy.without t.slot
      heldReference := if t.take ≠ 0#32 ∧ t.proxyResult.map LaneResult.state = some .present then 0#32
        else s.lanes.heldReference }
    store := if t.hasRecord = true then s.store.release t.frame else s.store
    intake := { s.intake with slots := s.intake.slots.modify t.slot (fun y => { y with state := .free }) } } := by
  unfold dropTicket
  rw [endTicket_whole]
  cases hr : t.proxyResult with
  | none => simp
  | some r => simp [and_comm]

/-- The ticket that shows the loss of another: the first behind it of its take. -/
theorem nextOfTake_eq (s : State) (t : Ticket) : s.nextOfTake t =
    (behind t.slot s.lanes.full.queue).find? (fun k => (s.ticket k).map Ticket.take = some t.take) := by
  unfold nextOfTake
  refine congrArg (List.find? · _) (funext fun k => ?_)
  cases s.ticket k with
  | none => rfl
  | some x => by_cases h : x.take = t.take <;> simp [h]

theorem showLoss_whole (s : State) (t : Ticket) : s.showLoss t = { s with lanes := { s.lanes with
    tickets := s.lanes.tickets.map (fun x =>
      if s.nextOfTake t = some x.slot then { x with gap := min 65535 (x.gap + 1) } else x) } } := by
  unfold showLoss
  cases s.nextOfTake t with
  | none => simp
  | some k => simp [mapTicket, satAdd, eq_comm]

theorem reportFault_record (h : u.faultRecord = s.faultRecord) (c : FaultClass) (f k d : Word) :
    (u.reportFault c f k d).faultRecord = (s.reportFault c f k d).faultRecord := by
  cases hl : s.faultRecord.latch with
  | true => rw [reportFault_held s c f k d hl, reportFault_held u c f k d (h ▸ hl), h]
  | false => simp only [reportFault_free s c f k d hl, reportFault_free u c f k d (h ▸ hl), raise_faultRecord]

/-- A close request leaves no OPEN record of the number, and the mode STANDBY when there was one (R117, R118). -/
theorem closeTake_closes {n : Word} (c : CloseCause) (h : ∃ r ∈ s.takes.table, r.number = n ∧ r.phase = .opened) :
    (s.closeTake n c).board.mode = .standby ∧
      ∀ r ∈ (s.closeTake n c).takes.table, r.number = n → r.phase = .closed := by
  obtain ⟨o, mem, rfl, opened⟩ := h
  obtain ⟨v, takes⟩ := closeTake_table c mem opened
  refine ⟨by rw [closeTake_board c mem opened], ?_⟩
  rw [takes]
  refine List.forall_mem_map.mpr fun x _ hx => ?_
  rw [(onward_close v o.number c).number] at hx
  refine (v.steady_testDrained.phase _).trans ?_
  cases hp : x.phase with
  | opened => rw [← hx, TakeRecord.closeIf_open c hp]
  | closed => rw [TakeRecord.closeIf_closed _ c hp, hp]

/-! ### The failure whole -/

/-- What the failure of a ticket's reservation leaves in `u`, the store aside: the ticket is gone from both lanes, and
counted, or its take closed, the fault reported and the loss shown. -/
structure LosesTicket (s : State) (t : Ticket) (detail : Word) (u : State) : Prop where
  full : u.lanes.full = s.lanes.full.without t.slot
  proxy : u.lanes.proxy = s.lanes.proxy.without t.slot
  heldReference : u.lanes.heldReference =
    (if t.take ≠ 0#32 ∧ t.proxyResult.map LaneResult.state = some .present then 0#32
      else s.lanes.heldReference)
  intake : u.intake = { s.intake with
    slots := s.intake.slots.modify t.slot (fun y => { y with state := .free }) }
  unbound : t.take = 0#32 →
    u.lanes.tickets = s.lanes.tickets.filter (fun x => x.slot ≠ t.slot) ∧
    u.counters = { s.counters with discardedUnbound := min 4294967295 (s.counters.discardedUnbound + 1) } ∧
    u.faultRecord = s.faultRecord ∧ u.takes = s.takes ∧ u.board = s.board
  unbound_link : t.take = 0#32 → u.link = s.link
  bound : t.take ≠ 0#32 →
    u.lanes.tickets = (s.lanes.tickets.filter (fun x => x.slot ≠ t.slot)).map (fun x =>
      if (behind t.slot s.lanes.full.queue).find? (fun k => (s.ticket k).map Ticket.take = some t.take) =
        some x.slot then { x with gap := min 65535 (x.gap + 1) } else x) ∧
    u.counters = s.counters ∧
    u.faultRecord = (s.reportFault .storeOverrun t.frame t.take detail).faultRecord ∧
    ((∃ r ∈ s.takes.table, r.number = t.take ∧ r.phase = .opened) → u.board.mode = .standby ∧
      ∀ r ∈ u.takes.table, r.number = t.take → r.phase = .closed)
  governor : u.governor = s.governor
  cadence : u.cadence = s.cadence
  timecode : u.timecode = s.timecode
  writer : u.writer = s.writer
  aperture : u.aperture = s.aperture
  chain : u.chain = s.chain
  nextTag : u.nextTag = s.nextTag

namespace LosesTicket

variable {detail : Word}

theorem proxy_queue (h : s.LosesTicket t detail u) :
    u.lanes.proxy.queue = s.lanes.proxy.queue.filter (fun k => k ≠ t.slot) :=
  (congrArg LaneState.queue h.proxy).trans (LaneState.without_queue ..)

/-- Of a ticket at the head of the idle full lane. -/
theorem full_head (h : s.LosesTicket t detail u) (hp : s.lanes.full.phase = .idle) (hj : s.lanes.full.job = none)
    {rest : List Nat} (hq : s.lanes.full.queue = t.slot :: rest) :
    u.lanes.full = { queue := rest.filter (fun k => k ≠ t.slot), phase := .idle, job := none } :=
  h.full.trans (LaneState.without_head hp hj hq)

theorem proxy_mine (h : s.LosesTicket t detail u) (j : Job) (hj : s.lanes.proxy.job = some j)
    (hs : j.slot = t.slot) : u.lanes.proxy.phase = .idle ∧ u.lanes.proxy.job = none :=
  h.proxy ▸ LaneState.without_mine hj hs

end LosesTicket

/-- A bound ticket's take is closed, the fault reported and the loss shown. -/
def overrun (s : State) (t : Ticket) (detail : Word) : State :=
  ((s.closeTake t.take .storeOverrun).reportFault .storeOverrun t.frame t.take detail).showLoss t

theorem overrun_beside (s : State) (t : Ticket) (detail : Word) :
    (s.overrun t detail).intake = s.intake ∧ (s.overrun t detail).store = s.store ∧
      (s.overrun t detail).counters = s.counters ∧
      (s.overrun t detail).takes = (s.closeTake t.take .storeOverrun).takes ∧
      (s.overrun t detail).board = (s.closeTake t.take .storeOverrun).board ∧
      (s.overrun t detail).faultRecord = (s.reportFault .storeOverrun t.frame t.take detail).faultRecord := by
  simp [overrun, showLoss_frame, closeTake_frame, reportFault_record (u := s.closeTake _ _) (s := s)]

theorem overrun_lanes (s : State) (t : Ticket) (detail : Word) : (s.overrun t detail).lanes = { s.lanes with
    tickets := s.lanes.tickets.map (fun x =>
      if s.nextOfTake t = some x.slot then { x with gap := min 65535 (x.gap + 1) } else x) } := by
  have lanes : ((s.closeTake t.take .storeOverrun).reportFault .storeOverrun t.frame t.take detail).lanes =
      s.lanes := by
    simp [closeTake_frame]
  have next : ((s.closeTake t.take .storeOverrun).reportFault .storeOverrun t.frame t.take detail).nextOfTake t =
      s.nextOfTake t := by
    simp only [nextOfTake, ticket, lanes]
  rw [overrun, showLoss_whole, next, lanes]

theorem reservationFailure_unbound (h : t.take = 0#32) (lack : Lack) :
    s.reservationFailure t lack = ({ s with counters := { s.counters with
      discardedUnbound := bump s.counters.discardedUnbound } } : State).dropTicket t :=
  if_neg (not_not_intro h)

theorem reservationFailure_bound (h : t.take ≠ 0#32) (lack : Lack) :
    s.reservationFailure t lack = ((s.overrun t lack.detail).dropTicket t).settleDrained :=
  if_pos h

/-- The tickets that stay, one of them marked. -/
theorem filter_gap (tickets : List Ticket) (i : Nat) (next : Option Nat) :
    (tickets.map (fun x => if next = some x.slot then { x with gap := min 65535 (x.gap + 1) } else x)).filter
      (fun x => x.slot ≠ i) = (tickets.filter (fun x => x.slot ≠ i)).map
        (fun x => if next = some x.slot then { x with gap := min 65535 (x.gap + 1) } else x) := by
  rw [List.filter_map]
  refine congrArg _ (List.filter_congr fun x _ => ?_)
  simp only [Function.comp_apply]
  split <;> rfl

theorem reservationFailure_loses (s : State) (t : Ticket) (lack : Lack) :
    s.LosesTicket t lack.detail (s.reservationFailure t lack) := by
  by_cases ht : t.take = 0#32
  · rw [reservationFailure_unbound ht, dropTicket_whole]
    exact ⟨rfl, rfl, rfl, rfl, fun _ => ⟨rfl, rfl, rfl, rfl, rfl⟩, fun _ => rfl, fun h => absurd ht h, rfl, rfl, rfl,
      rfl, rfl, rfl, rfl⟩
  · obtain ⟨hcad, htime, hgov, hwriter, hap, hchain, -, htag, -⟩ := s.reservationFailure_frame t lack
    have whole := reservationFailure_bound (s := s) ht lack
    obtain ⟨intake, -, counters, takes, board, fault⟩ := s.overrun_beside t lack.detail
    have lanes := s.overrun_lanes t lack.detail
    rw [dropTicket_whole, lanes, intake] at whole
    refine ⟨?_, ?_, ?_, ?_, fun h => absurd h ht, fun h => absurd h ht, fun _ => ⟨?_, ?_, ?_, fun ho => ?_⟩, hgov,
      hcad, htime, hwriter, hap, hchain, htag⟩
    · rw [whole]; rfl
    · rw [whole]; rfl
    · rw [whole]; rfl
    · rw [whole]; rfl
    · rw [whole, ← nextOfTake_eq, ← filter_gap]; rfl
    · rw [whole]; exact counters
    · rw [whole]; exact fault
    · obtain ⟨standby, closed⟩ := closeTake_closes .storeOverrun ho
      rw [whole]
      refine ⟨(congrArg Board.mode board).trans standby, List.forall_mem_map.mpr fun r hr hn => ?_⟩
      rw [(steady_testDrained _).number] at hn
      exact ((steady_testDrained _).phase r).trans (closed r (takes ▸ hr) hn)

theorem reservationFailure_store (s : State) (t : Ticket) (lack : Lack) :
    (s.reservationFailure t lack).store = if t.hasRecord = true then s.store.release t.frame else s.store := by
  by_cases ht : t.take = 0#32
  · rw [reservationFailure_unbound ht, dropTicket_whole]
  · obtain ⟨-, store, -⟩ := s.overrun_beside t lack.detail
    rw [reservationFailure_bound ht, settleDrained_store, dropTicket_whole, store]

/-! ### After the store's answer (R57) -/

/-- The store's answer taken, with a record for the ticket in a slot. -/
def reserved (s : State) (i : Nat) (st : Store) : State :=
  ({ s with store := st } : State).mapTicket i Ticket.withRecord

theorem withReservation_granted (s : State) (i : Nat) (st : Store) :
    s.withReservation i st .granted = s.reserved i st := rfl

theorem withReservation_bytesRefused (s : State) (i : Nat) (st : Store) (lack : Lack) :
    s.withReservation i st (.bytesRefused lack) = s.reserved i st := rfl

theorem reserved_ticket (s : State) (i k : Nat) (st : Store) : (s.reserved i st).ticket k =
    (s.ticket k).map (fun x => if x.slot = i then x.withRecord else x) :=
  mapTicket_ticket _ i k fun _ => rfl

theorem withReservation_store (s : State) (i : Nat) (st : Store) (v : Verdict) :
    (s.withReservation i st v).store = st := by
  cases v <;> rfl

/-- The store's answer changes no lane, and of the tickets only whether the one has a record. -/
theorem withReservation_lanes (s : State) (i : Nat) (st : Store) (v : Verdict) :
    (s.withReservation i st v).lanes.full = s.lanes.full ∧ (s.withReservation i st v).lanes.proxy = s.lanes.proxy ∧
      (s.withReservation i st v).lanes.heldReference = s.lanes.heldReference ∧
      (s.withReservation i st v).lanes.tickets.filter (fun x => x.slot ≠ i) =
        s.lanes.tickets.filter (fun x => x.slot ≠ i) ∧
      ∀ k, ((s.withReservation i st v).ticket k).map Ticket.take = (s.ticket k).map Ticket.take := by
  have reserved (k : Nat) : ((s.reserved i st).ticket k).map Ticket.take = (s.ticket k).map Ticket.take := by
    rw [reserved_ticket, Option.map_map]
    refine congrArg (Option.map · _) (funext fun x => ?_)
    simp only [Function.comp_apply]
    split <;> rfl
  cases v with
  | refused lack => exact ⟨rfl, rfl, rfl, rfl, fun _ => rfl⟩
  | granted => exact ⟨rfl, rfl, rfl, filter_mapTicket _ i fun _ => rfl, reserved⟩
  | bytesRefused lack => exact ⟨rfl, rfl, rfl, filter_mapTicket _ i fun _ => rfl, reserved⟩

/-- A ticket that goes by the store's answer goes from the state before it. -/
theorem withReservation_loses (s : State) (t : Ticket) (st : Store) (v : Verdict) (b : Bool) (lack : Lack) :
    s.LosesTicket t lack.detail
      ((s.withReservation t.slot st v).reservationFailure { t with hasRecord := b } lack) := by
  obtain ⟨full, proxy, held, tickets, takes⟩ := s.withReservation_lanes t.slot st v
  obtain ⟨hcad, htime, hint, hgov, htakes, hwriter, hap, hboard, hchain, -, hfault, hcount, -, hlink, htag, -⟩ :=
    s.withReservation_frame t.slot st v
  have gone := (s.withReservation t.slot st v).reservationFailure_loses { t with hasRecord := b } lack
  refine ⟨full ▸ gone.full, proxy ▸ gone.proxy, held ▸ gone.heldReference, hint ▸ gone.intake, fun h => ?_,
    fun h => hlink ▸ gone.unbound_link h, fun h => ?_, hgov ▸ gone.governor, hcad ▸ gone.cadence,
    htime ▸ gone.timecode, hwriter ▸ gone.writer, hap ▸ gone.aperture, hchain ▸ gone.chain, htag ▸ gone.nextTag⟩
  · have counted := gone.unbound h
    rwa [tickets, hcount, hfault, htakes, hboard] at counted
  · obtain ⟨marked, counters, fault, closes⟩ := gone.bound h
    refine ⟨?_, counters.trans hcount, fault.trans (reportFault_record hfault ..), htakes ▸ closes⟩
    rw [marked, tickets, full]
    simp only [takes]

end State
end Sys2Proof.Machine
end

