-- ==== Sys2Proof/Proofs/JobStarts.lean ====
section
-- One proof at a time: a stack for every waiting proof of this text would pass the memory limit of the check.
set_option Elab.async false
/-! JOB_START of either lane: the request it makes, and the outcome by the store's answer (R55 to R62). -/

namespace Sys2Proof.Machine

namespace State

variable {s : State} {lane : Lane} {t : Ticket}

/-! ### The request and its outcome (R55 to R57) -/

/-- What a job start asks of the store. -/
def laneRequest (s : State) (lane : Lane) (t : Ticket) : Request :=
  { frame := t.frame, take := t.take, lane := lane
    bytes := if (s.jobQuantiser lane t).isSome = true then s.cap lane else 0, wantRecord := !t.hasRecord }

/-- What the store answers. -/
def laneAnswer (s : State) (lane : Lane) (t : Ticket) : Store × Verdict :=
  s.store.request (if s.effectiveMode = .recordRun then 0 else min s.takes.profile.preroll 3584)
    (s.laneRequest lane t)

theorem jobStart_eq (s : State) (lane : Lane) (t : Ticket) : s.jobStart lane t =
    (s.withReservation t.slot (s.laneAnswer lane t).1 (s.laneAnswer lane t).2).settleJob lane t
      (s.jobQuantiser lane t) (s.jobOf lane t ((s.jobQuantiser lane t).getD 0) (s.cap lane))
      (s.laneAnswer lane t).2 := by
  rw [laneAnswer, ← recordLimit_eq]
  rfl

theorem exec_jobStart {i : Nat} {rest : List Nat} (hp : (s.lanes.lane lane).phase = .idle)
    (hq : (s.lanes.lane lane).queue = i :: rest) (ht : s.ticket i = some t) :
    exec (.jobStart lane) s = .next (s.jobStart lane t) := by
  have head : s.headTicket lane = some t := by simp only [headTicket, hp, hq, ht]
  simp only [exec, execJobStart, head]

/-- A granted job is the lane's, in PASS_1. -/
def jobStarted (s : State) (lane : Lane) (t : Ticket) (q : Nat) (store : Store) : State :=
  { s with
    store := store
    lanes := ({ s.lanes with
      tickets := s.lanes.tickets.map (fun x =>
        if x.slot = t.slot then { x with hasRecord := true } else x) } : Lanes).setLane
        lane { queue := (s.lanes.lane lane).queue, phase := .pass1, job := some (s.jobOf lane t q (s.cap lane)) }
    nextTag := s.nextTag + 1 }

theorem jobStart_granted {q : Nat} (hq : s.jobQuantiser lane t = some q) (h : (s.laneAnswer lane t).2 = .granted) :
    s.jobStart lane t = s.jobStarted lane t q (s.laneAnswer lane t).1 := by
  rw [jobStart_eq, h, withReservation_granted, hq]
  cases lane <;> rfl

theorem jobStart_held (hq : s.jobQuantiser lane t = none) (h : (s.laneAnswer lane t).2 = .granted) :
    s.jobStart lane t = (s.reserved t.slot (s.laneAnswer lane t).1).complete lane t.withRecord
      (s.governor.stream lane).target (LaneResult.empty .held) := by
  rw [jobStart_eq, h, withReservation_granted, hq]
  rfl

theorem jobStart_absent {lack : Lack} (h : (s.laneAnswer .proxy t).2 = .bytesRefused lack) :
    s.jobStart .proxy t = (s.reserved t.slot (s.laneAnswer .proxy t).1).complete .proxy t.withRecord
      s.governor.proxy.target (LaneResult.empty .absent) := by
  rw [jobStart_eq, h, withReservation_bytesRefused]
  rfl

/-- Refused a record: the ticket goes as it is. -/
theorem jobStart_refused {lack : Lack} (h : (s.laneAnswer lane t).2 = .refused lack) :
    s.LosesTicket t lack.detail (s.jobStart lane t) ∧
      (t.hasRecord = false → (s.jobStart lane t).store = (s.laneAnswer lane t).1) := by
  have whole : s.jobStart lane t =
      (s.withReservation t.slot (s.laneAnswer lane t).1 (.refused lack)).reservationFailure t lack := by
    rw [jobStart_eq, h]
    rfl
  rw [whole]
  refine ⟨s.withReservation_loses t _ _ t.hasRecord lack, fun hr => ?_⟩
  rw [reservationFailure_store, hr, if_neg nofun, withReservation_store]

/-- Refused the full lane's bytes: the ticket goes with the record it has by then. -/
theorem jobStart_full_bytesRefused {lack : Lack} (h : (s.laneAnswer .full t).2 = .bytesRefused lack) :
    s.LosesTicket t lack.detail (s.jobStart .full t) ∧
      (s.jobStart .full t).store = (s.laneAnswer .full t).1.release t.frame := by
  have whole : s.jobStart .full t =
      (s.withReservation t.slot (s.laneAnswer .full t).1 (.bytesRefused lack)).reservationFailure
        { t with hasRecord := true } lack := by
    rw [jobStart_eq, h]
    rfl
  rw [whole]
  refine ⟨s.withReservation_loses t _ _ true lack, ?_⟩
  rw [reservationFailure_store, if_pos rfl, withReservation_store]

/-! ### HELD and ABSENT (R61, R62) -/

theorem reserved_own_ticket (st : Store) (h : s.ticket t.slot = some t) :
    (s.reserved t.slot st).ticket t.withRecord.slot = some t.withRecord := by
  rw [show t.withRecord.slot = t.slot from rfl, reserved_ticket, h, Option.map_some, if_pos rfl]

/-- Two changes of one ticket. -/
theorem map_ticket_twice (tickets : List Ticket) (i : Nat) {f g : Ticket → Ticket}
    (hf : ∀ x, (f x).slot = x.slot) :
    (tickets.map (fun x => if x.slot = i then f x else x)).map (fun x => if x.slot = i then g x else x) =
      tickets.map (fun x => if x.slot = i then g (f x) else x) := by
  rw [List.map_map]
  refine List.map_congr_left fun x _ => ?_
  by_cases h : x.slot = i <;> simp [h, hf]

/-- A proxy result with no picture, the first of its ticket. -/
theorem complete_empty_waits (st : Store) (target : Nat) {state : ProxyState} (hs : state ≠ .present)
    (h : s.ticket t.slot = some t) (ho : t.fullResult = none) :
    (s.reserved t.slot st).complete .proxy t.withRecord target (LaneResult.empty state) = { s with
      lanes := { s.lanes with
        tickets := s.lanes.tickets.map (fun x => if x.slot = t.slot then
          { x with hasRecord := true
                   proxyResult := some { state := state, size := 0, q := 0, clipped := false } }
          else x)
        proxy := { queue := s.lanes.proxy.queue.filter (fun k => k ≠ t.slot), phase := .idle, job := none } }
      store := st
      governor := { s.governor with proxy := s.governor.proxy.update target 0 }
      counters := s.counters.countResult .proxy (LaneResult.empty state) } := by
  have tickets : (s.reserved t.slot st).lanes.tickets.map (fun x =>
      if x.slot = t.slot then x.attach .proxy (LaneResult.empty state) else x) =
      s.lanes.tickets.map (fun x => if x.slot = t.slot then
        { x with hasRecord := true
                 proxyResult := some { state := state, size := 0, q := 0, clipped := false } }
        else x) :=
    map_ticket_twice s.lanes.tickets t.slot (f := Ticket.withRecord) (fun _ => rfl)
  rw [complete_waits (lane := .proxy) (reserved_own_ticket st h) ho, ← tickets]
  cases state with
  | present => exact absurd rfl hs
  | held => rfl
  | absent => rfl

/-- A proxy result with no picture, the second of its ticket: the pair is committed. -/
theorem complete_empty_commits (st : Store) (target : Nat) {state : ProxyState} (hs : state ≠ .present)
    {f : LaneResult} (h : s.ticket t.slot = some t) (ho : t.fullResult = some f) :
    (s.reserved t.slot st).complete .proxy t.withRecord target (LaneResult.empty state) = { s with
      lanes := { s.lanes with
        tickets := s.lanes.tickets.filter (fun x => x.slot ≠ t.slot)
        proxy := { queue := s.lanes.proxy.queue.filter (fun k => k ≠ t.slot), phase := .idle, job := none } }
      intake := { s.intake with slots := s.intake.slots.modify t.slot (fun x => { x with state := .free }) }
      store := st.commit t.frame t.take t.preroll (t.pairData f (LaneResult.empty state))
      governor := { s.governor with proxy := s.governor.proxy.update target 0 }
      counters := s.counters.countResult .proxy (LaneResult.empty state) } := by
  rw [complete_commits (lane := .proxy) (reserved_own_ticket st h) ho, ← filter_mapTicket s.lanes.tickets t.slot
    (f := Ticket.withRecord) (fun _ => rfl)]
  cases state with
  | present => exact absurd rfl hs
  | held => rfl
  | absent => rfl

/-! ### The full lane (R55 to R59) -/

/-- A full job start that finds no record of its frame number and is not granted: the ticket goes, and of the list only
what a reservation for it had appended. -/
theorem jobStart_full_unreserved (hr : t.hasRecord = false) (hn : ∀ x ∈ s.store.list, x.frame ≠ t.frame)
    (hg : (s.laneAnswer .full t).2 ≠ .granted) : ∃ lack : Lack, s.LosesTicket t lack.detail (s.jobStart .full t) ∧
      (s.jobStart .full t).store.list = (s.laneAnswer .full t).1.list.filter (fun x => x.frame ≠ t.frame) := by
  have dropped (n : Nat) : ∀ x ∈ s.store.list.drop n, x.frame ≠ t.frame := fun x hx => hn x (List.mem_of_mem_drop hx)
  rcases Store.request_cases s.store (if s.effectiveMode = .recordRun then 0 else min s.takes.profile.preroll 3584)
    (s.laneRequest .full t) with h | ⟨h, -, n, list⟩ | ⟨h, x, ⟨n, hx⟩, list⟩
  · exact absurd h hg
  · obtain ⟨gone, store⟩ := jobStart_refused h
    refine ⟨_, gone, ?_⟩
    rw [store hr, show (s.laneAnswer .full t).1.list = _ from list]
    exact (List.filter_eq_self.mpr fun y hy => by simpa using dropped n y hy).symm
  · obtain ⟨gone, store⟩ := jobStart_full_bytesRefused h
    refine ⟨_, gone, ?_⟩
    have appended : (s.laneAnswer .full t).1.list = x.list ++ [PairRecord.fresh t.frame t.take] :=
      list.trans (congrArg Store.list (x.addRecord_wanted (by simp [laneRequest, hr])))
    have before : ∀ y ∈ x.list, y.frame ≠ t.frame := hx ▸ dropped n
    rw [store, Store.release_fresh appended before, appended, List.filter_append,
      List.filter_eq_self.mpr fun y hy => by simpa using before y hy]
    simp [PairRecord.fresh, Store.refresh]

end State

open State in
/-- Settles O44: the request's laws are those of the store, and each outcome of a job start is read off the store's
answer: the job started, or what `LosesTicket` says. -/
theorem fullJobStart : Obligations.FullJobStart := by
  refine ⟨?_, ?_, ?_, ?_⟩
  -- A ticket that holds a record.
  · intro s t i rest hp hj hq ht hr cap answer freed
    obtain rfl := ticket_slot ht
    have asks : s.laneAnswer .full t = answer := by
      simp only [laneAnswer, laneRequest, hr]
      rfl
    have started := exec_jobStart (lane := .full) hp hq ht
    refine ⟨fun hb room => ?_, fun hb pos room => ?_, fun hg => ?_, fun before later x hg hl hx hbefore => ?_⟩
    · exact (Store.request_bound _ hb).trans (Store.requestBound_bytesRefused nofun room)
    · have granted : answer = _ := (Store.request_bound _ hb).trans (Store.requestBound_granted nofun room)
      rw [granted, Store.addRecord_unwanted rfl, Store.place_bytes pos]
      exact ⟨rfl, rfl, rfl, rfl, rfl⟩
    · rw [started, jobStart_granted rfl (asks ▸ hg), asks]
      rfl
    · have notGranted : (s.laneAnswer .full t).2 ≠ .granted := asks ▸ hg
      have refused : (s.laneAnswer .full t).2 = .bytesRefused .fullBytes :=
        Store.request_bytes_only (by simp [laneRequest, hr]) notGranted
      obtain ⟨gone, store⟩ := jobStart_full_bytesRefused refused
      rw [asks, Store.release_of_split hl hx hbefore] at store
      have bound := gone.bound
      rw [hq, behind_head] at bound
      refine ⟨_, started, ?_, ?_, ?_, ?_, gone.heldReference, gone.full_head hp hj hq, gone.proxy_queue,
        gone.proxy_mine, ?_, gone.intake, gone.unbound, bound, gone.governor, gone.cadence, gone.timecode, gone.writer,
        gone.aperture, gone.chain, gone.nextTag⟩
      · rw [store]; rfl
      · rw [store]; rfl
      · rw [store]; rfl
      · rw [store]; rfl
      · rw [gone.proxy]; exact LaneState.without_others
  -- A bound request (R97), and what a reservation writes.
  · intro st limit r noRecord reserved
    refine ⟨fun hb hn => (Store.request_bound limit hb).trans (Store.requestBound_refused hn),
      fun hb hn room => (Store.request_bound limit hb).trans (Store.requestBound_granted hn room),
      fun hb hn room => (Store.request_bound limit hb).trans (Store.requestBound_bytesRefused hn room),
      Store.addRecord_unwanted, Store.addRecord_wanted, Store.place_nothing, fun pos hl => ?_, fun pos hl => ?_⟩
    · rw [Store.place_bytes pos, hl]; rfl
    · rw [Store.place_bytes pos, hl]; rfl
  -- An unbound request (R98, R99).
  · intro st limit r hu met fits evictable
    obtain ⟨n, hn, before, settled⟩ := Store.takeUnbound_settles limit r _ st (Nat.le_refl _)
    have notEvictable {x : Store} (h : x.headEvictable = false) : ¬ evictable x := fun he =>
      absurd (h.symm.trans (Store.headEvictable_iff.mpr he)) nofun
    refine ⟨n, hn, fun k hk => ?_, ?_⟩
    · obtain ⟨evicts, unmet⟩ := before k hk
      refine ⟨Store.headEvictable_iff.mp evicts, fun both => ?_⟩
      rw [Store.recordMet_iff.mpr both.1, Store.bytesMet_iff.mpr both.2] at unmet
      exact absurd unmet nofun
    · rw [Store.request_unbound limit hu]
      refine ⟨fun hm hf => settled.granted (Store.recordMet_iff.mpr hm) (Store.bytesMet_iff.mpr hf), fun hm => ?_,
        fun hm hf => ?_⟩
      · obtain ⟨he, answer⟩ := settled.refused (Bool.eq_false_iff.mpr fun h => hm (Store.recordMet_iff.mp h))
        exact ⟨notEvictable he, answer⟩
      · obtain ⟨he, answer⟩ := settled.bytesRefused (Store.recordMet_iff.mpr hm)
          (Bool.eq_false_iff.mpr fun h => hf (Store.bytesMet_iff.mp h))
        exact ⟨notEvictable he, answer⟩
  -- A ticket without a record.
  · intro s t i rest hp hj hq ht hr hn target cap pos started
    obtain rfl := ticket_slot ht
    have run := exec_jobStart (lane := .full) hp hq ht
    have begins (hg : (s.laneAnswer .full t).2 = .granted) :
        exec (.jobStart .full) s = .next (started (s.laneAnswer .full t).1) :=
      run.trans (congrArg _ (jobStart_granted rfl hg))
    constructor
    · intro hu answer
      have asks : s.laneAnswer .full t = answer := by
        simp only [laneAnswer, laneRequest, hr, hu]
        rfl
      rw [← asks]
      refine ⟨begins, fun hg => ?_⟩
      obtain ⟨lack, gone, list⟩ := jobStart_full_unreserved hr hn hg
      obtain ⟨tickets, counters, fault, takes, board⟩ := gone.unbound hu
      exact ⟨_, run, tickets, congrArg LaneState.queue (gone.full_head hp hj hq), gone.proxy_queue,
        gone.intake, list, counters, fault, takes, board, gone.governor, gone.timecode, gone.writer, gone.unbound_link hu⟩
    · intro hb lost
      have loses {detail : Word} (gone : s.LosesTicket t detail (s.jobStart .full t)) :
          lost detail (s.jobStart .full t) := by
        obtain ⟨tickets, counters, fault, closes⟩ := gone.bound hb
        rw [hq, behind_head] at tickets
        exact ⟨run, tickets, congrArg LaneState.queue (gone.full_head hp hj hq), gone.proxy_queue, gone.proxy_mine,
          gone.intake, fault, closes, gone.governor, counters, gone.cadence, gone.timecode, gone.writer, gone.nextTag⟩
      have wanted : (s.laneRequest .full t).wantRecord = true := by simp [laneRequest, hr]
      have appended : s.store.addRecord (s.laneRequest .full t) =
          { s.store with list := s.store.list ++ [PairRecord.fresh t.frame t.take] } :=
        Store.addRecord_wanted wanted
      refine ⟨fun many => ?_, fun few room => ?_, fun few room => ?_⟩
      · have answer : s.laneAnswer .full t = (s.store, .refused .records) :=
          (Store.request_bound _ hb).trans (Store.requestBound_refused ⟨wanted, many⟩)
        obtain ⟨gone, store⟩ := jobStart_refused (congrArg Prod.snd answer)
        exact ⟨_, loses gone, (store hr).trans (congrArg Prod.fst answer)⟩
      · have answer : s.laneAnswer .full t = (_, .bytesRefused .fullBytes) := (Store.request_bound _ hb).trans
          (Store.requestBound_bytesRefused (fun h => absurd h.2 (Nat.not_le_of_lt few)) room)
        obtain ⟨gone, store⟩ := jobStart_full_bytesRefused (congrArg Prod.snd answer)
        rw [answer, appended, Store.release_fresh (before := s.store.list) rfl hn] at store
        refine ⟨_, loses gone, ?_⟩
        rw [store]
        exact ⟨rfl, rfl, rfl⟩
      · have answer : s.laneAnswer .full t = (_, .granted) := (Store.request_bound _ hb).trans
          (Store.requestBound_granted (fun h => absurd h.2 (Nat.not_le_of_lt few)) room)
        refine ⟨_, ?_, ?_, ?_, ?_, begins (congrArg Prod.snd answer)⟩
        · rw [answer, appended, Store.place_bytes pos]
          exact Store.mapRecord_appended hn rfl _
        · rw [answer, appended, Store.place_bytes pos]; rfl
        · rw [answer, appended, Store.place_bytes pos]; rfl
        · rw [answer]; rfl

end Sys2Proof.Machine
end

