-- ==== Sys2Proof/Proofs/ProxyJobStarts.lean ====
section
-- One proof at a time: a stack for every waiting proof of this text would pass the memory limit of the check.
set_option Elab.async false
/-! JOB_START of the proxy lane: HELD, a job at min(A, 63), ABSENT, or the failure for want of a record (R57 to R62, R66,
R82). -/

namespace Sys2Proof.Machine

theorem ProxyScale.factor_eq (x : ProxyScale) : x.factor = if x = .half then 2 else 4 := by
  cases x <;> rfl

namespace State

variable {s : State} {t : Ticket}

/-- The job start is asked to repeat the picture before: A above 70, and the HELD reference on the ticket's take. -/
def repeatsProxy (s : State) (t : Ticket) : Prop :=
  70 < s.governor.proxy.q + 8 * s.store.pressure ∧ t.take ≠ 0#32 ∧ s.lanes.heldReference = t.take

theorem jobQuantiser_repeats (h : s.repeatsProxy t) : s.jobQuantiser .proxy t = none := by
  obtain ⟨high, repeats⟩ := h
  have answer : proxyAnswer s.governor.proxy.q s.store.pressure = none := by
    simp only [proxyAnswer, if_neg (show ¬ s.governor.proxy.q + 8 * s.store.pressure ≤ 63 by omega),
      if_neg (Nat.not_le_of_lt high)]
  simp only [jobQuantiser, answer, if_pos repeats]

theorem jobQuantiser_runs (h : ¬ s.repeatsProxy t) :
    s.jobQuantiser .proxy t = some (min (s.governor.proxy.q + 8 * s.store.pressure) 63) := by
  unfold jobQuantiser proxyAnswer
  rcases Nat.lt_or_ge 63 (s.governor.proxy.q + 8 * s.store.pressure) with above | within
  · rw [Nat.min_eq_right (Nat.le_of_lt above)]
    rcases Nat.lt_or_ge 70 (s.governor.proxy.q + 8 * s.store.pressure) with high | low
    · simp [Nat.not_le_of_lt above, Nat.not_le_of_lt high,
        show ¬ (t.take ≠ 0#32 ∧ s.lanes.heldReference = t.take) from fun repeats => h ⟨high, repeats⟩]
    · simp [Nat.not_le_of_lt above, low]
  · simp [within]

/-- A proxy job start asks for no bytes when it repeats, and else for the cap (R60, R61). -/
theorem laneRequest_proxy {bytes : Nat} (held : s.repeatsProxy t → bytes = 0)
    (runs : ¬ s.repeatsProxy t → bytes = s.cap .proxy) : s.laneRequest .proxy t =
      { frame := t.frame, take := t.take, lane := .proxy, bytes := bytes, wantRecord := !t.hasRecord } := by
  by_cases h : s.repeatsProxy t
  · simp [laneRequest, jobQuantiser_repeats h, held h]
  · simp [laneRequest, jobQuantiser_runs h, runs h]

theorem jobOf_proxy (s : State) (t : Ticket) (q cap : Nat) : s.jobOf .proxy t q cap =
    { slot := t.slot, tag := s.nextTag, q := q, retryQ := min (q + 8) 63, cap := cap
      target := s.governor.proxy.target
      width := t.width / (if s.takes.profile.scale = .half then 2 else 4) / 16 * 16
      height := t.height / (if s.takes.profile.scale = .half then 2 else 4) / 16 * 16 } := by
  rw [← ProxyScale.factor_eq]
  rfl

end State

open State in
/-- Settles O45: by the store's answer HELD or ABSENT, a completion with no picture; a job; or what `LosesTicket` says.
What a bound ticket with a record meets follows from it, its request judged by the room alone (R97). -/
theorem proxyJobStart : Obligations.ProxyJobStart := by
  refine (and_iff_left_of_imp fun every => ?_).mpr ?_
  · intro s t i rest hp hq ht hb hr ho a target cap factor ended
    have bound (bytes : Nat) := Store.request_bound (st := s.store)
      (r := { frame := t.frame, take := t.take, lane := .proxy, bytes := bytes, wantRecord := !t.hasRecord })
      (if s.effectiveMode = .recordRun then 0 else min s.takes.profile.preroll 3584) hb
    have unwanted : ¬ ((!t.hasRecord) = true ∧ 4096 ≤ s.store.list.length) := by simp [hr]
    refine ⟨fun high held => ?_, fun other => ?_⟩
    · have answer := (bound 0).trans (Store.requestBound_granted unwanted (Nat.zero_le _))
      rw [Store.addRecord_unwanted (by simp [hr]), Store.place_nothing rfl] at answer
      have repeats : s.repeatsProxy t := ⟨high, hb, held⟩
      obtain ⟨heldEnds, -⟩ := every s t i rest hp hq ht 0 (fun _ => rfl) (fun h => absurd repeats h)
      have done := (heldEnds (congrArg Prod.snd answer) repeats).1 ho
      rw [answer] at done
      exact done
    · have runs : ¬ s.repeatsProxy t := fun repeats => by
        obtain ⟨high, -, held⟩ := repeats
        exact other.elim (Nat.not_le_of_lt high) (· held)
      obtain ⟨-, job, absent, -⟩ := every s t i rest hp hq ht cap (fun h => absurd h runs) (fun _ => rfl)
      refine ⟨fun room => ?_, fun room => ?_⟩
      · have answer := (bound cap).trans (Store.requestBound_bytesRefused unwanted room)
        rw [Store.addRecord_unwanted (by simp [hr])] at answer
        have done := (absent _ (congrArg Prod.snd answer)).1 ho
        rw [answer] at done
        exact done
      · have answer := (bound cap).trans (Store.requestBound_granted unwanted room)
        rw [Store.addRecord_unwanted (by simp [hr])] at answer
        have started := job (congrArg Prod.snd answer) runs
        rw [answer] at started
        refine ⟨_, started, rfl, ?_, fun pos => ?_⟩
        · rcases Nat.eq_zero_or_pos cap with none | pos
          · rw [Store.place_nothing none]; rfl
          · rw [Store.place_bytes pos]; rfl
        · rw [Store.place_bytes pos]
          exact ⟨rfl, rfl⟩
  · intro s t i rest hp hq ht a target cap factor repeats bytes noBytes allBytes answer ended paired completes
    obtain rfl := ticket_slot ht
    have asks : s.laneAnswer .proxy t = answer := by
      rw [laneAnswer, laneRequest_proxy noBytes allBytes]
    have run := exec_jobStart (lane := .proxy) hp hq ht
    have done {state : ProxyState} (hs : state ≠ .present) (h : s.jobStart .proxy t =
        (s.reserved t.slot (s.laneAnswer .proxy t).1).complete .proxy t.withRecord target
          (LaneResult.empty state)) :
        completes state (s.counters.countResult .proxy (LaneResult.empty state)) := by
      rw [asks] at h
      refine ⟨fun ho => ?_, fun f ho => ?_⟩
      · rw [run, h, complete_empty_waits _ _ hs ht ho]
      · rw [run, h, complete_empty_commits _ _ hs ht ho]
        rfl
    refine ⟨fun hg hr => ?_, fun hg hr => ?_, fun lack h => ?_, fun lack h => ?_⟩
    · exact done nofun (jobStart_held (jobQuantiser_repeats hr) (asks ▸ hg))
    · rw [run, jobStart_granted (jobQuantiser_runs hr) (asks ▸ hg), asks, jobStarted, jobOf_proxy]
      rfl
    · exact done nofun (jobStart_absent (asks ▸ h))
    · obtain ⟨rfl, wanted⟩ := Store.request_refused h
      have noRecord : t.hasRecord = false := by simpa using wanted
      have refused : (s.laneAnswer .proxy t).2 = .refused .records := asks ▸ h
      obtain ⟨gone, store⟩ := jobStart_refused refused
      have bound := gone.bound
      rw [behind_eq] at bound
      refine ⟨rfl, noRecord, _, run, (store noRecord).trans (congrArg Prod.fst asks), ?_, ?_, ?_, ?_, ?_,
        gone.heldReference, gone.intake, gone.unbound, bound, gone.governor, gone.cadence, gone.timecode, gone.writer,
        gone.nextTag⟩
      · rw [gone.proxy, LaneState.without_queue, hq]
        simp
      · rw [gone.proxy]
        exact LaneState.without_idle t.slot hp
      · rw [gone.full, LaneState.without_queue]
      · rw [gone.full]
        exact fun j => LaneState.without_mine
      · rw [gone.full]
        exact LaneState.without_others

end Sys2Proof.Machine
end

