-- ==== Sys2Proof/Proofs/GovernorStreams.lean ====
section
-- One proof at a time: a stack for every waiting proof of this text would pass the memory limit of the check.
set_option Elab.async false
/-! The Rate Governor's step and streams (R71 to R85), and the profile a SET_PROFILE forms (R72, R112). -/

namespace Sys2Proof.Machine

/-! ### The step of the quantiser (R79) -/

section
variable {level : Int} {capacity : Nat}

theorem governorStep_up_two (h : 2 * level < -(capacity : Int)) : governorStep level capacity = 2 :=
  if_pos h

theorem governorStep_up_one (h2 : -(capacity : Int) ≤ 2 * level) (h8 : 8 * level < -(capacity : Int)) :
    governorStep level capacity = 1 := by
  rw [governorStep, if_neg (Int.not_lt.mpr h2), if_pos h8]

theorem governorStep_hold (low : -(capacity : Int) ≤ 8 * level) (high : 8 * level ≤ capacity) :
    governorStep level capacity = 0 := by
  rw [governorStep, if_neg (by omega), if_neg (Int.not_lt.mpr low), if_pos high]

theorem governorStep_down_one (h8 : (capacity : Int) < 8 * level) (h2 : 2 * level ≤ capacity) :
    governorStep level capacity = -1 := by
  rw [governorStep, if_neg (by omega), if_neg (by omega), if_neg (Int.not_le.mpr h8), if_pos h2]

theorem governorStep_down_two (h : (capacity : Int) < 2 * level) : governorStep level capacity = -2 := by
  rw [governorStep, if_neg (by omega), if_neg (by omega), if_neg (by omega), if_neg (Int.not_le.mpr h)]

end

/-! ### Streams (R71, R75 to R80, R84, R85) -/

namespace Stream

variable {g : Stream}

/-- The new level (R76, R78): what the picture was under its target is added, and the bucket's ends hold. -/
def levelAfter (g : Stream) (target size : Nat) : Int :=
  clampInt (-(g.capacity : Int)) g.capacity (g.level + target - size)

theorem update_eq_of_step {target size : Nat} {step : Int}
    (h : governorStep (g.levelAfter target size) g.capacity = step) : g.update target size = { g with
      level := g.levelAfter target size
      q := (clampInt g.qmin g.qmax (g.q + step)).toNat } :=
  h ▸ rfl

/-- The clamps keep level and quantiser within the limits, from whatever they were (R78, R80). -/
theorem Legal.update (h : g.Legal) (target size : Nat) : (g.update target size).Legal where
  level := by
    simp only [Stream.update, clampInt]
    omega
  quantiser := by
    obtain ⟨low, high⟩ := h.start
    simp only [Stream.update, clampInt]
    omega
  start := h.start
  limit := h.limit

/-- An empty bucket with the start quantiser. -/
theorem legal_at_start (level : g.level = 0) (q : g.q = g.start) (start : g.qmin ≤ g.start ∧ g.start ≤ g.qmax)
    (limit : g.qmax ≤ 63) : g.Legal :=
  ⟨by rw [level]; omega, q ▸ start, start, limit⟩

theorem Legal.restart (h : g.Legal) : g.restart.Legal :=
  legal_at_start rfl rfl h.start h.limit

theorem ofProfile_legal (rate base window : Nat) {qmin qmax start : Nat}
    (h : qmin ≤ start ∧ start ≤ qmax ∧ qmax ≤ 63) : (ofProfile rate base window qmin qmax start).Legal := by
  obtain ⟨low, high, limit⟩ := h
  exact legal_at_start rfl rfl ⟨low, high⟩ limit

end Stream

/-- Both streams are legal. -/
structure Governor.Legal (g : Governor) : Prop where
  full : g.full.Legal
  proxy : g.proxy.Legal

namespace Governor

variable {g : Governor}

/-- A completion moves the stream of its lane alone (R76). -/
theorem Legal.update (h : g.Legal) (l : Lane) (target size : Nat) : (g.update l target size).Legal := by
  cases l with
  | full => exact ⟨h.full.update target size, h.proxy⟩
  | proxy => exact ⟨h.full, h.proxy.update target size⟩

theorem Legal.restart (h : g.Legal) : g.restart.Legal :=
  ⟨h.full.restart, h.proxy.restart⟩

theorem ofProfile_legal {p : Profile} (h : p.Legal) : (ofProfile p).Legal :=
  ⟨Stream.ofProfile_legal _ _ _ h.limitsF, Stream.ofProfile_legal _ _ _ h.limitsP⟩

/-- The streams after fundamental reset are those of the default profile (R73, R75, R86). -/
theorem reset_eq_ofProfile : Governor.reset = ofProfile Profile.default := by
  decide

end Governor

/-! ### The profile in force (R72, R112) -/

theorem quantisers_ordered (qmin qmax start : Nat) :
    (quantisers qmin qmax start).1 ≤ (quantisers qmin qmax start).2.2 ∧
    (quantisers qmin qmax start).2.2 ≤ (quantisers qmin qmax start).2.1 ∧
    (quantisers qmin qmax start).2.1 ≤ 63 := by
  simp only [quantisers, clampNat]
  omega

theorem clampNat_mem {lo hi : Nat} (h : lo ≤ hi) (x : Nat) : lo ≤ clampNat lo hi x ∧ clampNat lo hi x ≤ hi :=
  ⟨Nat.le_max_left .., Nat.max_le.mpr ⟨h, Nat.min_le_left ..⟩⟩

/-- Rounding down to a multiple of 16 stays in a range that begins at one. -/
theorem dimension_mem {lo hi : Nat} (h : lo ≤ hi) (aligned : lo % 16 = 0) (x : Nat) :
    lo ≤ dimension lo hi x ∧ dimension lo hi x ≤ hi ∧ dimension lo hi x % 16 = 0 := by
  obtain ⟨low, high⟩ := clampNat_mem h x
  simp only [dimension, roundDown]
  omega

theorem prerollInForce_le (mode preroll : Nat) : prerollInForce mode preroll ≤ 4096 := by
  unfold prerollInForce
  split
  · exact Nat.zero_le _
  · exact Nat.min_le_right ..

theorem profileDf_base {p : ProfileParams} (h : profileDf p = true) : p.base.toNat = 7 ∨ p.base.toNat = 8 := by
  simp only [profileDf, Bool.and_eq_true, Bool.or_eq_true, decide_eq_true_eq] at h
  exact h.2

theorem Profile.default_legal : Profile.default.Legal := by
  constructor <;> decide

/-- A SET_PROFILE whose codes are in their sets forms a profile in range. -/
theorem profileFormed_legal {p : ProfileParams} (codes : profileCodesOk p = true) : (profileFormed p).Legal where
  base := by
    simp only [profileCodesOk, Bool.and_eq_true, decide_eq_true_eq] at codes
    obtain ⟨⟨⟨base, -⟩, -⟩, -⟩ := codes
    exact base
  df := profileDf_base
  rateF := clampNat_mem (by decide) _
  rateP := clampNat_mem (by decide) _
  window := clampNat_mem (by decide) _
  limitsF := quantisers_ordered ..
  limitsP := quantisers_ordered ..
  patience := clampNat_mem (by decide) _
  preroll := by
    refine ⟨prerollInForce_le .., fun recordRun => if_pos ?_⟩
    by_contra free
    exact absurd ((if_neg free).symm.trans recordRun) nofun
  width := dimension_mem (by decide) (by decide) _
  height := dimension_mem (by decide) (by decide) _

/-- Settles O48: each row of R79's table is the step of its lemma, and the clamps of the update keep the limits. -/
theorem governorUpdate : Obligations.GovernorUpdate := fun _ target size =>
  ⟨fun h => Stream.update_eq_of_step (governorStep_up_two h),
    fun h2 h8 => Stream.update_eq_of_step (governorStep_up_one h2 h8),
    fun low high => Stream.update_eq_of_step (governorStep_hold low high),
    fun h8 h2 => Stream.update_eq_of_step (governorStep_down_one h8 h2),
    fun h => Stream.update_eq_of_step (governorStep_down_two h),
    fun legal => legal.update target size⟩

end Sys2Proof.Machine
end

