-- ==== Sys2Proof/Proofs/LegalRates.lean ====
section
-- One proof at a time: a stack for every waiting proof of this text would pass the memory limit of the check.
set_option Elab.async false
/-! Every step keeps the profiles in range and the Governor's streams legal (R71, R72, R78, R80, R111). The profiles
change at SET_PROFILE, activations, Detach and Attach; the streams at activations, completions and an OPEN_TAKE. -/

namespace Sys2Proof.Machine

namespace State

variable {s t : State}

theorem complete_governor (s : State) (l : Lane) (k : Ticket) (target : Nat) (r : LaneResult) :
    (s.complete l k target r).governor = s.governor.update l target r.size := by
  simp [complete, commitIfDone_frame]

theorem closeTake_profiles (s : State) (n : Word) (c : CloseCause) :
    (s.closeTake n c).takes.profile = s.takes.profile ∧
    (s.closeTake n c).takes.pendingProfile = s.takes.pendingProfile := by
  unfold closeTake
  split <;> exact ⟨rfl, rfl⟩

namespace ratesLegal

/-! ### What keeps legal rates -/

/-- An act that leaves both profiles and the Governor. -/
theorem still (h : s.ratesLegal) (hp : t.takes.profile = s.takes.profile ∧
    t.takes.pendingProfile = s.takes.pendingProfile) (hg : t.governor = s.governor) : t.ratesLegal := by
  obtain ⟨active, pending⟩ := hp
  exact ⟨active ▸ h.active, pending ▸ h.pending, hg ▸ h.full, hg ▸ h.proxy⟩

/-- An act on other blocks. -/
theorem aside (h : s.ratesLegal) (hf : t.governor = s.governor ∧ t.takes = s.takes) : t.ratesLegal := by
  obtain ⟨hg, ht⟩ := hf
  exact h.still (ht ▸ ⟨rfl, rfl⟩) hg

/-- An act that keeps the profiles among the rest, and leaves the Governor. -/
theorem kept (h : s.ratesLegal) (k : s.Keeps t) (hg : t.governor = s.governor) : t.ratesLegal :=
  h.still k.profiles hg

/-- An act on the Governor that leaves the profiles. -/
theorem regovern (h : s.ratesLegal) (hg : s.governor.Legal → t.governor.Legal)
    (hp : t.takes.profile = s.takes.profile ∧ t.takes.pendingProfile = s.takes.pendingProfile) : t.ratesLegal := by
  obtain ⟨active, pending⟩ := hp
  obtain ⟨full, proxy⟩ := hg ⟨h.full, h.proxy⟩
  exact ⟨active ▸ h.active, pending ▸ h.pending, full, proxy⟩

/-- An event that may be due. -/
theorem ifDue {due : Prop} [Decidable due] (h : s.ratesLegal) (ht : due → t.ratesLegal) :
    (if due then t else s).ratesLegal := by
  split
  · exact ht ‹_›
  · exact h

/-! ### Activations (R84, R113) -/

/-- A profile in range gives legal streams, whatever they were. -/
theorem activate (s : State) {p : Profile} (hp : p.Legal) : (s.activate p).ratesLegal := by
  obtain ⟨full, proxy⟩ := Governor.ofProfile_legal hp
  exact ⟨hp, nofun, full, proxy⟩

theorem activateStopped (s : State) {p : Profile} (hp : p.Legal) : (s.activateStopped p).ratesLegal :=
  (activate s hp).aside ⟨rfl, rfl⟩

theorem profileFrameStart (h : s.ratesLegal) : s.profileFrameStart.ratesLegal := by
  unfold State.profileFrameStart
  split
  · exact h
  · rename_i p hp
    split
    · exact h
    · exact activate s (h.pending p hp)

theorem activatePending (h : s.ratesLegal) : s.activatePending.ratesLegal := by
  unfold State.activatePending
  split
  · exact h
  · rename_i p hp
    exact activateStopped s (h.pending p hp)

/-! ### Frame starts (R4) -/

theorem handFrameStart (h : s.ratesLegal) (cause : FrameCause) : (s.handFrameStart cause).ratesLegal := by
  refine h.profileFrameStart.kept (s.handFrameStart_keeps cause) ?_
  simp [State.handFrameStart, boardFrameStart_frame, writerFrameStart_frame, trimStore_frame, intakeFrameStart_frame,
    timecodeFrameStart_frame]

theorem frameStart (h : s.ratesLegal) (cause : FrameCause) : (s.frameStart cause).ratesLegal :=
  handFrameStart (h.aside (by simp [settleCounter_frame, edgeHandling_frame, numberFrame_frame])) cause

/-! ### Sampled edges and ticks (R2, R5 to R13, R25) -/

theorem countBadEdge (h : s.ratesLegal) : s.countBadEdge.ratesLegal :=
  h.aside ⟨rfl, rfl⟩

theorem seekEdge (h : s.ratesLegal) (good : Bool) : (s.seekEdge good).ratesLegal := by
  unfold State.seekEdge
  split
  · exact ifDue (h.aside ⟨rfl, rfl⟩) fun _ => h.frameStart .realign
  · exact h.aside ⟨rfl, rfl⟩

theorem lockedEdge (h : s.ratesLegal) (good : Bool) : (s.lockedEdge good).ratesLegal := by
  unfold State.lockedEdge
  split
  · exact (h.countBadEdge.ifDue fun _ => h).frameStart _
  · exact h.aside (by simp [checkLost_frame, State.countBadEdge])

theorem sampleEdge (h : s.ratesLegal) : s.sampleEdge.ratesLegal := by
  unfold State.sampleEdge
  extract_lets interval good c u
  have sampled : u.ratesLegal := h.aside ⟨rfl, rfl⟩
  split
  · exact sampled.countBadEdge.ifDue fun _ => sampled
  · exact sampled.seekEdge good
  · exact sampled.seekEdge good
  · exact sampled.lockedEdge good

theorem baseBoundary (h : s.ratesLegal) : s.baseBoundary.ratesLegal :=
  h.aside (by simp [baseBoundary_frame])

theorem takeExpiry (h : s.ratesLegal) : s.takeExpiry.ratesLegal :=
  (h.frameStart .expiry).ifDue fun _ => h.aside ⟨rfl, rfl⟩

theorem settle (h : s.ratesLegal) : s.settle.ratesLegal := by
  unfold State.settle
  extract_lets u v
  have expired : u.ratesLegal := h.ifDue fun _ => h.takeExpiry
  have closed : v.ratesLegal := expired.ifDue fun _ => expired.frameStart .close
  exact closed.ifDue fun _ => closed.baseBoundary

theorem pass (h : s.ratesLegal) (n : Nat) : (s.pass n).ratesLegal :=
  have counted : (s.count n).ratesLegal := h.aside ⟨rfl, rfl⟩
  counted.ifDue fun _ => counted.sampleEdge

theorem elapse (h : s.ratesLegal) (n : Nat) : (s.elapse n).ratesLegal := by
  induction n generalizing s with
  | zero => exact h
  | succ n ih =>
    rw [elapse_succ]
    exact ih (h.settle.pass 1)

theorem cadenceExpiry (h : s.ratesLegal) (ht : execCadenceExpiry s = .next t) : t.ratesLegal := by
  have elapsed := h.elapse s.cadence.counter
  unfold execCadenceExpiry at ht
  split at ht
  · exact Host.Outcome.next.inj ht ▸ h
  · split at ht
    · exact Host.Outcome.next.inj ht ▸ h
    · exact Host.Outcome.next.inj ht ▸ elapsed.ifDue fun _ => elapsed.takeExpiry

theorem refEdge (h : s.ratesLegal) (p : Polarity) (n : Nat) : ((s.latchEdge p).elapse n).ratesLegal :=
  elapse (h.aside (by simp [latchEdge_frame])) n

theorem windowClose (h : s.ratesLegal) (ht : execWindowClose s = .next t) : t.ratesLegal := by
  have elapsed := h.elapse s.cadence.ticksToClose
  have opened : (s.elapse s.cadence.ticksToClose).openLate.ratesLegal := elapsed.ifDue fun _ => elapsed.takeExpiry
  unfold execWindowClose at ht
  split at ht
  · exact Host.Outcome.next.inj ht ▸ opened.ifDue fun _ => opened.frameStart .close
  · exact Host.Outcome.next.inj ht ▸ h

theorem basePeriodBoundary (h : s.ratesLegal) (ht : execBasePeriodBoundary s = .next t) : t.ratesLegal := by
  have elapsed := h.elapse s.timecode.baseCounter
  unfold execBasePeriodBoundary at ht
  split at ht
  · exact Host.Outcome.next.inj ht ▸ h
  · exact Host.Outcome.next.inj ht ▸ elapsed.ifDue fun _ => elapsed.baseBoundary

/-! ### The lanes (R55 to R65) -/

theorem complete (h : s.ratesLegal) (l : Lane) (k : Ticket) (target : Nat) (r : LaneResult) :
    (s.complete l k target r).ratesLegal :=
  h.regovern (fun g => s.complete_governor l k target r ▸ g.update l target r.size) (by simp [complete_frame])

theorem reservationFailure (h : s.ratesLegal) (k : Ticket) (lack : Lack) :
    (s.reservationFailure k lack).ratesLegal := by
  refine h.still ?_ (by simp [reservationFailure_frame])
  unfold State.reservationFailure
  split
  · simpa [settleDrained, dropTicket_frame, showLoss_frame] using s.closeTake_profiles k.take .storeOverrun
  · simp [dropTicket_frame]

theorem settleJob (h : s.ratesLegal) (l : Lane) (k : Ticket) (q : Option Nat) (j : Job) (v : Verdict) :
    (s.settleJob l k q j v).ratesLegal := by
  unfold State.settleJob
  dsimp only
  split
  · exact h.reservationFailure ..
  · split
    · exact h.complete ..
    · exact h.aside (by simp [startJob_frame])
  · split
    · exact h.reservationFailure ..
    · exact h.complete ..

theorem jobStart (h : s.ratesLegal) {l : Lane} (ht : execJobStart l s = .next t) : t.ratesLegal := by
  unfold execJobStart at ht
  split at ht
  · exact Host.Outcome.next.inj ht ▸ h
  · refine Host.Outcome.next.inj ht ▸ settleJob (h.aside ?_) ..
    simp [withReservation_frame]

theorem pass1End (h : s.ratesLegal) {l : Lane} {tag size : Nat} (ht : execPass1End l tag size s = .next t) :
    t.ratesLegal := by
  unfold execPass1End at ht
  split at ht
  · exact Host.Outcome.next.inj ht ▸ h
  · refine Host.Outcome.next.inj ht ▸ ?_
    unfold endPass1
    split
    · exact h.complete ..
    · exact (h.complete ..).ifDue fun _ => h.aside ⟨rfl, rfl⟩

theorem pass2End (h : s.ratesLegal) {l : Lane} {tag size : Nat} (ht : execPass2End l tag size s = .next t) :
    t.ratesLegal := by
  unfold execPass2End at ht
  split at ht
  · exact Host.Outcome.next.inj ht ▸ h
  · exact Host.Outcome.next.inj ht ▸ (h.complete ..).ifDue fun _ => h.complete ..

/-! ### The Intake (R40 to R47) -/

theorem frameBegin (h : s.ratesLegal) (ht : execFrameBegin s = .next t) : t.ratesLegal := by
  unfold execFrameBegin at ht
  split at ht
  · exact Host.Outcome.next.inj ht ▸ h.aside ⟨rfl, rfl⟩
  · split at ht <;> exact Host.Outcome.next.inj ht ▸ h.aside ⟨rfl, rfl⟩

theorem lineEvent (h : s.ratesLegal) {index : Nat} {samples : List (BitVec 16)} {passed : Bool}
    (ht : execLineEvent index samples passed s = .next t) : t.ratesLegal := by
  unfold execLineEvent at ht
  split at ht
  · exact Host.Outcome.next.inj ht ▸ h
  · split at ht
    · exact Host.Outcome.next.inj ht ▸ h
    · split at ht
      · split at ht
        · exact Host.Outcome.next.inj ht ▸ h.aside ⟨rfl, rfl⟩
        · exact absurd ht nofun
      · exact Host.Outcome.next.inj ht ▸ h

theorem frameEnd (h : s.ratesLegal) (ht : execFrameEnd s = .next t) : t.ratesLegal := by
  unfold execFrameEnd at ht
  split at ht
  · exact Host.Outcome.next.inj ht ▸ h.aside ⟨rfl, rfl⟩
  · split at ht
    · exact Host.Outcome.next.inj ht ▸ h.aside (by simp [loseCapture_frame])
    · exact Host.Outcome.next.inj ht ▸ h.aside (by simp [makeTicket_frame, usableFrame_frame])

/-! ### The directives that touch a profile, a take or the cadence (R19, R112 to R117) -/

theorem applySetProfile (h : s.ratesLegal) (p : ProfileParams) : (s.applySetProfile p).1.ratesLegal := by
  unfold State.applySetProfile
  split
  · have formed := profileFormed_legal ‹_›
    split
    · exact activateStopped s formed
    · exact { h with pending := fun x hx => Option.some.inj hx ▸ formed }
  · exact h

/-- An OPEN_TAKE without pre-roll restarts the streams; another leaves them (R85). -/
theorem openTakeAct (h : s.ratesLegal) (take : Word) : (s.openTakeAct take).ratesLegal := by
  refine h.regovern (fun g => ?_) ⟨rfl, rfl⟩
  show (if s.prerollCount = 0 then s.governor.restart else s.governor).Legal
  split
  · exact g.restart
  · exact g

theorem applyOpenTake (h : s.ratesLegal) (take : Word) : (s.applyOpenTake take).1.ratesLegal := by
  have opened := h.openTakeAct take
  unfold State.applyOpenTake
  (repeat' split) <;> assumption

theorem closeTake (h : s.ratesLegal) (n : Word) (c : CloseCause) : (s.closeTake n c).ratesLegal :=
  h.still (s.closeTake_profiles n c) (by simp [closeTake_frame])

theorem applyCloseTake (h : s.ratesLegal) : s.applyCloseTake.1.ratesLegal := by
  unfold State.applyCloseTake
  split
  · exact h
  · exact h.closeTake _ _

theorem closeForStop (h : s.ratesLegal) : s.closeForStop.ratesLegal := by
  unfold State.closeForStop
  split
  · exact h
  · exact h.closeTake _ _

/-- A stop activates a pending profile, after the label's boundary and the take close (R19, log 37). -/
theorem stopCadence (h : s.ratesLegal) : s.stopCadence.ratesLegal := by
  obtain ⟨-, takes, -, governor, -⟩ := s.halted_frame
  have bounded : (s.halted.boundaryAfter s.following).ratesLegal :=
    (h.aside ⟨governor, takes⟩).aside (by simp [boundaryAfter_frame])
  rw [stopCadence_eq]
  exact bounded.closeForStop.activatePending.aside ⟨rfl, rfl⟩

theorem applyRemap (h : s.ratesLegal) (first count : Nat) : (s.applyRemap first count).1.ratesLegal := by
  refine h.still ?_ (by simp [applyRemap_frame])
  unfold State.applyRemap
  split
  · exact ⟨rfl, rfl⟩
  · extract_lets n last mask a ways discarded released u
    show (if released = true then u.retryTranslation else u).takes.profile = u.takes.profile ∧
      (if released = true then u.retryTranslation else u).takes.pendingProfile = u.takes.pendingProfile
    split
    · exact u.retryTranslation_keeps.profiles
    · exact ⟨rfl, rfl⟩

theorem applyOwner (h : s.ratesLegal) (d : Directive) : (s.applyOwner d).1.ratesLegal := by
  cases d with
  | setCadence period mode polarity tolerance => exact h.aside (by simp [State.applyOwner, applySetCadence_frame])
  | startCadence => exact h.aside (by simp [State.applyOwner, applyStartCadence_frame])
  | stopCadence => exact h.stopCadence
  | jamTimecode hh mm ss ff target => exact h.aside (by simp [State.applyOwner, applyJam_frame])
  | setProfile p => exact h.applySetProfile p
  | openTake take => exact h.applyOpenTake take
  | closeTake => exact h.applyCloseTake
  | mark value => exact h.aside (by simp [State.applyOwner, applyMark_frame])
  | remapApertures first count => exact h.applyRemap ..
  | probeAperture page => exact h.aside (by simp [State.applyOwner, applyProbe_frame])
  | snapshot => exact h.aside (by simp [State.applyOwner, applySnapshot_frame])
  | setNotice count age => exact h.aside (by simp [State.applyOwner, applySetNotice_frame])

theorem applyDirective (h : s.ratesLegal) (d : Option Directive) : (s.applyDirective d).1.ratesLegal := by
  have judged : (s.judgeDirective d).1.ratesLegal := by
    unfold judgeDirective
    split
    · exact h
    · split
      · exact h
      · exact h.applyOwner _
  exact judged.aside ⟨rfl, rfl⟩

theorem direct (h : s.ratesLegal) (d : Directive) : (s.direct d).ratesLegal :=
  h.ifDue fun _ => (h.applyDirective (some d)).aside (by simp [countRefusal_frame])

/-! ### The chain (R155, R175 to R178) -/

theorem takeRecordBytes (h : s.ratesLegal) (addr : Nat) (bytes : List Byte) :
    (s.takeRecordBytes addr bytes).ratesLegal := by
  unfold State.takeRecordBytes
  split
  · have applied := h.applyDirective (directiveOf bytes)
    generalize s.applyDirective (directiveOf bytes) = x at applied
    obtain ⟨u, r⟩ := x
    have asked : ∀ p, ((u.setPhase p).translate .chain addr).1.ratesLegal := fun p =>
      applied.aside (by simp [translate_frame])
    dsimp only
    specialize asked (.resultPage ⟨addr, fieldAt bytes 0 4, notifyFlag bytes, r⟩)
    split <;> (rename_i e; rw [e] at asked)
    · exact asked.aside (by simp [completeRecord_frame])
    · exact asked
  · exact h.aside (by simp [endVisit_frame])

theorem chainFault (h : s.ratesLegal) (a : Nat) : (s.chainFault a).ratesLegal :=
  h.aside (by simp [chainFault_frame])

theorem chainNextReadDone (h : s.ratesLegal) {tag : Nat} {data : Option (List Byte)}
    (ht : execChainNextReadDone tag data s = .next t) : t.ratesLegal := by
  unfold execChainNextReadDone at ht
  split at ht
  · split at ht
    · split at ht
      · exact Host.Outcome.next.inj ht ▸ h.chainFault _
      · exact Host.Outcome.next.inj ht ▸ h.aside (by simp [takeNext_frame])
    · exact Host.Outcome.next.inj ht ▸ h
  · exact Host.Outcome.next.inj ht ▸ h

theorem chainRecordFetchDone (h : s.ratesLegal) {tag : Nat} {data : Option (List Byte)}
    (ht : execChainRecordFetchDone tag data s = .next t) : t.ratesLegal := by
  unfold execChainRecordFetchDone at ht
  split at ht
  · split at ht
    · split at ht
      · exact Host.Outcome.next.inj ht ▸ h.chainFault _
      · exact Host.Outcome.next.inj ht ▸ h.takeRecordBytes ..
    · exact Host.Outcome.next.inj ht ▸ h
  · exact Host.Outcome.next.inj ht ▸ h

theorem answerAll (h : s.ratesLegal) (answers : List (Miss × Answer)) : (s.answerAll answers).ratesLegal := by
  induction answers generalizing s with
  | nil => exact h
  | cons x rest ih =>
    refine ih (s := s.answerMiss x.1 x.2) (h.still ?_ (by simp [answerMiss_frame]))
    unfold answerMiss
    split
    · exact (s.answerWriter_keeps ..).profiles
    · simp [answerChain_frame]

theorem apertureFetchDone (h : s.ratesLegal) {tag : Nat} {data : Option (List Byte)}
    (ht : execApertureFetchDone tag data s = .next t) : t.ratesLegal := by
  unfold execApertureFetchDone at ht
  split at ht
  · exact Host.Outcome.next.inj ht ▸ h
  · rename_i f _
    split at ht
    · have settled : (s.settleFetch f.page (fetchAnswer data)).1.ratesLegal := h.aside (by simp [settleFetch_frame])
      exact Host.Outcome.next.inj ht ▸ (settled.answerAll _).ifDue fun _ => h.aside ⟨rfl, rfl⟩
    · exact Host.Outcome.next.inj ht ▸ h

/-! ### The Board (R163 to R168) -/

/-- Reset values are those of the default profile (R72, R86, R111). -/
theorem reset : State.reset.ratesLegal := by
  obtain ⟨full, proxy⟩ := Governor.reset_eq_ofProfile ▸ Governor.ofProfile_legal Profile.default_legal
  exact ⟨Profile.default_legal, nofun, full, proxy⟩

/-- Detach drops a pending profile, and leaves the active one and the Governor (R166). -/
theorem detach (h : s.ratesLegal) : s.detach.ratesLegal := by
  have halted : s.detachCadence.ratesLegal := h.aside (by simp [detachCadence_frame])
  exact ⟨halted.active, nofun, halted.full, halted.proxy⟩

theorem attachFailed (h : s.ratesLegal) (r : AttachResult) : (s.attachFailed r).ratesLegal :=
  h.aside (by simp [attachFailed_frame])

theorem commitAnchor (h : s.ratesLegal) (a : HostAddr) : (s.commitAnchor a).ratesLegal := by
  unfold State.commitAnchor
  extract_lets d b u
  have anchored : u.ratesLegal := h.detach.aside ⟨rfl, rfl⟩
  split
  · exact anchored
  · exact (anchored.attachFailed _).ifDue fun _ => anchored.aside ⟨rfl, rfl⟩

/-- Attach activates the default profile (R165). -/
theorem setUp (s : State) (bytes : List Byte) : (s.setUp bytes).ratesLegal :=
  (activate s Profile.default_legal).still ⟨rfl, rfl⟩ rfl

theorem headerReadDone (h : s.ratesLegal) {tag : Nat} {data : Option (List Byte)}
    (ht : execHeaderReadDone tag data s = .next t) : t.ratesLegal := by
  have judged : (s.judgeHeader data).ratesLegal := by
    unfold judgeHeader
    split
    · exact h.attachFailed _
    · rename_i bytes
      exact (h.attachFailed _).ifDue fun _ => (setUp s bytes).aside (by simp [attach, frameReport_frame])
  unfold execHeaderReadDone at ht
  split at ht
  · exact Host.Outcome.next.inj ht ▸ h
  · split at ht
    · exact Host.Outcome.next.inj ht ▸ judged
    · exact Host.Outcome.next.inj ht ▸ h

theorem visitRequest (h : s.ratesLegal) {value : Word} (ht : execVisitRequest value s = .next t) : t.ratesLegal := by
  unfold execVisitRequest at ht
  split at ht
  · have retried := h.kept s.writerVisit_keeps (by simp [writerVisit_frame])
    exact Host.Outcome.next.inj ht ▸ retried.aside (by simp [State.visitRequest, askVisit_frame, frameReport_frame])
  · exact Host.Outcome.next.inj ht ▸ h

/-! ### The writer's commands (R131, R133, R142) -/

theorem writerStartWork (h : s.ratesLegal) (ht : execWriterStartWork s = .next t) : t.ratesLegal := by
  unfold execWriterStartWork at ht
  split at ht
  · exact Host.Outcome.next.inj ht ▸ h
  · exact Host.Outcome.next.inj ht ▸ h.kept s.chooseWork_keeps (by simp [chooseWork_frame])

theorem chunkEntryReadDone (h : s.ratesLegal) {tag : Nat} {data : Option (List Byte)}
    (ht : execChunkEntryReadDone tag data s = .next t) : t.ratesLegal := by
  have read : ∀ p a, (s.entryRead p a data).ratesLegal := fun p a =>
    h.kept (s.entryRead_keeps p a data) (by simp [entryRead_frame])
  unfold execChunkEntryReadDone at ht
  split at ht
  · exact Host.Outcome.next.inj ht ▸ read ..
  · split at ht
    · exact Host.Outcome.next.inj ht ▸ read ..
    · split at ht
      · exact Host.Outcome.next.inj ht ▸ read ..
      · exact Host.Outcome.next.inj ht ▸ h

theorem proxySuspended (h : s.ratesLegal) (ht : execProxySuspended s = .next t) : t.ratesLegal := by
  unfold execProxySuspended at ht
  split at ht
  · exact Host.Outcome.next.inj ht ▸ h.kept s.beginSuspension_keeps (by simp [beginSuspension_frame])
  · exact Host.Outcome.next.inj ht ▸ h

/-! ### The dispatch -/

theorem command (h : s.ratesLegal) {i : Instr} (ht : exec i s = .next t) : t.ratesLegal := by
  cases i with
  | fundamentalReset => exact Host.Outcome.next.inj ht ▸ reset.aside ⟨rfl, rfl⟩
  | linkDown => exact Host.Outcome.next.inj ht ▸ h.detach.aside ⟨rfl, rfl⟩
  | functionLevelReset => exact Host.Outcome.next.inj ht ▸ h.detach.aside ⟨rfl, rfl⟩
  | boardAnchorLow value => exact Host.Outcome.next.inj ht ▸ h.aside ⟨rfl, rfl⟩
  | boardAnchorHigh value => exact Host.Outcome.next.inj ht ▸ h.commitAnchor _
  | visitRequest value => exact h.visitRequest (value := value) ht
  | noticeCause value => exact Host.Outcome.next.inj ht ▸ h.aside ⟨rfl, rfl⟩
  | noticeMaskSet value => exact Host.Outcome.next.inj ht ▸ h.aside ⟨rfl, rfl⟩
  | noticeMaskClear value => exact Host.Outcome.next.inj ht ▸ h.aside (by simp)
  | ignoredRegisterWrite offset bytes value => exact Host.Outcome.next.inj ht ▸ h
  | headerReadDone tag data => exact h.headerReadDone ht
  | cadenceExpiry => exact h.cadenceExpiry ht
  | refEdge polarity ticks => exact Host.Outcome.next.inj ht ▸ h.refEdge polarity ticks
  | windowClose => exact h.windowClose ht
  | basePeriodBoundary => exact h.basePeriodBoundary ht
  | frameBegin => exact h.frameBegin ht
  | lineEvent index samples passed => exact h.lineEvent ht
  | frameEnd => exact h.frameEnd ht
  | jobStart lane => exact h.jobStart ht
  | pass1End lane tag size => exact h.pass1End ht
  | pass2End lane tag size => exact h.pass2End ht
  | setCadence period mode polarity tolerance => exact Host.Outcome.next.inj ht ▸ h.direct _
  | startCadence => exact Host.Outcome.next.inj ht ▸ h.direct _
  | stopCadence => exact Host.Outcome.next.inj ht ▸ h.direct _
  | jamTimecode hh mm ss ff target => exact Host.Outcome.next.inj ht ▸ h.direct _
  | setProfile params => exact Host.Outcome.next.inj ht ▸ h.direct _
  | openTake take => exact Host.Outcome.next.inj ht ▸ h.direct _
  | closeTake => exact Host.Outcome.next.inj ht ▸ h.direct _
  | mark value => exact Host.Outcome.next.inj ht ▸ h.direct _
  | remapApertures first count => exact Host.Outcome.next.inj ht ▸ h.direct _
  | probeAperture page => exact Host.Outcome.next.inj ht ▸ h.direct _
  | snapshot => exact Host.Outcome.next.inj ht ▸ h.direct _
  | setNotice count age => exact Host.Outcome.next.inj ht ▸ h.direct _
  | chainNextReadDone tag data => exact h.chainNextReadDone ht
  | chainRecordFetchDone tag data => exact h.chainRecordFetchDone ht
  | apertureFetchDone tag data => exact h.apertureFetchDone ht
  | writerStartWork => exact h.writerStartWork ht
  | chunkEntryReadDone tag data => exact h.chunkEntryReadDone ht
  | proxySuspended => exact h.proxySuspended ht
  | coalescingAgeLimit => exact Host.Outcome.next.inj ht ▸ h.ifDue fun _ => h.aside (by simp)

end ratesLegal
end State

/-- Settles O59: a step is a command, an event of the block's own, or one tick, and each keeps the rates legal. -/
theorem stepKeepsRates : Obligations.StepKeepsRates := by
  intro s t h ht
  unfold step at ht
  split at ht
  · rename_i rest _
    have taken : State.ratesLegal { s with pending := rest } := h.aside ⟨rfl, rfl⟩
    exact taken.command ht
  · split at ht
    · exact h.command ht
    · exact Host.Outcome.next.inj ht ▸ h.elapse 1

end Sys2Proof.Machine
end

