-- ==== Sys2Proof/Proofs/Pressure.lean ====
section
-- One proof at a time: a stack for every waiting proof of this text would pass the memory limit of the check.
set_option Elab.async false
/-! The pressure level: what is measured, and after which acts P equals it (R107, R108). -/

namespace Sys2Proof.Machine

/-- The bound records, in the form the statements write them. -/
theorem filter_bound (l : List PairRecord) :
    l.filter (fun r => r.bound == true) = l.filter (fun r => r.take ≠ 0#32) :=
  List.filter_congr fun r _ => by by_cases h : r.take = 0#32 <;> simp [PairRecord.bound, h]

namespace Store

variable {st : Store}

/-- The three measures over the bound records (R107). -/
theorem measured_eq (st : Store) :
    let bound := st.list.filter (fun r => r.take ≠ 0#32)
    st.measured = max (pressureLevel bound.length 4096)
      (max (pressureLevel ((bound.filterMap PairRecord.full).map Extent.len).sum st.fullArea.size)
        (pressureLevel ((bound.filterMap PairRecord.proxy).map Extent.len).sum st.proxyArea.size)) := by
  unfold measured records liveBytes
  rw [filter_bound]
  rfl

/-- P recomputed is the measure of the store it stands in: the measure does not read P (R108). -/
theorem refresh_pressure (st : Store) : st.refresh.pressure = st.refresh.measured := rfl

/-- A bound request that is not refused leaves P recomputed, whether its bytes were placed or not (R97). -/
theorem requestBound_pressure {r : Request} (h : ∀ lack, (st.requestBound r).2 ≠ .refused lack) :
    (st.requestBound r).1.pressure = (st.requestBound r).1.measured := by
  by_cases full : r.wantRecord = true ∧ 4096 ≤ st.list.length
  · exact absurd (congrArg Prod.snd (requestBound_refused full)) (h .records)
  · rcases Nat.lt_or_ge (st.freeRoom r.lane) r.bytes with short | room
    · rw [requestBound_bytesRefused full short]
      exact refresh_pressure _
    · rw [requestBound_granted full room]
      exact refresh_pressure _

/-- A release that finds a record leaves P recomputed (R104). -/
theorem release_pressure {frame : Word} (h : ∃ r ∈ st.list, r.frame = frame) :
    (st.release frame).pressure = (st.release frame).measured := by
  have found : (st.list.find? (fun r => decide (r.frame = frame))).isSome = true := by simpa using h
  obtain ⟨x, hx⟩ := Option.isSome_iff_exists.mp found
  obtain ⟨hf, before, later, hl, hb⟩ := List.find?_eq_some_iff_append.mp hx
  rw [release_of_split hl (by simpa using hf) (by simpa using hb)]
  exact refresh_pressure _

end Store

/-- Settles O49: the measure's own form, and P recomputed by each act that changes bound usage. -/
theorem pressureLevels : Obligations.PressureLevels := by
  intro st
  refine ⟨st.measured_eq, fun r _ v hv notRefused => ?_, st.shorten_pressure, fun take => Store.refresh_pressure _,
    fun frame => Store.release_pressure, Store.refresh_pressure _⟩
  exact Store.requestBound_pressure (hv ▸ notRefused)

end Sys2Proof.Machine
end

