-- ==== Sys2Proof/Proofs/Trimming.lean ====
section
-- One proof at a time: a stack for every waiting proof of this text would pass the memory limit of the check.
set_option Elab.async false
/-! Eviction and trimming: which head pairs leave, and what stands (R93, R98, R100, R102). -/

namespace Sys2Proof.Machine

/-- The unbound records, in the form the statements write them. -/
theorem filter_unbound (l : List PairRecord) :
    l.filter (fun r => r.bound == false) = l.filter (fun r => r.take = 0#32) :=
  List.filter_congr fun r _ => by by_cases h : r.take = 0#32 <;> simp [PairRecord.bound, h]

/-- The head goes to the oldest remaining extent, and to the tail where none remains (R93, log 14). -/
theorem Area.advanceHead_eq (a : Area) (remaining : List Extent) :
    a.advanceHead remaining = { a with head := (remaining.head?.map Extent.start).getD a.tail } := by
  unfold Area.advanceHead
  cases remaining.head? <;> rfl

namespace Store

variable {st : Store} {limit : Nat}

theorem overLimit_iff : st.overLimit limit = true ↔
    limit < (st.list.filter (fun r => r.take = 0#32)).length ∨
    7 * st.fullArea.size < 8 * st.liveBytes .full false ∨
    7 * st.proxyArea.size < 8 * st.liveBytes .proxy false := by
  unfold overLimit records
  rw [filter_unbound]
  simp [or_assoc]

/-! ### One eviction (R100) -/

/-- The area's head moves only where the record that leaves holds an extent there. -/
theorem freeHeadExtent_eq (st : Store) (lane : Lane) (r : PairRecord) (rest : List PairRecord) :
    st.freeHeadExtent lane r rest = if r.extent lane = none then st.area lane else { st.area lane with
      head := ((extentsOf rest lane).head?.map Extent.start).getD (st.area lane).tail } := by
  unfold freeHeadExtent
  cases r.extent lane with
  | none => rfl
  | some e => exact Area.advanceHead_eq ..

theorem dropHead_cons {r : PairRecord} {rest : List PairRecord} (h : st.list = r :: rest) :
    st.dropHead = { st with
      list := rest, fullArea := st.freeHeadExtent .full r rest, proxyArea := st.freeHeadExtent .proxy r rest } := by
  unfold dropHead
  rw [h]

/-- An eviction moves no area's tail and changes no size. -/
theorem dropHead_area (st : Store) (lane : Lane) :
    (st.dropHead.area lane).size = (st.area lane).size ∧ (st.dropHead.area lane).tail = (st.area lane).tail := by
  cases h : st.list with
  | nil => simp [dropHead, h]
  | cons r rest =>
    have freed : st.dropHead.area lane = st.freeHeadExtent lane r rest := by
      rw [dropHead_cons h]
      cases lane <;> rfl
    rw [freed, freeHeadExtent_eq]
    split <;> exact ⟨rfl, rfl⟩

theorem dropHead_pressure (st : Store) : st.dropHead.pressure = st.pressure := by
  unfold dropHead
  split <;> rfl

/-- What one eviction leaves, any number of them leaves. -/
theorem iterate_dropHead_keeps {α : Type} {f : Store → α} (h : ∀ x, f x.dropHead = f x) (n : Nat) (st : Store) :
    f (Nat.iterate dropHead n st) = f st := by
  induction n generalizing st with
  | zero => rfl
  | succ n ih => rw [Function.iterate_succ_apply, ih, h]

/-- Head pairs that leave one after another, each of them evictable, were all committed and unbound. -/
theorem evicted_unbound {n : Nat} (h : ∀ k < n, (Nat.iterate dropHead k st).headEvictable = true) :
    ∀ r ∈ st.list.take n, r.take = 0#32 ∧ r.pair ≠ none := by
  intro r hr
  obtain ⟨k, hk, rfl⟩ := List.mem_take_iff_getElem.mp hr
  obtain ⟨y, rest, hl, unbound, committed⟩ := headEvictable_iff.mp (h k (by omega))
  rw [iterate_dropHead_list, List.drop_eq_getElem_cons (by omega)] at hl
  obtain ⟨rfl, -⟩ := List.cons.inj hl
  exact ⟨unbound, committed⟩

/-! ### The trim (R102) -/

/-- Evictions go on while a limit is exceeded and one can be made; fuel for every record is enough. -/
theorem trimBy_evicts (limit fuel : Nat) (st : Store) (hf : st.list.length ≤ fuel) :
    ∃ n, trimBy limit fuel st = Nat.iterate dropHead n st ∧
      (∀ k < n, (Nat.iterate dropHead k st).overLimit limit = true ∧
        (Nat.iterate dropHead k st).headEvictable = true) ∧
      ¬ ((Nat.iterate dropHead n st).overLimit limit = true ∧ (Nat.iterate dropHead n st).headEvictable = true) := by
  induction fuel generalizing st with
  | zero =>
    have empty : st.list = [] := List.eq_nil_of_length_eq_zero (Nat.le_zero.mp hf)
    exact ⟨0, rfl, nofun, fun h => by simp [headEvictable, empty] at h⟩
  | succ fuel ih =>
    unfold trimBy
    split
    · rename_i both
      obtain ⟨evicts, exceeds⟩ := Bool.and_eq_true_iff.mp both
      obtain ⟨y, rest, hl, -⟩ := headEvictable_iff.mp evicts
      have shorter : st.dropHead.list.length ≤ fuel := by
        rw [hl, List.length_cons] at hf
        rw [dropHead_list, hl, List.tail_cons]
        omega
      obtain ⟨n, trimmed, before, stops⟩ := ih st.dropHead shorter
      refine ⟨n + 1, trimmed, fun k hk => ?_, stops⟩
      cases k with
      | zero => exact ⟨exceeds, evicts⟩
      | succ k => exact before k (by omega)
    · rename_i neither
      exact ⟨0, rfl, nofun, fun ⟨exceeds, evicts⟩ => neither (Bool.and_eq_true_iff.mpr ⟨evicts, exceeds⟩)⟩

end Store

/-- Settles O50: a trim is a number of evictions, and what an eviction leaves alone a trim leaves alone. -/
theorem trimEvictsHeads : Obligations.TrimEvictsHeads := by
  intro st limit exceeds evictable
  obtain ⟨n, trimmed, before, stops⟩ := Store.trimBy_evicts limit _ st (Nat.le_refl _)
  replace trimmed : st.trim limit = Nat.iterate Store.dropHead n st := trimmed
  rw [trimmed]
  have area (lane : Lane) := And.intro
    (Store.iterate_dropHead_keeps (f := fun x => (x.area lane).size) (fun x => (x.dropHead_area lane).1) n st)
    (Store.iterate_dropHead_keeps (f := fun x => (x.area lane).tail) (fun x => (x.dropHead_area lane).2) n st)
  obtain ⟨fullSize, fullTail⟩ := area .full
  obtain ⟨proxySize, proxyTail⟩ := area .proxy
  refine ⟨⟨n, rfl, fun k hk => (before k hk).imp Store.overLimit_iff.mp Store.headEvictable_iff.mp⟩,
    fun both => stops (both.imp Store.overLimit_iff.mpr Store.headEvictable_iff.mpr),
    ⟨st.list.take n, ?_, Store.evicted_unbound fun k hk => (before k hk).2⟩,
    fullSize, fullTail, proxySize, proxyTail, Store.iterate_dropHead_keeps Store.dropHead_pressure n st,
    fun r rest hl => ?_⟩
  · rw [Store.iterate_dropHead_list, List.take_append_drop]
  · rw [Store.dropHead_cons hl, Store.freeHeadExtent_eq, Store.freeHeadExtent_eq]
    rfl

end Sys2Proof.Machine
end

