-- ==== Sys2Proof/Proofs/AttachSizes.lean ====
section
-- One proof at a time: a stack for every waiting proof of this text would pass the memory limit of the check.
set_option Elab.async false
/-! The sizes that a header's values give at Attach (R91, R128, R165). -/

namespace Sys2Proof.Machine

/-- The two areas share 3,648 MiB: the proxy area takes at most what the full one leaves (R91). -/
theorem areas_share_store (x y : Nat) : fullAreaMiB x + proxyAreaMiB (fullAreaMiB x) y ≤ 3648 := by
  have full : fullAreaMiB x ≤ 3520 ∧ fullAreaMiB x % 32 = 0 := by
    unfold fullAreaMiB roundDown clampNat
    omega
  unfold proxyAreaMiB roundDown clampNat
  omega

/-- The values in force are the header's exactly when each of the eight is. -/
theorem headerValues_inForce_iff (bytes : List Byte) :
    (headerValues bytes != valuesInForce bytes) = false ↔
      fieldAt bytes 8 4 = fullAreaMiB (fieldAt bytes 8 4) ∧
      fieldAt bytes 12 4 = proxyAreaMiB (fullAreaMiB (fieldAt bytes 8 4)) (fieldAt bytes 12 4) ∧
      fieldAt bytes 16 4 = entryCount .full (fieldAt bytes 16 4) ∧
      fieldAt bytes 20 4 = chunkMiB .full (fieldAt bytes 20 4) ∧
      fieldAt bytes 24 4 = entryCount .proxy (fieldAt bytes 24 4) ∧
      fieldAt bytes 28 4 = chunkMiB .proxy (fieldAt bytes 28 4) ∧
      fieldAt bytes 32 4 = entryCount .index (fieldAt bytes 32 4) ∧
      fieldAt bytes 36 4 = chunkMiB .index (fieldAt bytes 36 4) := by
  have values : headerValues bytes = [fieldAt bytes 8 4, fieldAt bytes 12 4, fieldAt bytes 16 4, fieldAt bytes 20 4,
      fieldAt bytes 24 4, fieldAt bytes 28 4, fieldAt bytes 32 4, fieldAt bytes 36 4] := rfl
  rw [values, bne_eq_false_iff_eq]
  simp only [valuesInForce, List.cons.injEq, and_true]

namespace State

/-- The awaited read, with the format word at its front, completes the attach (R164). -/
theorem exec_headerReadDone_good {s : State} {tag : Nat} {bytes : List Byte} {a : HostAddr}
    (awaited : s.board.headerRead = some { tag := tag, anchor := a }) (format : fieldAt bytes 0 4 = formatWord) :
    exec (.headerReadDone tag (some bytes)) s = .next (s.attach bytes) := by
  show execHeaderReadDone tag (some bytes) s = _
  unfold execHeaderReadDone judgeHeader
  simp only [awaited, format, if_true]

/-- The report and ATTACH, after the blocks are set up, leave them as they were set. -/
theorem attach_blocks (s : State) (bytes : List Byte) :
    (s.attach bytes).store = storeOf bytes ∧ (s.attach bytes).writer = writerOf bytes ∧
    (s.attach bytes).board = (s.setUp bytes).board := by
  obtain ⟨-, -, -, -, -, store, -, writer, -, board, -⟩ :=
    (s.setUp bytes).frameReport_frame [s.setUp bytes] (s.setUp bytes).timecode.freeRun
  unfold attach
  simp only [raise_store, raise_writer, raise_board]
  exact ⟨store, writer, board⟩

end State

/-- Settles O15: a good header attaches, and the sizes and CLAMPED are those of its eight values. -/
theorem attachClampsSizes : Obligations.AttachClampsSizes := by
  intro s tag bytes a awaited format value full proxy countF countP countI chunkF chunkP
  refine ⟨areas_share_store (value 8) (value 12), s.attach bytes,
    State.exec_headerReadDone_good awaited format, ?_⟩
  obtain ⟨store, writer, board⟩ := s.attach_blocks bytes
  rw [store, writer, board]
  exact ⟨rfl, rfl, rfl, rfl, rfl, rfl, rfl, rfl, headerValues_inForce_iff bytes⟩

end Sys2Proof.Machine
end

