-- ==== Sys2Proof/Proofs/TakeDirectives.lean ====
section
-- One proof at a time: a stack for every waiting proof of this text would pass the memory limit of the check.
set_option Elab.async false
/-! OPEN_TAKE, CLOSE_TAKE and MARK: their tests, and what they leave (R115 to R120, R125). -/

namespace Sys2Proof.Machine

/-- The answer of a staged value: PENDING, or REPLACED where one was held (R113, R120). -/
theorem stagedCode_eq {α : Type} (held : Option α) [Decidable (held = none)] :
    (if held.isSome = true then ResultCode.replaced else .pending) =
      if held = none then .pending else .replaced := by
  cases held <;> simp

namespace State

variable {s : State}

/-! ### The mode test (R176, R182) -/

theorem attached_of_active (hm : s.board.mode = .standby ∨ s.board.mode = .recording) : s.attached = true :=
  s.attached_iff.mpr (.inr hm)

theorem not_idle_of_active (hm : s.board.mode = .standby ∨ s.board.mode = .recording) : s.board.mode ≠ .idle := by
  rcases hm with h | h <;> simp [h]

/-- In IDLE a kind that R182 leaves out is refused before its owner sees it. -/
theorem direct_wrongMode {d : Directive} (hm : s.board.mode = .idle) (hd : d.inIdle = false) :
    s.direct d = s.refusing .wrongMode := by
  have judged : s.judgeDirective (some d) = (s, DirectiveResult.refuse .wrongMode) := if_pos ⟨hm, hd⟩
  rw [direct, if_pos (s.attached_iff.mpr (.inl hm)), applyDirective, judged]
  rfl

/-- In STANDBY and RECORDING a directive is refused as its owner refuses it. -/
theorem direct_refuse_of_active (d : Directive) {code : ResultCode}
    (hm : s.board.mode = .standby ∨ s.board.mode = .recording)
    (h : s.applyOwner d = (s, DirectiveResult.refuse code)) : s.direct d = s.refusing code :=
  s.direct_refuse (attached_of_active hm) (fun hi => absurd hi (not_idle_of_active hm)) h

/-- In STANDBY and RECORDING a directive is carried out as its owner carries it out, with its result data. -/
theorem direct_carry_of_active (d : Directive) {t : State} {code : ResultCode} {fields : List (Nat × List Byte)}
    {first : List Byte} {mask : Nat} (hm : s.board.mode = .standby ∨ s.board.mode = .recording)
    (h : s.applyOwner d = (t, DirectiveResult.carried code fields mask))
    (hd : layout 16 (fields ++ [(12, leBytes 4 mask)]) =
      first ++ List.replicate (12 - first.length) 0#8 ++ leBytes 4 mask := by rfl) :
    s.direct d = t.answering code first mask :=
  s.direct_carry (attached_of_active hm) (fun hi => absurd hi (not_idle_of_active hm)) h hd

/-! ### MARK (R120) -/

theorem applyMark_zero (s : State) : s.applyMark 0#16 = (s, DirectiveResult.refuse .badField) :=
  if_pos rfl

theorem applyMark_staged {value : BitVec 16} (h : value ≠ 0#16) :
    s.applyMark value = ({ s with intake := { s.intake with pendingMark := some value } },
      DirectiveResult.carried (if s.intake.pendingMark = none then .pending else .replaced) [] 0) := by
  rw [applyMark, if_neg h, stagedCode_eq]

/-! ### The tests of OPEN_TAKE, in their order (R115) -/

theorem takeIsOpen_eq_false_iff (s : State) :
    s.takeIsOpen = false ↔ ∀ r ∈ s.takes.table, r.phase ≠ .opened := by
  rw [Bool.eq_false_iff, ne_eq, takeIsOpen_iff]
  simp

theorem applyOpenTake_zero (s : State) : s.applyOpenTake 0#32 = (s, DirectiveResult.refuse .badField) :=
  if_pos rfl

section
variable {take : Word} (numbered : take ≠ 0#32)
include numbered

theorem applyOpenTake_open (opened : s.takeIsOpen = true) :
    s.applyOpenTake take = (s, DirectiveResult.refuse .takeOpen) := by
  rw [applyOpenTake, if_neg numbered, if_pos opened]

theorem applyOpenTake_tableFull (closed : s.takeIsOpen = false) (full : 4 ≤ s.takes.table.length) :
    s.applyOpenTake take = (s, DirectiveResult.refuse .takeTableFull) := by
  rw [applyOpenTake, if_neg numbered, if_neg (Bool.eq_false_iff.mp closed), if_pos full]

theorem applyOpenTake_duplicate (closed : s.takeIsOpen = false) (room : s.takes.table.length < 4)
    (same : ∃ r ∈ s.takes.table, r.number = take) :
    s.applyOpenTake take = (s, DirectiveResult.refuse .duplicateTake) := by
  rw [applyOpenTake, if_neg numbered, if_neg (Bool.eq_false_iff.mp closed), if_neg (Nat.not_le.mpr room),
    if_pos (by simpa using same)]

theorem applyOpenTake_accepted (free : ∀ r ∈ s.takes.table, r.phase ≠ .opened ∧ r.number ≠ take)
    (room : s.takes.table.length < 4) :
    s.applyOpenTake take =
      (s.openTakeAct take, DirectiveResult.carried .none [(0, leBytes 4 s.prerollCount)] 0) := by
  have closed : s.takeIsOpen = false := s.takeIsOpen_eq_false_iff.mpr fun r hr => (free r hr).1
  rw [applyOpenTake, if_neg numbered, if_neg (Bool.eq_false_iff.mp closed), if_neg (Nat.not_le.mpr room),
    if_neg (by simpa using fun r hr => (free r hr).2)]

/-- An OPEN_TAKE that passes its tests answers the pre-roll count (R116). -/
theorem direct_openTake (hm : s.board.mode = .standby ∨ s.board.mode = .recording)
    (free : ∀ r ∈ s.takes.table, r.phase ≠ .opened ∧ r.number ≠ take) (room : s.takes.table.length < 4) :
    s.direct (.openTake take) = (s.openTakeAct take).answering .none (leBytes 4 s.prerollCount) 0 :=
  direct_carry_of_active (.openTake take) hm (applyOpenTake_accepted numbered free room)

end

/-! ### What OPEN_TAKE leaves (R105, R116) -/

/-- With no other record OPEN, the take that has been opened is the OPEN one. -/
theorem openTakeAct_openTakeNumber {take : Word} (closed : ∀ r ∈ s.takes.table, r.phase ≠ .opened) :
    (s.openTakeAct take).openTakeNumber = take := by
  have others : s.takes.table.find? (fun r => r.phase == .opened) = none := by simpa using closed
  have found : (s.openTakeAct take).openTake = some (TakeRecord.opening take s.takeHeader s.prerollCount) := by
    show (s.takes.table ++ [_]).find? _ = _
    rw [List.find?_append, others]
    rfl
  rw [openTakeNumber, found]
  rfl

/-- The pre-roll count: the unbound records, and the unbound tickets that hold none (R116). -/
theorem prerollCount_eq (s : State) : s.prerollCount =
    (s.store.list.filter (fun r => r.take = 0#32)).length +
      (s.lanes.tickets.filter (fun t => t.take = 0#32 ∧ t.hasRecord = false)).length := by
  unfold prerollCount Store.records
  rw [filter_unbound]
  congr 2
  exact List.filter_congr fun t _ => by by_cases h : t.take = 0#32 <;> simp [h]

end State

/-- An OPEN_TAKE binds every unbound record and marks it as pre-roll (R105). -/
theorem Store.bindAll_list (st : Store) (take : Word) : (st.bindAll take).list = st.list.map (fun r =>
    if r.take = 0#32 then { r with take := take, preroll := true } else r) :=
  List.map_congr_left fun r _ => by by_cases h : r.take = 0#32 <;> simp [PairRecord.bound, h]

namespace State
variable {s : State}

/-! ### CLOSE_TAKE (R117, R125) -/

/-- No ticket and no record is bound to the take, in the form the statement writes it (R125). -/
theorem noMaterial_eq (s : State) (take : Word) : s.noMaterial take =
    ((s.lanes.tickets.all fun t => t.take != take) && (s.store.list.all fun x => x.take != take)) := by
  simp only [noMaterial, List.not_any_eq_all_not]
  rfl

theorem emptyTakeLabel_eq (s : State) (mode : TimecodeMode) : s.emptyTakeLabel mode =
    if mode = .freeRun then s.timecode.freeRun else s.timecode.recordRun := by
  cases mode <;> rfl

/-- The drained test on one record, in the words of R125. -/
theorem testDrained_eq (s : State) (u : TakeRecord) : s.testDrained u =
    if u.phase = .closed ∧ u.drained = false ∧ s.noMaterial u.number = true then
      if u.ordinal = 0 ∧ u.headerWritten = false then
        { u with drained := true, startLabel := s.emptyTakeLabel u.header.mode,
                 endLabel := s.emptyTakeLabel u.header.mode }
      else { u with drained := true }
    else u :=
  if_congr (by simp [and_assoc]) rfl rfl

/-- The close of the OPEN record, whole: the drained test reads what the close leaves alone (R117, R125). -/
theorem closeTake_of_open {r : TakeRecord} (c : CloseCause) (h : s.openTake = some r) :
    s.closeTake r.number c = { s with
      takes := { s.takes with
        table := s.takes.table.map fun u => s.testDrained (u.closeIf r.number c) }
      board := { s.board with mode := .standby } } := by
  obtain ⟨hr, ho⟩ := openTake_some h
  rw [closeTake, if_pos (List.any_eq_true.mpr ⟨r, hr, by simp [ho]⟩), settleDrained, List.map_map]
  rfl

theorem applyCloseTake_none (h : s.openTake = none) : s.applyCloseTake = (s, DirectiveResult.refuse .noTake) := by
  rw [applyCloseTake, h]

theorem applyCloseTake_some {r : TakeRecord} (h : s.openTake = some r) : s.applyCloseTake =
    (s.closeTake r.number .host, DirectiveResult.carried .none [(0, leBytes 4 r.number.toNat)] 0) := by
  rw [applyCloseTake, h]

end State

/-- Settles O28: MARK's two branches, in the modes that let it through. -/
theorem markStages : Obligations.MarkStages := by
  intro s value hm
  refine ⟨?_, fun nonzero => ?_⟩
  · rintro rfl
    exact congrArg _ (State.direct_refuse_of_active (.mark 0#16) hm s.applyMark_zero)
  · exact congrArg _ (State.direct_carry_of_active (.mark value) hm (State.applyMark_staged nonzero))

/-- Settles O25: the mode test, each test of R115 once those before it have passed, and the take that is opened. -/
theorem openTakeRefusals : Obligations.OpenTakeRefusals := by
  intro s take
  refine ⟨fun idle => congrArg _ (State.direct_wrongMode idle rfl), fun hm => ?_⟩
  have refused {code : ResultCode} (h : s.applyOpenTake take = (s, DirectiveResult.refuse code)) :
      exec (.openTake take) s = .next (s.refusing code) :=
    congrArg _ (State.direct_refuse_of_active (.openTake take) hm h)
  refine ⟨fun zero => ?_, fun numbered opened => ?_, fun numbered closed full => ?_,
    fun numbered closed room same => ?_, fun numbered free room => ?_⟩
  · exact refused (zero ▸ s.applyOpenTake_zero)
  · exact refused (State.applyOpenTake_open numbered (s.takeIsOpen_iff.mpr opened))
  · exact refused (State.applyOpenTake_tableFull numbered (s.takeIsOpen_eq_false_iff.mpr closed) full)
  · exact refused (State.applyOpenTake_duplicate numbered (s.takeIsOpen_eq_false_iff.mpr closed) room same)
  · exact ⟨_, congrArg Host.Outcome.next (State.direct_openTake numbered hm free room),
      State.openTakeAct_openTakeNumber fun r hr => (free r hr).1, rfl⟩

/-- Settles O26: the act of OPEN_TAKE, with the store its binding leaves and the count of what it binds. -/
theorem openTakeBinds : Obligations.OpenTakeBinds := by
  intro s take hm numbered free room
  exact ⟨s.prerollCount, s.store.bindAll take, s.prerollCount_eq, s.store.bindAll_list take, rfl, rfl,
    Store.refresh_pressure _, congrArg _ (State.direct_openTake numbered hm free room)⟩

/-- Settles O27: NO_TAKE, or the close of the OPEN record with the drained test behind it. -/
theorem closeTakeCloses : Obligations.CloseTakeCloses := by
  intro s hm
  refine ⟨fun noneOpen => ?_, fun r hr => ?_⟩
  · exact congrArg _ (State.direct_refuse_of_active .closeTake hm (State.applyCloseTake_none noneOpen))
  intro closed bare label tested
  have test (u : TakeRecord) : s.testDrained u = tested u := by
    rw [s.testDrained_eq, s.noMaterial_eq, s.emptyTakeLabel_eq]
  have answered : s.direct .closeTake = (s.closeTake r.number .host).answering .none (leBytes 4 r.number.toNat) 0 :=
    State.direct_carry_of_active .closeTake hm (State.applyCloseTake_some hr)
  refine congrArg _ (answered.trans ?_)
  rw [State.closeTake_of_open .host hr]
  simp only [test]
  rfl

end Sys2Proof.Machine
end

