-- ==== Sys2Proof/Proofs/ProfileDirective.lean ====
section
-- One proof at a time: a stack for every waiting proof of this text would pass the memory limit of the check.
set_option Elab.async false
/-! SET_PROFILE: its codes, the profile it forms, the clamp mask, and where the profile goes (R112, R113). -/

namespace Sys2Proof.Machine

variable {p : ProfileParams}

/-! ### The codes and the fields they give (R112) -/

theorem profileCodesOk_iff : profileCodesOk p = true ↔
    p.base.toNat ≤ 8 ∧ p.mode.toNat ≤ 1 ∧ p.df.toNat ≤ 1 ∧ p.scale.toNat ≤ 1 := by
  simp [profileCodesOk, and_assoc]

/-- A parameter byte read as a number and as a byte. -/
theorem byte_toNat_eq_iff (b : Byte) {n : Nat} (h : n < 256) : b.toNat = n ↔ b = BitVec.ofNat 8 n := by
  simp [BitVec.toNat_eq_nat, h]

theorem profileFormed_mode : (profileFormed p).mode = .recordRun ↔ p.mode = 1#8 := by
  rw [← byte_toNat_eq_iff p.mode (by decide : 1 < 256)]
  by_cases h : p.mode.toNat = 1 <;> simp [profileFormed, h]

theorem profileFormed_scale : (profileFormed p).scale = .quarter ↔ p.scale = 1#8 := by
  rw [← byte_toNat_eq_iff p.scale (by decide : 1 < 256)]
  by_cases h : p.scale.toNat = 1 <;> simp [profileFormed, h]

/-- DF stands only with the base codes that drop labels (R23, R112). -/
theorem profileFormed_df : (profileFormed p).df = true ↔ p.df = 1#8 ∧ (p.base = 7#8 ∨ p.base = 8#8) := by
  rw [← byte_toNat_eq_iff p.df (by decide : 1 < 256), ← byte_toNat_eq_iff p.base (by decide : 7 < 256),
    ← byte_toNat_eq_iff p.base (by decide : 8 < 256)]
  simp [profileFormed, profileDf]

theorem profileFormed_preroll :
    (profileFormed p).preroll = if p.mode = 1#8 then 0 else min 4096 p.preroll.toNat :=
  if_congr (byte_toNat_eq_iff p.mode (by decide)) rfl (Nat.min_comm ..)

/-- The quantisers in force, each from the value the host wrote and those in force before it (R72). -/
theorem quantisers_limits (qmin qmax start : Nat) :
    let q := quantisers qmin qmax start
    q.1 = min 63 qmin ∧ q.2.1 = max q.1 (min 63 qmax) ∧ q.2.2 = max q.1 (min q.2.1 (min 63 start)) := by
  simp only [quantisers, clampNat, Nat.min_comm _ 63, and_self]

/-! ### The clamp mask (R112) -/

/-- The flags of the clamp mask, from bit 0 up. -/
def profileFlags (p : ProfileParams) : List Bool :=
  let q := profileFormed p
  [decide (p.df.toNat = 1) && !profileDf p, q.rateF != p.rateF.toNat, q.rateP != p.rateP.toNat,
    q.window != p.window.toNat, (q.qminF, q.qmaxF, q.startF) != (p.qminF.toNat, p.qmaxF.toNat, p.startF.toNat),
    (q.qminP, q.qmaxP, q.startP) != (p.qminP.toNat, p.qmaxP.toNat, p.startP.toNat),
    q.patience != p.patience.toNat, q.preroll != p.preroll.toNat, q.width != p.width.toNat,
    q.height != p.height.toNat]

theorem bit_eq_toNat_mul (b : Bool) (k : Nat) : bit b k = b.toNat * 2 ^ k := by
  cases b <;> simp [bit]

theorem ofBoolListLE_toNat_nil : (BitVec.ofBoolListLE []).toNat = 0 := rfl

theorem ofBoolListLE_toNat_cons (b : Bool) (bs : List Bool) :
    (BitVec.ofBoolListLE (b :: bs)).toNat = (BitVec.ofBoolListLE bs).toNat * 2 + b.toNat :=
  BitVec.toNat_concat ..

/-- The mask's flags lie at ten places of their own: it is the number their bits spell. -/
theorem profileMask_eq_flags (p : ProfileParams) :
    profileMask p = (BitVec.ofBoolListLE (profileFlags p)).toNat := by
  simp only [profileMask, profileFlags, bit_eq_toNat_mul, ofBoolListLE_toNat_cons, ofBoolListLE_toNat_nil]
  omega

theorem profileMask_lt (p : ProfileParams) : profileMask p < 1024 := by
  rw [profileMask_eq_flags]
  exact (BitVec.ofBoolListLE (profileFlags p)).isLt.trans_eq (by simp [profileFlags])

theorem profileMask_testBit_iff {i : Nat} {flagged : Prop} (h : (profileFlags p).getD i false = true ↔ flagged) :
    (profileMask p).testBit i = true ↔ flagged := by
  rw [profileMask_eq_flags, BitVec.testBit_toNat, BitVec.getLsbD_ofBoolListLE, h]

/-- DF is dropped where it was asked for with a base code that does not drop labels. -/
theorem profileMask_df : (profileMask p).testBit 0 = true ↔ p.df = 1#8 ∧ (profileFormed p).df = false := by
  refine profileMask_testBit_iff ?_
  rw [← byte_toNat_eq_iff p.df (by decide : 1 < 256)]
  simp [profileFlags, profileFormed]

/-- A flag over three values tells whether any of them differs. -/
theorem triple_bne_iff (a b c x y z : Nat) : ((a, b, c) != (x, y, z)) = true ↔ ¬ (a = x ∧ b = y ∧ c = z) := by
  rw [bne_iff_ne, ne_eq, Prod.mk.injEq, Prod.mk.injEq]

namespace State

variable {s : State}

/-! ### Where the profile goes (R113) -/

theorem applySetProfile_badField (h : ¬ profileCodesOk p = true) :
    s.applySetProfile p = (s, DirectiveResult.refuse .badField) :=
  if_neg h

/-- An activation while STOPPED, with the record limit of the new profile written out (R98, R102, R113). -/
theorem activateStopped_eq (s : State) (q : Profile) : s.activateStopped q = { s with
    takes := { s.takes with profile := q, pendingProfile := none }
    timecode := s.timecode.takeProfile q
    governor := Governor.ofProfile q
    store := s.store.trim (if q.mode = .recordRun ∨
      s.cadence.active.period ≠ (baseRate q.base).period then 0 else min q.preroll 3584) } := by
  rw [activateStopped, trimStore, activate_recordLimit]
  rfl

theorem applySetProfile_stopped (codes : profileCodesOk p = true) (stopped : s.cadence.run = .stopped) :
    s.applySetProfile p = (s.activateStopped (profileFormed p),
      DirectiveResult.carried (if profileMask p = 0 then .none else .clamped) [] (profileMask p)) := by
  rw [applySetProfile, if_pos codes, stopped]

theorem applySetProfile_running (codes : profileCodesOk p = true) (running : s.cadence.run = .running) :
    s.applySetProfile p =
      ({ s with takes := { s.takes with pendingProfile := some (profileFormed p) } },
        DirectiveResult.carried (if s.takes.pendingProfile = none then .pending else .replaced) []
          (profileMask p)) := by
  rw [applySetProfile, if_pos codes, running, ← stagedCode_eq]

end State

/-- Settles O24: the refused codes, each field and flag by its own lemma, and the two places of the profile. -/
theorem setProfileForms : Obligations.SetProfileForms := by
  intro s p ha
  refine ⟨fun bad => ?_, fun base mode df scale => ?_⟩
  · have codes : ¬ profileCodesOk p = true := by
      rw [profileCodesOk_iff]
      omega
    exact congrArg _ (s.direct_refuse (d := .setProfile p) ha (fun _ => rfl) (State.applySetProfile_badField codes))
  · have codes : profileCodesOk p = true := profileCodesOk_iff.mpr ⟨base, mode, df, scale⟩
    have changed {m n : Nat} : (m != n) = true ↔ m ≠ n := bne_iff_ne
    obtain ⟨minF, maxF, startF⟩ := quantisers_limits p.qminF.toNat p.qmaxF.toNat p.startF.toNat
    obtain ⟨minP, maxP, startP⟩ := quantisers_limits p.qminP.toNat p.qmaxP.toNat p.startP.toNat
    refine ⟨profileFormed p, profileMask p, profileFormed_legal codes, rfl, profileFormed_mode, profileFormed_scale,
      profileFormed_df, rfl, rfl, rfl, minF, maxF, startF, minP, maxP, startP, rfl,
      profileFormed_preroll, rfl, rfl, profileMask_lt p, profileMask_df,
      profileMask_testBit_iff changed, profileMask_testBit_iff changed, profileMask_testBit_iff changed,
      profileMask_testBit_iff (triple_bne_iff ..), profileMask_testBit_iff (triple_bne_iff ..),
      profileMask_testBit_iff changed, profileMask_testBit_iff changed, profileMask_testBit_iff changed,
      profileMask_testBit_iff changed, fun stopped => ?_, fun running => ?_⟩
    · rw [← State.activateStopped_eq]
      exact congrArg _ (s.direct_carry (d := .setProfile p) (fields := []) ha (fun _ => rfl)
        (State.applySetProfile_stopped codes stopped))
    · exact congrArg _ (s.direct_carry (d := .setProfile p) (fields := []) ha (fun _ => rfl)
        (State.applySetProfile_running codes running))

end Sys2Proof.Machine
end

