-- ==== Sys2Proof/Proofs/WriterSteps.lean ====
section
-- One proof at a time: a stack for every waiting proof of this text would pass the memory limit of the check.
set_option Elab.async false
/-! The Stream Writer's operations, each by the case it meets (R131 to R138), and the cursors its work leaves. -/

namespace Sys2Proof.Machine

theorem Writer.pool_setPool_eq (w : Writer) (p q : Pool) (x : PoolState) :
    (w.setPool p x).pool q = if q = p then x else w.pool q := by
  cases p <;> cases q <;> rfl

namespace State

variable {s : State} {p : Pool}

/-! ### Scans and closes (R131, R138) -/

/-- A scan reads an entry of a pool's table: `left` entries may still be read, that one included. -/
def scanning (s : State) (p : Pool) (entry left : Nat) : State :=
  { s with
    writer := s.writer.setPool p
      { s.writer.pool p with attempt := some { tag := s.nextTag, entry := entry, left := left } }
    link := s.link ++ [.read s.nextTag (s.board.anchor + BitVec.ofNat 64 (p.table + 32 * entry)) 32]
    nextTag := s.nextTag + 1 }

theorem attempt_free (h : (s.writer.pool p).attempt = none) :
    s.attempt p = s.scanning p (s.writer.pool p).cursor (s.writer.pool p).count := by
  simp only [attempt, h]
  rfl

theorem attempt_held (h : (s.writer.pool p).attempt ≠ none) : s.attempt p = s := by
  obtain ⟨a, ha⟩ := Option.ne_none_iff_exists'.mp h
  simp only [attempt, ha]

theorem attempt_eq (s : State) (p : Pool) : s.attempt p =
    if (s.writer.pool p).attempt ≠ none then s
    else s.scanning p (s.writer.pool p).cursor (s.writer.pool p).count := by
  split
  · exact attempt_held ‹_›
  · exact attempt_free (not_not.mp ‹_›)

theorem closeChunk_none (last : Bool) (h : (s.writer.pool p).chunk = none) : s.closeChunk p last = s := by
  simp only [closeChunk, h]

/-- The engine's part of an entry, byte by byte (R129, R171). -/
theorem enginePart_bytes (state : Nat) (short last : Bool) (take : Word) (sequence offset valid : Nat) :
    enginePart state short last take sequence offset valid =
      [BitVec.ofNat 8 state, BitVec.ofNat 8 (bit short 0 + bit last 1), 0#8, 0#8] ++ leBytes 4 take.toNat ++
        leBytes 4 sequence ++ leBytes 8 offset ++ leBytes 4 valid ++ List.replicate 4 0#8 := rfl

theorem closeChunk_some (last : Bool) {c : Chunk} (h : (s.writer.pool p).chunk = some c) :
    s.closeChunk p last = countClose { s with
      writer := s.writer.setPool p { s.writer.pool p with chunk := none }
      link := s.link ++ [.write (s.board.anchor + BitVec.ofNat 64 (p.table + 32 * c.entry) + 4#64)
        (enginePart 3 (decide (c.used < (s.writer.pool p).chunkSize)) last c.take c.sequence c.offset c.used)] } p := by
  simp only [closeChunk, h]
  rfl

/-! ### Placing bytes (R135, R151) -/

section
variable {k : Work} {src : Source} {total : Nat} {c : Chunk}

theorem placeBytes_seeks (h : (s.writer.pool p).chunk = none) : s.placeBytes p k src total = (s.attempt p, false) := by
  simp only [placeBytes, h]

theorem placeBytes_full (h : (s.writer.pool p).chunk = some c) (full : (s.writer.pool p).chunkSize ≤ c.used) :
    s.placeBytes p k src total = (s.closeChunk p false, true) := by
  simp only [placeBytes, h, if_pos full]

theorem placeBytes_writes {base : HostAddr} (h : (s.writer.pool p).chunk = some c)
    (room : c.used < (s.writer.pool p).chunkSize) (hk : k.page = some (pageOf (c.addr + c.used), base)) :
    s.placeBytes p k src total = (s.writeSegment p c k src total base, true) := by
  simp only [placeBytes, h, if_neg (Nat.not_le_of_lt room), hk, if_true]

/-- A byte on another page than the one before asks for its page. -/
theorem placeBytes_asks (h : (s.writer.pool p).chunk = some c) (room : c.used < (s.writer.pool p).chunkSize)
    (hk : ∀ base, k.page ≠ some (pageOf (c.addr + c.used), base)) :
    s.placeBytes p k src total = match s.translate .writer (c.addr + c.used) with
      | (t, some b) => (t.setWork { k with page := some (pageOf (c.addr + c.used), b) }, true)
      | (t, none) => (t, false) := by
  simp only [placeBytes, h, if_neg (Nat.not_le_of_lt room)]
  cases hp : k.page with
  | none => rfl
  | some held =>
    obtain ⟨page, base⟩ := held
    have other : ¬ page = pageOf (c.addr + c.used) := fun e => hk base (by rw [hp, e])
    exact if_neg other

/-- The writer's request for a page has hit: the work in hand holds its translation (R151, R152). -/
def onPage (s : State) (k : Work) (page way : Nat) (base : HostAddr) : State :=
  State.setWork { s with aperture := s.aperture.use page way } { k with page := some (page, base) }

theorem placeBytes_hits {way : Nat} {base : HostAddr} (h : (s.writer.pool p).chunk = some c)
    (room : c.used < (s.writer.pool p).chunkSize) (hk : ∀ b, k.page ≠ some (pageOf (c.addr + c.used), b))
    (hit : s.aperture.lookup (pageOf (c.addr + c.used)) = some (way, base)) :
    s.placeBytes p k src total = (s.onPage k (pageOf (c.addr + c.used)) way base, true) := by
  rw [placeBytes_asks h room hk, translate_hit s _ _ way base hit]
  rfl

/-- The writer's miss of a page has joined the list. -/
def awaiting (s : State) (page : Nat) : State :=
  { s with aperture := { s.aperture with misses := s.aperture.misses ++ [{ client := .writer, page := page }] } }

theorem translate_joins {addr : Nat} (miss : s.aperture.lookup (pageOf addr) = none)
    (busy : s.aperture.fetch ≠ none) : s.translate .writer addr = (s.awaiting (pageOf addr), none) := by
  obtain ⟨f, hf⟩ := Option.ne_none_iff_exists'.mp busy
  exact translate_join s _ _ f miss hf

theorem translate_fetches {addr : Nat} (miss : s.aperture.lookup (pageOf addr) = none)
    (free : s.aperture.fetch = none) :
    s.translate .writer addr = ((s.awaiting (pageOf addr)).beginFetch (pageOf addr), none) :=
  translate_miss s _ _ miss free

theorem placeBytes_joins (h : (s.writer.pool p).chunk = some c)
    (room : c.used < (s.writer.pool p).chunkSize) (hk : ∀ b, k.page ≠ some (pageOf (c.addr + c.used), b))
    (miss : s.aperture.lookup (pageOf (c.addr + c.used)) = none) (busy : s.aperture.fetch ≠ none) :
    s.placeBytes p k src total = (s.awaiting (pageOf (c.addr + c.used)), false) := by
  rw [placeBytes_asks h room hk, translate_joins miss busy]

theorem placeBytes_fetches (h : (s.writer.pool p).chunk = some c)
    (room : c.used < (s.writer.pool p).chunkSize) (hk : ∀ b, k.page ≠ some (pageOf (c.addr + c.used), b))
    (miss : s.aperture.lookup (pageOf (c.addr + c.used)) = none) (free : s.aperture.fetch = none) :
    s.placeBytes p k src total =
      ((s.awaiting (pageOf (c.addr + c.used))).beginFetch (pageOf (c.addr + c.used)), false) := by
  rw [placeBytes_asks h room hk, translate_fetches miss free]

end

/-! ### The piece in hand (R133) -/

section
variable {k : Work} {t : TakeRecord}

theorem writerStep_ending {others : List TakeRecord} (hk : s.writer.work = some k) (ht : s.takes.table = t :: others)
    (he : k.ending = true) :
    s.writerStep = if k.step = .header then s.headerStep k t else s.trailerStep k t := by
  simp only [writerStep, hk, workTake, ht, List.head?_cons, he, if_true]
  cases k.step <;> rfl

/-- The work in hand is a pair of the oldest take, committed and bound, at the head of the store. -/
structure PairInHand (s : State) (k : Work) (t : TakeRecord) (r : PairRecord) (d : PairData) : Prop where
  work : s.writer.work = some k
  pair : k.ending = false
  table : s.takes.table.head? = some t
  list : s.store.list.head? = some r
  committed : r.pair = some d
  bound : r.take ≠ 0#32

variable {r : PairRecord} {d : PairData}

theorem headPair_some {later : List PairRecord} (hl : s.store.list = r :: later) (hp : r.pair = some d)
    (hb : r.take ≠ 0#32) : s.headPair = some (r, d) := by
  simp [headPair, hl, hp, PairRecord.bound, hb]

namespace PairInHand

theorem writerStep (h : s.PairInHand k t r d) : s.writerStep = match k.step with
    | .header => s.headerStep k t
    | .full => s.fullStep k r
    | .proxy => s.proxyStep k r d
    | .entry => s.entryStep k r d
    | .trailer => (s, false) := by
  obtain ⟨later, hl⟩ := List.head?_eq_some_iff.mp h.list
  simp only [State.writerStep, h.work, workTake, h.table, h.pair, headPair_some hl h.committed h.bound]
  rfl

/-- The same pair, further on. -/
theorem next (h : s.PairInHand k t r d) {u : State} {j : Work} (work : u.writer.work = some j)
    (pair : j.ending = k.ending := by rfl) (takes : u.takes = s.takes := by rfl)
    (store : u.store = s.store := by rfl) : u.PairInHand j t r d :=
  ⟨work, pair.trans h.pair, takes ▸ h.table, store ▸ h.list, h.committed, h.bound⟩

end PairInHand

end

/-! ### The steps that place bytes (R134, R135, R137) -/

section
variable {k : Work}

theorem headerStep_places (t : TakeRecord) (left : k.written < 64) :
    s.headerStep k t = s.placeBytes .index k (.record t.headerBytes) 64 :=
  if_pos left

theorem headerStep_done (t : TakeRecord) (done : 64 ≤ k.written) : s.headerStep k t =
    ((s.mapTake t.number (fun x => { x with headerWritten := true })).setWork
      (k.goTo (if k.ending = true then .trailer else .full)), true) :=
  if_neg (Nat.not_lt_of_le done)

theorem fullStep_places {r : PairRecord} {e : Extent} (hf : r.full = some e) (left : k.written < e.len) :
    s.fullStep k r = s.placeBytes .full k (.picture .full e.start s.store.fullArea.size) e.len := by
  simp only [fullStep, hf, if_pos left]

theorem fullStep_done {r : PairRecord} (done : ∀ e, r.full = some e → e.len ≤ k.written) :
    s.fullStep k r = (s.setWork (k.goTo .proxy), true) := by
  unfold fullStep
  split
  · rfl
  · exact if_neg (Nat.not_lt_of_le (done _ ‹_›))

theorem entryStep_places (r : PairRecord) (d : PairData) (left : k.written < 64) : s.entryStep k r d =
    s.placeBytes .index k (.record (pairEntry r d k ((s.takeRecord r.take).elim 0 TakeRecord.ordinal)).bytes) 64 := by
  refine (if_pos left).trans ?_
  cases s.takeRecord r.take <;> rfl

theorem entryStep_done (r : PairRecord) (d : PairData) (done : 64 ≤ k.written) : s.entryStep k r d =
    (s.finishPair (pairEntry r d k ((s.takeRecord r.take).elim 0 TakeRecord.ordinal)), false) := by
  refine (if_neg (Nat.not_lt_of_le done)).trans ?_
  cases s.takeRecord r.take <;> rfl

end

/-! ### The work from one wait to the next (R133) -/

theorem runWriter_succ (s : State) (n : Nat) :
    s.runWriter (n + 1) = if s.writerStep.2 = true then s.writerStep.1.runWriter n else s.writerStep.1 := by
  rw [runWriter]
  obtain ⟨t, go⟩ := s.writerStep
  cases go <;> rfl

/-- The writer must wait after one step. -/
theorem work_stops {t : State} (h : s.writerStep = (t, false)) : s.work = t :=
  (s.work_step t).2 h

/-- The writer must wait after two steps. -/
theorem work_stops_after {t u : State} (first : s.writerStep = (t, true)) (second : t.writerStep = (u, false)) :
    s.work = u := by
  rw [(s.work_step t).1 first, runWriter_succ, second]
  rfl

/-- What a step has issued stays ahead of what the work issues after it. -/
theorem work_prefix {t : State} (h : s.writerStep = (t, true)) : t.link <+: s.work.link := by
  rw [(s.work_step t).1 h]
  exact runWriter_link _ t

theorem work_prefix_after {t u : State} (first : s.writerStep = (t, true)) (second : t.writerStep = (u, true)) :
    u.link <+: s.work.link := by
  rw [(s.work_step t).1 first, runWriter_succ, second]
  exact runWriter_link _ u

section
variable {k : Work} {t : TakeRecord} {r : PairRecord} {d : PairData} {e : Extent} {c : Chunk}

theorem PairInHand.writerStep_full (h : s.PairInHand k t r d) (step : k.step = .full) (hf : r.full = some e)
    (left : k.written < e.len) :
    s.writerStep = s.placeBytes .full k (.picture .full e.start s.store.fullArea.size) e.len := by
  rw [h.writerStep, step]
  exact fullStep_places hf left

/-- A full picture goes on in the chunk held, at the translation of its next byte's page: the one the writer holds, or
else one that hits (R135, R151). -/
theorem PairInHand.work_places_full {base : HostAddr} (h : s.PairInHand k t r d) (step : k.step = .full)
    (hf : r.full = some e) (left : k.written < e.len) (hc : s.writer.fullPool.chunk = some c)
    (room : c.used < s.writer.fullPool.chunkSize)
    (held : k.page = some (pageOf (c.addr + c.used), base) ∨
      (∀ b, k.page ≠ some (pageOf (c.addr + c.used), b)) ∧
        ∃ way, s.aperture.lookup (pageOf (c.addr + c.used)) = some (way, base)) :
    s.link ++ [.payload (hostAt base (c.addr + c.used)) .full ((e.start + k.written) % s.store.fullArea.size)
      (min (e.len - k.written)
        (min (s.writer.fullPool.chunkSize - c.used) (pageBytes - pageOffset (c.addr + c.used))))] <+: s.work.link := by
  have first := h.writerStep_full step hf left
  rcases held with held | ⟨elsewhere, way, hit⟩
  · exact work_prefix (first.trans (placeBytes_writes hc room held))
  · have asked := first.trans (placeBytes_hits hc room elsewhere hit)
    have onward := h.next (u := s.onPage k (pageOf (c.addr + c.used)) way base) rfl
    exact work_prefix_after asked ((onward.writerStep_full step hf left).trans (placeBytes_writes hc room rfl))

/-- A chunk with no room for the next byte of a full picture is closed, and the scan for another begins (R131, R138). -/
theorem PairInHand.work_closes_full (h : s.PairInHand k t r d) (step : k.step = .full) (hf : r.full = some e)
    (left : k.written < e.len) (hc : s.writer.fullPool.chunk = some c) (full : s.writer.fullPool.chunkSize ≤ c.used)
    (free : s.writer.fullPool.attempt = none) :
    s.work = { s.closeChunk .full false with
      writer := { (s.closeChunk .full false).writer with fullPool := { s.writer.fullPool with
        chunk := none
        attempt := some { tag := s.nextTag, entry := s.writer.fullPool.cursor, left := s.writer.fullPool.count } } }
      link := (s.closeChunk .full false).link ++ [.read s.nextTag
        (s.board.anchor + BitVec.ofNat 64 (Pool.full.table + 32 * s.writer.fullPool.cursor)) 32]
      nextTag := s.nextTag + 1 } := by
  obtain ⟨-, -, -, -, -, store, takes, -, board, -, -, -, -, tag, -⟩ := s.closeChunk_frame .full false
  have writer : (s.closeChunk .full false).writer =
      s.writer.setPool .full { s.writer.fullPool with chunk := none } := s.closeChunk_writer .full false
  have closes := (h.writerStep_full step hf left).trans (placeBytes_full hc full)
  have onward := h.next (u := s.closeChunk .full false) (by rw [writer]; exact h.work) rfl takes store
  have seeks := (onward.writerStep_full step hf left).trans (placeBytes_seeks (by rw [writer]; rfl))
  rw [work_stops_after closes seeks, attempt_free (by rw [writer]; exact free)]
  simp only [scanning, writer, board, tag]
  rfl

end

/-! ### What the work leaves of the pools (R131, R138) -/

/-- Every pool's cursor is the same. -/
structure SameCursors (s t : State) : Prop where
  cursor : ∀ q, (t.writer.pool q).cursor = (s.writer.pool q).cursor

namespace SameCursors

theorem refl (s : State) : s.SameCursors s :=
  ⟨fun _ => rfl⟩

theorem trans {t u : State} (h : s.SameCursors t) (g : t.SameCursors u) : s.SameCursors u :=
  ⟨fun q => (g.cursor q).trans (h.cursor q)⟩

theorem of_setPool {t : State} {x : PoolState} (hw : t.writer = s.writer.setPool p x)
    (hx : x.cursor = (s.writer.pool p).cursor) : s.SameCursors t where
  cursor q := by
    rw [hw, Writer.pool_setPool_eq]
    split
    · rw [‹q = p›, hx]
    · rfl

end SameCursors

theorem attempt_cursors (s : State) (p : Pool) : s.SameCursors (s.attempt p) := by
  rw [attempt_eq]
  split
  · exact .refl s
  · exact .of_setPool rfl rfl

theorem closeChunk_cursors (s : State) (p : Pool) (last : Bool) : s.SameCursors (s.closeChunk p last) :=
  .of_setPool (s.closeChunk_writer p last) rfl

theorem setWork_cursors (s : State) (k : Work) : s.SameCursors (s.setWork k) :=
  ⟨fun q => by cases q <;> rfl⟩

theorem writeSegment_cursors (s : State) (p : Pool) (c : Chunk) (k : Work) (src : Source) (total : Nat)
    (base : HostAddr) : s.SameCursors (s.writeSegment p c k src total base) := by
  unfold writeSegment
  extract_lets x addr len place first next
  have placed : s.SameCursors ((s.emit (src.item (hostAt base addr) k.written len)).setPool p
      { x with chunk := some { c with used := c.used + len } }) := .of_setPool (setPool_writer ..) rfl
  exact placed.trans (setWork_cursors ..)

theorem placeBytes_cursors (s : State) (p : Pool) (k : Work) (src : Source) (total : Nat) :
    s.SameCursors (s.placeBytes p k src total).1 := by
  cases hc : (s.writer.pool p).chunk with
  | none =>
    rw [placeBytes_seeks hc]
    exact s.attempt_cursors p
  | some c =>
    rcases Nat.lt_or_ge c.used (s.writer.pool p).chunkSize with room | full
    · by_cases held : ∃ base, k.page = some (pageOf (c.addr + c.used), base)
      · obtain ⟨base, hk⟩ := held
        rw [placeBytes_writes hc room hk]
        exact s.writeSegment_cursors ..
      · rw [placeBytes_asks hc room (not_exists.mp held)]
        have same : s.SameCursors (s.translate .writer (c.addr + c.used)).1 := ⟨fun q => by rw [s.translate_work]⟩
        split <;> (rename_i e; rw [e] at same)
        · exact same.trans (setWork_cursors ..)
        · exact same
    · rw [placeBytes_full hc full]
      exact s.closeChunk_cursors p false

theorem finishTake_cursors (s : State) : s.SameCursors s.finishTake := by
  unfold finishTake
  extract_lets t table u v w
  have kept : w = (s.closeChunk .index true).writer := by simp [w, v, u, t]
  have closed : s.SameCursors (t.setWriter w) :=
    ⟨fun q => by rw [setWriter_writer, kept]; exact (s.closeChunk_cursors .index true).cursor q⟩
  exact closed.trans ⟨fun q => by cases q <;> rfl⟩

theorem headerStep_cursors (s : State) (k : Work) (r : TakeRecord) : s.SameCursors (s.headerStep k r).1 := by
  unfold headerStep
  split
  · exact s.placeBytes_cursors ..
  · have marked : s.SameCursors (s.mapTake r.number (fun x => { x with headerWritten := true })) := ⟨fun _ => rfl⟩
    exact marked.trans (setWork_cursors ..)

theorem fullStep_cursors (s : State) (k : Work) (r : PairRecord) : s.SameCursors (s.fullStep k r).1 := by
  unfold fullStep
  split
  · exact s.setWork_cursors _
  · split
    · exact s.placeBytes_cursors ..
    · exact s.setWork_cursors _

theorem proxyStep_cursors (s : State) (k : Work) (r : PairRecord) (d : PairData) :
    s.SameCursors (s.proxyStep k r d).1 := by
  have settled (x : ProxyState) : s.SameCursors (s.settleProxy k x).1 := s.setWork_cursors _
  unfold proxyStep
  split
  · exact settled _
  · exact settled _
  · split
    · exact settled _
    · split
      · exact settled _
      · split
        · exact settled _
        · split
          · exact s.closeChunk_cursors ..
          · exact s.placeBytes_cursors ..

theorem entryStep_cursors (s : State) (k : Work) (r : PairRecord) (d : PairData) :
    s.SameCursors (s.entryStep k r d).1 := by
  unfold entryStep
  extract_lets ordinal e
  split
  · exact s.placeBytes_cursors ..
  · exact ⟨fun q => by cases q <;> rfl⟩

theorem trailerStep_cursors (s : State) (k : Work) (r : TakeRecord) : s.SameCursors (s.trailerStep k r).1 := by
  unfold trailerStep
  split
  · split
    · exact s.placeBytes_cursors ..
    · split
      · exact .refl s
      · exact (s.closeChunk_cursors ..).trans (finishTake_cursors _)
  · split
    · exact .refl s
    · exact ((s.closeChunk_cursors ..).trans (closeChunk_cursors ..)).trans (setWork_cursors ..)

theorem writerStep_cursors (s : State) : s.SameCursors s.writerStep.1 := by
  unfold writerStep
  split
  · exact .refl s
  · split
    · exact .refl s
    · split
      · split
        · exact s.headerStep_cursors ..
        · exact s.trailerStep_cursors ..
      · split
        · exact .refl s
        · split
          · exact s.headerStep_cursors ..
          · exact s.fullStep_cursors ..
          · exact s.proxyStep_cursors ..
          · exact s.entryStep_cursors ..
          · exact .refl s

theorem runWriter_cursors (n : Nat) (s : State) : s.SameCursors (s.runWriter n) := by
  induction n generalizing s with
  | zero => exact .refl s
  | succ n ih =>
    rw [runWriter_succ]
    split
    · exact s.writerStep_cursors.trans (ih _)
    · exact s.writerStep_cursors

theorem work_cursors (s : State) : s.SameCursors s.work :=
  runWriter_cursors _ s

end State
end Sys2Proof.Machine
end

