-- ==== Sys2Proof/Proofs/ChunkEntries.lean ====
section
-- One proof at a time: a stack for every waiting proof of this text would pass the memory limit of the check.
set_option Elab.async false
/-! CHUNK_ENTRY_READ_DONE: the ends of attempts, an entry taken, and how bytes are placed and chunks closed (R131 to
R143). -/

namespace Sys2Proof.Machine

namespace State

variable {s : State} {p : Pool} {a : Attempt} {bytes : List Byte}

/-! ### The ends of attempts (R131, R132, R141, R143) -/

/-- The completion of a read of one attempt alone. -/
theorem exec_chunkEntryReadDone {tag : Nat} (data : Option (List Byte)) (ha : (s.writer.pool p).attempt = some a)
    (mine : a.tag = tag) (others : ∀ q b, q ≠ p → (s.writer.pool q).attempt = some b → b.tag ≠ tag) :
    exec (.chunkEntryReadDone tag data) s = .next (s.entryRead p a data) := by
  have here : s.writer.attemptWith tag p = some a := by simp only [Writer.attemptWith, ha, if_pos mine]
  have elsewhere (q : Pool) (h : q ≠ p) : s.writer.attemptWith tag q = none := by
    cases hq : (s.writer.pool q).attempt with
    | none => simp only [Writer.attemptWith, hq]
    | some b => simp only [Writer.attemptWith, hq, if_neg (others q b h hq)]
  show execChunkEntryReadDone tag data s = _
  unfold execChunkEntryReadDone
  cases p with
  | full => rw [here]
  | proxy => rw [elsewhere .full nofun, here]
  | index => rw [elsewhere .full nofun, elsewhere .proxy nofun, here]

/-- The completion of no attempt's read (R147). -/
theorem exec_chunkEntryReadDone_abandoned {tag : Nat} (data : Option (List Byte))
    (none : ∀ p a, (s.writer.pool p).attempt = some a → a.tag ≠ tag) :
    exec (.chunkEntryReadDone tag data) s = .next s := by
  have nowhere (q : Pool) : s.writer.attemptWith tag q = .none := by
    cases hq : (s.writer.pool q).attempt with
    | none => simp only [Writer.attemptWith, hq]
    | some b => simp only [Writer.attemptWith, hq, if_neg (none q b hq)]
  show execChunkEntryReadDone tag data s = _
  simp only [execChunkEntryReadDone, nowhere]

/-- The attempt on a pool has ended. -/
def unattempted (s : State) (p : Pool) : State :=
  { s with writer := s.writer.setPool p { s.writer.pool p with attempt := none } }

theorem attemptFailed_suspended (cause : WaitCause) (hs : s.writer.suspended = true) :
    s.attemptFailed .proxy cause = (s.unattempted .proxy).resumeEnding :=
  if_pos ⟨rfl, hs⟩

theorem attemptFailed_suspends (cause : WaitCause) (hs : s.writer.suspended = false)
    (out : s.writer.patienceOut = true) :
    s.attemptFailed .proxy cause = (s.unattempted .proxy).beginSuspension :=
  (if_neg (by simp [hs])).trans (if_pos ⟨rfl, out⟩)

/-- The writer waits on a pool whose attempt has ended; the count of a PROXY wait under way stands (R132, R141). -/
def waitingOn (w : Writer) (p : Pool) (cause : WaitCause) : Writer :=
  { w.setPool p { w.pool p with attempt := none } with
    phase := .waiting, wait := some (p, cause)
    patienceOut := if w.waitsProxy = true then w.patienceOut else false
    proxyWait := if w.waitsProxy = true then w.proxyWait else 0 }

theorem attemptFailed_waits (cause : WaitCause)
    (h : p ≠ .proxy ∨ s.writer.suspended = false ∧ s.writer.patienceOut = false) :
    s.attemptFailed p cause = { s with writer := waitingOn s.writer p cause } := by
  have unsuspended : ¬ (p = .proxy ∧ s.writer.suspended = true) := by
    rintro ⟨hp, hs⟩
    exact h.elim (· hp) fun ⟨hn, _⟩ => absurd (hn.symm.trans hs) nofun
  have patient : ¬ (p = .proxy ∧ s.writer.patienceOut = true) := by
    rintro ⟨hp, ho⟩
    exact h.elim (· hp) fun ⟨_, hn⟩ => absurd (hn.symm.trans ho) nofun
  have waits : s.attemptFailed p cause = (s.unattempted p).waitOn p cause :=
    (if_neg unsuspended).trans (if_neg patient)
  rw [waits]
  cases p <;> rfl

/-- An ending take goes on where it waited for a PROXY attempt, at its closes or with its trailer written (R140). -/
theorem resumeEnding_eq (s : State) : s.resumeEnding = match s.writer.work with
    | none => s
    | some k =>
      if k.ending = true ∧ k.step = .trailer ∧ (k.closed = false ∨ 64 ≤ k.written) then s.work else s := by
  unfold resumeEnding
  cases s.writer.work with
  | none => rfl
  | some k => simp [and_assoc]

/-! ### What an entry read brings (R131) -/

theorem entryRead_passed (h : fieldAt bytes 4 1 ≠ 1) : s.entryRead p a (some bytes) = s.scanOn p a :=
  if_pos h

theorem usableAddress_iff (addr size : Nat) :
    usableAddress addr size = true ↔ addr % 2097152 = 0 ∧ addr + size ≤ 4294967296 := by
  simp only [usableAddress, Bool.and_eq_true, decide_eq_true_eq]
  exact Iff.rfl

theorem entryRead_rejected (h : fieldAt bytes 4 1 = 1) (bad : fieldAt bytes 0 4 % 2097152 ≠ 0 ∨
      4294967296 < fieldAt bytes 0 4 + (s.writer.pool p).chunkSize) :
    s.entryRead p a (some bytes) = (s.rejectEntry p a.entry).scanOn p a := by
  have unusable : ¬ usableAddress (fieldAt bytes 0 4) (s.writer.pool p).chunkSize = true := by
    rw [usableAddress_iff]
    omega
  exact (if_neg (not_not_intro h)).trans (if_neg unusable)

theorem entryRead_taken (h : fieldAt bytes 4 1 = 1) (aligned : fieldAt bytes 0 4 % 2097152 = 0)
    (fits : fieldAt bytes 0 4 + (s.writer.pool p).chunkSize ≤ 4294967296) :
    s.entryRead p a (some bytes) = s.takeEntry p a.entry (fieldAt bytes 0 4) :=
  (if_neg (not_not_intro h)).trans (if_pos ((usableAddress_iff ..).mpr ⟨aligned, fits⟩))

theorem scanOn_last (h : a.left ≤ 1) : s.scanOn p a = s.attemptFailed p .noChunk :=
  if_pos h

theorem scanOn_next (h : 1 < a.left) :
    s.scanOn p a = s.scanning p ((a.entry + 1) % (s.writer.pool p).count) (a.left - 1) :=
  if_neg (Nat.not_le_of_lt h)

/-! ### An entry taken (R131, R139) -/

/-- A pool takes an entry's chunk. -/
def taking (x : PoolState) (entry addr : Nat) (take : Word) : PoolState :=
  { x with
    chunk := some { entry := entry, addr := addr, take := take, sequence := x.nextSequence
                    offset := x.nextSequence * x.chunkSize, used := 0 }
    attempt := none, cursor := (entry + 1) % x.count, nextSequence := (x.nextSequence + 1) % 4294967296 }

/-- The write that makes an entry FILLING (R129, R131). -/
def fillingItem (s : State) (p : Pool) (entry : Nat) : LinkItem :=
  let x := s.writer.pool p
  .write (s.board.anchor + BitVec.ofNat 64 (p.table + 32 * entry) + 4#64)
    ([2#8, 0#8, 0#8, 0#8] ++ leBytes 4 (s.writer.take.getD 0#32).toNat ++ leBytes 4 x.nextSequence ++
      leBytes 8 (x.nextSequence * x.chunkSize) ++ List.replicate 8 0#8)

/-- The entry is written FILLING and its chunk is the pool's, the writer else as `w`. -/
def filling (s : State) (p : Pool) (entry addr : Nat) (w : Writer) : State :=
  { s with
    writer := w.setPool p (taking (s.writer.pool p) entry addr (s.writer.take.getD 0#32))
    link := s.link ++ [s.fillingItem p entry] }

theorem takeEntry_suspended (entry addr : Nat) (hs : s.writer.suspended = true) :
    s.takeEntry .proxy entry addr =
      (s.filling .proxy entry addr { s.writer with suspended := false }).resumeEnding :=
  if_pos ⟨rfl, hs⟩

theorem takeEntry_goes (entry addr : Nat) (h : p ≠ .proxy ∨ s.writer.suspended = false) :
    s.takeEntry p entry addr = (s.filling p entry addr { s.writer with
      phase := .writing, wait := none, proxyWait := if p = .proxy then 0 else s.writer.proxyWait
      patienceOut := false }).work := by
  refine (if_neg ?_).trans ?_
  · rintro ⟨hp, hs⟩
    exact h.elim (· hp) fun hn => absurd (hn.symm.trans hs) nofun
  · cases p <;> rfl

theorem resumeEnding_link (s : State) : s.link <+: s.resumeEnding.link := by
  rw [resumeEnding_eq]
  split
  · exact List.prefix_refl _
  · split
    · exact s.work_link
    · exact List.prefix_refl _

theorem resumeEnding_standing (s : State) : s.resumeEnding.writer.standing = s.writer.standing := by
  rw [resumeEnding_eq]
  split
  · rfl
  · split
    · exact s.work_standing
    · rfl

theorem resumeEnding_cursors (s : State) : s.SameCursors s.resumeEnding := by
  rw [resumeEnding_eq]
  split
  · exact .refl s
  · split
    · exact s.work_cursors
    · exact .refl s

theorem takeEntry_link (s : State) (p : Pool) (entry addr : Nat) :
    s.link ++ [s.fillingItem p entry] <+: (s.takeEntry p entry addr).link := by
  by_cases h : p = .proxy ∧ s.writer.suspended = true
  · obtain ⟨rfl, hs⟩ := h
    rw [takeEntry_suspended _ _ hs]
    exact resumeEnding_link (s.filling ..)
  · rw [takeEntry_goes _ _ (by simpa [imp_iff_not_or] using h)]
    exact work_link (s.filling ..)

theorem filling_cursor (s : State) (p : Pool) (entry addr : Nat) (w : Writer) :
    ((s.filling p entry addr w).writer.pool p).cursor = (entry + 1) % (s.writer.pool p).count := by
  rw [filling, Writer.pool_setPool]
  rfl

theorem takeEntry_cursor (s : State) (p : Pool) (entry addr : Nat) :
    ((s.takeEntry p entry addr).writer.pool p).cursor = (entry + 1) % (s.writer.pool p).count := by
  by_cases h : p = .proxy ∧ s.writer.suspended = true
  · obtain ⟨rfl, hs⟩ := h
    rw [takeEntry_suspended _ _ hs, (resumeEnding_cursors _).cursor, filling_cursor]
  · rw [takeEntry_goes _ _ (by simpa [imp_iff_not_or] using h), (work_cursors _).cursor, filling_cursor]

/-- A chunk that the writer waited for ends its wait (R132, R141). -/
theorem takeEntry_ends_wait (entry addr : Nat) (h : p ≠ .proxy ∨ s.writer.suspended = false) :
    (s.takeEntry p entry addr).writer.wait = none ∧
      (s.takeEntry p entry addr).writer.suspended = s.writer.suspended ∧
      (s.takeEntry p entry addr).writer.proxyWait = if p = .proxy then 0 else s.writer.proxyWait := by
  have standing : (s.takeEntry p entry addr).writer.standing = (none, if p = .proxy then 0 else s.writer.proxyWait,
      s.writer.suspended, s.writer.blocked, false) := by
    rw [takeEntry_goes _ _ h, work_standing]
    exact Writer.setPool_standing ..
  simp only [Writer.standing, Prod.mk.injEq] at standing
  obtain ⟨wait, proxyWait, suspended, -⟩ := standing
  exact ⟨wait, suspended, proxyWait⟩

/-- A suspension attempt's chunk ends the suspension and no wait (R143). -/
theorem takeEntry_ends_suspension (entry addr : Nat) (hs : s.writer.suspended = true) :
    (s.takeEntry .proxy entry addr).writer.wait = s.writer.wait ∧
      (s.takeEntry .proxy entry addr).writer.suspended = false := by
  have standing : (s.takeEntry .proxy entry addr).writer.standing =
      (s.writer.wait, s.writer.proxyWait, false, s.writer.blocked, s.writer.patienceOut) := by
    rw [takeEntry_suspended _ _ hs, resumeEnding_standing]
    rfl
  simp only [Writer.standing, Prod.mk.injEq] at standing
  obtain ⟨wait, -, suspended, -⟩ := standing
  exact ⟨wait, suspended⟩

/-- A full picture goes on at the start of the chunk just taken, on a page of its own (R135, R151). -/
theorem takeEntry_places_full {k : Work} {t : TakeRecord} {r : PairRecord} {d : PairData} {e : Extent}
    {addr : Nat} {base : HostAddr} (h : s.PairInHand k t r d) (step : k.step = .full) (hf : r.full = some e)
    (left : k.written < e.len) (entry : Nat) (aligned : addr % 2097152 = 0) (size : 0 < s.writer.fullPool.chunkSize)
    (held : k.page = some (addr / 2097152, base) ∨ (∀ b, k.page ≠ some (addr / 2097152, b)) ∧
      ∃ way, s.aperture.lookup (addr / 2097152) = some (way, base)) :
    s.link ++ [s.fillingItem .full entry, .payload base .full ((e.start + k.written) % s.store.fullArea.size)
      (min (e.len - k.written) (min s.writer.fullPool.chunkSize 2097152))] <+: (s.takeEntry .full entry addr).link := by
  rw [takeEntry_goes (p := .full) _ _ (.inl nofun)]
  have placed := (h.next (u := s.filling .full entry addr { s.writer with
      phase := .writing, wait := none, proxyWait := s.writer.proxyWait, patienceOut := false }) h.work).work_places_full
    step hf left rfl size held
  have offset : pageOffset (addr + 0) = 0 := aligned
  rw [hostAt, offset, BitVec.add_zero] at placed
  rw [List.append_cons]
  exact placed

/-- The flags of an entry: SHORT in bit 0 and LAST_OF_TAKE in bit 1 (R129). -/
theorem entryFlags_eq (short : Prop) [Decidable short] (last : Bool) :
    bit (decide short) 0 + bit last 1 = (if short then 1 else 0) + (if last = true then 2 else 0) := by
  simp [bit]

end State

open State in
/-- Settles O52: each outcome of the entry read by its own rule, what an entry taken leaves by the rules of `takeEntry`,
and the rules of placing bytes and of a close. -/
theorem chunkEntryRead : Obligations.ChunkEntryRead := by
  refine ⟨fun s tag data => ⟨exec_chunkEntryReadDone_abandoned data, ?_⟩, ?_, ?_⟩
  · intro p a ha mine others x next entry waits frame take detail scanned resumed
    have run (d : Option (List Byte)) := exec_chunkEntryReadDone d ha mine others
    have failed (c : WaitCause) (h : p ≠ .proxy ∨ s.writer.suspended = false ∧ s.writer.patienceOut = false)
        {t : State} (ht : t.writer = s.writer) : t.attemptFailed p c = { t with writer := waits c } := by
      rw [attemptFailed_waits c (by rwa [ht]), ht]
      rfl
    have ended (c : WaitCause) (hp : p = .proxy) (hs : s.writer.suspended = true) {t : State}
        (ht : t.writer = s.writer) : t.attemptFailed p c =
          resumed { t with writer := { s.writer with proxyPool := { x with attempt := none } } } := by
      subst hp
      rw [attemptFailed_suspended c (by rwa [ht]), resumeEnding_eq]
      simp only [unattempted, ht]
      rfl
    have faulted : (s.reportFault .linkRead frame take detail).writer = s.writer := reportFault_writer ..
    have waiting (h : p ≠ .proxy ∨ s.writer.suspended = false ∧ s.writer.patienceOut = false) :
        (data = none → exec (.chunkEntryReadDone tag data) s = .next
          { s.reportFault .linkRead frame take detail with writer := waits .entryRead }) ∧
        (∀ bytes, data = some bytes → fieldAt bytes 4 1 ≠ 1 → a.left ≤ 1 →
          exec (.chunkEntryReadDone tag data) s = .next { s with writer := waits .noChunk }) := by
      refine ⟨?_, ?_⟩
      · rintro rfl
        exact (run none).trans (congrArg _ (failed .entryRead h faulted))
      · rintro bytes rfl other last
        rw [run, entryRead_passed other, scanOn_last last, failed .noChunk h rfl]
    have leaves (hp : p = .proxy) (hs : s.writer.suspended = true) :
        (data = none → exec (.chunkEntryReadDone tag data) s = .next
          (resumed { s.reportFault .linkRead frame take detail with
            writer := { s.writer with proxyPool := { x with attempt := none } } })) ∧
        (∀ bytes, data = some bytes → fieldAt bytes 4 1 ≠ 1 → a.left ≤ 1 →
          exec (.chunkEntryReadDone tag data) s = .next
            (resumed { s with writer := { s.writer with proxyPool := { x with attempt := none } } })) := by
      refine ⟨?_, ?_⟩
      · rintro rfl
        exact (run none).trans (congrArg _ (ended .entryRead hp hs faulted))
      · rintro bytes rfl other last
        rw [run, entryRead_passed other, scanOn_last last, ended .noChunk hp hs rfl]
    have idle (t : State) (hw : s.writer.work = none) : resumed t = t := by simp only [resumed, hw]
    refine ⟨waiting, leaves, fun hs ho => waiting (.inr ⟨hs, ho⟩), fun hp hs hw => ?_, ?_, ?_, ?_⟩
    · have left := leaves hp hs
      simp only [idle _ hw] at left
      exact left
    · rintro bytes rfl other more
      rw [run, entryRead_passed other, scanOn_next more]
      rfl
    · rintro bytes rfl empty bad rejected
      have kept : rejected.writer = s.writer := reportFault_writer ..
      have step : s.entryRead p a (some bytes) = rejected.scanOn p a := entryRead_rejected empty bad
      refine ⟨fun more => ?_, fun last h => ?_, fun last hp hs => ?_⟩
      · have tag : rejected.nextTag = s.nextTag := reportFault_nextTag ..
        have board : rejected.board = s.board := reportFault_board ..
        rw [run, step, scanOn_next more]
        simp only [scanning, kept, tag, board]
        rfl
      · rw [run, step, scanOn_last last, failed .noChunk h kept]
      · rw [run, step, scanOn_last last, ended .noChunk hp hs kept]
    · rintro bytes rfl empty aligned fits filling taken
      have ran := (run (some bytes)).trans (congrArg _ (entryRead_taken empty aligned fits))
      obtain ⟨cadence, -, -, lanes, -, board, -⟩ := s.takeEntry_frame p a.entry (fieldAt bytes 0 4)
      refine ⟨_, ran, takeEntry_link .., ?_, takeEntry_cursor .., cadence, lanes, board, ?_, ?_, ?_, ?_⟩
      · intro k t others r d later e base page hp hw he step left ht hl hc hb hf size held
        subst hp
        have inHand := PairInHand.mk hw he (t := t) (by rw [ht]; rfl) (r := r) (by rw [hl]; rfl) hc hb
        exact takeEntry_places_full inHand step hf left a.entry aligned size held
      · exact takeEntry_ends_wait _ _
      · rintro rfl hs
        exact takeEntry_ends_suspension _ _ hs
      · intro hp hs hw
        subst hp
        rw [takeEntry_suspended _ _ hs, resumeEnding_eq]
        simp only [State.filling, Writer.setPool, hw]
        rfl
      · intro hp hs
        subst hp
        rw [takeEntry_suspended _ _ hs, resumeEnding_eq]
        rfl
  · intro s p k src total x
    refine ⟨placeBytes_seeks, ?_⟩
    intro c hc page inPage
    refine ⟨placeBytes_full hc, fun room => ⟨fun elsewhere => ⟨fun way base => placeBytes_hits hc room elsewhere,
      placeBytes_joins hc room elsewhere, placeBytes_fetches hc room elsewhere⟩, fun base hk => ?_⟩⟩
    have written := placeBytes_writes (src := src) (total := total) hc room hk
    cases src with
    | record bytes => exact written
    | picture => exact written
  · intro s p last x
    refine ⟨closeChunk_none last, fun c hc => ?_⟩
    rw [closeChunk_some last hc, enginePart_bytes, entryFlags_eq]

end Sys2Proof.Machine
end

