-- ==== Sys2Proof/Proofs/PatienceAndAge.lean ====
section
-- One proof at a time: a stack for every waiting proof of this text would pass the memory limit of the check.
set_option Elab.async false
/-! The proxy patience and the coalescing age: suspension, a frame start at a waiting writer, and CHUNK (R141 to R145,
R187). -/

namespace Sys2Proof.Machine

theorem Writer.waitsProxy_iff (w : Writer) :
    w.waitsProxy = true ↔ ∃ c, w.wait = some (.proxy, c) ∧ c ≠ .translationRead := by
  unfold Writer.waitsProxy
  split
  · rename_i h
    exact ⟨fun _ => ⟨_, h, nofun⟩, fun _ => rfl⟩
  · rename_i h
    exact ⟨fun _ => ⟨_, h, nofun⟩, fun _ => rfl⟩
  · rename_i noChunk entryRead
    refine ⟨nofun, fun ⟨c, hw, hc⟩ => ?_⟩
    cases c with
    | noChunk => exact absurd hw noChunk
    | entryRead => exact absurd hw entryRead
    | translationRead => exact absurd rfl hc

theorem Notices.aged_iff (n : Notices) :
    n.aged = true ↔ 0 < n.total ∧ n.ageLimit ≠ 0 ∧ n.ageLimit ≤ n.age := by
  simp [Notices.aged, and_assoc]

namespace State

variable {s : State} {p : Pool}

/-! ### Suspension (R141, R142) -/

/-- Suspension has begun, its fault reported for a frame and a take, and the writer goes on to the Pair Entry. -/
def suspending (s : State) (frame take : Word) : State :=
  { s.reportFault .proxySuspended frame take 0x100#32 with writer := { s.writer with
    phase := .writing, wait := none, proxyWait := 0, suspended := true, patienceOut := false
    work := s.writer.work.map (fun k =>
      { k with step := .entry, written := 0, page := none, proxyState := .absent }) } }

theorem beginSuspension_eq {frame take : Word} (hf : s.writerFrame = frame) (ht : s.writer.take.getD 0#32 = take) :
    s.beginSuspension = (s.suspending frame take).work := by
  subst hf ht
  simp only [beginSuspension, writerFault, reportFault_writer]
  rfl

theorem exec_proxySuspended_begins {c : WaitCause} (hw : s.writer.wait = some (.proxy, c)) (hc : c ≠ .translationRead)
    (ha : s.writer.proxyPool.attempt = none) (out : s.takes.profile.patience ≤ s.writer.proxyWait) :
    exec .proxySuspended s = .next s.beginSuspension :=
  if_pos ⟨(Writer.waitsProxy_iff _).mpr ⟨c, hw, hc⟩, by rw [ha]; rfl, out⟩

theorem exec_proxySuspended_stands (h : (∀ c, s.writer.wait = some (.proxy, c) → c = .translationRead) ∨
      s.writer.proxyPool.attempt ≠ none ∨ s.writer.proxyWait < s.takes.profile.patience) :
    exec .proxySuspended s = .next s := by
  refine if_neg ?_
  rintro ⟨waits, free, out⟩
  obtain ⟨c, hw, hc⟩ := (Writer.waitsProxy_iff _).mp waits
  rcases h with other | busy | early
  · exact hc (other c hw)
  · exact busy (Option.isNone_iff_eq_none.mp free)
  · omega

/-- The entry of the pair whose picture is given up needs an INDEX chunk: its scan begins. -/
theorem suspending_seeks {k : Work} {t : TakeRecord} {r : PairRecord} {d : PairData} (h : s.PairInHand k t r d)
    (hc : s.writer.indexPool.chunk = none) (ha : s.writer.indexPool.attempt = none) (frame take : Word) :
    (s.suspending frame take).work = (s.suspending frame take).scanning .index s.writer.indexPool.cursor
      s.writer.indexPool.count := by
  have entry := h.next (u := s.suspending frame take)
    (j := { k with step := .entry, written := 0, page := none, proxyState := .absent })
    (by simp only [suspending, h.work, Option.map_some]) rfl (reportFault_takes ..) (reportFault_store ..)
  have step : (s.suspending frame take).writerStep = ((s.suspending frame take).attempt .index, false) := by
    rw [entry.writerStep]
    exact (entryStep_places r d (Nat.zero_lt_succ 63)).trans (placeBytes_seeks hc)
  rw [work_stops step]
  exact attempt_free (p := .index) ha

/-! ### A frame start at a waiting writer (R132, R141, R145) -/

theorem writerWaitFrameStart_stands (h : s.writer.phase ≠ .waiting ∨ s.writer.wait = none) :
    s.writerWaitFrameStart = s := by
  unfold writerWaitFrameStart
  split
  · rename_i waiting
    rw [h.resolve_left (not_not_intro waiting)]
  · rfl

theorem writerWaitFrameStart_translation {c : WaitCause} (hp : s.writer.phase = .waiting)
    (hw : s.writer.wait = some (p, c)) (hc : c = .translationRead) :
    s.writerWaitFrameStart = s.retryTranslation := by
  subst hc
  simp only [writerWaitFrameStart, hp, hw]

theorem writerWaitFrameStart_proxy {c : WaitCause} (hp : s.writer.phase = .waiting)
    (hw : s.writer.wait = some (.proxy, c)) (hc : c ≠ .translationRead) :
    s.writerWaitFrameStart = s.proxyWaitFrameStart := by
  cases c with
  | translationRead => exact absurd rfl hc
  | noChunk | entryRead => simp only [writerWaitFrameStart, hp, hw]

theorem writerWaitFrameStart_chunk {c : WaitCause} (hp : s.writer.phase = .waiting)
    (hw : s.writer.wait = some (p, c)) (other : p ≠ .proxy) (hc : c ≠ .translationRead) :
    s.writerWaitFrameStart = s.attempt p := by
  cases c with
  | translationRead => exact absurd rfl hc
  | noChunk | entryRead =>
    cases p with
    | proxy => exact absurd rfl other
    | full | index => simp only [writerWaitFrameStart, hp, hw]

/-- The count of a PROXY wait has moved. -/
def proxyCounted (s : State) : State :=
  let count := min 255 (s.writer.proxyWait + 1)
  { s with writer := { s.writer with proxyWait := count, patienceOut := decide (s.takes.profile.patience ≤ count) } }

theorem proxyWaitFrameStart_eq (s : State) : s.proxyWaitFrameStart =
    if s.takes.profile.patience ≤ min 255 (s.writer.proxyWait + 1) then
      (if s.writer.proxyPool.attempt = none then s.proxyCounted.beginSuspension else s.proxyCounted)
    else s.proxyCounted.attempt .proxy := by
  simp only [proxyWaitFrameStart, decide_eq_true_eq, Option.isNone_iff_eq_none]
  rfl

theorem retryTranslation_held (h : ∃ m ∈ s.aperture.misses, m.client = .writer) : s.retryTranslation = s :=
  if_pos (by simpa [waitsForPage] using h)

theorem retryTranslation_asks (h : ∀ m ∈ s.aperture.misses, m.client ≠ .writer) {k : Work} {c : Chunk}
    (hk : s.writer.work = some k) (hc : (s.writer.pool k.step.pool).chunk = some c) :
    s.retryTranslation = match s.translate .writer (c.addr + c.used) with
      | (t, some base) => t.answerWriter (pageOf (c.addr + c.used)) (.translated base)
      | (t, none) => t := by
  have free : ¬ s.waitsForPage .writer = true := by simpa [waitsForPage] using h
  have next : s.nextAddress = c.addr + c.used := by simp only [nextAddress, hk, hc]
  rw [← next]
  exact if_neg free

/-! ### The coalescing age (R187) -/

theorem raise_chunk (s : State) : s.raise .chunk = s.withCauses 0x04#8 :=
  s.raise_eq .chunk

end State

open State in
/-- Settles O53: suspension and its entry's scan by `beginSuspension_eq` and `suspending_seeks`, the frame start by the
wait it finds, the attempt that ends with the patience out by its outcome, and the age by `Notices.aged_iff`. -/
theorem patienceAndAge : Obligations.PatienceAndAge := by
  intro s reads frame take waited suspends
  have reads_eq (t : State) (p : Pool) : t.attempt p = reads t p := attempt_eq t p
  have suspends_eq (t : State) (hf : t.writerFrame = frame) (ht : t.writer.take.getD 0#32 = take) :
      t.beginSuspension = suspends t := beginSuspension_eq hf ht
  refine ⟨?_, exec_proxySuspended_stands, ?_, writerWaitFrameStart_stands, ?_, ?_, ?_⟩
  · intro c hw hc ha out
    refine ⟨(exec_proxySuspended_begins hw hc ha out).trans (congrArg _ (suspends_eq s rfl rfl)), ?_⟩
    intro k r d rest hk he ht hl hp hb hc ha f
    obtain ⟨t, others, ht⟩ := List.exists_cons_of_ne_nil ht
    have inHand := PairInHand.mk hk he (t := t) (by rw [ht]; rfl) (r := r) (by rw [hl]; rfl) hp hb
    have ours : frame = k.frame := by simp only [frame, hk, he]; rfl
    have seeks : suspends s = _ := suspending_seeks inHand hc ha frame take
    rw [seeks, ours]
    simp only [f, scanning, suspending, hk, Option.map_some, reportFault_nextTag, reportFault_board]
    rfl
  · have order :
        (s.writer.suspended = true ∧ waited.writer.take.isSome = true ∧ waited.writer.suspended = true) ↔
        s.writer.suspended = true ∧ waited.writer.suspended = true ∧ waited.writer.take ≠ none := by
      rw [Option.isSome_iff_ne_none]
      tauto
    exact if_congr order (reads_eq waited .proxy) rfl
  · intro hp p c hw
    refine ⟨fun other hc => ?_, ?_, ?_, ?_⟩
    · rw [writerWaitFrameStart_chunk hp hw other hc, reads_eq]
    · rintro rfl hc count counted
      rw [writerWaitFrameStart_proxy hp hw hc, proxyWaitFrameStart_eq]
      refine ⟨fun early => ?_, fun out ha => ?_, fun out ha => ?_⟩
      · rw [if_neg (Nat.not_le_of_lt early)]
        exact reads_eq ..
      · rw [if_pos out, if_pos ha]
        exact suspends_eq _ rfl rfl
      · rw [if_pos out, if_neg ha]
        rfl
    · intro hc held
      rw [writerWaitFrameStart_translation hp hw hc, retryTranslation_held held]
    · intro hc free k x hk hx page waiting
      rw [writerWaitFrameStart_translation hp hw hc, retryTranslation_asks free hk hx]
      refine ⟨fun way base hit => ?_, fun miss busy => ?_, fun miss idle => ?_⟩
      · rw [translate_hit _ _ _ _ _ hit]
        simp only [answerWriter, hk]
        rfl
      · rw [translate_joins miss busy]
        rfl
      · rw [translate_fetches miss idle]
        rfl
  · intro a tag ha mine others hs ho ended detail
    have run (d : Option (List Byte)) := exec_chunkEntryReadDone (p := .proxy) d ha mine others
    have begins (cause : WaitCause) {t : State} (hw : t.writer = s.writer) (hc : t.cadence = s.cadence) :
        t.attemptFailed .proxy cause = suspends (ended t) := by
      rw [attemptFailed_suspends cause (by rwa [hw]) (by rwa [hw]), suspends_eq]
      · simp only [unattempted, hw]
        rfl
      · simp only [writerFrame, unattempted, hw, hc]
        rfl
      · simp only [unattempted, hw]
        rfl
    refine ⟨fun bytes other last => ?_, fun bytes empty last bad => ?_, ?_⟩
    · rw [run, entryRead_passed other, scanOn_last last, begins _ rfl rfl]
    · rw [run, entryRead_rejected (p := .proxy) empty bad, scanOn_last last]
      exact congrArg _ (begins .noChunk (reportFault_writer ..) (reportFault_cadence ..))
    · rw [run]
      exact congrArg _ (begins .entryRead (reportFault_writer ..) (reportFault_cadence ..))
  · intro total age announced
    have announces (n : Nat) : announce { s with notices := { s.notices with age := n } } = announced :=
      (announce_eq _).trans (raise_chunk _)
    refine ⟨fun none => if_pos none, fun some limit old => ?_, fun some young => ?_, fun some limit old => ?_,
      fun none => ?_⟩
    · have aged := (Notices.aged_iff { s.notices with age := age }).mpr ⟨some, limit, old⟩
      exact (if_neg some.ne').trans ((if_pos aged).trans (announces age))
    · refine (if_neg some.ne').trans (if_neg fun aged => ?_)
      obtain ⟨-, limit, old⟩ := (Notices.aged_iff _).mp aged
      exact young.elim limit (Nat.not_lt_of_le old)
    · exact congrArg _ ((if_pos ((Notices.aged_iff _).mpr ⟨some, limit, old⟩)).trans (announces s.notices.age))
    · refine congrArg _ (if_neg fun aged => ?_)
      obtain ⟨some, limit, old⟩ := (Notices.aged_iff _).mp aged
      exact none.elim some.ne' fun h => h.elim limit (Nat.not_lt_of_le old)

end Sys2Proof.Machine
end

