-- ==== Sys2Proof/Proofs/IndexRecords.lean ====
section
-- One proof at a time: a stack for every waiting proof of this text would pass the memory limit of the check.
set_option Elab.async false
/-! The bytes of the three index records (R121, R122, R126, R171). -/

namespace Sys2Proof.Machine

/-! ### Records whose fields are listed in order -/

/-- The fields of a record lie one behind the other in its bytes. -/
structure Laid (len : Nat) (fields : List (Nat × List Byte)) : Prop where
  fits : ∀ f ∈ fields, f.1 + f.2.length ≤ len
  order : fields.Pairwise (fun f g => f.1 + f.2.length ≤ g.1)

namespace Laid

variable {len : Nat} {fields : List (Nat × List Byte)} {buffer : List Byte}

theorem length (h : Laid len fields) (hb : buffer = layout len fields) : buffer.length = len :=
  hb ▸ length_layout _ _ h.fits

/-- Bytes that no field touches read 0. -/
theorem zeros {o n : Nat} (h : Laid len fields) (hb : buffer = layout len fields) (inside : o + n ≤ len)
    (apart : ∀ f ∈ fields, o + n ≤ f.1 ∨ f.1 + f.2.length ≤ o) : slice buffer o n = List.replicate n 0#8 :=
  hb ▸ slice_layout_zero _ _ _ _ inside h.fits apart

/-- Every field reads back as it was given. -/
theorem reads (h : Laid len fields) (hb : buffer = layout len fields) :
    ∀ f ∈ fields, slice buffer f.1 f.2.length = f.2 := by
  subst hb
  intro f hf
  obtain ⟨before, later, rfl⟩ := List.append_of_mem hf
  refine slice_layout _ _ _ _ _ _ rfl h.fits fun g behind => .inl ?_
  exact (List.pairwise_cons.mp (List.pairwise_append.mp h.order).2.1).1 g behind

end Laid

variable {buffer : List Byte} {o k v : Nat}

/-- A number in a field reads back modulo the field's size. -/
theorem fieldAt_number (h : slice buffer o k = leBytes k v) : fieldAt buffer o k = v % 256 ^ k := by
  rw [fieldAt_slice, h, leNat_leBytes]

/-- A number that its field holds reads back whole. -/
theorem fieldAt_whole (h : slice buffer o k = leBytes k v) (hv : v < 256 ^ k) : fieldAt buffer o k = v :=
  (fieldAt_number h).trans (Nat.mod_eq_of_lt hv)

theorem fieldAt_word {w : Word} (h : slice buffer o 4 = leBytes 4 w.toNat) : fieldAt buffer o 4 = w.toNat :=
  fieldAt_whole h w.isLt

/-! ### Codes and flags fit a byte -/

theorem CloseCause.code_lt (c : CloseCause) : c.code < 256 := by
  cases c <;> decide

theorem ProxyState.code_lt (x : ProxyState) : x.code < 256 := by
  cases x <;> decide

theorem ProxyScale.code_lt (x : ProxyScale) : x.code < 256 := by
  cases x <;> decide

theorem bit_eq (b : Bool) (n : Nat) : bit b n = if b = true then 2 ^ n else 0 := rfl

/-! ### The Take Header (R121) -/

namespace TakeRecord

variable (r : TakeRecord)

/-- The fields of the Take Header, in the order of their bytes. -/
def headerFields : List (Nat × List Byte) :=
  let h := r.header
  [(0, leBytes 1 1), (1, leBytes 1 h.base), (2, leBytes 1 (bit (h.mode == .recordRun) 0 + bit h.df 1)),
    (3, leBytes 1 h.scale.code), (4, leBytes 4 r.number.toNat), (8, leBytes 8 h.period), (16, leBytes 4 h.targetF),
    (20, leBytes 4 h.targetP), (24, leBytes 2 h.width), (26, leBytes 2 h.height), (28, leBytes 4 r.preroll),
    (32, r.startLabel.bytes)]

theorem headerBytes_eq : r.headerBytes = layout 64 r.headerFields := rfl

theorem headerFields_laid : Laid 64 r.headerFields := by
  constructor <;> simp [headerFields]

theorem headerFlags_eq (h : TakeHeader) : bit (h.mode == .recordRun) 0 + bit h.df 1 =
    (if h.mode = .recordRun then 1 else 0) + (if h.df = true then 2 else 0) := by
  simp [bit]

/-- The fields of the Take Trailer, in the order of their bytes. -/
def trailerFields : List (Nat × List Byte) :=
  [(0, leBytes 1 3), (1, leBytes 1 r.cause.code), (4, leBytes 4 r.number.toNat), (8, leBytes 4 r.ordinal),
    (12, r.endLabel.bytes), (16, leBytes 4 r.held), (20, leBytes 4 r.absent), (24, leBytes 4 r.clippedF),
    (28, leBytes 4 r.clippedP), (32, leBytes 4 r.gapFrames), (40, leBytes 8 r.fullBytes), (48, leBytes 8 r.proxyBytes)]

theorem trailerBytes_eq : r.trailerBytes = layout 64 r.trailerFields := rfl

theorem trailerFields_laid : Laid 64 r.trailerFields := by
  constructor <;> simp [trailerFields]

end TakeRecord

namespace PairEntry

variable (e : PairEntry)

/-- The flags byte of a Pair Entry. -/
def flags : Nat :=
  bit e.data.damaged 0 + bit e.data.retimed 1 + bit e.preroll 2 + bit e.data.fullClipped 3 + bit e.proxyClipped 4

/-- The fields of a Pair Entry, in the order of their bytes. -/
def fields : List (Nat × List Byte) :=
  let d := e.data
  [(0, leBytes 1 2), (1, leBytes 1 e.flags), (2, leBytes 2 d.gap), (4, leBytes 4 e.ordinal),
    (8, leBytes 4 e.frame.toNat), (12, d.label.bytes), (16, leBytes 2 (markValue d.mark)), (18, leBytes 1 d.fullQ),
    (19, leBytes 1 e.proxyQ), (20, leBytes 1 e.proxyState.code), (24, leBytes 8 e.fullOffset),
    (32, leBytes 4 e.fullLen), (36, leBytes 4 e.proxyLen), (40, leBytes 8 e.proxyOffset), (48, leBytes 4 e.take.toNat)]

theorem bytes_eq : e.bytes = layout 64 e.fields := rfl

theorem fields_laid : Laid 64 e.fields := by
  constructor <;> simp [fields]

theorem flags_lt : e.flags < 256 := by
  simp only [flags, bit_eq]
  split <;> split <;> split <;> split <;> split <;> decide

end PairEntry

theorem markValue_eq (m : Option (BitVec 16)) : markValue m = (m.map BitVec.toNat).getD 0 := by
  cases m <;> rfl

theorem markValue_lt (m : Option (BitVec 16)) : markValue m < 65536 := by
  cases m with
  | none => decide
  | some v => exact v.isLt

theorem extentLen_eq (x : Option Extent) : extentLen x = (x.map Extent.len).getD 0 := by
  cases x <;> rfl

/-- The Take Header and the Take Trailer, field by field (R121, R126, R171). -/
theorem TakeRecord.bytes_fields (r : TakeRecord) :
    let h := r.headerBytes
    let t := r.trailerBytes
    h.length = 64 ∧ fieldAt h 0 1 = 1 ∧ fieldAt h 1 1 = r.header.base % 256 ∧
    fieldAt h 2 1 = (if r.header.mode = .recordRun then 1 else 0) + (if r.header.df = true then 2 else 0) ∧
    fieldAt h 3 1 = r.header.scale.code ∧ fieldAt h 4 4 = r.number.toNat ∧
    fieldAt h 8 8 = r.header.period % 2 ^ 64 ∧ fieldAt h 16 4 = r.header.targetF % 2 ^ 32 ∧
    fieldAt h 20 4 = r.header.targetP % 2 ^ 32 ∧ fieldAt h 24 2 = r.header.width % 65536 ∧
    fieldAt h 26 2 = r.header.height % 65536 ∧ fieldAt h 28 4 = r.preroll % 2 ^ 32 ∧
    (h.drop 32).take 4 = r.startLabel.bytes ∧ (h.drop 36).take 28 = List.replicate 28 0#8 ∧
    t.length = 64 ∧ fieldAt t 0 1 = 3 ∧ fieldAt t 1 1 = r.cause.code ∧ fieldAt t 4 4 = r.number.toNat ∧
    fieldAt t 8 4 = r.ordinal % 2 ^ 32 ∧ (t.drop 12).take 4 = r.endLabel.bytes ∧
    fieldAt t 16 4 = r.held % 2 ^ 32 ∧ fieldAt t 20 4 = r.absent % 2 ^ 32 ∧
    fieldAt t 24 4 = r.clippedF % 2 ^ 32 ∧ fieldAt t 28 4 = r.clippedP % 2 ^ 32 ∧
    fieldAt t 32 4 = r.gapFrames % 2 ^ 32 ∧ fieldAt t 40 8 = r.fullBytes % 2 ^ 64 ∧
    fieldAt t 48 8 = r.proxyBytes % 2 ^ 64 ∧ (t.drop 56).take 8 = List.replicate 8 0#8 := by
  intro h t
  have headerLaid : h = layout 64 r.headerFields := r.headerBytes_eq
  have trailerLaid : t = layout 64 r.trailerFields := r.trailerBytes_eq
  clear_value h t
  have headerZeros := r.headerFields_laid.zeros (o := 36) (n := 28) headerLaid (by decide) (by simp [headerFields])
  have trailerZeros := r.trailerFields_laid.zeros (o := 56) (n := 8) trailerLaid (by decide) (by simp [trailerFields])
  have headerReads := r.headerFields_laid.reads headerLaid
  have trailerReads := r.trailerFields_laid.reads trailerLaid
  simp only [headerFields, List.forall_mem_cons, length_leBytes, Label.length_bytes] at headerReads
  simp only [trailerFields, List.forall_mem_cons, length_leBytes, Label.length_bytes] at trailerReads
  obtain ⟨kind, base, flags, scale, number, period, targetF, targetP, width, height, preroll, startLabel, -⟩ :=
    headerReads
  obtain ⟨kind', cause, number', ordinal, endLabel, held, absent, clippedF, clippedP, gapFrames, fullBytes,
    proxyBytes, -⟩ := trailerReads
  have flags_lt : bit (r.header.mode == .recordRun) 0 + bit r.header.df 1 < 256 ^ 1 := by
    rw [headerFlags_eq]
    split <;> split <;> decide
  exact ⟨r.headerFields_laid.length headerLaid, fieldAt_whole kind (by decide), fieldAt_number base,
    (fieldAt_whole flags flags_lt).trans (headerFlags_eq _), fieldAt_whole scale (ProxyScale.code_lt _),
    fieldAt_word number, fieldAt_number period, fieldAt_number targetF, fieldAt_number targetP, fieldAt_number width,
    fieldAt_number height, fieldAt_number preroll, startLabel, headerZeros,
    r.trailerFields_laid.length trailerLaid,
    fieldAt_whole kind' (by decide), fieldAt_whole cause (CloseCause.code_lt _), fieldAt_word number',
    fieldAt_number ordinal, endLabel, fieldAt_number held, fieldAt_number absent, fieldAt_number clippedF,
    fieldAt_number clippedP, fieldAt_number gapFrames, fieldAt_number fullBytes, fieldAt_number proxyBytes,
    trailerZeros⟩

/-- The Pair Entry of a pair as the work in hand has settled it, field by field (R122, R171). -/
theorem pairEntry_fields (r : PairRecord) (d : PairData) (k : Work) (ordinal : Nat) :
    let b := (pairEntry r d k ordinal).bytes
    let present : Bool := k.proxyState == .present
    b.length = 64 ∧ fieldAt b 0 1 = 2 ∧
    fieldAt b 1 1 = (if d.damaged = true then 1 else 0) + (if d.retimed = true then 2 else 0) +
      (if r.preroll = true then 4 else 0) + (if d.fullClipped = true then 8 else 0) +
      (if present = true ∧ d.proxyClipped = true then 16 else 0) ∧
    fieldAt b 2 2 = d.gap % 65536 ∧ fieldAt b 4 4 = ordinal % 2 ^ 32 ∧ fieldAt b 8 4 = r.frame.toNat ∧
    (b.drop 12).take 4 = d.label.bytes ∧ fieldAt b 16 2 = (d.mark.map BitVec.toNat).getD 0 ∧
    fieldAt b 18 1 = d.fullQ % 256 ∧ fieldAt b 19 1 = (if present then d.proxyQ % 256 else 0) ∧
    fieldAt b 20 1 = k.proxyState.code ∧ fieldAt b 24 8 = k.fullOffset % 2 ^ 64 ∧
    fieldAt b 32 4 = (r.full.map Extent.len).getD 0 % 2 ^ 32 ∧
    fieldAt b 36 4 = (if present then (r.proxy.map Extent.len).getD 0 % 2 ^ 32 else 0) ∧
    fieldAt b 40 8 = (if present then k.proxyOffset % 2 ^ 64 else 0) ∧ fieldAt b 48 4 = r.take.toNat ∧
    (b.drop 52).take 12 = List.replicate 12 0#8 := by
  intro b present
  have laid : b = layout 64 (pairEntry r d k ordinal).fields := PairEntry.bytes_eq _
  clear_value b
  have zeros := (PairEntry.fields_laid _).zeros (o := 52) (n := 12) laid (by decide) (by simp [PairEntry.fields])
  have reads := (PairEntry.fields_laid _).reads laid
  simp only [PairEntry.fields, List.forall_mem_cons, length_leBytes, Label.length_bytes] at reads
  obtain ⟨kind, flags, gap, number, frame, label, mark, fullQ, proxyQ, state, fullOffset, fullLen, proxyLen,
    proxyOffset, take, -⟩ := reads
  have presentOnly {x m : Nat} : (if present = true then x else 0) % m = if present = true then x % m else 0 := by
    split <;> simp
  have flagBits : (pairEntry r d k ordinal).flags = (if d.damaged = true then 1 else 0) +
      (if d.retimed = true then 2 else 0) + (if r.preroll = true then 4 else 0) +
      (if d.fullClipped = true then 8 else 0) + (if present = true ∧ d.proxyClipped = true then 16 else 0) := by
    simp [PairEntry.flags, pairEntry, bit, present]
  have flags_lt : (pairEntry r d k ordinal).flags < 256 ^ 1 := PairEntry.flags_lt _
  have mark_lt : markValue d.mark < 256 ^ 2 := markValue_lt _
  exact ⟨(PairEntry.fields_laid _).length laid, fieldAt_whole kind (by decide),
    (fieldAt_whole flags flags_lt).trans flagBits, fieldAt_number gap, fieldAt_number number, fieldAt_word frame, label,
    (fieldAt_whole mark mark_lt).trans (markValue_eq _), fieldAt_number fullQ,
    (fieldAt_number proxyQ).trans presentOnly, fieldAt_whole state (ProxyState.code_lt _), fieldAt_number fullOffset,
    extentLen_eq r.full ▸ fieldAt_number fullLen, extentLen_eq r.proxy ▸ (fieldAt_number proxyLen).trans presentOnly,
    (fieldAt_number proxyOffset).trans presentOnly, fieldAt_word take, zeros⟩

end Sys2Proof.Machine
end

