-- ==== Sys2Proof/Proofs/WriterWork.lean ====
section
-- One proof at a time: a stack for every waiting proof of this text would pass the memory limit of the check.
set_option Elab.async false
/-! WRITER_START_WORK: the choice of work, its steps one by one, and how a piece ends (R133 to R140). -/

namespace Sys2Proof.Machine

namespace State

variable {s : State} {p : Pool}

/-! ### Choosing work (R133) -/

theorem exec_writerStartWork_stands (h : s.writer.work ≠ none ∨ s.attached = false) :
    exec .writerStartWork s = .next s :=
  if_pos (h.imp_left Option.isSome_iff_ne_none.mpr)

theorem exec_writerStartWork (hw : s.writer.work = none) (ha : s.attached = true) :
    exec .writerStartWork s = .next s.chooseWork :=
  if_neg (by simp [hw, ha])

theorem headPair_none (h : ∀ r, s.store.list.head? = some r → r.pair = none ∨ r.take = 0#32) :
    s.headPair = none := by
  unfold headPair
  cases hl : s.store.list with
  | nil => rfl
  | cons r later =>
    rcases h r (by rw [hl]; rfl) with uncommitted | unbound
    · simp only [uncommitted]
    · cases hp : r.pair with
      | none => simp only [hp]
      | some d => simp [hp, PairRecord.bound, unbound]

theorem finishPiece_idle (hw : s.writer.work = none) (drained : s.oldestDrained = false) (none : s.headPair = none) :
    s.finishPiece = { s with writer := { s.writer with phase := .idle } } := by
  simp only [finishPiece, workWaits, drained, none, Option.isSome_none, Bool.or_self]
  rw [← hw]
  rfl

theorem chooseWork_idle (hw : s.writer.work = none)
    (drained : ∀ k, s.takes.table.head? = some k → k.drained = false) (none : s.headPair = none) :
    s.chooseWork = { s with writer := { s.writer with phase := .idle } } := by
  have oldest : s.oldestDrained = false := by
    unfold oldestDrained
    split
    · rfl
    · exact drained _ (by rw [‹s.takes.table = _›]; rfl)
  refine Eq.trans ?_ (finishPiece_idle hw oldest none)
  unfold chooseWork
  split
  · rfl
  · rw [drained _ (by rw [‹s.takes.table = _›]; rfl), none]
    rfl

section
variable {k : TakeRecord} {others : List TakeRecord}

theorem chooseWork_ends (ht : s.takes.table = k :: others) (hd : k.drained = true) :
    s.chooseWork = (s.beginEnding k).work := by
  simp only [chooseWork, ht, if_pos hd]

theorem beginEnding_written (hh : k.headerWritten = true) :
    s.beginEnding k = s.beginWork (Work.fresh true .trailer 0#32) :=
  if_pos hh

theorem beginEnding_unwritten (hh : k.headerWritten = false) :
    s.beginEnding k = (s.makeCurrent k.number).beginWork (Work.fresh true .header 0#32) :=
  if_neg (by simp [hh])

variable {r : PairRecord} {d : PairData} {rest : List PairRecord}

theorem chooseWork_pair (ht : s.takes.table = k :: others) (hd : k.drained = false) (hl : s.store.list = r :: rest)
    (hp : r.pair = some d) (hb : r.take ≠ 0#32) : s.chooseWork = (s.beginPair r d).work := by
  simp [chooseWork, ht, hd, headPair_some hl hp hb]

theorem takeRecord_oldest (ht : s.takes.table = k :: others) (hn : r.take = k.number) :
    s.takeRecord r.take = some k := by
  simp [takeRecord, ht, hn]

theorem beginPair_written (ht : s.takes.table = k :: others) (hn : r.take = k.number) (hh : k.headerWritten = true) :
    s.beginPair r d = s.beginWork (Work.fresh false .full r.frame) := by
  simp only [beginPair, takeRecord_oldest ht hn, if_pos hh]

theorem beginPair_unwritten (ht : s.takes.table = k :: others) (hn : r.take = k.number)
    (hh : k.headerWritten = false) : s.beginPair r d =
      ((s.makeCurrent r.take).mapTake r.take (fun x => { x with startLabel := d.label })).beginWork
        (Work.fresh false .header r.frame) := by
  simp [beginPair, takeRecord_oldest ht hn, hh]

end

/-- A step that needs a chunk the pool has not begins a scan, and the writer must wait. -/
theorem work_seeks {k : Work} {src : Source} {total : Nat} (step : s.writerStep = s.placeBytes p k src total)
    (hc : (s.writer.pool p).chunk = none) (ha : (s.writer.pool p).attempt = none) :
    s.work = s.scanning p (s.writer.pool p).cursor (s.writer.pool p).count := by
  rw [work_stops (step.trans (placeBytes_seeks hc)), attempt_free ha]

/-- Work begun at the Take Header with no INDEX chunk held begins a scan of the INDEX pool. -/
theorem header_seeks {k : Work} {t : TakeRecord} (step : s.writerStep = s.headerStep k t) (left : k.written < 64)
    (hc : s.writer.indexPool.chunk = none) (ha : s.writer.indexPool.attempt = none) :
    s.work = s.scanning .index s.writer.indexPool.cursor s.writer.indexPool.count :=
  work_seeks (step.trans (headerStep_places t left)) hc ha

/-! ### A pair written (R124, R137) -/

/-- A take record once the Pair Entry is written (R124). -/
theorem count_pairEntry (r : PairRecord) (d : PairData) (k : Work) (ordinal : Nat) (x : TakeRecord) :
    let present : Bool := k.proxyState == .present
    x.count (pairEntry r d k ordinal) = { x with
      ordinal := (x.ordinal + 1) % 2 ^ 32, endLabel := d.label
      fullBytes := (x.fullBytes + (r.full.map Extent.len).getD 0) % 2 ^ 64
      proxyBytes := (x.proxyBytes + if present then (r.proxy.map Extent.len).getD 0 else 0) % 2 ^ 64
      held := min 4294967295 (x.held + if k.proxyState = .held then 1 else 0)
      absent := min 4294967295 (x.absent + if k.proxyState = .absent then 1 else 0)
      clippedF := min 4294967295 (x.clippedF + if d.fullClipped = true then 1 else 0)
      clippedP := min 4294967295 (x.clippedP + if present = true ∧ d.proxyClipped = true then 1 else 0)
      gapFrames := min 4294967295 (x.gapFrames + d.gap) } := by
  simp [TakeRecord.count, pairEntry, extentLen_eq, satAdd, counterLimit]

theorem finishPair_eq {e : PairEntry} {counted : TakeRecord → TakeRecord} (h : ∀ x, x.count e = counted x) :
    s.finishPair e = (settleDrained { s with
      store := { s.store.dropHead with pressure := s.store.dropHead.measured }
      takes := { s.takes with table := s.takes.table.map (fun x =>
        if x.number = e.take then counted x else x) } }).finishPiece := by
  obtain rfl : counted = fun x => x.count e := funext fun x => (h x).symm
  rfl

/-! ### The end of a take (R140) -/

section
variable {k : Work} (t : TakeRecord)

theorem trailerStep_closes (opened : k.closed = false) (free : s.writer.proxyPool.attempt = none) :
    s.trailerStep k t =
      (((s.closeChunk .full true).closeChunk .proxy true).setWork { k with closed := true }, true) := by
  simp [trailerStep, opened, free]

theorem trailerStep_waits (busy : s.writer.proxyPool.attempt ≠ none) (h : k.closed = false ∨ 64 ≤ k.written) :
    s.trailerStep k t = (s, false) := by
  have waits := Option.isSome_iff_ne_none.mpr busy
  cases hc : k.closed with
  | false => simp [trailerStep, hc, waits]
  | true =>
    have done : ¬ k.written < 64 := Nat.not_lt_of_le (h.resolve_left (by simp [hc]))
    simp [trailerStep, hc, waits, done]

theorem trailerStep_places (closed : k.closed = true) (left : k.written < 64) :
    s.trailerStep k t = s.placeBytes .index k (.record t.trailerBytes) 64 := by
  simp only [trailerStep, if_pos closed, if_pos left]

theorem trailerStep_ends (closed : k.closed = true) (done : 64 ≤ k.written)
    (free : s.writer.proxyPool.attempt = none) :
    s.trailerStep k t = ((s.closeChunk .proxy true).finishTake, false) := by
  simp [trailerStep, closed, Nat.not_lt_of_le done, free]

end

/-! ### The proxy step (R136, R142) -/

section
variable {k : Work} {r : PairRecord} {d : PairData} {e : Extent}

theorem proxyStep_other (h : d.proxyState ≠ .present) : s.proxyStep k r d = s.settleProxy k d.proxyState := by
  unfold proxyStep
  split
  · rw [‹d.proxyState = _›]
  · rw [‹d.proxyState = _›]
  · exact absurd ‹_› h

theorem proxyStep_present (hd : d.proxyState = .present) (hr : r.proxy = some e) : s.proxyStep k r d =
    if e.len ≤ k.written then s.settleProxy k .present
    else if k.written = 0 ∧ s.writer.suspended = true then s.settleProxy k .absent
    else if s.proxyShort k e.len = true then (s.closeChunk .proxy false, true)
    else s.placeBytes .proxy k (.picture .proxy e.start s.store.proxyArea.size) e.len := by
  simp only [proxyStep, hd, hr]

theorem proxyShort_iff (len : Nat) : s.proxyShort k len = true ↔
    ∃ c, s.writer.proxyPool.chunk = some c ∧ k.written = 0 ∧ s.writer.proxyPool.chunkSize < c.used + len := by
  unfold proxyShort
  split
  · simp [*]
  · simp [*]

/-- A picture goes on, or begins in a chunk with room for all of it. -/
theorem proxyStep_places (hd : d.proxyState = .present) (hr : r.proxy = some e) (left : k.written < e.len)
    (unsuspended : k.written = 0 → s.writer.suspended = false)
    (room : k.written = 0 → ∀ c, s.writer.proxyPool.chunk = some c →
      c.used + e.len ≤ s.writer.proxyPool.chunkSize) :
    s.proxyStep k r d = s.placeBytes .proxy k (.picture .proxy e.start s.store.proxyArea.size) e.len := by
  rw [proxyStep_present hd hr, if_neg (Nat.not_le_of_lt left), if_neg, if_neg]
  · rw [proxyShort_iff]
    rintro ⟨c, hc, first, short⟩
    exact absurd (room first c hc) (Nat.not_le_of_lt short)
  · rintro ⟨first, suspended⟩
    exact absurd ((unsuspended first).symm.trans suspended) nofun

theorem proxyStep_closes {c : Chunk} (hd : d.proxyState = .present) (hr : r.proxy = some e) (pos : 0 < e.len)
    (first : k.written = 0) (unsuspended : s.writer.suspended = false) (hc : s.writer.proxyPool.chunk = some c)
    (short : s.writer.proxyPool.chunkSize < c.used + e.len) :
    s.proxyStep k r d = (s.closeChunk .proxy false, true) := by
  rw [proxyStep_present hd hr, if_neg (by omega), if_neg (by simp [unsuspended]),
    if_pos ((proxyShort_iff _).mpr ⟨c, hc, first, short⟩)]

theorem proxyStep_gives_up (hd : d.proxyState = .present) (hr : r.proxy = some e) (pos : 0 < e.len)
    (first : k.written = 0) (suspended : s.writer.suspended = true) : s.proxyStep k r d = s.settleProxy k .absent := by
  rw [proxyStep_present hd hr, if_neg (by omega), if_pos ⟨first, suspended⟩]

end

/-! ### What the end of a take leaves (R140, R187) -/

/-- A close announces CHUNK or raises no cause (R187). -/
theorem countClose_cause (s : State) (p : Pool) :
    (s.countClose p).notices.cause ||| 0x04#8 = s.notices.cause ||| 0x04#8 := by
  unfold countClose
  extract_lets n m t
  have same : m.cause = s.notices.cause := by
    simp only [m, n]
    cases p <;> split <;> rfl
  split
  · simp only [announce_eq, raise_notices]
    show m.cause ||| 0x04#8 ||| 0x04#8 = _
    rw [BitVec.or_assoc, BitVec.or_self, same]
  · exact congrArg (· ||| 0x04#8) same

theorem closeChunk_cause (s : State) (p : Pool) (last : Bool) :
    (s.closeChunk p last).notices.cause ||| 0x04#8 = s.notices.cause ||| 0x04#8 := by
  cases hc : (s.writer.pool p).chunk with
  | none => rw [closeChunk_none last hc]
  | some c =>
    rw [closeChunk_some last hc]
    exact countClose_cause _ p

/-- What the end of a take raises: CHUNK, with every count announced, and TAKE (R140, R187). -/
theorem finishTake_notices (s : State) : s.finishTake.notices =
    { (s.closeChunk .index true).notices.zeroCounts with
      cause := (s.closeChunk .index true).notices.cause ||| 0x04#8 ||| 0x08#8 } := by
  simp [finishTake, finishPiece_frame, announce_eq, Notices.zeroCounts, Notice.bit]

/-- What the end of a take leaves of the writer: the pools with their next sequences 0, no work and no take (R140). -/
theorem finishTake_writer (s : State) : s.finishTake.writer.work = none ∧ s.finishTake.writer.take = none ∧
    ∀ q, s.finishTake.writer.pool q = { (s.closeChunk .index true).writer.pool q with nextSequence := 0 } := by
  unfold finishTake
  extract_lets t table u v w
  have kept : w = (s.closeChunk .index true).writer := by simp [w, v, u, t]
  rw [← kept]
  exact ⟨rfl, rfl, fun q => by cases q <;> rfl⟩

theorem finishTake_takes (s : State) :
    s.finishTake.takes = { s.takes with table := s.takes.table.drop 1 } := by
  simp [finishTake, finishPiece_frame, announce_eq, closeChunk_frame]

theorem finishTake_link_closed (s : State) : (s.closeChunk .index true).link <+: s.finishTake.link := by
  unfold finishTake
  extract_lets t table u v w
  exact (announce_link _).trans (raise_link u .take)

end State

open State in
/-- Settles O51: the work chosen and its first steps by the rules of `chooseWork`, `beginPair` and `beginEnding`; the
end of a pair and of a take; each step by its own rule; and the three records field by field. -/
theorem writerStartsWork : Obligations.WriterStartsWork := by
  refine ⟨fun s => ⟨exec_writerStartWork_stands, fun hw ha drained unbound => ?_, ?_⟩, ?_, ?_, ?_, ?_,
    TakeRecord.bytes_fields, pairEntry_fields⟩
  · rw [exec_writerStartWork hw ha, chooseWork_idle hw drained (headPair_none unbound)]
  · intro k others hw ha ht made current indexRead
    have ran := exec_writerStartWork hw ha
    refine ⟨fun hd hh hc hi => ?_, fun hd hh => ?_, ?_⟩
    · have step := (writerStep_ending (s := (s.makeCurrent k.number).beginWork (Work.fresh true .header 0#32)) rfl ht
        rfl).trans (if_pos rfl)
      rw [ran, chooseWork_ends ht hd, beginEnding_unwritten hh, header_seeks step (Nat.zero_lt_succ 63) hc hi]
      rfl
    · intro begun
      rw [ran, chooseWork_ends ht hd, beginEnding_written hh]
      have step : begun.writerStep = begun.trailerStep (Work.fresh true .trailer 0#32) k :=
        (writerStep_ending (s := begun) rfl ht rfl).trans (if_neg (show ¬ WriterStep.trailer = .header from nofun))
      refine ⟨fun busy => ?_, fun free => ⟨_, rfl, ?_⟩⟩
      · exact congrArg _ (work_stops (step.trans (trailerStep_waits k busy (.inl rfl))))
      · have closes := trailerStep_closes (s := begun) (k := Work.fresh true .trailer 0#32) k rfl free
        have issued := work_prefix (step.trans closes)
        exact issued
    · intro r d rest hd hl hp hn h0
      have hb : r.take ≠ 0#32 := hn ▸ h0
      have chosen := chooseWork_pair ht hd hl hp hb
      have pair (u : State) {j : Work} (work : u.writer.work = some j) (pair : j.ending = false) {x : TakeRecord}
          (table : u.takes.table.head? = some x) (store : u.store = s.store) : u.PairInHand j x r d :=
        ⟨work, pair, table, by rw [store, hl]; rfl, hp, hb⟩
      refine ⟨?_, ?_, ?_⟩
      · intro hh e c hf pos hc begun page inPage waiting
        have begins : s.chooseWork = begun.work := by rw [chosen, beginPair_written ht hn hh]; rfl
        have inHand := pair begun rfl rfl (congrArg List.head? ht) rfl
        have step := inHand.writerStep_full rfl hf pos
        rw [ran, begins]
        refine ⟨fun room => ⟨fun way base hit => ⟨_, rfl, ?_⟩, fun miss busy => ?_, fun miss free => ?_⟩,
          fun full free => ?_⟩
        · exact inHand.work_places_full rfl hf pos hc room (.inr ⟨fun _ => nofun, way, hit⟩)
        · exact congrArg _ (work_stops (step.trans (placeBytes_joins hc room (fun _ => nofun) miss busy)))
        · exact congrArg _ (work_stops (step.trans (placeBytes_fetches hc room (fun _ => nofun) miss free)))
        · exact congrArg _ (inHand.work_closes_full rfl hf pos hc full free)
      · intro hh hc hi
        have labelled : (s.takes.table.map (fun x =>
            if x.number = r.take then { x with startLabel := d.label } else x)).head? =
              some { k with startLabel := d.label } := by
          simp [ht, hn]
        have inHand := pair (((s.makeCurrent r.take).mapTake r.take
          (fun x => { x with startLabel := d.label })).beginWork (Work.fresh false .header r.frame)) rfl rfl
          labelled rfl
        have step := inHand.writerStep
        rw [ran, chosen, beginPair_unwritten ht hn hh, header_seeks step (Nat.zero_lt_succ 63) hc hi, hn]
        rfl
      · intro hh e hf pos hc hi
        have inHand := pair (s.beginWork (Work.fresh false .full r.frame)) rfl rfl (congrArg List.head? ht) rfl
        have step := inHand.writerStep_full rfl hf pos
        rw [ran, chosen, beginPair_written ht hn hh, work_seeks step hc hi]
        rfl
  · intro s k r d done present fullLen proxyLen counted
    rw [entryStep_done r d done, finishPair_eq (count_pairEntry r d k _)]
    rfl
  · intro s k r
    refine ⟨headerStep_done r, fun opened busy => trailerStep_waits r busy (.inl opened), trailerStep_closes r,
      fun closed done busy => trailerStep_waits r busy (.inr done), fun closed done free => ?_⟩
    intro c u
    have ends : s.trailerStep k r = _ := trailerStep_ends r closed done free
    obtain ⟨cadence, -, -, lanes, -, board, -, -, counters, -⟩ := s.trailerStep_frame k r
    obtain ⟨-, -, -, -, -, store, takes, -⟩ := s.closeChunk_frame .proxy true
    obtain ⟨-, -, -, -, -, store', -⟩ := (s.closeChunk .proxy true).finishTake_frame
    obtain ⟨work, take, pools⟩ := (s.closeChunk .proxy true).finishTake_writer
    have notices := (s.closeChunk .proxy true).finishTake_notices
    have u_eq : u = (s.closeChunk .proxy true).finishTake := congrArg Prod.fst ends
    have writer : c.writer = _ := (s.closeChunk .proxy true).closeChunk_writer .index true
    have announced : u.notices.fullCount = 0 ∧ u.notices.proxyCount = 0 ∧ u.notices.indexCount = 0 ∧
        u.notices.age = 0 := by
      rw [u_eq, notices]
      exact ⟨rfl, rfl, rfl, rfl⟩
    obtain ⟨fullCount, proxyCount, indexCount, age⟩ := announced
    refine ⟨congrArg Prod.snd ends, ?_, fullCount, proxyCount, indexCount, age, ?_, ?_, ?_, ?_, ?_, ?_, ?_, ?_, ?_,
      lanes, cadence, counters, board⟩
    · rw [u_eq, finishTake_takes, takes]
    · rw [u_eq, notices]
      show (c.notices.cause ||| 0x04#8) ||| 0x08#8 = _
      rw [closeChunk_cause, closeChunk_cause, BitVec.or_assoc]
      rfl
    · rw [u_eq]; exact finishTake_link_closed _
    · rw [u_eq]; exact pools
    · exact (congrArg PoolState.chunk (u_eq ▸ pools .proxy)).trans (by rw [writer, closeChunk_writer]; rfl)
    · exact (congrArg PoolState.chunk (u_eq ▸ pools .index)).trans (by rw [writer]; rfl)
    · rw [u_eq, work]
    · rw [u_eq, take]
    · have standing := (finishTake_standing _).trans (s.closeChunk_standing .proxy true)
      simp only [Writer.standing, Prod.mk.injEq] at standing
      obtain ⟨-, -, suspended, -⟩ := standing
      rw [u_eq, suspended]
    · rw [u_eq, store', store]
  · intro s k r d moves
    refine ⟨fun none => fullStep_done (by simp [none]), fun e hf => ⟨fun done => fullStep_done (by simp [hf, done]),
      fullStep_places hf⟩, proxyStep_other, ?_, entryStep_places r d⟩
    · intro hd e hr pos room places
      refine ⟨proxyStep_gives_up hd hr pos, fun first unsuspended => ⟨fun c hc short => ?_, fun c hc fits => ?_,
        fun hc => ?_⟩, fun begun left => ?_, fun done => ?_⟩
      · exact proxyStep_closes hd hr pos first unsuspended hc (Nat.lt_of_not_le short)
      · refine proxyStep_places hd hr (first ▸ pos) (fun _ => unsuspended) fun _ c' hc' => ?_
        obtain rfl : c = c' := Option.some.inj (hc.symm.trans hc')
        exact fits
      · exact (proxyStep_places hd hr (first ▸ pos) (fun _ => unsuspended) fun _ c hc' =>
          absurd (hc.symm.trans hc') nofun).trans (placeBytes_seeks hc)
      · exact proxyStep_places hd hr left (fun first => absurd first begun.ne') fun first => absurd first begun.ne'
      · rw [proxyStep_present hd hr, if_pos done]
        rfl
  · intro s
    refine ⟨fun none => by simp only [writerStep, none], ?_, rfl, rfl, s.runWriter_succ⟩
    intro k t others hk ht
    refine ⟨headerStep_places t, trailerStep_places t, writerStep_ending hk ht, ?_⟩
    intro r d later he hl hp hb
    have step := (PairInHand.mk hk he (t := t) (by rw [ht]; rfl) (r := r) (by rw [hl]; rfl) hp hb).writerStep
    refine ⟨?_, ?_, ?_, ?_⟩ <;> (intro h; rw [step, h])

end Sys2Proof.Machine
end

