-- ==== Sys2Proof/Proofs/CacheLookups.lean ====
section
-- One proof at a time: a stack for every waiting proof of this text would pass the memory limit of the check.
set_option Elab.async false
/-! What a page translates to: by the way that holds it, and after a use, a REMAP and a fetched entry (R152, R153, R155,
R157). -/

namespace Sys2Proof.Machine

/-! ### Finding a way (R152, R153) -/

theorem findWay_eq (tag : Nat) (ways : List (Option Way)) (k : Nat) :
    findWay tag k ways = (ways.findIdx? (wayHolds tag)).map (· + k) := by
  induction ways generalizing k with
  | nil => rfl
  | cons w ways ih =>
    rw [findWay, List.findIdx?_cons, ih]
    split
    · simp
    · simp [Function.comp_def, Nat.add_comm, Nat.add_left_comm]

theorem findInvalid_eq (ways : List (Option Way)) (k : Nat) :
    findInvalid k ways = (ways.findIdx? Option.isNone).map (· + k) := by
  induction ways generalizing k with
  | nil => rfl
  | cons w ways ih =>
    rw [findInvalid, List.findIdx?_cons, ih]
    split
    · simp
    · simp [Function.comp_def, Nat.add_comm, Nat.add_left_comm]

namespace CacheSet

variable {c : CacheSet}

/-- No way below `i` holds a tag. -/
def NoneBelow (c : CacheSet) (tag i : Nat) : Prop :=
  ∀ j < i, ∀ x, c.ways[j]? = some (some x) → x.tag ≠ tag

theorem findWay_some_iff {tag i : Nat} : findWay tag 0 c.ways = some i ↔
    (∃ x, c.ways[i]? = some (some x) ∧ x.tag = tag) ∧ c.NoneBelow tag i := by
  simp only [findWay_eq, Nat.add_zero, Option.map_id', List.findIdx?_eq_some_iff_getElem]
  constructor
  · rintro ⟨hi, holds, first⟩
    obtain ⟨x, hx, ht⟩ := (wayHolds_iff _ _).mp holds
    refine ⟨⟨x, List.getElem?_eq_some_iff.mpr ⟨hi, hx⟩, ht⟩, fun j hj y hy hy' => ?_⟩
    obtain ⟨hl, hy⟩ := List.getElem?_eq_some_iff.mp hy
    exact first j hj ((wayHolds_iff _ _).mpr ⟨y, hy, hy'⟩)
  · rintro ⟨⟨x, hx, ht⟩, first⟩
    obtain ⟨hi, hx⟩ := List.getElem?_eq_some_iff.mp hx
    refine ⟨hi, (wayHolds_iff _ _).mpr ⟨x, hx, ht⟩, fun j hj holds => ?_⟩
    obtain ⟨y, hy, hy'⟩ := (wayHolds_iff _ _).mp holds
    exact first j hj y (List.getElem?_eq_some_iff.mpr ⟨_, hy⟩) hy'

theorem baseAt_of_way {i : Nat} {x : Way} (h : c.ways[i]? = some (some x)) : c.baseAt i = x.base := by
  simp [baseAt, List.getD_eq_getElem?_getD, h]

theorem invalidate_way_iff {index first last j : Nat} {x : Way} :
    (c.invalidate index first last).ways[j]? = some (some x) ↔
      c.ways[j]? = some (some x) ∧ ¬ (first ≤ x.tag * 8 + index ∧ x.tag * 8 + index ≤ last) := by
  simp only [invalidate, List.getElem?_map]
  cases h : c.ways[j]? with
  | none => simp
  | some w =>
    cases w with
    | none => simp
    | some y =>
      simp only [Option.map_some, Option.some.injEq]
      split
      · rename_i inRange
        refine ⟨nofun, fun ⟨same, outside⟩ => absurd inRange ?_⟩
        rwa [same]
      · rename_i outside
        refine ⟨fun same => ⟨Option.some.inj same, ?_⟩, fun held => congrArg some held.1⟩
        rwa [← Option.some.inj same]

end CacheSet

namespace Aperture

variable {a b : Aperture} {page i : Nat} {base : HostAddr}

/-! ### The translation of a page (R152) -/

/-- A page hits in the first way of its set that holds its tag. -/
theorem lookup_some_iff : a.lookup page = some (i, base) ↔
    (a.set (page % 8)).ways[i]? = some (some { tag := page / 8, base := base }) ∧
      (a.set (page % 8)).NoneBelow (page / 8) i := by
  unfold lookup setIndex tagOf
  dsimp only
  constructor
  · intro h
    split at h
    · exact absurd h nofun
    · rename_i found
      obtain ⟨⟨x, hx, ht⟩, first⟩ := CacheSet.findWay_some_iff.mp found
      obtain ⟨rfl, rfl⟩ := Prod.mk.inj (Option.some.inj h)
      rw [CacheSet.baseAt_of_way hx, ← ht]
      exact ⟨hx, ht ▸ first⟩
  · rintro ⟨hx, first⟩
    rw [CacheSet.findWay_some_iff.mpr ⟨⟨_, hx, rfl⟩, first⟩]
    dsimp only
    rw [CacheSet.baseAt_of_way hx]

theorem lookup_congr (h : (b.set (page % 8)).ways = (a.set (page % 8)).ways) : b.lookup page = a.lookup page := by
  simp only [lookup, CacheSet.baseAt, setIndex, h]

/-! ### The acts on a set -/

theorem set_putSet (a : Aperture) (i j : Nat) (c : CacheSet) :
    (a.putSet i c).set j = if i = j ∧ i < a.sets.length then c else a.set j := by
  simp only [set, putSet, List.getD_eq_getElem?_getD, List.getElem?_set]
  by_cases same : i = j
  · subst same
    by_cases inside : i < a.sets.length
    · simp [inside]
    · simp [inside]
  · simp [same]

/-- A use moves the PLRU bits, and no translation (R152, R153). -/
theorem lookup_use (a : Aperture) (used way page : Nat) : (a.use used way).lookup page = a.lookup page := by
  refine lookup_congr ?_
  rw [use, set_putSet]
  split
  · rename_i same
    rw [CacheSet.touch_ways, same.1]
  · rfl

theorem invalidateSets_getElem? (first last : Nat) (sets : List CacheSet) (k i : Nat) :
    (invalidateSets first last k sets)[i]? = sets[i]?.map fun c => c.invalidate (k + i) first last := by
  induction sets generalizing k i with
  | nil => rfl
  | cons c sets ih =>
    cases i with
    | zero => rfl
    | succ i => simp only [invalidateSets, List.getElem?_cons_succ, ih, Nat.add_right_comm k 1 i, Nat.add_assoc]

theorem set_remap (a : Aperture) (first last i : Nat) :
    (a.remap first last).set i = (a.set i).invalidate i first last := by
  simp only [set, remap, List.getD_eq_getElem?_getD, invalidateSets_getElem?, Nat.zero_add]
  cases a.sets[i]? <;> rfl

/-- A REMAP takes the translations of its range, and no other (R157). -/
theorem lookup_remap (a : Aperture) (first last page : Nat) :
    (a.remap first last).lookup page = if first ≤ page ∧ page ≤ last then none else a.lookup page := by
  have place : page / 8 * 8 + page % 8 = page := Nat.div_add_mod' page 8
  split
  · rename_i inRange
    refine Option.eq_none_iff_forall_ne_some.mpr fun ⟨i, base⟩ hit => ?_
    obtain ⟨held, -⟩ := lookup_some_iff.mp hit
    rw [set_remap, CacheSet.invalidate_way_iff, place] at held
    exact held.2 inRange
  · rename_i outside
    refine Option.ext fun ⟨i, base⟩ => ?_
    simp only [lookup_some_iff, set_remap, CacheSet.NoneBelow, CacheSet.invalidate_way_iff, place]
    refine and_congr (and_iff_left outside) (forall₃_congr fun j _ x => ⟨fun h hx ht => ?_, fun h hx => h hx.1⟩)
    exact h ⟨hx, by rw [ht, place]; exact outside⟩ ht

end Aperture

/-! ### A fetched entry (R153, R155) -/

theorem fillWay_lt {c : CacheSet} (h : c.ways.length = 4) (tag : Nat) : c.fillWay tag < c.ways.length := by
  unfold CacheSet.fillWay
  split
  · obtain ⟨⟨x, hx, -⟩, -⟩ := CacheSet.findWay_some_iff.mp ‹_›
    exact (List.getElem?_eq_some_iff.mp hx).1
  · split
    · rename_i free
      rw [findInvalid_eq, Option.map_eq_some_iff] at free
      obtain ⟨j, hj, rfl⟩ := free
      exact (List.findIdx?_eq_some_iff_getElem.mp hj).1
    · unfold CacheSet.victim
      (repeat' split) <;> omega

/-- An installed entry hits at the way that received it. -/
theorem Aperture.lookup_afterFetch {a : Aperture} (h : a.Legal) (page : Nat) (base : HostAddr) :
    (a.afterFetch page (.translated base)).lookup page =
      some ((a.set (page % 8)).fillWay (page / 8), base) := by
  have legal : (a.set (page % 8)).Legal := h.set page
  have inside : page % 8 < a.sets.length := by
    rw [h.1]
    exact Nat.mod_lt _ (by decide)
  have installed : (a.afterFetch page (.translated base)).set (page % 8) =
      (a.set (page % 8)).install (page / 8) base := by
    rw [afterFetch, set_putSet]
    exact if_pos ⟨rfl, inside⟩
  have ways : ((a.set (page % 8)).install (page / 8) base).ways =
      (a.set (page % 8)).ways.set ((a.set (page % 8)).fillWay (page / 8)) (some { tag := page / 8, base := base }) :=
    CacheSet.touch_ways ..
  rw [lookup_some_iff, installed, CacheSet.NoneBelow, ways]
  refine ⟨by rw [List.getElem?_set_self (fillWay_lt legal.1 _)], fun j hj x hx => ?_⟩
  rw [List.getElem?_set_ne hj.ne'] at hx
  exact legal.tag_ne_of_ne_fillWay _ hx hj.ne

theorem CacheSet.touch_eq (c : CacheSet) (i : Nat) : c.touch i = { c with
    b0 := decide (i < 2)
    b1 := if i = 0 then true else if i = 1 then false else c.b1
    b2 := if i < 2 then c.b2 else decide (i = 2) } := by
  match i with
  | 0 | 1 | 2 | n + 3 => simp [touch]

/-- The way of R153 and the bits after its use, as the statements write them. -/
theorem CacheSet.filled_eq (c : CacheSet) (page : Nat) (base : HostAddr) :
    c.filled page base = c.install (page / 8) base := by
  have holds : (fun w : Option Way => (w.map Way.tag) == some (page / 8)) = wayHolds (page / 8) := by
    funext w
    cases w <;> simp [wayHolds]
  unfold filled
  extract_lets way
  have received : way = c.fillWay (page / 8) := by
    simp only [way, holds, fillWay, findWay_eq, findInvalid_eq]
    cases c.ways.findIdx? (wayHolds (page / 8)) with
    | some j => rfl
    | none => cases c.ways.findIdx? Option.isNone <;> rfl
  rw [install, touch_eq]
  exact congrArg (fun i => ({ ways := c.ways.set i (some { tag := page / 8, base := base })
                              b0 := decide (i < 2)
                              b1 := if i = 0 then true else if i = 1 then false else c.b1
                              b2 := if i < 2 then c.b2 else decide (i = 2) } : CacheSet)) received

theorem fetchAnswer_some (bytes : List Byte) : fetchAnswer (some bytes) =
    let entry := BitVec.ofNat 64 (fieldAt bytes 0 8)
    if entry.getLsbD 0 = true then .translated ((entry >>> 21) <<< 21) else .invalid := by
  have aligned (x : BitVec 64) : x &&& ~~~(BitVec.ofNat 64 2097151) = (x >>> 21) <<< 21 := by
    have mask : ~~~(BitVec.ofNat 64 2097151) = BitVec.allOnes 64 <<< 21 := by decide
    refine BitVec.eq_of_getLsbD_eq fun i hi => ?_
    rw [mask]
    simp only [BitVec.getLsbD_and, BitVec.getLsbD_shiftLeft, BitVec.getLsbD_allOnes, BitVec.getLsbD_ushiftRight]
    by_cases low : i < 21
    · simp [low]
    · have inside : i - 21 < 64 := by omega
      simp [hi, low, inside, Nat.add_sub_cancel' (Nat.le_of_not_lt low)]
  rw [fetchAnswer, aligned]

theorem fetchAnswer_valid {bytes : List Byte} (h : (BitVec.ofNat 64 (fieldAt bytes 0 8)).getLsbD 0 = true) :
    fetchAnswer (some bytes) = .translated ((BitVec.ofNat 64 (fieldAt bytes 0 8) >>> 21) <<< 21) :=
  (fetchAnswer_some bytes).trans (if_pos h)

theorem fetchAnswer_invalid {bytes : List Byte} (h : (BitVec.ofNat 64 (fieldAt bytes 0 8)).getLsbD 0 = false) :
    fetchAnswer (some bytes) = .invalid :=
  (fetchAnswer_some bytes).trans (if_neg (ne_true_of_eq_false h))

end Sys2Proof.Machine
end

