-- ==== Sys2Proof/Proofs/ApertureDirectives.lean ====
section
-- One proof at a time: a stack for every waiting proof of this text would pass the memory limit of the check.
set_option Elab.async false
/-! PROBE_APERTURE and REMAP_APERTURES (R156 to R159). -/

namespace Sys2Proof.Machine

namespace State

variable {s : State}

/-! ### PROBE_APERTURE (R159) -/

theorem applyProbe_beyond {page : Nat} (h : 2047 < page) :
    s.applyProbe page = (s, DirectiveResult.refuse .badField) :=
  if_pos h

/-- Bit 1 of a probe's flags: a fetch of the page is in flight. -/
theorem probe_busy (fetch : Option Fetch) (page : Nat) :
    bit (fetch.elim false fun f => f.page == page) 1 = if fetch.map Fetch.page = some page then 2 else 0 := by
  cases fetch <;> simp [bit]

theorem applyProbe_within {page : Nat} (h : page ≤ 2047) : s.applyProbe page =
    let c := s.aperture.set (page % 8)
    let hit := s.aperture.lookup page
    (s, DirectiveResult.carried .none
      [(0, leBytes 1 (bit hit.isSome 0 + if s.aperture.fetch.map Fetch.page = some page then 2 else 0)),
       (1, leBytes 1 (page % 8)), (2, leBytes 1 ((hit.map Prod.fst).getD 0)),
       (3, leBytes 1 ((if c.b0 then 1 else 0) + (if c.b1 then 2 else 0) + (if c.b2 then 4 else 0))),
       (4, leBytes 8 ((hit.map fun x => x.2.toNat).getD 0))] 0) := by
  rw [← probe_busy]
  refine (if_neg (Nat.not_lt_of_le h)).trans ?_
  cases s.aperture.fetch <;> cases s.aperture.lookup page <;> rfl

end State

/-- Settles O30: the refusal past the table, and the answer of `State.applyProbe_within` on a hit and on a miss. -/
theorem probeReadsCache : Obligations.ProbeReadsCache := by
  intro s page ha
  refine ⟨fun beyond => ?_, fun within => ?_⟩
  · exact congrArg _ (s.direct_refuse (d := .probeAperture page) ha (fun _ => rfl) (State.applyProbe_beyond beyond))
  intro c plru busy
  have probed := State.applyProbe_within (s := s) within
  refine ⟨fun way base hit => congrArg Host.Outcome.next ?_, fun miss => congrArg Host.Outcome.next ?_⟩
  · rw [hit] at probed
    exact s.direct_carry (d := .probeAperture page) ha (fun _ => rfl) probed
  · simp only [miss, Option.isSome_none, bit, Bool.false_eq_true, if_false, Nat.zero_add] at probed
    exact s.direct_carry (d := .probeAperture page) ha (fun _ => rfl) probed

/-! ### REMAP_APERTURES (R156 to R158) -/

theorem Writer.blockedIn_iff (w : Writer) (first last : Nat) : w.blockedIn first last = true ↔
    w.phase = .blocked ∧ ∃ b, w.blocked = some b ∧ first ≤ b.page ∧ b.page ≤ last := by
  unfold Writer.blockedIn
  split
  · simp_all
  · rename_i other
    refine ⟨nofun, fun ⟨hp, b, hb, _⟩ => absurd hb (other b hp)⟩

theorem Aperture.fetchIn_iff (a : Aperture) (first last : Nat) : a.fetchIn first last = true ↔
    ∃ f, a.fetch = some f ∧ first ≤ f.page ∧ f.page ≤ last := by
  unfold Aperture.fetchIn
  split <;> simp_all

theorem invalidateSets_bits (first last : Nat) (sets : List CacheSet) (k : Nat) :
    (invalidateSets first last k sets).map (fun c => (c.b0, c.b1, c.b2)) =
      sets.map (fun c => (c.b0, c.b1, c.b2)) := by
  induction sets generalizing k with
  | nil => rfl
  | cons c sets ih => simp only [invalidateSets, List.map_cons, ih, CacheSet.invalidate]

namespace State

variable {s : State}

theorem applyRemap_beyond {first count : Nat} (h : 2047 < first) :
    s.applyRemap first count = (s, DirectiveResult.refuse .badField) :=
  if_pos h

/-- The Aperture Unit has applied a REMAP of a range. -/
def remapped (s : State) (first last : Nat) : State :=
  { s with aperture := s.aperture.remap first last }

/-- What a REMAP of a range answers, with the retry of a writer BLOCKED in it. -/
theorem exec_remapApertures {first count : Word} {n last flags : Nat} {u : State} (ha : s.attached = true)
    (hf : first.toNat ≤ 2047) (hn : n = max 1 (min (2048 - first.toNat) count.toNat)) (hl : last = first.toNat + n - 1)
    (hflags : flags = bit (s.aperture.fetchIn first.toNat last) 0 + bit (s.writer.blockedIn first.toNat last) 1)
    (hu : u = if s.writer.blockedIn first.toNat last = true then
      (s.remapped first.toNat last).retryTranslation else s.remapped first.toNat last) :
    exec (.remapApertures first count) s = .next (u.answering
      (if n = count.toNat then .none else .clamped)
      (leBytes 4 first.toNat ++ leBytes 4 n ++
        leBytes 2 (validWays s.aperture.sets - validWays (s.aperture.remap first.toNat last).sets) ++
        [BitVec.ofNat 8 flags])
      (if n = count.toNat then 0 else 1)) := by
  have mask : bit (n != count.toNat) 0 = if n = count.toNat then 0 else 1 := by
    by_cases h : n = count.toNat <;> simp [bit, h]
  have code : (if bit (n != count.toNat) 0 = 0 then ResultCode.none else .clamped) =
      if n = count.toNat then .none else .clamped := by
    rw [mask]
    split <;> rfl
  rw [← mask, ← code, hflags]
  refine congrArg Host.Outcome.next (s.direct_carry (d := .remapApertures first count)
    (fields := [(0, leBytes 4 first.toNat), (4, leBytes 4 n),
      (8, leBytes 2 (validWays s.aperture.sets - validWays (s.aperture.remap first.toNat last).sets)),
      (10, leBytes 1 (bit (s.aperture.fetchIn first.toNat last) 0 + bit (s.writer.blockedIn first.toNat last) 1))])
    ha (fun _ => rfl) ?_)
  subst hn hl hu
  exact if_neg (Nat.not_lt_of_le hf)

end State

/-- Two flag bits, by the parity and the range of the byte they make. -/
theorem flags_eq {flags : Nat} {low high : Bool} (parity : flags % 2 = 1 ↔ low = true)
    (range : if high = true then 2 ≤ flags ∧ flags < 4 else flags < 2) : flags = bit low 0 + bit high 1 := by
  cases low <;> cases high <;> simp [bit] at parity range ⊢ <;> omega

open State in
/-- Settles O29: the cache after `Aperture.remap`, the flags by what they say, and the retry by what waits already. -/
theorem remapInvalidatesRange : Obligations.RemapInvalidatesRange := by
  intro s first count ha
  refine ⟨fun beyond => ?_, fun within => ?_⟩
  · exact congrArg _ (s.direct_refuse (d := .remapApertures first count) ha (fun _ => rfl) (applyRemap_beyond beyond))
  intro n inRange
  obtain ⟨last, hl⟩ : ∃ last, last = first.toNat + n - 1 := ⟨_, rfl⟩
  have range (page : Nat) : first.toNat ≤ page ∧ page ≤ last ↔ inRange page := by
    have pos : 1 ≤ n := Nat.le_max_left ..
    simp only [inRange]
    omega
  have lookup (page : Nat) := s.aperture.lookup_remap first.toNat last page
  have blocked := s.writer.blockedIn_iff first.toNat last
  have fetching := s.aperture.fetchIn_iff first.toNat last
  simp only [range] at lookup blocked fetching
  refine ⟨s.aperture.remap first.toNat last, rfl,
    fun page => ⟨fun inside => (lookup page).trans (if_pos inside),
      fun outside => (lookup page).trans (if_neg outside)⟩,
    invalidateSets_bits .., fun none => congrArg (Option.map _) none,
    fun f hf => ⟨fun inside => ?_, fun outside => ?_⟩, fun flags parity => ?_⟩
  · simp only [Aperture.remap, hf, Option.map_some, if_pos ((range _).mpr inside)]
  · simp only [Aperture.remap, hf, Option.map_some, if_neg (mt (range _).mp outside)]
  intro answered
  have stays (outside : s.writer.blockedIn first.toNat last = false) (low : flags < 2) :
      exec (.remapApertures first count) s = .next (answered (s.remapped first.toNat last)) :=
    exec_remapApertures ha within rfl hl (flags_eq (parity.trans fetching.symm) (by rwa [outside]))
      (by rw [outside]; rfl)
  have retries (inside : s.writer.phase = .blocked ∧ ∃ b, s.writer.blocked = some b ∧ inRange b.page)
      (high : 2 ≤ flags ∧ flags < 4) {u : State} (hu : (s.remapped first.toNat last).retryTranslation = u) :
      exec (.remapApertures first count) s = .next (answered u) := by
    have released := blocked.mpr inside
    exact exec_remapApertures ha within rfl hl (flags_eq (parity.trans fetching.symm) (by rwa [released]))
      (by rw [released, ← hu]; rfl)
  refine ⟨?_, ?_⟩
  · rintro (⟨unblocked, low⟩ | ⟨position, waits, high⟩)
    · refine stays (Bool.eq_false_iff.mpr fun released => ?_) low
      obtain ⟨phase, b, hb, inside⟩ := blocked.mp released
      exact unblocked.elim (absurd phase) fun h => h b hb inside
    · exact retries position high (retryTranslation_held waits)
  · intro b k c low high phase position inside free work chunk page waiting
    have misses : (s.remapped first.toNat last).aperture.lookup (pageOf (c.addr + c.used)) = none :=
      (lookup _).trans (if_pos (by rwa [pageOf, pageBytes, page]))
    have asks := retryTranslation_asks (s := s.remapped first.toNat last) free work chunk
    refine ⟨fun busy => retries ⟨phase, b, position, inside⟩ ⟨low, high⟩ (asks.trans ?_),
      fun idle => retries ⟨phase, b, position, inside⟩ ⟨low, high⟩ (asks.trans ?_)⟩
    · rw [translate_joins misses (by simpa [remapped, Aperture.remap] using busy), pageOf, pageBytes, page]
      rfl
    · rw [translate_fetches misses (congrArg (Option.map _) idle), pageOf, pageBytes, page]
      rfl

end Sys2Proof.Machine
end

