-- ==== Sys2Proof/Proofs/CacheRequests.lean ====
section
-- One proof at a time: a stack for every waiting proof of this text would pass the memory limit of the check.
set_option Elab.async false
/-! What the clients' requests leave of the translation cache: no page's translation moves, and no page that hits joins
the miss list (R151 to R154). -/

namespace Sys2Proof.Machine

/-- From `s` to `t` every page translates as before, and a miss that has joined is of a page that misses. -/
structure State.KeepsPages (s t : State) : Prop where
  lookup : ∀ page, t.aperture.lookup page = s.aperture.lookup page
  missed : ∀ m ∈ t.aperture.misses, m ∈ s.aperture.misses ∨ s.aperture.lookup m.page = none

namespace State.KeepsPages

variable {s t u : State}

theorem refl (s : State) : s.KeepsPages s :=
  ⟨fun _ => rfl, fun _ hm => .inl hm⟩

/-- An act that leaves the cache and the miss list. -/
theorem aside (h : s.KeepsPages t) (ha : u.aperture = t.aperture := by rfl) : s.KeepsPages u :=
  ⟨ha ▸ h.lookup, ha ▸ h.missed⟩

/-- A use of a way, with no new miss. -/
theorem use (h : s.KeepsPages t) {page way : Nat} {misses : List Miss} {fetch : Option Fetch}
    (hm : misses ⊆ t.aperture.misses)
    (hu : u.aperture = { t.aperture.use page way with misses := misses, fetch := fetch }) : s.KeepsPages u where
  lookup p := by
    rw [hu]
    exact (t.aperture.lookup_use page way p).trans (h.lookup p)
  missed m hm' := by
    rw [hu] at hm'
    exact h.missed m (hm hm')

/-- A miss joins the list. -/
theorem miss (h : s.KeepsPages t) {m : Miss} (hl : t.aperture.lookup m.page = none)
    (hs : u.aperture.sets = t.aperture.sets) (hu : u.aperture.misses = t.aperture.misses ++ [m]) : s.KeepsPages u where
  lookup p := by
    refine Eq.trans (Aperture.lookup_congr ?_) (h.lookup p)
    rw [Aperture.set, Aperture.set, hs]
  missed x hx := by
    rw [hu, List.mem_append, List.mem_singleton] at hx
    rcases hx with hx | rfl
    · exact h.missed x hx
    · exact .inr ((h.lookup _).symm.trans hl)

theorem translate (h : s.KeepsPages t) (c : Client) (addr : Nat) : s.KeepsPages (t.translate c addr).1 := by
  cases hl : t.aperture.lookup (pageOf addr) with
  | some x =>
    rw [t.translate_hit c addr x.1 x.2 hl]
    exact h.use (List.Subset.refl _) rfl
  | none =>
    cases hf : t.aperture.fetch with
    | some f =>
      rw [t.translate_join c addr f hl hf]
      exact h.miss hl rfl rfl
    | none =>
      rw [t.translate_miss c addr hl hf]
      exact h.miss hl rfl rfl

theorem serveMisses (h : s.KeepsPages t) (n : Nat) : s.KeepsPages (State.serveMisses n t).1 := by
  induction n generalizing t with
  | zero => exact h
  | succ n ih =>
    unfold State.serveMisses
    split
    · exact h
    · rename_i m rest hm
      split
      · exact ⟨h.lookup, h.missed⟩
      · exact ih (h.use (hm ▸ List.subset_cons_self m rest) rfl)

/-! ### The writer (R131 to R145) -/

theorem closeChunk (h : s.KeepsPages t) (p : Pool) (last : Bool) : s.KeepsPages (t.closeChunk p last) :=
  h.aside (by simp [closeChunk_frame])

theorem placeBytes (h : s.KeepsPages t) (p : Pool) (k : Work) (x : Source) (n : Nat) :
    s.KeepsPages (t.placeBytes p k x n).1 := by
  cases hc : (t.writer.pool p).chunk with
  | none =>
    rw [placeBytes_seeks hc]
    exact h.aside (by simp [attempt_frame])
  | some c =>
    rcases Nat.lt_or_ge c.used (t.writer.pool p).chunkSize with room | full
    · by_cases held : ∃ base, k.page = some (pageOf (c.addr + c.used), base)
      · obtain ⟨base, hk⟩ := held
        rw [placeBytes_writes hc room hk]
        exact h.aside
      · rw [placeBytes_asks hc room (not_exists.mp held)]
        have asked := h.translate .writer (c.addr + c.used)
        split <;> (rename_i e; rw [e] at asked)
        · exact asked.aside
        · exact asked
    · rw [placeBytes_full hc full]
      exact h.closeChunk p false

theorem headerStep (h : s.KeepsPages t) (k : Work) (r : TakeRecord) : s.KeepsPages (t.headerStep k r).1 := by
  unfold State.headerStep
  split
  · exact h.placeBytes ..
  · exact h.aside

theorem fullStep (h : s.KeepsPages t) (k : Work) (r : PairRecord) : s.KeepsPages (t.fullStep k r).1 := by
  unfold State.fullStep
  split
  · exact h.aside
  · split
    · exact h.placeBytes ..
    · exact h.aside

theorem proxyStep (h : s.KeepsPages t) (k : Work) (r : PairRecord) (d : PairData) :
    s.KeepsPages (t.proxyStep k r d).1 := by
  unfold State.proxyStep
  split
  · exact h.aside
  · exact h.aside
  · split
    · exact h.aside
    · split
      · exact h.aside
      · split
        · exact h.aside
        · split
          · exact h.closeChunk ..
          · exact h.placeBytes ..

theorem entryStep (h : s.KeepsPages t) (k : Work) (r : PairRecord) (d : PairData) :
    s.KeepsPages (t.entryStep k r d).1 := by
  unfold State.entryStep
  extract_lets ordinal e
  split
  · exact h.placeBytes ..
  · exact h.aside (by simp [finishPair_frame])

theorem trailerStep (h : s.KeepsPages t) (k : Work) (r : TakeRecord) : s.KeepsPages (t.trailerStep k r).1 := by
  unfold State.trailerStep
  split
  · split
    · exact h.placeBytes ..
    · split
      · exact h
      · exact h.aside (by simp [finishTake_frame, closeChunk_frame])
  · split
    · exact h
    · exact ((h.closeChunk ..).closeChunk ..).aside

theorem writerStep (h : s.KeepsPages t) : s.KeepsPages t.writerStep.1 := by
  unfold State.writerStep
  split
  · exact h
  · split
    · exact h
    · split
      · split
        · exact h.headerStep ..
        · exact h.trailerStep ..
      · split
        · exact h
        · split
          · exact h.headerStep ..
          · exact h.fullStep ..
          · exact h.proxyStep ..
          · exact h.entryStep ..
          · exact h

theorem work (h : s.KeepsPages t) : s.KeepsPages t.work := by
  have runs (n : Nat) : ∀ {t : State}, s.KeepsPages t → s.KeepsPages (t.runWriter n) := by
    induction n with
    | zero => exact id
    | succ n ih =>
      intro t h
      rw [runWriter_succ]
      split
      · exact ih h.writerStep
      · exact h.writerStep
  exact runs _ h

theorem answerWriter (h : s.KeepsPages t) (page : Nat) (a : Answer) : s.KeepsPages (t.answerWriter page a) := by
  cases a with
  | translated base => exact work h.aside
  | invalid =>
    unfold State.answerWriter
    dsimp only
    split
    · exact h
    · exact h.aside (by simp [writerFault_frame])
  | readFailed => exact h.aside (by simp [State.answerWriter, writerFault_frame])

/-! ### Visits of the chain (R174 to R178) -/

theorem beginVisit (h : s.KeepsPages t) (b : Bool) : s.KeepsPages (t.beginVisit b) := by
  unfold State.beginVisit
  extract_lets c v
  have begun : s.KeepsPages v := h.aside
  have asked := begun.translate .chain v.chain.anchor
  split <;> (rename_i e; rw [e] at asked)
  · exact asked.aside
  · exact asked

theorem endVisit (h : s.KeepsPages t) (b : Bool) : s.KeepsPages (t.endVisit b) := by
  unfold State.endVisit
  extract_lets v w more
  have told : s.KeepsPages w := h.aside (by simp only [w, v]; split <;> simp)
  split
  · exact told.beginVisit false
  · exact told

theorem chainFault (h : s.KeepsPages t) (a : Nat) : s.KeepsPages (t.chainFault a) :=
  endVisit (h.aside (by split <;> simp)) false

theorem followNext (h : s.KeepsPages t) (n : Nat) : s.KeepsPages (t.followNext n) := by
  unfold State.followNext
  split
  · exact h.endVisit false
  · split
    · exact h.chainFault n
    · have asked := translate (t := t.setPhase (.recordPage n)) h.aside .chain n
      split <;> (rename_i e; rw [e] at asked)
      · exact asked.aside
      · exact asked

theorem completeRecord (h : s.KeepsPages t) (p : PendingResult) (base : HostAddr) :
    s.KeepsPages (t.completeRecord p base) := by
  unfold State.completeRecord
  extract_lets v c w
  have written : s.KeepsPages w := h.aside (by simp [w, v, countRefusal_frame, writeResult_frame])
  split
  · exact written.endVisit true
  · exact written.followNext _

theorem answerChain (h : s.KeepsPages t) (a : Answer) : s.KeepsPages (t.answerChain a) := by
  unfold State.answerChain
  split
  · exact h.aside
  · exact h.chainFault _
  · exact h.aside
  · exact h.chainFault _
  · exact h.completeRecord ..
  · exact chainFault h.aside _
  · exact h

theorem answerAll (h : s.KeepsPages t) (answers : List (Miss × Answer)) : s.KeepsPages (t.answerAll answers) := by
  induction answers generalizing t with
  | nil => exact h
  | cons x rest ih =>
    refine ih (t := t.answerMiss x.1 x.2) ?_
    unfold answerMiss
    split
    · exact h.answerWriter ..
    · exact h.answerChain x.2

end State.KeepsPages
end Sys2Proof.Machine
end

