-- ==== Sys2Proof/Proofs/ApertureFetches.lean ====
section
-- One proof at a time: a stack for every waiting proof of this text would pass the memory limit of the check.
set_option Elab.async false
/-! APERTURE_FETCH_DONE: the cache it leaves, the fetch it begins, and what its answers have the clients do (R144, R145,
R153 to R158, R174 to R178). -/

namespace Sys2Proof.Machine

/-- The host bus address of an answer, none without a translation. -/
def Answer.host : Answer → Option HostAddr
  | .translated base => some base
  | .invalid => none
  | .readFailed => none

namespace State

variable {s : State}

/-! ### Answers, in the words of the statements (R144, R145, R175, R177, R178) -/

theorem answerWriter_eq (s : State) (page : Nat) (a : Answer) : s.answerWriter page a = s.writerAnswered page a := by
  cases a with
  | translated base => rfl
  | invalid =>
    by_cases blocked : s.writer.phase = .blocked
    · refine Eq.trans ?_ (if_pos blocked).symm
      simp only [answerWriter, blocked]
    · refine Eq.trans ?_ (if_neg blocked).symm
      unfold answerWriter
      dsimp only
      split
      · exact absurd ‹_› blocked
      · rfl
  | readFailed => rfl

theorem answerChain_translated (s : State) (base : HostAddr) :
    s.answerChain (.translated base) = s.chainAnswered (some base) := by
  unfold answerChain chainAnswered
  cases s.chain.phase with
  | resultPage p => exact s.completeRecord_eq p base
  | _ => rfl

theorem answerChain_untranslated {a : Answer} (h : a.host = none) : s.answerChain a = s.chainAnswered none := by
  have faulted : s.answerChain .invalid = s.chainAnswered none := by
    unfold answerChain chainAnswered
    cases s.chain.phase with
    | anchorPage => exact s.chainFault_eq _
    | recordPage addr => exact s.chainFault_eq addr
    | resultPage p => exact s.resultFault_eq p
    | _ => rfl
  cases a with
  | translated base => exact absurd h nofun
  | invalid => exact faulted
  | readFailed =>
    refine Eq.trans ?_ faulted
    unfold answerChain
    cases s.chain.phase <;> rfl

theorem answerChain_eq (s : State) (a : Answer) : s.answerChain a = s.chainAnswered a.host := by
  cases h : a.host with
  | none => exact answerChain_untranslated h
  | some base =>
    cases a with
    | translated b => exact Option.some.inj h ▸ s.answerChain_translated b
    | invalid | readFailed => exact absurd h nofun

/-! ### A fetch that is done (R155, R157) -/

theorem exec_apertureFetchDone_stands {tag : Nat} (data : Option (List Byte))
    (h : ∀ f, s.aperture.fetch = some f → f.tag ≠ tag) : exec (.apertureFetchDone tag data) s = .next s := by
  show execApertureFetchDone tag data s = _
  unfold execApertureFetchDone
  split
  · rfl
  · exact if_neg (h _ ‹_›)

theorem exec_apertureFetchDone {f : Fetch} {tag : Nat} (data : Option (List Byte)) (hf : s.aperture.fetch = some f)
    (ht : f.tag = tag) : exec (.apertureFetchDone tag data) s = .next (s.fetchDone f data) := by
  show execApertureFetchDone tag data s = _
  simp only [execApertureFetchDone, hf, if_pos ht]

theorem fetchDone_discarded {f : Fetch} (data : Option (List Byte)) (h : f.discard = true) :
    s.fetchDone f data = s.beginFetch f.page :=
  if_pos h

/-- The answer of a fetch is in the cache, and the misses of its page have left the list. -/
def filled (s : State) (page : Nat) (answer : Answer) : State :=
  { s with aperture := { s.aperture.afterFetch page answer with
      misses := s.aperture.misses.filter (fun m => m.page != page), fetch := none } }

theorem fetchDone_answers {f : Fetch} (data : Option (List Byte)) (h : f.discard = false) :
    let a := fetchAnswer data
    let onward := State.serveMisses (s.filled f.page a).aperture.misses.length (s.filled f.page a)
    s.fetchDone f data = onward.1.answerAll
      ((s.aperture.misses.filter (fun m => m.page == f.page)).map (fun m => (m, a)) ++ onward.2) :=
  if_neg (by simp [h])

/-- The first miss left is not cached: its fetch begins, and no other miss is answered. -/
theorem serveMisses_next {n : Nat} (hn : s.aperture.misses.length = n)
    (h : ∀ m, s.aperture.misses.head? = some m → s.aperture.lookup m.page = none) :
    State.serveMisses n s = (s.aperture.misses.head?.elim s fun m => s.beginFetch m.page, []) := by
  subst hn
  cases hm : s.aperture.misses with
  | nil => rfl
  | cons m rest =>
    simp only [List.length_cons, State.serveMisses, hm, h m (by rw [hm]; rfl)]
    rfl

/-- The misses of the page are answered, once the fetch of the miss behind them has begun (R154, log 50). -/
theorem fetchDone_next {f : Fetch} {data : Option (List Byte)} (hd : f.discard = false) {a : Answer}
    (ha : fetchAnswer data = a) {t : State} (ht : s.filled f.page a = t)
    (h : ∀ m, t.aperture.misses.head? = some m → t.aperture.lookup m.page = none) :
    s.fetchDone f data = (s.aperture.misses.filter (fun m => m.page == f.page)).foldl (fun u m => u.answerMiss m a)
      (t.aperture.misses.head?.elim t fun m => t.beginFetch m.page) := by
  subst ha ht
  rw [fetchDone_answers data hd, serveMisses_next rfl h, List.append_nil]
  exact List.foldl_map

/-- No miss is left, and no fetch is in flight. -/
def served (s : State) : State :=
  { s with aperture := { s.aperture with misses := [], fetch := none } }

/-- The entry of a page is installed, no miss is left, and no fetch is in flight. -/
def servedWith (s : State) (page : Nat) (base : HostAddr) : State :=
  { s with aperture := { s.aperture.afterFetch page (.translated base) with misses := [], fetch := none } }

section
variable {f : Fetch} {data : Option (List Byte)} {c : Client} (hd : f.discard = false)
  (alone : s.aperture.misses = [{ client := c, page := f.page }])
include hd alone

/-- One client alone waited for the fetch: it is answered, and no fetch begins. -/
theorem fetchDone_alone : s.fetchDone f data = State.answerMiss { s with
    aperture := { s.aperture.afterFetch f.page (fetchAnswer data) with misses := [], fetch := none } }
      { client := c, page := f.page } (fetchAnswer data) := by
  have left : s.aperture.misses.filter (fun m => m.page != f.page) = [] := by simp [alone]
  have mine : s.aperture.misses.filter (fun m => m.page == f.page) = [{ client := c, page := f.page }] := by
    simp [alone]
  rw [fetchDone_next hd rfl rfl (by simp [filled, left]), mine]
  simp only [filled, left]
  rfl

theorem fetchDone_untranslated (h : (fetchAnswer data).host = none) :
    s.fetchDone f data = s.served.answerMiss { client := c, page := f.page } (fetchAnswer data) := by
  rw [fetchDone_alone hd alone]
  cases ha : fetchAnswer data with
  | translated base => exact absurd (ha ▸ h) nofun
  | invalid => rfl
  | readFailed => rfl

theorem fetchDone_translated {base : HostAddr} (h : fetchAnswer data = .translated base) :
    s.fetchDone f data =
      (s.servedWith f.page base).answerMiss { client := c, page := f.page } (.translated base) := by
  rw [fetchDone_alone hd alone, h]
  rfl

end

/-! ### What an answer has the writer do (R144, R145, R148) -/

section
variable {k : Work} {c : Chunk}

theorem nextPosition_eq (hk : s.writer.work = some k) (hc : (s.writer.pool k.step.pool).chunk = some c) (page : Nat) :
    s.nextPosition page = { pool := k.step.pool, offset := c.used, page := page } := by
  simp only [nextPosition, hk, hc]

theorem writerFrame_eq (hk : s.writer.work = some k) :
    s.writerFrame = if k.ending = true then s.cadence.frameNumber else k.frame := by
  simp only [writerFrame, hk]

/-- The writer waits for a translation whose read failed, at its next byte (R145, R148). -/
theorem answerWriter_readFailed (hk : s.writer.work = some k) (hc : (s.writer.pool k.step.pool).chunk = some c)
    (page : Nat) : s.answerWriter page .readFailed = State.reportFault { s with
      writer := { s.writer with
        phase := .waiting, wait := some (k.step.pool, .translationRead)
        blocked := some { pool := k.step.pool, offset := c.used, page := page } } } .linkRead
      (if k.ending = true then s.cadence.frameNumber else k.frame) (s.writer.take.getD 0#32)
      (BitVec.ofNat 32 (page + 2147483648)) := by
  rw [answerWriter_eq, ← writerFrame_eq hk, ← nextPosition_eq hk hc]
  unfold writerAnswered
  rw [nextPosition_eq hk hc]

/-- An invalid entry blocks the writer at its next byte (R144). -/
theorem answerWriter_blocks (hk : s.writer.work = some k) (hc : (s.writer.pool k.step.pool).chunk = some c)
    (page : Nat) (going : s.writer.phase ≠ .blocked) : s.answerWriter page .invalid = State.reportFault { s with
      writer := { s.writer with
        phase := .blocked, wait := none
        blocked := some { pool := k.step.pool, offset := c.used, page := page } }
      counters := { s.counters with apertureFaults := min 4294967295 (s.counters.apertureFaults + 1) } }
      .apertureFault (if k.ending = true then s.cadence.frameNumber else k.frame) (s.writer.take.getD 0#32)
      (BitVec.ofNat 32 page) := by
  rw [answerWriter_eq, ← writerFrame_eq hk, ← nextPosition_eq hk hc]
  exact if_neg going

/-- The writer goes on with a piece of work, its next byte on a page with a translation (R144, R145). -/
def resumed (s : State) (k : Work) (page : Nat) (base : HostAddr) : State :=
  { s with writer := { s.writer with
    phase := .writing, wait := none, blocked := none, work := some { k with page := some (page, base) } } }

theorem answerWriter_translated (hk : s.writer.work = some k) (page : Nat) (base : HostAddr) :
    s.answerWriter page (.translated base) = (s.resumed k page base).work := by
  rw [answerWriter_eq, writerAnswered, hk, Option.map_some]
  rfl

/-- The writer of a full picture that waited alone writes its next bytes at the page's address (R135, R144, R151). -/
theorem fetchDone_places_full {f : Fetch} {data : Option (List Byte)} (hd : f.discard = false)
    (alone : s.aperture.misses = [{ client := .writer, page := f.page }]) {base : HostAddr}
    (answer : fetchAnswer data = .translated base) {t : TakeRecord} {r : PairRecord} {d : PairData} {e : Extent}
    (h : s.PairInHand k t r d) (step : k.step = .full) (full : r.full = some e) (left : k.written < e.len)
    (hc : s.writer.fullPool.chunk = some c) (room : c.used < s.writer.fullPool.chunkSize)
    (page : pageOf (c.addr + c.used) = f.page) :
    s.link ++ [.payload (hostAt base (c.addr + c.used)) .full ((e.start + k.written) % s.store.fullArea.size)
      (min (e.len - k.written)
        (min (s.writer.fullPool.chunkSize - c.used) (pageBytes - pageOffset (c.addr + c.used))))] <+:
      (s.fetchDone f data).link := by
  have goes : s.fetchDone f data = ((s.servedWith f.page base).resumed k f.page base).work :=
    (fetchDone_translated hd alone answer).trans
      (answerWriter_translated (s := s.servedWith f.page base) h.work f.page base)
  have onward := h.next (u := (s.servedWith f.page base).resumed k f.page base) rfl
  rw [goes]
  exact onward.work_places_full step full left hc room (.inl (congrArg (fun n => some (n, base)) page.symm))

theorem answerWriter_stays (page : Nat) (blocked : s.writer.phase = .blocked) : s.answerWriter page .invalid = s :=
  (s.answerWriter_eq page .invalid).trans (if_pos blocked)

end

/-! ### What an answer has a visit do (R174, R175, R177, R178) -/

theorem reportFault_setAperture (s : State) (a : Aperture) (c : FaultClass) (f t d : Word) :
    State.reportFault { s with aperture := a } c f t d = { s.reportFault c f t d with aperture := a } := by
  cases h : s.faultRecord.latch with
  | true => rw [reportFault_held s c f t d h, reportFault_held { s with aperture := a } c f t d h]
  | false =>
    rw [reportFault_free s c f t d h, reportFault_free { s with aperture := a } c f t d h, raise_eq, raise_eq]

theorem visitEnded_last (again : s.chain.again = false) : s.visitEnded false =
    if s.chain.notify = true then (s.setPhase .idle).withCauses 0x02#8 else s.setPhase .idle :=
  if_neg (by simp [again])

/-- A visit that saw no NOTIFY, with no other asked for, has ended with a chain fault, reported unless STALLED. -/
theorem visitFaulted_last (again : s.chain.again = false) (notify : s.chain.notify = false) (page : Nat) :
    s.visitFaulted page = if s.chain.stalled = true then { s with chain := { s.chain with phase := .idle } }
      else { s.reportFault .chainFault s.cadence.frameNumber s.openTakeNumber (BitVec.ofNat 32 page) with
        chain := { s.chain with stalled := true, phase := .idle } } := by
  unfold visitFaulted
  split
  · rw [visitEnded_last again, notify]
    rfl
  · exact (visitEnded_last (s := { s.reportFault .chainFault s.cadence.frameNumber s.openTakeNumber
      (BitVec.ofNat 32 page) with chain := { s.chain with stalled := true } }) again).trans (if_neg (by simp [notify]))

/-- The same once the fetch that failed has left the Aperture Unit. -/
theorem visitFaulted_served {k : Chain} (again : k.again = false) (notify : k.notify = false) (page : Nat) :
    State.visitFaulted { s.served with chain := k } page =
      if k.stalled = true then { s.served with chain := { k with phase := .idle } }
      else { s.reportFault .chainFault s.cadence.frameNumber s.openTakeNumber (BitVec.ofNat 32 page) with
        aperture := s.served.aperture, chain := { k with stalled := true, phase := .idle } } := by
  rw [visitFaulted_last (s := { s.served with chain := k }) again notify, reportFault_setChain, served,
    reportFault_setAperture]
  rfl

section
variable {a : Answer} {base : HostAddr} {p : PendingResult} {addr : Nat}

theorem answerChain_faults (h : a.host = none)
    (hp : (s.chain.phase = .anchorPage ∧ addr = s.chain.anchor) ∨ s.chain.phase = .recordPage addr) :
    s.answerChain a = s.visitFaulted (addr / 2097152) := by
  rw [answerChain_untranslated h]
  unfold chainAnswered
  rcases hp with ⟨hp, rfl⟩ | hp <;> rw [hp]

theorem answerChain_resultFaults (h : a.host = none) (hp : s.chain.phase = .resultPage p) : s.answerChain a =
    State.visitFaulted { s with chain := { s.chain with anchor := p.addr, count := s.chain.count + 1 } }
      (p.addr / 2097152) := by
  rw [answerChain_untranslated h]
  unfold chainAnswered
  rw [hp]

theorem answerChain_anchor (hp : s.chain.phase = .anchorPage) : s.answerChain (.translated base) =
    s.chainReads (.nextRead s.nextTag) (base + BitVec.ofNat 64 (s.chain.anchor % 2097152)) 4 := by
  rw [answerChain_translated]
  unfold chainAnswered
  rw [hp]

theorem answerChain_record (hp : s.chain.phase = .recordPage addr) : s.answerChain (.translated base) =
    s.chainReads (.recordRead s.nextTag addr) (base + BitVec.ofNat 64 (addr % 2097152)) 64 := by
  rw [answerChain_translated]
  unfold chainAnswered
  rw [hp]

theorem answerChain_result (hp : s.chain.phase = .resultPage p) : s.answerChain (.translated base) =
    s.recordWritten p (base + BitVec.ofNat 64 (p.addr % 2097152)) := by
  rw [answerChain_translated]
  unfold chainAnswered
  rw [hp]

end

/-! ### The page of a fetch from then on (R155) -/

theorem fetchDone_keepsPages {f : Fetch} (data : Option (List Byte)) (h : f.discard = false) :
    (s.filled f.page (fetchAnswer data)).KeepsPages (s.fetchDone f data) := by
  rw [fetchDone_answers data h]
  exact ((KeepsPages.refl _).serveMisses _).answerAll _

/-- A valid entry hits from then on, and no miss of its page is left. -/
theorem fetchDone_hits {f : Fetch} {data : Option (List Byte)} {base : HostAddr} (h : f.discard = false)
    (legal : s.cacheLegal) (ha : fetchAnswer data = .translated base) :
    (s.fetchDone f data).aperture.lookup f.page = some ((s.aperture.set (f.page % 8)).fillWay (f.page / 8), base) ∧
      ∀ m ∈ (s.fetchDone f data).aperture.misses, m.page ≠ f.page := by
  obtain ⟨lookup, missed⟩ := fetchDone_keepsPages (s := s) data h
  rw [ha] at lookup missed
  have hit : (s.filled f.page (.translated base)).aperture.lookup f.page = _ :=
    Aperture.lookup_afterFetch (s.cacheLegal_iff.mp legal) f.page base
  refine ⟨(lookup _).trans hit, fun m hm same => ?_⟩
  rcases missed m hm with left | miss
  · have other := List.of_mem_filter left
    simp [same] at other
  · rw [same, hit] at miss
    exact absurd miss nofun

end State

open State in
/-- Settles O54: every fetch that is done by `fetchDone_next`, one that a client alone waited for by
`fetchDone_untranslated` and `fetchDone_translated` with what the answer has that client do, and the page of a valid
entry from then on by `fetchDone_hits`. -/
theorem apertureFetch : Obligations.ApertureFetch := by
  intro s tag data
  refine ⟨exec_apertureFetchDone_stands data, fun f hf ht hd => ?_, fun f hf ht => ?_⟩
  · rw [exec_apertureFetchDone data hf ht]
    intro answer sets left settled host next
    have answered : fetchAnswer data = answer := by
      cases data with
      | none => rfl
      | some bytes => exact fetchAnswer_some bytes
    have hosted : answer.host = host := by
      simp only [host]
      cases answer <;> rfl
    have installed : (s.aperture.afterFetch f.page answer).sets = sets := by
      simp only [sets, CacheSet.filled_eq]
      cases answer <;> rfl
    have filled : s.filled f.page answer = { s with aperture := { sets := sets, misses := left, fetch := none } } := by
      rw [← installed]
      rfl
    rw [fetchDone_next hd answered filled next]
    refine congrArg Host.Outcome.next (congrArg₂ (fun act t => List.foldl act t _) (funext₂ fun u m => ?_) ?_)
    · obtain ⟨client, page⟩ := m
      cases client with
      | writer => exact u.answerWriter_eq page answer
      | chain => exact hosted ▸ u.answerChain_eq answer
    · simp only [settled]
      generalize left = l
      cases l <;> rfl
  rw [exec_apertureFetchDone data hf ht]
  refine ⟨fun discarded => congrArg Host.Outcome.next (fetchDone_discarded data discarded), fun hd unread => ?_,
    fun hd alone untranslated again notify addr asked => ?_, fun hd alone legal bytes hb valid => ?_,
    fun hd bytes hb => ?_⟩
  · intro freed
    subst unread
    refine ⟨fun k c alone hk hc => congrArg Host.Outcome.next ?_,
      fun p alone phase again notify stalled => congrArg Host.Outcome.next ?_⟩
    · rw [fetchDone_untranslated hd alone rfl]
      exact answerWriter_readFailed (s := s.served) hk hc f.page
    · rw [fetchDone_untranslated hd alone rfl]
      refine (answerChain_resultFaults (s := s.served) rfl phase).trans ((visitFaulted_served
        (k := { s.chain with anchor := p.addr, count := s.chain.count + 1 }) again notify _).trans ?_)
      exact if_neg (by simp [stalled])
  · intro freed
    have host : (fetchAnswer data).host = none := by
      cases data with
      | none => rfl
      | some bytes =>
        rw [fetchAnswer_invalid (untranslated bytes rfl)]
        rfl
    have faulted : s.fetchDone f data = _ := (fetchDone_untranslated hd alone host).trans
      ((answerChain_faults (s := s.served) host asked).trans (visitFaulted_served (k := s.chain) again notify _))
    exact ⟨fun stalled => congrArg _ (faulted.trans (if_pos stalled)),
      fun reported => congrArg _ (faulted.trans (if_neg (by simp [reported])))⟩
  · intro base
    have answer : fetchAnswer data = .translated base := hb ▸ fetchAnswer_valid valid
    rw [fetchDone_translated hd alone answer]
    refine ⟨(s.servedWith f.page base).aperture, _, rfl, rfl,
      Aperture.lookup_afterFetch (s.cacheLegal_iff.mp legal) f.page base,
      fun phase => congrArg _ (answerChain_anchor (s := s.servedWith f.page base) phase),
      fun addr phase => congrArg _ (answerChain_record (s := s.servedWith f.page base) phase),
      fun p phase again room last => ?_⟩
    intro host notify done
    refine congrArg _ ((answerChain_result (s := s.servedWith f.page base) phase).trans ?_)
    refine (if_pos room).trans ((if_pos last).trans ?_)
    exact visitEnded_last again
  · intro entry
    refine ⟨fun legal valid => ?_, fun invalid alone blocked => congrArg _ ?_,
      fun invalid alone writing k c hk pair hc => congrArg _ ?_⟩
    · have answer : fetchAnswer data = .translated ((entry >>> 21) <<< 21) := hb ▸ fetchAnswer_valid valid
      obtain ⟨hit, left⟩ := fetchDone_hits hd legal answer
      obtain ⟨cadence, -, -, lanes, -, board, -⟩ := s.fetchDone_frame f data
      refine ⟨_, _, rfl, hit, left, cadence, lanes, board, ?_⟩
      intro k t others r d later e c alone hk pair step unwritten table list committed bound full chunk room page inPage
      exact fetchDone_places_full hd alone answer
        ⟨hk, pair, congrArg List.head? table, congrArg List.head? list, committed, bound⟩ step full unwritten chunk room
        page
    · have answer : fetchAnswer data = .invalid := hb ▸ fetchAnswer_invalid invalid
      rw [fetchDone_untranslated hd alone (by rw [answer]; rfl), answer]
      exact answerWriter_stays (s := s.served) f.page blocked
    · have answer : fetchAnswer data = .invalid := hb ▸ fetchAnswer_invalid invalid
      have going : s.writer.phase ≠ .blocked := by simp [writing]
      rw [fetchDone_untranslated hd alone (by rw [answer]; rfl), answer]
      refine (answerWriter_blocks (s := s.served) hk hc f.page going).trans ?_
      rw [pair]
      rfl

end Sys2Proof.Machine
end

