-- ==== Sys2Proof/Proofs/BoardRegisters.lean ====
section
-- One proof at a time: a stack for every waiting proof of this text would pass the memory limit of the check.
set_option Elab.async false
/-! The register window: what reads give, and the writes that act on no block (R162, R171). -/

namespace Sys2Proof.Machine

theorem EngineMode.code_lt (m : EngineMode) : m.code < 5 := by
  cases m <;> decide

theorem AttachResult.code_lt (r : AttachResult) : r.code < 5 := by
  cases r <;> decide

/-- The three fields of the Engine Status lie apart in its word (R171). -/
theorem Board.status_toNat (b : Board) :
    b.status.toNat = b.mode.code + 16 * b.result.code + (if b.clamped then 256 else 0) := by
  have mode := b.mode.code_lt
  have result := b.result.code_lt
  have clamped : bit b.clamped 8 = if b.clamped then 256 else 0 := rfl
  have small : bit b.clamped 8 ≤ 256 := by
    rw [clamped]
    split <;> decide
  rw [← clamped, Board.status, BitVec.toNat_ofNat]
  exact Nat.mod_eq_of_lt (by omega)

/-- An offset of no register (R162). -/
theorem State.readRegister_beyond (s : State) {offset : Nat} (h : 0x01C ≤ offset) : s.readRegister offset = 0#32 := by
  have word : 7 ≤ offset / 4 := (Nat.le_div_iff_mul_le (by decide)).mpr h
  unfold State.readRegister
  split
  case h_7 => rfl
  all_goals omega

/-- Settles O4: register by register, the status by `Board.status_toNat`. -/
theorem registerReadValues : Obligations.RegisterReadValues := by
  intro s
  have byte (x : Byte) : (x.setWidth 32).setWidth 8 = x := BitVec.setWidth_setWidth_of_le x (by decide)
  exact ⟨rfl, rfl, rfl, byte _, byte _, rfl, s.board.status_toNat, fun _ => s.readRegister_beyond⟩

/-- Settles O5: both commands are given by one equation of the model. -/
theorem anchorLowAndIgnoredWrites : Obligations.AnchorLowAndIgnoredWrites :=
  fun _ _ _ _ => ⟨rfl, rfl⟩

end Sys2Proof.Machine
end

