-- ==== Sys2Proof/Proofs/BoardResets.lean ====
section
-- One proof at a time: a stack for every waiting proof of this text would pass the memory limit of the check.
set_option Elab.async false
/-! Fundamental reset and Detach: the values they leave (R166, R167). -/

namespace Sys2Proof.Machine

/-! ### FUNDAMENTAL_RESET (R167) -/

/-- Both lanes are idle after reset (R70). -/
theorem Lanes.reset_lane (l : Lane) : Lanes.reset.lane l = LaneState.reset := by
  cases l <;> rfl

/-- The pools after reset: 2 entries each, of 4 MiB in FULL and of 2 MiB in the others (R128, R130). -/
theorem Writer.reset_pool (p : Pool) :
    Writer.reset.pool p = PoolState.fresh 2 (if p = .full then 4 else 2) := by
  cases p <;> rfl

/-- Settles O9: the command leaves `State.reset` but for the model's own fields. -/
theorem fundamentalResetValues : Obligations.FundamentalResetValues := by
  intro s
  refine ⟨{ State.reset with
    link := s.link, nextTag := s.nextTag, freeIndex := s.freeIndex, pending := s.pending }, rfl, rfl, rfl, ?labels,
    rfl, rfl, rfl, rfl, rfl, rfl, rfl, rfl, rfl, rfl, rfl, rfl, Lanes.reset_lane, rfl, rfl, rfl, rfl, rfl, rfl, rfl,
    rfl, rfl, rfl, rfl, rfl, rfl, rfl, rfl, rfl, rfl, rfl, Writer.reset_pool, rfl, rfl, rfl, rfl, rfl, rfl, rfl, rfl, rfl,
    rfl, rfl, rfl, rfl, rfl, rfl, rfl, rfl⟩
  case labels =>
    simp [State.reset, Timecode.reset, Label.zero]

/-- Settles O57: block by block, each with what its reset values are. -/
theorem resetIsLegal : Obligations.ResetIsLegal :=
  ⟨State.ControlLegal.reset, State.reset_slots_wf, State.ratesLegal.reset, State.reset.cacheLegal_iff.mpr .reset,
    Notices.reset_legal⟩

/-! ### Detach (R166) -/

namespace State

variable (s : State)

/-- The labels as Detach leaves them: the staged jam goes first, so the boundary that the end of following brings is an
increment (R25, R35, log 19). -/
def detachedTimecode : Timecode :=
  if s.following = true ∧ s.timecode.baseCounter = 0 then
    { s.timecode with
      jam := none, freeRun := s.timecode.freeRun.increment s.timecode.base
      baseCounter := (baseRate s.timecode.base).period }
  else { s.timecode with jam := none }

theorem detachCadence_eq : s.detachCadence =
    { s with cadence := { s.cadence.halt with lock := .unused }, timecode := s.detachedTimecode } := by
  unfold detachedTimecode
  split
  · exact (if_pos ‹_› : s.detachCadence = State.baseBoundary _)
  · exact (if_neg ‹_› : s.detachCadence = _)

theorem detach_board : s.detach.board = { Board.reset with staging := s.board.staging, anchor := s.board.anchor } := by
  simp only [detach, detachCadence_eq]
  rfl

theorem exec_linkDown : exec .linkDown s = .next s.loseHost := rfl

end State

/-- Settles O11: both commands are one act, and `State.detachCadence_eq` says what it leaves of cadence and labels. -/
theorem detachLeaves : Obligations.DetachLeaves := by
  intro s
  refine ⟨s.loseHost, rfl, rfl, ?_⟩
  unfold State.loseHost State.detach
  rw [s.detachCadence_eq]
  rfl

end Sys2Proof.Machine
end

