-- ==== Sys2Proof/Proofs/FrameReports.lean ====
section
-- One proof at a time: a stack for every waiting proof of this text would pass the memory limit of the check.
set_option Elab.async false
/-! The Frame Report: its three writes, and its bytes field by field (R171, R183, R184). -/

namespace Sys2Proof.Machine

/-! ### Causes raised one after the other (R186) -/

/-- One MSI at most goes out for causes that become pending one after the other: the same as for both at once. -/
theorem msiFor_or (n : Notices) (a b : Byte) :
    msiFor n { n with cause := n.cause ||| a } ++
        msiFor { n with cause := n.cause ||| a } { n with cause := n.cause ||| a ||| b } =
      msiFor n { n with cause := n.cause ||| (a ||| b) } := by
  have spread (x y : Byte) : (x ||| y) &&& ~~~n.mask = x &&& ~~~n.mask ||| y &&& ~~~n.mask :=
    BitVec.and_or_distrib_right
  simp only [msiFor, spread, BitVec.or_eq_zero_iff]
  by_cases signalled : n.cause &&& ~~~n.mask = 0#8 <;> by_cases first : a &&& ~~~n.mask = 0#8 <;>
    simp [signalled, first]

namespace State

variable (s : State)

theorem withCauses_withCauses (a b : Byte) : (s.withCauses a).withCauses b = s.withCauses (a ||| b) := by
  have causes : s.notices.cause ||| a ||| b = s.notices.cause ||| (a ||| b) := BitVec.or_assoc ..
  have msi := msiFor_or s.notices a b
  simp only [withCauses, causes, List.append_assoc] at msi ⊢
  rw [msi]

theorem raise_report : s.raise .report = s.withCauses 0x80#8 :=
  s.raise_eq .report

/-! ### The report's writes (R183) -/

/-- The three writes of a report: the sequence, the record from byte 4 on, and the sequence again. -/
def reportWrites (anchor : HostAddr) (sequence : Word) (bytes : List Byte) : List LinkItem :=
  [.write (anchor + 0x100#64) (leBytes 4 sequence.toNat), .write (anchor + 0x104#64) (bytes.drop 4),
    .write (anchor + 0x2FC#64) (leBytes 4 sequence.toNat)]

/-- A report is its three writes under the next sequence, and REPORT. -/
theorem frameReport_eq (passed : List State) (label : Label) : s.frameReport passed label = State.withCauses { s with
    reportSequence := s.reportSequence + 1#32, freeIndex := s.freeIndex + 1
    link := s.link ++
      reportWrites s.board.anchor (s.reportSequence + 1#32) (s.reportBytes (s.reportView passed) label) }
    0x80#8 := by
  have posted (t : State) (a b c : LinkItem) : ((t.emit a).emit b).emit c = { t with link := t.link ++ [a, b, c] } := by
    simp [emit]
  rw [← raise_report]
  exact congrArg (State.raise · .report) (posted { s with
    reportSequence := s.reportSequence + 1#32, freeIndex := s.freeIndex + 1 } ..)

/-- Where every block passed through one state only, the report shows that one (R184). -/
theorem reportView_constant {passed : List State} {u : State} (h : ∀ x ∈ passed, x = u) (nonempty : passed ≠ []) :
    s.reportView passed = ⟨u, u, u, u, u⟩ := by
  have seen (b : ReportBlock) : seenState b s.freeIndex s passed = u := by
    unfold seenState
    split
    · exact absurd rfl nonempty
    · exact h _ (by simp)
    · have inside : Config.reportSees b s.freeIndex % passed.length < passed.length :=
        Nat.mod_lt _ (List.length_pos_iff.mpr nonempty)
      rw [List.getD_eq_getElem _ _ inside]
      exact h _ (List.getElem_mem inside)
  simp only [reportView, seen]

end State

end Sys2Proof.Machine
end

