-- ==== Sys2Proof/Proofs/BoardAttach.lean ====
section
-- One proof at a time: a stack for every waiting proof of this text would pass the memory limit of the check.
set_option Elab.async false
/-! The commit of an anchor, and the two ends of its header read (R163 to R165). -/

namespace Sys2Proof.Machine

namespace State

variable {s : State}

theorem raise_attach (s : State) : s.raise .attach = s.withCauses 0x01#8 :=
  s.raise_eq .attach

/-! ### The commit (R163) -/

theorem commitAnchor_zero {anchor : HostAddr} (zero : anchor = 0#64) : s.commitAnchor anchor =
    { s.loseHost with board := { s.loseHost.board with staging := s.board.staging } } := by
  refine (if_pos zero).trans ?_
  rw [zero, detach_board]
  rfl

theorem commitAnchor_reads {anchor : HostAddr} (nonzero : anchor ≠ 0#64) (aligned : anchor.toNat % 4096 = 0) :
    s.commitAnchor anchor = { s.loseHost with
      board := { staging := s.board.staging, anchor := anchor, mode := .attaching, result := .none,
                 clamped := false, headerRead := some { tag := s.nextTag, anchor := anchor } }
      link := s.link ++ [.read s.nextTag anchor 256]
      nextTag := s.nextTag + 1 } := by
  obtain ⟨-, -, -, link, nextTag, -⟩ := s.detach_frame
  refine (if_neg nonzero).trans ((if_pos aligned).trans ?_)
  simp only [readHeader, issueRead, detach_board, link, nextTag]
  rfl

theorem commitAnchor_misaligned {anchor : HostAddr} (h : anchor.toNat % 4096 ≠ 0) :
    s.commitAnchor anchor = State.withCauses { s.loseHost with
      board := { staging := s.board.staging, anchor := anchor, mode := .detached, result := .misaligned,
                 clamped := false, headerRead := none } } 0x01#8 := by
  have nonzero : anchor ≠ 0#64 := by
    rintro rfl
    exact h rfl
  refine (if_neg nonzero).trans ((if_neg h).trans ((raise_attach _).trans ?_))
  simp only [detach_board]
  rfl

end State

/-- Settles O12: Detach, and then the three cases of the anchor. -/
theorem commitOfAnchor : Obligations.CommitOfAnchor := by
  intro s value
  refine ⟨s.loseHost, s.exec_linkDown, ?_⟩
  rintro anchor rfl
  have commit : exec (.boardAnchorHigh value) s = .next (s.commitAnchor (value ++ s.board.staging)) := rfl
  rw [commit]
  refine ⟨fun zero => ?_, fun nonzero aligned => ?_, fun misaligned => ?_⟩
  · rw [State.commitAnchor_zero zero]
  · rw [State.commitAnchor_reads nonzero aligned]
  · rw [State.commitAnchor_misaligned misaligned]

/-! ### The header read's end (R164) -/

namespace State

variable {s : State} {tag : Nat} {a : HostAddr}

theorem exec_headerReadDone_stands (data : Option (List Byte))
    (h : ∀ a, s.board.headerRead ≠ some { tag := tag, anchor := a }) : exec (.headerReadDone tag data) s = .next s := by
  show execHeaderReadDone tag data s = _
  unfold execHeaderReadDone
  split
  · rfl
  · rename_i r awaited
    refine if_neg ?_
    rintro rfl
    exact h r.anchor awaited

theorem exec_headerReadDone (data : Option (List Byte))
    (awaited : s.board.headerRead = some { tag := tag, anchor := a }) :
    exec (.headerReadDone tag data) s = .next (s.judgeHeader data) := by
  show execHeaderReadDone tag data s = _
  unfold execHeaderReadDone
  simp only [awaited, if_true]

theorem attachFailed_eq (s : State) (result : AttachResult) : s.attachFailed result = State.withCauses { s with
    board := { s.board with mode := .detached, result := result, headerRead := none } } 0x01#8 :=
  raise_attach _

end State

/-- Settles O13: what is awaited, and then what has come. -/
theorem headerReadFailures : Obligations.HeaderReadFailures := by
  intro s tag data
  refine ⟨State.exec_headerReadDone_stands data, fun a awaited => ?_⟩
  rw [State.exec_headerReadDone data awaited]
  refine ⟨?_, ?_⟩
  · rintro rfl
    exact congrArg _ (s.attachFailed_eq .readFailure)
  · rintro bytes rfl other
    exact congrArg _ ((if_neg other).trans (s.attachFailed_eq .format))

/-! ### A good header (R165) -/

/-- The pools a header gives have no chunk and no attempt, and begin at entry and sequence 0 (R130). -/
theorem writerOf_pool (bytes : List Byte) (p : Pool) :
    ((writerOf bytes).pool p).cursor = 0 ∧ ((writerOf bytes).pool p).chunk = none ∧
      ((writerOf bytes).pool p).nextSequence = 0 ∧ ((writerOf bytes).pool p).attempt = none := by
  cases p <;> exact ⟨rfl, rfl, rfl, rfl⟩

theorem Intake.detached_free (k : Intake) : ∀ x ∈ k.detached.slots, x.state = .free := by
  intro x hx
  obtain ⟨y, -, rfl⟩ := List.mem_map.mp hx
  rfl

namespace State

/-- A successful attach: the blocks set up, the attach report under sequence 1, and REPORT and ATTACH. -/
theorem attach_eq (s : State) (bytes : List Byte) :
    let u := s.setUp bytes
    s.attach bytes = State.withCauses { u with
      reportSequence := 1#32, freeIndex := u.freeIndex + 1
      link := u.link ++ reportWrites u.board.anchor 1#32 (u.reportBytes ⟨u, u, u, u, u⟩ u.timecode.freeRun) }
      0x81#8 := by
  intro u
  have view : u.reportView [u] = ⟨u, u, u, u, u⟩ := u.reportView_constant (by simp) (by simp)
  calc s.attach bytes = (u.frameReport [u] u.timecode.freeRun).withCauses 0x01#8 := raise_attach _
    _ = _ := by
      rw [frameReport_eq, withCauses_withCauses, view]
      rfl

end State

/-- Settles O14: the blocks as `State.setUp` leaves them, and `State.attach_eq` for the report and the causes. -/
theorem attachSetsUpEngine : Obligations.AttachSetsUpEngine := by
  intro s tag bytes a awaited format
  refine ⟨s.attach bytes, State.exec_headerReadDone_good awaited format, ?_⟩
  rw [s.attach_eq bytes]
  exact ⟨rfl, rfl, rfl, rfl, rfl, rfl, rfl, rfl, Governor.reset_eq_ofProfile.symm, rfl, rfl, rfl, rfl,
    s.intake.detached_free, rfl, rfl, rfl, rfl, rfl, rfl, rfl, rfl, rfl, rfl, rfl, rfl, writerOf_pool bytes, rfl, rfl,
    rfl, rfl, rfl⟩

end Sys2Proof.Machine
end

