-- ==== Sys2Proof/Proofs/ReportBytes.lean ====
section
-- One proof at a time: a stack for every waiting proof of this text would pass the memory limit of the check.
set_option Elab.async false
/-! The bytes of the Frame Report, field by field (R171, R184). -/

namespace Sys2Proof.Machine

/-! ### Records whose fields are listed in any order -/

/-- The fields of a record lie in its bytes, no two of them on one byte. -/
structure Apart (len : Nat) (fields : List (Nat × List Byte)) : Prop where
  fits : ∀ f ∈ fields, f.1 + f.2.length ≤ len
  apart : fields.Pairwise (fun f g => f.1 + f.2.length ≤ g.1 ∨ g.1 + g.2.length ≤ f.1)

namespace Apart

variable {len : Nat} {fields : List (Nat × List Byte)}

/-- Whether fields lie apart is a matter of their places and lengths alone. -/
theorem of_places {places : List (Nat × Nat)} (h : fields.map (fun f => (f.1, f.2.length)) = places)
    (fits : ∀ p ∈ places, p.1 + p.2 ≤ len) (apart : places.Pairwise (fun p q => p.1 + p.2 ≤ q.1 ∨ q.1 + q.2 ≤ p.1)) :
    Apart len fields := by
  subst h
  exact ⟨fun f hf => fits _ (List.mem_map_of_mem hf), List.pairwise_map.mp apart⟩

/-- Every field reads back as it was given. -/
theorem reads (h : Apart len fields) : ∀ f ∈ fields, slice (layout len fields) f.1 f.2.length = f.2 := by
  intro f hf
  obtain ⟨before, later, rfl⟩ := List.append_of_mem hf
  exact slice_layout _ _ _ _ _ _ rfl h.fits (List.pairwise_cons.mp (List.pairwise_append.mp h.apart).2.1).1

end Apart

/-! ### Counters side by side -/

/-- A part of a field. -/
theorem slice_slice (buffer : List Byte) {o n i k : Nat} (h : i + k ≤ n) :
    slice (slice buffer o n) i k = slice buffer (o + i) k := by
  have inside : min k (n - i) = k := by omega
  rw [slice, slice, slice, List.drop_take, List.take_take, List.drop_drop, inside]

/-- Of 32-bit numbers laid one behind the other, each reads back at its place. -/
theorem slice_numbers {values : List Nat} {i v : Nat} (h : values[i]? = some v) :
    slice (values.flatMap (leBytes 4)) (4 * i) 4 = leBytes 4 v := by
  induction values generalizing i with
  | nil => exact absurd h nofun
  | cons w values ih =>
    have len : (leBytes 4 w).length = 4 := length_leBytes 4 w
    cases i with
    | zero =>
      obtain rfl : w = v := Option.some.inj h
      exact List.take_left' len
    | succ i =>
      have next : 4 * (i + 1) = (leBytes 4 w).length + 4 * i := by omega
      rw [slice, List.flatMap_cons, next, List.drop_length_add_append]
      exact ih h

/-! ### The writer detail (R130, R171, log 41) -/

namespace Writer

variable {w : Writer}

theorem detail_working (h : w.phase = .idle ∨ w.phase = .writing) : w.detail = 0 := by
  rcases h with h | h <;> simp only [detail, h]

theorem detail_waiting {p : Pool} {c : WaitCause} (h : w.phase = .waiting) (hw : w.wait = some (p, c)) :
    w.detail = p.code + 4 * c.code := by
  simp only [detail, h, hw]

theorem detail_blocked {x : BlockedPosition} (h : w.phase = .blocked) (hb : w.blocked = some x) :
    w.detail = x.pool.code := by
  simp only [detail, h, hb]

theorem detail_lt (w : Writer) : w.detail < 256 := by
  have pool (p : Pool) : p.code ≤ 2 := by cases p <;> decide
  have cause (c : WaitCause) : c.code ≤ 2 := by cases c <;> decide
  unfold detail
  split
  · decide
  · decide
  · split
    · decide
    · rename_i p c _
      have := pool p
      have := cause c
      omega
  · split
    · decide
    · rename_i b _
      have := pool b.pool
      omega

end Writer

/-! ### Codes and flags fit a byte -/

theorem LockState.code_lt (l : LockState) : l.code < 256 := by
  cases l <;> decide

theorem WriterPhase.code_lt (p : WriterPhase) : p.code < 256 := by
  cases p <;> decide

theorem FaultClass.code_lt (c : Option FaultClass) : FaultClass.code c < 256 := by
  cases c with
  | none => decide
  | some c => cases c <;> decide

theorem Cadence.pendingPeriod_none {c : Cadence} (h : c.pending = none) : c.pendingPeriod = 0 := by
  rw [pendingPeriod, h]

theorem Cadence.pendingPeriod_some {c : Cadence} {x : CadenceSetting} (h : c.pending = some x) :
    c.pendingPeriod = x.period := by
  rw [pendingPeriod, h]

/-- PENDING and SUSPENDED in the flags byte (R171). -/
theorem recordFlags_eq (c : Cadence) (w : Writer) : recordFlags c w =
    (if c.pending = none then 0 else 1) + (if w.suspended = true then 2 else 0) := by
  have pending : bit c.pending.isSome 0 = if c.pending = none then 0 else 1 := by
    cases c.pending <;> rfl
  exact congrArg (· + _) pending

theorem recordFlags_lt (c : Cadence) (w : Writer) : recordFlags c w < 256 := by
  rw [recordFlags_eq]
  split <;> split <;> decide

/-! ### The fields of the report -/

namespace State

variable (s : State) (v : ReportView) (label : Label)

/-- The fields of the Frame Report, as the model lists them. -/
def reportFields : List (Nat × List Byte) :=
  s.reportCadenceFields label v.intake.timecode.recordRun ++
    reportStoreFields s.cadence v.writer.writer v.store.store ++
    [(80, (reportCounters s.counters v.intake.counters).flatMap (leBytes 4))] ++
    reportNoticeFields v.coalescing.notices v.faultRecord.faultRecord

theorem reportBytes_eq : s.reportBytes v label = layout 508 (s.reportFields v label) := rfl

/-- Where the fields of the Frame Report lie, and how long they are (R171). -/
def reportPlaces : List (Nat × Nat) :=
  [(4, 1), (5, 1), (8, 4), (12, 4), (16, 4), (20, 4), (24, 8), (32, 8), (40, 4), (44, 4), (48, 1), (49, 1),
    (6, 1), (7, 1), (50, 1), (51, 1), (52, 2), (54, 2), (72, 1), (73, 1), (74, 1), (56, 4), (60, 4), (64, 4), (68, 4),
    (80, 64), (76, 1), (77, 1), (78, 1), (144, 1), (145, 1), (148, 4), (152, 4), (156, 4), (160, 4)]

theorem reportFields_places : (s.reportFields v label).map (fun f => (f.1, f.2.length)) = reportPlaces := rfl

theorem reportFields_apart : Apart 508 (s.reportFields v label) :=
  .of_places (s.reportFields_places v label) (by decide) (by decide)

theorem reportBytes_length : (s.reportBytes v label).length = 508 := by
  rw [reportBytes_eq]
  exact length_layout _ _ (s.reportFields_apart v label).fits

/-- Bytes 164 to 507 are reserved. -/
theorem reportBytes_reserved : slice (s.reportBytes v label) 164 344 = List.replicate 344 0#8 := by
  have low : ∀ p ∈ reportPlaces, p.1 + p.2 ≤ 164 := by decide
  rw [reportBytes_eq]
  refine slice_layout_zero _ _ _ _ (by decide) (s.reportFields_apart v label).fits fun f hf => .inr ?_
  exact low (f.1, f.2.length) (s.reportFields_places v label ▸ List.mem_map_of_mem hf)

theorem reportBytes_reads : ∀ f ∈ s.reportFields v label, slice (s.reportBytes v label) f.1 f.2.length = f.2 := by
  rw [reportBytes_eq]
  exact (s.reportFields_apart v label).reads

/-- Each counter of R185 at its place. -/
theorem reportBytes_counter {i n : Nat} (h : (reportCounters s.counters v.intake.counters)[i]? = some n) :
    fieldAt (s.reportBytes v label) (80 + 4 * i) 4 = n % 2 ^ 32 := by
  have block := s.reportBytes_reads v label _
    (List.mem_append_left _ (List.mem_append_right _ (List.mem_singleton_self _)))
  have length : ((reportCounters s.counters v.intake.counters).flatMap (leBytes 4)).length = 64 := rfl
  rw [length] at block
  have inside : i < 16 := (List.getElem?_eq_some_iff.mp h).1
  refine fieldAt_number ?_
  rw [← slice_slice _ (n := 64) (by omega), block]
  exact slice_numbers h

end State

end Sys2Proof.Machine
end

