-- ==== Sys2Proof/Proofs/VisitRequests.lean ====
section
-- One proof at a time: a stack for every waiting proof of this text would pass the memory limit of the check.
set_option Elab.async false
/-! VISIT_REQUEST: the writer's retry, the report, and the visit (R132, R145, R168, R174, R183). -/

namespace Sys2Proof.Machine

namespace State

variable {s u : State}

/-! ### The writer's retry (R132, R145) -/

theorem writerVisit_working (h : s.writer.phase = .idle ∨ s.writer.phase = .writing) : s.writerVisit = s := by
  rcases h with h | h <;> simp only [writerVisit, h]

theorem writerVisit_chunk {p : Pool} {c : WaitCause} (hp : s.writer.phase = .waiting)
    (hw : s.writer.wait = some (p, c)) (hc : c ≠ .translationRead) : s.writerVisit = s.attempt p := by
  cases c with
  | translationRead => exact absurd rfl hc
  | noChunk | entryRead => simp only [writerVisit, hp, hw]

theorem writerVisit_translation (h : s.writer.phase = .blocked ∨
    (s.writer.phase = .waiting ∧ ∃ p, s.writer.wait = some (p, .translationRead))) :
    s.writerVisit = s.retryTranslation := by
  rcases h with hp | ⟨hp, p, hw⟩
  · simp only [writerVisit, hp]
  · simp only [writerVisit, hp, hw]

/-- A writer with no miss in the list asks for the page of its next byte, and writes on where the page hits. -/
theorem retryTranslation_free (h : ∀ m ∈ s.aperture.misses, m.client ≠ .writer) :
    s.retryTranslation = match s.translate .writer s.nextAddress with
      | (t, some base) => t.answerWriter (pageOf s.nextAddress) (.translated base)
      | (t, none) => t := by
  have free : ¬ s.waitsForPage .writer = true := by simpa [waitsForPage] using h
  exact if_neg free

theorem retryTranslation_joins (h : ∀ m ∈ s.aperture.misses, m.client ≠ .writer)
    (miss : s.aperture.lookup (pageOf s.nextAddress) = none) (busy : s.aperture.fetch ≠ none) :
    s.retryTranslation = s.awaiting (pageOf s.nextAddress) := by
  rw [retryTranslation_free h, translate_joins miss busy]

theorem retryTranslation_fetches (h : ∀ m ∈ s.aperture.misses, m.client ≠ .writer)
    (miss : s.aperture.lookup (pageOf s.nextAddress) = none) (free : s.aperture.fetch = none) :
    s.retryTranslation = (s.awaiting (pageOf s.nextAddress)).beginFetch (pageOf s.nextAddress) := by
  rw [retryTranslation_free h, translate_fetches miss free]

/-- The writer's page hits: it goes on with the work in hand, if any, at the page's translation. -/
def writesOn (s : State) (page way : Nat) (base : HostAddr) : State :=
  { s with
    aperture := s.aperture.use page way
    writer := { s.writer with
      phase := .writing, wait := none, blocked := none
      work := s.writer.work.map (fun k => { k with page := some (page, base) }) } }

theorem retryTranslation_hits (h : ∀ m ∈ s.aperture.misses, m.client ≠ .writer) {way : Nat} {base : HostAddr}
    (hit : s.aperture.lookup (pageOf s.nextAddress) = some (way, base)) :
    s.retryTranslation = (s.writesOn (pageOf s.nextAddress) way base).work := by
  rw [retryTranslation_free h, translate_hit _ _ _ _ _ hit]
  rfl

/-! ### The visit (R174) -/

/-- A visit that begins sets its fields afresh; the anchor and STALLED hold. -/
theorem beginVisit_chain (s : State) (b : Bool) : (s.beginVisit b).chain = { s.chain with
    phase := (s.beginVisit b).chain.phase, again := false, count := 0, notify := false, atFrameStart := b } := by
  unfold beginVisit
  extract_lets c t
  have kept : (t.translate .chain t.chain.anchor).1.chain = t.chain := by simp [translate_frame]
  split <;> (rename_i e; rw [e] at kept; dsimp only at kept ⊢)
  · rw [readNext, setPhase_chain, issueRead_chain, kept]
  · rw [kept]

/-- A translation request leaves every miss in the list. -/
theorem mem_misses_translate {m : Miss} (h : m ∈ s.aperture.misses) (c : Client) (addr : Nat) :
    m ∈ (s.translate c addr).1.aperture.misses := by
  unfold translate
  dsimp only
  split
  · exact h
  · dsimp only
    split <;> exact List.mem_append_left _ h

theorem mem_misses_askVisit {m : Miss} (h : m ∈ s.aperture.misses) (b : Bool) :
    m ∈ (s.askVisit b).aperture.misses := by
  unfold askVisit
  split
  · unfold beginVisit
    extract_lets c t
    have kept : m ∈ (t.translate .chain t.chain.anchor).1.aperture.misses := mem_misses_translate (s := t) h _ _
    split <;> (rename_i e; rw [e] at kept; exact kept)
  · exact h

/-! ### The command (R168) -/

theorem exec_visitRequest_ignored (value : Word) (h : s.board.mode = .detached ∨ s.board.mode = .attaching) :
    exec (.visitRequest value) s = .next s := by
  refine if_neg ?_
  rcases h with h | h <;> simp [attached, h]

theorem exec_visitRequest (value : Word) (ha : s.attached = true) :
    exec (.visitRequest value) s = .next s.visitRequest :=
  if_pos ha

/-- A Visit Request, whole, from what the writer's retry leaves. -/
theorem visitRequest_eq (hu : s.writerVisit = u) :
    let t := u.frameReport [s, u] u.timecode.freeRun
    s.visitRequest =
      if s.chain.phase = .idle then t.visitBegun false else { t with chain := { t.chain with again := true } } := by
  intro t
  have chain : t.chain = s.chain := by
    subst hu
    simp [t, frameReport_frame, writerVisit_frame]
  subst hu
  show t.askVisit false = _
  unfold askVisit
  rw [chain]
  split
  · rename_i idle
    rw [if_pos idle, beginVisit_eq]
  · rename_i under
    rw [if_neg under]

/-- What every Visit Request does after the writer's retry: one report, and a visit under way. -/
theorem visitRequest_after (hu : s.writerVisit = u) :
    s.visitRequest.writer = u.writer ∧ s.visitRequest.reportSequence = s.reportSequence + 1#32 ∧
    s.visitRequest.chain.phase ≠ .idle ∧ u.link <+: s.visitRequest.link ∧
    ∀ m ∈ u.aperture.misses, m ∈ s.visitRequest.aperture.misses := by
  subst hu
  have report := s.writerVisit.frameReport_frame [s, s.writerVisit] s.writerVisit.timecode.freeRun
  have visit := (s.writerVisit.frameReport [s, s.writerVisit] s.writerVisit.timecode.freeRun).askVisit_frame false
  refine ⟨?writer, ?sequence, askVisit_phase _ _, ?link, fun m hm => mem_misses_askVisit ?_ _⟩
  case writer => simp [visitRequest, askVisit_frame, frameReport_frame]
  case sequence => simp [visitRequest, askVisit_frame, frameReport_reportSequence, writerVisit_frame]
  case link =>
    refine List.IsPrefix.trans ?_ (askVisit_link _ _)
    rw [frameReport_eq, withCauses, List.append_assoc]
    exact List.prefix_append _ _
  · simpa [frameReport_frame] using hm

/-- With nothing to retry the report shows the state the request finds, and only the chain goes on from it. -/
theorem visitRequest_working (hu : s.writerVisit = s) :
    s.visitRequest.notices = { s.notices with cause := s.notices.cause ||| 0x80#8 } ∧
    s.link ++ reportWrites s.board.anchor (s.reportSequence + 1#32)
      (s.reportBytes ⟨s, s, s, s, s⟩ s.timecode.freeRun) <+: s.visitRequest.link ∧
    (s.chain.phase = .idle → s.visitRequest.chain = { s.chain with
      phase := s.visitRequest.chain.phase, again := false, count := 0, notify := false, atFrameStart := false }) ∧
    (s.chain.phase ≠ .idle → s.visitRequest.chain = { s.chain with again := true }) ∧
    s.visitRequest.store = s.store ∧ s.visitRequest.takes = s.takes ∧
    s.visitRequest.faultRecord = s.faultRecord ∧ s.visitRequest.counters = s.counters := by
  have whole : s.visitRequest = (s.frameReport [s, s] s.timecode.freeRun).askVisit false := by
    rw [visitRequest, hu]
  have view : s.reportView [s, s] = ⟨s, s, s, s, s⟩ := s.reportView_constant (by simp) (by simp)
  have report := s.frameReport_eq [s, s] s.timecode.freeRun
  rw [view] at report
  have chain : (s.frameReport [s, s] s.timecode.freeRun).chain = s.chain := by simp [frameReport_frame]
  rw [whole]
  refine ⟨?notices, ?link, fun idle => ?_, fun under => ?_, ?_⟩
  case notices =>
    simp only [askVisit_frame]
    rw [report]
    rfl
  case link =>
    refine List.IsPrefix.trans ?_ (askVisit_link _ _)
    rw [report]
    exact List.prefix_append _ _
  · have begun := (s.frameReport [s, s] s.timecode.freeRun).beginVisit_chain false
    rw [chain] at begun
    simp only [askVisit, chain, idle]
    exact begun
  · have again : (s.frameReport [s, s] s.timecode.freeRun).askVisit false =
        { s.frameReport [s, s] s.timecode.freeRun with chain := { s.chain with again := true } } := by
      unfold askVisit
      rw [chain]
      split
      · exact absurd ‹_› under
      · rfl
    rw [again]
  · simp [askVisit_frame, frameReport_frame]

end State

open State in
/-- Settles O16: what the command does by `State.visitRequest_eq` and the writer's retry in each of its phases, a report
by `State.frameReport_eq`, and its bytes by `State.reportBytes_reads`. -/
theorem visitRequestTaken : Obligations.VisitRequestTaken := by
  refine ⟨fun s value => ⟨exec_visitRequest_ignored value, fun mode => ?command⟩, frameReport_eq, ?fields⟩
  case command =>
    have taken := exec_visitRequest value (s.attached_iff.mpr mode)
    have whole {u : State} (hu : s.writerVisit = u) := taken.trans (congrArg _ (visitRequest_eq hu))
    refine ⟨fun working => ?working, fun p c hp hw hc free => ?chunk, fun blocked => ⟨?held, ?fetches⟩,
      fun working => whole (writerVisit_working working), fun p c hp hw hc => ⟨fun busy => ?_, fun free => ?_⟩,
      fun waits => ⟨?_, fun alone => ⟨fun miss busy => ?_, fun miss idle => ?_, fun way base hit => ?_⟩⟩⟩
    case working =>
      have stays := writerVisit_working working
      obtain ⟨writer, sequence, phase, link, -⟩ := visitRequest_after stays
      obtain ⟨notices, writes, begun, again, store, takes, faultRecord, counters⟩ := visitRequest_working stays
      obtain ⟨cadence, timecode, intake, lanes, governor, board, lastResult, -⟩ := s.visitRequest_frame
      refine ⟨s.visitRequest, taken, sequence, notices, ?_, link, fun idle => ?_, again, cadence, timecode, intake,
        lanes, governor, store, takes, writer, board, faultRecord, counters, lastResult⟩
      · obtain ⟨rest, issued⟩ := writes
        rw [sequence, ← issued, List.append_assoc, List.drop_left]
        exact List.prefix_append _ _
      · refine ⟨phase, ?_⟩
        rw [begun idle]
        exact ⟨rfl, rfl, rfl, rfl, rfl, rfl⟩
    case chunk =>
      obtain ⟨writer, sequence, phase, link, -⟩ :=
        visitRequest_after ((writerVisit_chunk hp hw hc).trans (attempt_free free))
      exact ⟨_, taken, writer, link, sequence, phase⟩
    case held =>
      intro waiting
      obtain ⟨writer, sequence, phase, -⟩ :=
        visitRequest_after ((writerVisit_translation (.inl blocked)).trans (retryTranslation_held waiting))
      exact ⟨_, taken, writer, sequence, phase⟩
    case fetches =>
      intro alone miss idle
      obtain ⟨writer, sequence, phase, link, misses⟩ := visitRequest_after
        ((writerVisit_translation (.inl blocked)).trans (retryTranslation_fetches alone miss idle))
      exact ⟨_, taken, writer, misses _ (List.mem_append_right _ (List.mem_singleton_self _)), link, sequence, phase⟩
    · exact whole ((writerVisit_chunk hp hw hc).trans (attempt_held busy))
    · exact whole ((writerVisit_chunk hp hw hc).trans (attempt_free free))
    · exact fun waiting => whole ((writerVisit_translation waits).trans (retryTranslation_held waiting))
    · exact whole ((writerVisit_translation waits).trans (retryTranslation_joins alone miss busy))
    · exact whole ((writerVisit_translation waits).trans (retryTranslation_fetches alone miss idle))
    · exact whole ((writerVisit_translation waits).trans (retryTranslation_hits alone hit))
  case fields =>
    intro s v label b w st n f
    have length : b.length = 508 := s.reportBytes_length v label
    have reads : ∀ g ∈ s.reportFields v label, slice b g.1 g.2.length = g.2 := s.reportBytes_reads v label
    have counter (i : Nat) {m : Nat} (h : (reportCounters s.counters v.intake.counters)[i]? = some m) :
        fieldAt b (80 + 4 * i) 4 = m % 2 ^ 32 := s.reportBytes_counter v label h
    have reserved : slice b 164 344 = List.replicate 344 0#8 := s.reportBytes_reserved v label
    clear_value b
    simp only [reportFields, reportCadenceFields, reportStoreFields, Store.liveFields, reportNoticeFields,
      List.cons_append, List.nil_append, List.forall_mem_cons, length_leBytes, Label.length_bytes,
      length_signedBytes] at reads
    obtain ⟨mode, lock, frame, take, freeRun, recordRun, period, pending, fullLevel, proxyLevel, fullQ, proxyQ, flags,
      pressure, phase, detail, bound, unbound, fullCursor, proxyCursor, indexCursor, fullBound, fullUnbound, proxyBound,
      proxyUnbound, -, fullCount, proxyCount, indexCount, cls, more, faultFrame, faultTake, faultDetail, later, -⟩ :=
      reads
    have shown : fieldAt b 51 1 = w.detail := fieldAt_whole detail w.detail_lt
    have staged : fieldAt b 32 8 = s.cadence.pendingPeriod % 2 ^ 64 := fieldAt_number pending
    refine ⟨length, fieldAt_whole mode (Nat.lt_trans (EngineMode.code_lt _) (by decide)),
      fieldAt_whole lock (LockState.code_lt _), (fieldAt_whole flags (recordFlags_lt _ _)).trans (recordFlags_eq _ _),
      fieldAt_number pressure, fieldAt_word frame, fieldAt_word take, freeRun, recordRun, fieldAt_number period,
      fun unset => ?_, fun x set => ?_, fieldAt_word fullLevel, fieldAt_word proxyLevel, fieldAt_number fullQ,
      fieldAt_number proxyQ, fieldAt_whole phase (WriterPhase.code_lt _),
      fun working => shown.trans (Writer.detail_working working),
      fun p c waiting wait => shown.trans (Writer.detail_waiting waiting wait),
      fun x blocked position => shown.trans (Writer.detail_blocked blocked position), fieldAt_number bound,
      fieldAt_number unbound, fieldAt_number fullBound, fieldAt_number fullUnbound, fieldAt_number proxyBound,
      fieldAt_number proxyUnbound, fieldAt_number fullCursor, fieldAt_number proxyCursor, fieldAt_number indexCursor,
      fieldAt_number fullCount, fieldAt_number proxyCount, fieldAt_number indexCount,
      counter 0 rfl, counter 1 rfl, counter 2 rfl, counter 3 rfl, counter 4 rfl, counter 5 rfl, counter 6 rfl,
      counter 7 rfl, counter 8 rfl, counter 9 rfl, counter 10 rfl, counter 11 rfl, counter 12 rfl, counter 13 rfl,
      counter 14 rfl, counter 15 rfl, fieldAt_whole cls (FaultClass.code_lt _), fieldAt_whole more ?_,
      fieldAt_word faultFrame, fieldAt_word faultTake, fieldAt_word faultDetail, fieldAt_number later, reserved⟩
    · rw [staged, Cadence.pendingPeriod_none unset, Nat.zero_mod]
    · rw [staged, Cadence.pendingPeriod_some set]
    · split <;> decide

end Sys2Proof.Machine
end

