-- ==== Sys2Proof/Proofs/DirectiveCommands.lean ====
section
-- One proof at a time: a stack for every waiting proof of this text would pass the memory limit of the check.
set_option Elab.async false
/-! The twelve directive commands: each applies its directive, with no record to complete (section 1.6, R176, R182,
log 10). -/

namespace Sys2Proof.Machine

/-- The command of the table that applies a directive. -/
def Directive.command : Directive → Instr
  | .setCadence period mode polarity tolerance => .setCadence period mode polarity tolerance
  | .startCadence => .startCadence
  | .stopCadence => .stopCadence
  | .jamTimecode hh mm ss ff target => .jamTimecode hh mm ss ff target
  | .setProfile params => .setProfile params
  | .openTake take => .openTake take
  | .closeTake => .closeTake
  | .mark value => .mark value
  | .remapApertures first count => .remapApertures first count
  | .probeAperture page => .probeAperture page
  | .snapshot => .snapshot
  | .setNotice count age => .setNotice count age

theorem exec_command (s : State) (d : Directive) : exec d.command s = .next (s.direct d) := by
  cases d <;> rfl

namespace State

variable {s : State}

theorem not_attached_of_boardless (h : s.board.mode = .detached ∨ s.board.mode = .attaching) : s.attached = false := by
  unfold attached
  rcases h with h | h <;> rw [h]

theorem exec_command_boardless (h : s.board.mode = .detached ∨ s.board.mode = .attaching) (d : Directive) :
    exec d.command s = .next s := by
  rw [exec_command, s.direct_detached d (not_attached_of_boardless h)]

theorem exec_command_wrongMode (h : s.board.mode = .idle) {d : Directive} (hd : d.inIdle = false) :
    exec d.command s = .next (s.refusing .wrongMode) := by
  rw [exec_command, direct_wrongMode h hd]

/-- A refusal moves the count of refused directives, and nothing else (R176, R185). -/
theorem countRefusal_eq (s : State) (r : DirectiveResult) : s.countRefusal r = { s with
    counters := { s.counters with directivesRefused :=
      if r.status = .refused then min 4294967295 (s.counters.directivesRefused + 1)
      else s.counters.directivesRefused } } := by
  unfold countRefusal
  split <;> rfl

/-- With a Board a command does what a record of its kind does, and counts a refusal at once (log 10). -/
theorem exec_command_attached (h : s.attached = true) (d : Directive) :
    let r := s.applyDirective (some d)
    exec d.command s = .next { r.1 with
      counters := { r.1.counters with directivesRefused :=
        if r.2.status = .refused then min 4294967295 (r.1.counters.directivesRefused + 1)
        else r.1.counters.directivesRefused } } := by
  intro r
  have directed : s.direct d = r.1.countRefusal r.2 := if_pos h
  rw [exec_command, directed, countRefusal_eq]

end State

/-- Settles O17: each command is that of a directive, and the four are those that R182 leaves out in IDLE. -/
theorem directivesTurnedAway : Obligations.DirectivesTurnedAway := by
  intro s c command
  refine ⟨fun boardless => ?_, fun idle leftOut => ?_⟩
  · have directive : ∃ d : Directive, d.command = c := by
      simp only [List.mem_cons, List.not_mem_nil, or_false] at command
      rcases command with (rfl | rfl | rfl | rfl) | ⟨p, m, q, t, rfl⟩ | ⟨h, m, x, f, t, rfl⟩ | ⟨p, rfl⟩ | ⟨k, rfl⟩ |
        ⟨v, rfl⟩ | ⟨f, n, rfl⟩ | ⟨p, rfl⟩ | ⟨n, a, rfl⟩
      · exact ⟨.startCadence, rfl⟩
      · exact ⟨.stopCadence, rfl⟩
      · exact ⟨.closeTake, rfl⟩
      · exact ⟨.snapshot, rfl⟩
      · exact ⟨.setCadence p m q t, rfl⟩
      · exact ⟨.jamTimecode h m x f t, rfl⟩
      · exact ⟨.setProfile p, rfl⟩
      · exact ⟨.openTake k, rfl⟩
      · exact ⟨.mark v, rfl⟩
      · exact ⟨.remapApertures f n, rfl⟩
      · exact ⟨.probeAperture p, rfl⟩
      · exact ⟨.setNotice n a, rfl⟩
    obtain ⟨d, rfl⟩ := directive
    exact State.exec_command_boardless boardless d
  · simp only [List.mem_cons, List.not_mem_nil, or_false] at leftOut
    rcases leftOut with (rfl | rfl) | ⟨k, rfl⟩ | ⟨v, rfl⟩
    · exact State.exec_command_wrongMode (d := .stopCadence) idle rfl
    · exact State.exec_command_wrongMode (d := .closeTake) idle rfl
    · exact State.exec_command_wrongMode (d := .openTake k) idle rfl
    · exact State.exec_command_wrongMode (d := .mark v) idle rfl

end Sys2Proof.Machine
end

