-- ==== Sys2Proof/Proofs/ChainWalk.lean ====
section
-- One proof at a time: a stack for every waiting proof of this text would pass the memory limit of the check.
set_option Elab.async false
/-! CHAIN_NEXT_READ_DONE, and how a visit goes on from a Next field (R174, R175, R177). -/

namespace Sys2Proof.Machine

namespace State

variable {s : State}

/-! ### The page of an address (R151, R152, R154) -/

section
variable {addr : Nat} (waits : ChainPhase) (goes : State → HostAddr → State)

theorem chainAsks_hit {way : Nat} {base : HostAddr} (hit : s.aperture.lookup (addr / 2097152) = some (way, base)) :
    s.chainAsks addr waits goes = goes { s with aperture := s.aperture.use (addr / 2097152) way }
      (base + BitVec.ofNat 64 (addr % 2097152)) := by
  simp only [chainAsks, hit]

theorem chainAsks_fetches (miss : s.aperture.lookup (addr / 2097152) = none) (free : s.aperture.fetch = none) :
    s.chainAsks addr waits goes = { s with
      chain := { s.chain with phase := waits }
      aperture := { s.aperture with
        misses := s.aperture.misses ++ [{ client := .chain, page := addr / 2097152 }]
        fetch := some { page := addr / 2097152, discard := false, tag := s.nextTag } }
      link := s.link ++ [.read s.nextTag (s.board.anchor + BitVec.ofNat 64 (0x4000 + 8 * (addr / 2097152))) 8]
      nextTag := s.nextTag + 1 } := by
  simp only [chainAsks, miss, free, if_true]

end

/-! ### The end of a visit (R174, R175) -/

theorem visitEnded_silent (again : s.chain.again = false) (notify : s.chain.notify = false) :
    s.visitEnded false = s.setPhase .idle := by
  rw [visitEnded_last again, if_neg (by simp [notify])]

theorem visitEnded_notify (again : s.chain.again = false) (notify : s.chain.notify = true) :
    s.visitEnded false = (s.setPhase .idle).withCauses 0x02#8 := by
  rw [visitEnded_last again, if_pos notify]

section
variable (again : s.chain.again = false) (notify : s.chain.notify = false) (page : Nat)
include again notify

theorem visitFaulted_stalled (stalled : s.chain.stalled = true) : s.visitFaulted page = s.setPhase .idle := by
  rw [visitFaulted_last again notify, if_pos stalled]
  rfl

theorem visitFaulted_reported (stalled : s.chain.stalled = false) : s.visitFaulted page =
    { s.reportFault .chainFault s.cadence.frameNumber s.openTakeNumber (BitVec.ofNat 32 page) with
      chain := { s.chain with stalled := true, phase := .idle } } := by
  rw [visitFaulted_last again notify, if_neg (by simp [stalled])]

end

/-- A visit whose anchor's page is in the cache begins with the read of the anchor's Next (R175 step 1). -/
theorem visitBegun_hit (atFrameStart : Bool) {way : Nat} {base : HostAddr}
    (hit : s.aperture.lookup (s.chain.anchor / 2097152) = some (way, base)) : s.visitBegun atFrameStart = { s with
      aperture := s.aperture.use (s.chain.anchor / 2097152) way
      chain := { s.chain with
        phase := .nextRead s.nextTag, again := false, count := 0, notify := false, atFrameStart := atFrameStart }
      link := s.link ++ [.read s.nextTag (base + BitVec.ofNat 64 (s.chain.anchor % 2097152)) 4]
      nextTag := s.nextTag + 1 } :=
  chainAsks_hit (s := { s with chain := { s.chain with
    again := false, count := 0, notify := false, atFrameStart := atFrameStart } })
    .anchorPage (fun u host => u.chainReads (.nextRead u.nextTag) host 4) hit

/-- A visit that saw no NOTIFY and asks for another, whose anchor's page is in the cache, reads the anchor's Next. -/
theorem visitEnded_asks (notify : s.chain.notify = false) {way : Nat} {base : HostAddr}
    (hit : s.aperture.lookup (s.chain.anchor / 2097152) = some (way, base)) : s.visitEnded true = { s with
      aperture := s.aperture.use (s.chain.anchor / 2097152) way
      chain := { s.chain with
        phase := .nextRead s.nextTag, again := false, count := 0, notify := false, atFrameStart := false }
      link := s.link ++ [.read s.nextTag (base + BitVec.ofNat 64 (s.chain.anchor % 2097152)) 4]
      nextTag := s.nextTag + 1 } := by
  have begun : s.visitEnded true = (s.setPhase .idle).visitBegun false := by
    simp only [visitEnded, notify, or_true, if_true]
    rfl
  rw [begun]
  exact visitBegun_hit (s := s.setPhase .idle) false hit

/-! ### A Next field (R175) -/

theorem nextFollowed_zero (s : State) : s.nextFollowed 0 = s.visitEnded false :=
  if_pos rfl

theorem nextFollowed_misaligned {next : Nat} (h : next % 64 ≠ 0) :
    s.nextFollowed next = s.visitFaulted (next / 2097152) := by
  have nonzero : next ≠ 0 := by omega
  rw [nextFollowed, if_neg nonzero, if_pos h]

/-- A record on a page in the cache is fetched. -/
theorem nextFollowed_hit {next way : Nat} {base : HostAddr} (nonzero : next ≠ 0) (aligned : next % 64 = 0)
    (hit : s.aperture.lookup (next / 2097152) = some (way, base)) : s.nextFollowed next = { s with
      aperture := s.aperture.use (next / 2097152) way
      chain := { s.chain with phase := .recordRead s.nextTag next }
      link := s.link ++ [.read s.nextTag (base + BitVec.ofNat 64 (next % 2097152)) 64]
      nextTag := s.nextTag + 1 } := by
  rw [nextFollowed, if_neg nonzero, if_neg (not_not_intro aligned), chainAsks_hit _ _ hit]
  rfl

/-! ### The read of Next -/

/-- STALLED is clear, as the end of the chain leaves it (R177). -/
def unstalled (s : State) : State :=
  { s with chain := { s.chain with stalled := false } }

theorem exec_chainNextReadDone_stands {tag : Nat} (data : Option (List Byte)) (h : s.chain.phase ≠ .nextRead tag) :
    exec (.chainNextReadDone tag data) s = .next s := by
  show execChainNextReadDone tag data s = _
  unfold execChainNextReadDone
  split
  · rename_i t phase
    refine if_neg ?_
    rintro rfl
    exact h phase
  · rfl

section
variable {tag : Nat} (phase : s.chain.phase = .nextRead tag)
include phase

theorem exec_chainNextReadDone_failed :
    exec (.chainNextReadDone tag none) s = .next (s.visitFaulted (s.chain.anchor / 2097152)) := by
  rw [← chainFault_eq]
  show execChainNextReadDone tag none s = _
  simp only [execChainNextReadDone, phase, if_true]

theorem exec_chainNextReadDone_read (bytes : List Byte) :
    exec (.chainNextReadDone tag (some bytes)) s = .next (s.takeNext (fieldAt bytes 0 4)) := by
  show execChainNextReadDone tag (some bytes) s = _
  simp only [execChainNextReadDone, phase, if_true]

theorem exec_chainNextReadDone_zero {bytes : List Byte} (zero : fieldAt bytes 0 4 = 0) :
    exec (.chainNextReadDone tag (some bytes)) s = .next (s.unstalled.visitEnded false) := by
  rw [exec_chainNextReadDone_read phase, takeNext, if_pos zero, followNext_eq, nextFollowed_zero]
  rfl

theorem exec_chainNextReadDone_onward {bytes : List Byte} (nonzero : fieldAt bytes 0 4 ≠ 0) :
    exec (.chainNextReadDone tag (some bytes)) s = .next (s.nextFollowed (fieldAt bytes 0 4)) := by
  rw [exec_chainNextReadDone_read phase, takeNext, if_neg nonzero, followNext_eq]

end
end State

open State in
/-- Settles O55: what the read brings, and then how the visit ends, faults, or fetches the record. -/
theorem chainNextRead : Obligations.ChainNextRead := by
  intro s tag data
  refine ⟨exec_chainNextReadDone_stands data, fun phase again => ⟨?failed, ?read⟩, fun phase => ⟨?_, ?_⟩⟩
  case failed =>
    rintro rfl stalled notify
    rw [exec_chainNextReadDone_failed phase, visitFaulted_reported again notify _ stalled]
  case read =>
    rintro bytes rfl
    intro next
    have nonzero (h : next % 64 ≠ 0) : next ≠ 0 := by omega
    refine ⟨fun zero notify => ?_, fun zero notify => ?_, fun misaligned notify stalled => ?_,
      fun misaligned notify stalled => ?_, fun onward aligned way base hit => ?_⟩
    · rw [exec_chainNextReadDone_zero phase zero]
      exact congrArg _ (visitEnded_silent (s := s.unstalled) again notify)
    · rw [exec_chainNextReadDone_zero phase zero]
      exact congrArg _ (visitEnded_notify (s := s.unstalled) again notify)
    · rw [exec_chainNextReadDone_onward phase (nonzero misaligned), nextFollowed_misaligned misaligned,
        visitFaulted_stalled again notify _ stalled]
      rfl
    · rw [exec_chainNextReadDone_onward phase (nonzero misaligned), nextFollowed_misaligned misaligned,
        visitFaulted_reported again notify _ stalled]
    · rw [exec_chainNextReadDone_onward phase onward, nextFollowed_hit onward aligned hit]
  · rintro rfl
    exact exec_chainNextReadDone_failed phase
  · rintro bytes rfl
    exact ⟨exec_chainNextReadDone_zero phase, exec_chainNextReadDone_onward phase⟩

end Sys2Proof.Machine
end

