-- ==== Sys2Proof/Proofs/ChainRecords.lean ====
section
-- One proof at a time: a stack for every waiting proof of this text would pass the memory limit of the check.
set_option Elab.async false
/-! CHAIN_RECORD_FETCH_DONE: a record applied, its result written, and how the walk goes on (R171, R173 to R178). -/

namespace Sys2Proof.Machine

/-! ### The directive of a record (R171, R182) -/

theorem directiveOf_unknown {bytes : List Byte} (h : fieldAt bytes 4 1 = 0 ∨ 12 < fieldAt bytes 4 1) :
    directiveOf bytes = none := by
  unfold directiveOf
  split
  case h_13 => rfl
  all_goals omega

namespace State

variable {s : State}

theorem applyDirective_unknown {bytes : List Byte} (h : fieldAt bytes 4 1 = 0 ∨ 12 < fieldAt bytes 4 1) :
    (s.applyDirective (directiveOf bytes)).1 =
      { s with lastResult := some (DirectiveResult.refuse .unknownKind) } := by
  rw [directiveOf_unknown h]
  rfl

/-! ### The fetch of a record -/

theorem exec_chainRecordFetchDone_stands {tag : Nat} (data : Option (List Byte))
    (h : ∀ addr, s.chain.phase ≠ .recordRead tag addr) : exec (.chainRecordFetchDone tag data) s = .next s := by
  show execChainRecordFetchDone tag data s = _
  unfold execChainRecordFetchDone
  split
  · rename_i t addr phase
    refine if_neg ?_
    rintro rfl
    exact h addr phase
  · rfl

/-- What a record waits with while its result's page is asked for (R178). -/
def pendingResult (s : State) (addr : Nat) (bytes : List Byte) : PendingResult :=
  { addr := addr, next := fieldAt bytes 0 4, notify := (BitVec.ofNat 8 (fieldAt bytes 5 1)).getLsbD 0
    result := (s.applyDirective (directiveOf bytes)).2 }

/-- The page of a record's result is asked for, and the record is completed there (R176, R178). -/
def recordAsked (s : State) (p : PendingResult) : State :=
  s.chainAsks p.addr (.resultPage p) (fun u host => u.recordWritten p host)

section
variable {tag addr : Nat} (phase : s.chain.phase = .recordRead tag addr)
include phase

theorem exec_chainRecordFetchDone_failed :
    exec (.chainRecordFetchDone tag none) s = .next (s.visitFaulted (addr / 2097152)) := by
  rw [← chainFault_eq]
  show execChainRecordFetchDone tag none s = _
  simp only [execChainRecordFetchDone, phase, if_true]

theorem exec_chainRecordFetchDone_fetched (bytes : List Byte) :
    exec (.chainRecordFetchDone tag (some bytes)) s = .next (s.takeRecordBytes addr bytes) := by
  show execChainRecordFetchDone tag (some bytes) s = _
  simp only [execChainRecordFetchDone, phase, if_true]

variable {bytes : List Byte}

theorem exec_chainRecordFetchDone_unposted (h : fieldAt bytes 6 1 ≠ 1) :
    exec (.chainRecordFetchDone tag (some bytes)) s = .next (s.visitEnded false) := by
  rw [exec_chainRecordFetchDone_fetched phase, takeRecordBytes_eq, if_neg h]

theorem exec_chainRecordFetchDone_posted (h : fieldAt bytes 6 1 = 1) :
    exec (.chainRecordFetchDone tag (some bytes)) s = .next
      ((s.applyDirective (directiveOf bytes)).1.recordAsked (s.pendingResult addr bytes)) := by
  rw [exec_chainRecordFetchDone_fetched phase, takeRecordBytes_eq, if_pos h]
  rfl

end

/-! ### A record completed (R175 steps 6 and 7, R176) -/

/-- A record's engine part is written and the record consumed; whether the visit goes on is still open. -/
def recordDone (s : State) (p : PendingResult) (host : HostAddr) : State :=
  { s with
    chain := { s.chain with
      phase := .idle, anchor := p.addr, count := s.chain.count + 1, notify := s.chain.notify || p.notify
      stalled := false }
    link := s.link ++
      [.write (host + 7#64) (leBytes 1 p.result.code.code),
       .write (host + 8#64) (leBytes 4 s.cadence.frameNumber.toNat ++ s.visitLabel.bytes),
       .write (host + 48#64) p.result.data,
       .write (host + 6#64) (leBytes 1 p.result.status.code)]
    counters := { s.counters with directivesRefused :=
      if p.result.status = .refused then min 4294967295 (s.counters.directivesRefused + 1)
      else s.counters.directivesRefused } }

section
variable {p : PendingResult} {host : HostAddr}

theorem recordWritten_goesOn (room : s.chain.count < 7) :
    s.recordWritten p host = (s.recordDone p host).nextFollowed p.next :=
  (recordWritten_setPhase s .idle p host).symm.trans (if_pos room)

theorem recordWritten_limit (full : 7 ≤ s.chain.count) :
    s.recordWritten p host = (s.recordDone p host).visitEnded (s.cadence.run == .stopped) :=
  (recordWritten_setPhase s .idle p host).symm.trans (if_neg (Nat.not_lt.mpr full))

end

section
variable {p : PendingResult} {way : Nat} {base : HostAddr}
  (hit : s.aperture.lookup (p.addr / 2097152) = some (way, base))
include hit

theorem recordAsked_goesOn (room : s.chain.count < 7) : s.recordAsked p =
    (recordDone { s with aperture := s.aperture.use (p.addr / 2097152) way } p
      (base + BitVec.ofNat 64 (p.addr % 2097152))).nextFollowed p.next :=
  (chainAsks_hit _ _ hit).trans (recordWritten_goesOn room)

theorem recordAsked_limit (full : 7 ≤ s.chain.count) : s.recordAsked p =
    (recordDone { s with aperture := s.aperture.use (p.addr / 2097152) way } p
      (base + BitVec.ofNat 64 (p.addr % 2097152))).visitEnded (s.cadence.run == .stopped) :=
  (chainAsks_hit _ _ hit).trans (recordWritten_limit full)

end

theorem recordAsked_fetches {p : PendingResult} (miss : s.aperture.lookup (p.addr / 2097152) = none)
    (free : s.aperture.fetch = none) : s.recordAsked p = { s with
      aperture := { s.aperture with
        misses := s.aperture.misses ++ [{ client := .chain, page := p.addr / 2097152 }]
        fetch := some { page := p.addr / 2097152, discard := false, tag := s.nextTag } }
      chain := { s.chain with phase := .resultPage p }
      link := s.link ++ [.read s.nextTag (s.board.anchor + BitVec.ofNat 64 (0x4000 + 8 * (p.addr / 2097152))) 8]
      nextTag := s.nextTag + 1 } :=
  chainAsks_fetches _ _ miss free

end State

open State in
/-- Settles O56: what has come by `exec_chainRecordFetchDone_failed`, `_unposted` and `_posted`; the walk behind a
record whose page hits by `recordAsked_goesOn` and `recordAsked_limit`; the commands by `exec_command_attached`. -/
theorem chainRecordFetch : Obligations.ChainRecordFetch := by
  refine ⟨fun s tag data => ⟨exec_chainRecordFetchDone_stands data, fun addr phase again silent => ?alone⟩,
    fun s tag data addr phase => ⟨?failed, ?fetched⟩, fun s attached => ?commands,
    fun s tag bytes p f phase again silent stalled hf ht hd alone invalid => ?page, fun bytes => ?table⟩
  case alone =>
    refine ⟨?_, ?_, fun bytes hb => ⟨fun unposted => ?_, fun posted => ?_⟩⟩
    · rintro rfl stalled
      rw [exec_chainRecordFetchDone_failed phase, visitFaulted_reported again silent _ stalled]
    · rintro rfl stalled
      rw [exec_chainRecordFetchDone_failed phase, visitFaulted_stalled again silent _ stalled]
      rfl
    · rw [hb, exec_chainRecordFetchDone_unposted phase unposted, visitEnded_silent again silent]
      rfl
    · rw [hb, exec_chainRecordFetchDone_posted phase posted]
      intro r t next notify page unknown
      have chain : t.chain = s.chain := (s.applyDirective_frame _).1
      refine ⟨applyDirective_unknown, rfl, chain, ?hits, fun miss free => ?misses⟩
      case hits =>
        rw [← chain] at again silent ⊢
        intro way base hit host refused done
        have written : recordDone { t with aperture := t.aperture.use page way } (s.pendingResult addr bytes) host =
            done := by
          simp only [recordDone, silent, Bool.false_or]
          rfl
        have goesOn (room : t.chain.count < 7) :
            t.recordAsked (s.pendingResult addr bytes) = done.nextFollowed next :=
          (recordAsked_goesOn hit room).trans (congrArg (State.nextFollowed · next) written)
        have limit (full : 7 ≤ t.chain.count) :
            t.recordAsked (s.pendingResult addr bytes) = done.visitEnded (t.cadence.run == .stopped) :=
          (recordAsked_limit hit full).trans (congrArg (State.visitEnded · _) written)
        have stillHits (other : Nat) : done.aperture.lookup other = t.aperture.lookup other :=
          t.aperture.lookup_use page way other
        have idle : done.setPhase .idle = done := rfl
        refine ⟨fun room last quiet => ?_, fun room last told => ?_, fun w b room onward aligned cached => ?_,
          fun full quiet running => ?_, fun full quiet stopped => ?_⟩
        · rw [goesOn room, last, nextFollowed_zero, visitEnded_silent (s := done) again quiet, idle]
        · rw [goesOn room, last, nextFollowed_zero, visitEnded_notify (s := done) again told, idle]
        · rw [goesOn room, nextFollowed_hit onward aligned ((stillHits _).trans cached)]
        · have ends : (t.cadence.run == RunState.stopped) = false := by rw [running]; rfl
          rw [limit full, ends, visitEnded_silent (s := done) again quiet, idle]
        · have asks : (t.cadence.run == RunState.stopped) = true := by rw [stopped]; rfl
          rw [limit full, asks, visitEnded_asks (s := done) quiet ((stillHits _).trans hit)]
          exact ⟨_, rfl, rfl, rfl⟩
      case misses =>
        rw [← chain]
        exact congrArg _ (recordAsked_fetches miss free)
  case failed =>
    rintro rfl
    exact exec_chainRecordFetchDone_failed phase
  case fetched =>
    rintro bytes rfl
    exact ⟨exec_chainRecordFetchDone_unposted phase, exec_chainRecordFetchDone_posted phase⟩
  case commands =>
    exact ⟨fun t m p w => exec_command_attached attached (.setCadence t m p w),
      exec_command_attached attached .startCadence, exec_command_attached attached .stopCadence,
      fun hh mm ss ff target => exec_command_attached attached (.jamTimecode hh mm ss ff target),
      fun p => exec_command_attached attached (.setProfile p),
      fun take => exec_command_attached attached (.openTake take), exec_command_attached attached .closeTake,
      fun value => exec_command_attached attached (.mark value),
      fun first count => exec_command_attached attached (.remapApertures first count),
      fun page => exec_command_attached attached (.probeAperture page), exec_command_attached attached .snapshot,
      fun count age => exec_command_attached attached (.setNotice count age)⟩
  case page =>
    have answer : fetchAnswer (some bytes) = .invalid := fetchAnswer_invalid invalid
    rw [exec_apertureFetchDone (some bytes) hf ht, fetchDone_untranslated hd alone (by rw [answer]; rfl), answer]
    refine congrArg _ ((answerChain_resultFaults (s := s.served) rfl phase).trans ((visitFaulted_served
      (k := { s.chain with anchor := p.addr, count := s.chain.count + 1 }) again silent _).trans ?_))
    exact if_neg (by simp [stalled])
  case table =>
    intro kind byte half word
    refine ⟨fun h => ?_, fun h => ?_, fun h => ?_, fun h => ?_, fun h => ?_, fun h => ?_, fun h => ?_, fun h => ?_,
      fun h => ?_, fun h => ?_, fun h => ?_, fun h => ?_⟩
    all_goals
      have kindIs : fieldAt bytes 4 1 = _ := h
      simp only [directiveOf, kindIs] <;> rfl

end Sys2Proof.Machine
end

