-- ==== Sys2Proof/Proofs/NoticesAndFaults.lean ====
section
-- One proof at a time: a stack for every waiting proof of this text would pass the memory limit of the check.
set_option Elab.async false
/-! The notice registers, the fault record and SET_NOTICE (R186, R188, R190). -/

namespace Sys2Proof.Machine

/-! ### The notice registers, bit by bit (R162, R186) -/

section
variable (register : Byte) (value : Word) {i : Nat}

theorem getLsbD_clearWritten (h : i < 8) :
    (register &&& ~~~(value.setWidth 8)).getLsbD i = (register.getLsbD i && !value.getLsbD i) := by
  simp [h]

theorem getLsbD_setWritten (h : i < 8) :
    (register ||| value.setWidth 8).getLsbD i = (register.getLsbD i || value.getLsbD i) := by
  simp [h]

end

/-- A register byte holds a cause's bit exactly when that bit of the word written is 1. -/
theorem setWidth_and_twoPow_eq_zero_iff (value : Word) {i : Nat} (h : i < 8) :
    value.setWidth 8 &&& BitVec.twoPow 8 i = 0#8 ↔ value.getLsbD i = false := by
  have nonzero : BitVec.twoPow 8 i ≠ 0#8 := by
    intro zero
    have bit := congrArg (BitVec.getLsbD · i) zero
    simp [h] at bit
  rw [BitVec.and_twoPow, BitVec.getLsbD_setWidth, decide_eq_true h, Bool.true_and]
  cases value.getLsbD i <;> simp [nonzero]

/-- A latch after a write to NOTICE_CAUSE: a 1 in its cause's bit frees it, and a 0 leaves it (R189, R190). -/
theorem latch_afterWrite (latch : Bool) (value : Word) {c : Notice} {i : Nat} (place : c.bit = BitVec.twoPow 8 i)
    (h : i < 8) :
    (if value.setWidth 8 &&& c.bit = 0#8 then latch else false) = (latch && !value.getLsbD i) := by
  rw [place, if_congr (setWidth_and_twoPow_eq_zero_iff value h) rfl rfl]
  cases value.getLsbD i <;> simp

/-- Settles O6: the causes by `getLsbD_clearWritten`, the two latches by `latch_afterWrite`. -/
theorem noticeCauseClearsWrittenBits : Obligations.NoticeCauseClearsWrittenBits := by
  intro s value
  refine ⟨_, rfl, fun i hi => getLsbD_clearWritten _ value hi, ?snapshot, ?fault, rfl⟩
  case snapshot => exact latch_afterWrite _ value (c := .snapshot) rfl (by decide)
  case fault => exact latch_afterWrite _ value (c := .fault) rfl (by decide)

theorem exec_noticeMaskClear (s : State) (value : Word) :
    let after := { s.notices with mask := s.notices.mask &&& ~~~(value.setWidth 8) }
    exec (.noticeMaskClear value) s = .next { s with notices := after, link := s.link ++ msiFor s.notices after } :=
  congrArg Host.Outcome.next (s.signal_eq _)

/-- Settles O7: the bits by `getLsbD_setWritten` and `getLsbD_clearWritten`, the MSI by `exec_noticeMaskClear`. -/
theorem noticeMaskWrites : Obligations.NoticeMaskWrites := by
  intro s value
  exact ⟨_, _, rfl, exec_noticeMaskClear s value, fun i hi => getLsbD_setWritten _ value hi,
    fun i hi => getLsbD_clearWritten _ value hi, rfl, rfl⟩

/-! ### The fault record (R190) -/

theorem State.raise_fault (s : State) : s.raise .fault = s.withCauses 0x10#8 :=
  s.raise_eq .fault

/-- Settles O8: a fault by the latch it finds, `State.reportFault_free` and `State.reportFault_held`. -/
theorem faultRecordLatches : Obligations.FaultRecordLatches := by
  intro s c frame take detail
  refine ⟨fun free => ?free, fun held => ?held⟩
  case free => rw [s.reportFault_free c frame take detail free, State.raise_fault]
  case held => exact s.reportFault_held c frame take detail held

/-! ### SET_NOTICE (R188) -/

/-- Every age limit that a byte carries is in range (R188). -/
theorem clampNat_byte (b : Byte) : clampNat 0 255 b.toNat = b.toNat := by
  have small := b.isLt
  unfold clampNat
  omega

namespace State

variable (s : State)

theorem announce_withCauses : s.announce = State.withCauses { s with notices := s.notices.zeroCounts } 0x04#8 :=
  raise_chunk _

/-- The engine with new notice settings, before coalescing tests them (R188). -/
def withNoticeSettings (threshold ageLimit : Nat) : State :=
  { s with notices := { s.notices with threshold := threshold, ageLimit := ageLimit } }

/-- What coalescing does with the settings it has just taken (R188). -/
def noticeTested (threshold ageLimit : Nat) : State :=
  let t := s.withNoticeSettings threshold ageLimit
  if threshold ≤ s.notices.total ∨ (ageLimit ≠ 0 ∧ ageLimit ≤ s.notices.age) then t.announce else t

/-- The owner's act: the settings tested, and the answer with the clamp of the count alone. -/
theorem applySetNotice_eq (count : Nat) (age : Byte) :
    let c := clampNat 1 16 count
    let mask := if c = count then 0 else 1
    s.applySetNotice count age.toNat = (s.noticeTested c age.toNat,
      DirectiveResult.carried (if c = count then .none else .clamped)
        [(0, leBytes 1 c), (1, leBytes 1 age.toNat)] mask) := by
  intro c mask
  have clamps : bit (c != count) 0 + bit (age.toNat != age.toNat) 1 = mask := by
    rw [bit_bne, bit_bne, if_pos rfl]
    rfl
  have code : (if mask = 0 then ResultCode.none else .clamped) = if c = count then .none else .clamped := by
    by_cases h : c = count <;> simp [mask, h]
  rw [← code, ← clamps]
  unfold applySetNotice
  rw [clampNat_byte]
  rfl

theorem direct_setNotice (ha : s.attached = true) (count age : Byte) :
    let c := clampNat 1 16 count.toNat
    s.direct (.setNotice count age) = (s.noticeTested c age.toNat).answering
      (if c = count.toNat then .none else .clamped) [BitVec.ofNat 8 c, age] (if c = count.toNat then 0 else 1) := by
  intro c
  have data : [BitVec.ofNat 8 c, age] = leBytes 1 c ++ leBytes 1 age.toNat := by
    rw [leBytes_one]
    rfl
  rw [data]
  exact s.direct_carry ha (fun _ => rfl) (s.applySetNotice_eq count.toNat age)

end State

/-- Settles O19: `State.direct_setNotice`, and the two outcomes of `State.noticeTested`. -/
theorem setNoticeTakesSettings : Obligations.SetNoticeTakesSettings := by
  intro s count age ha c mask code
  have taken : exec (.setNotice count age) s = .next ((s.noticeTested c age.toNat).answering code _ mask) :=
    congrArg _ (s.direct_setNotice ha count age)
  have limit : age.toNat ≠ 0 ↔ age ≠ 0#8 := BitVec.toNat_ne_iff_ne (y := 0#8)
  rw [taken]
  refine ⟨fun calls => ?announced, fun waits => ?silent⟩
  case announced =>
    rw [State.noticeTested, if_pos (by rwa [limit]), State.announce_withCauses]
    rfl
  case silent =>
    rw [State.noticeTested, if_neg (by rwa [limit])]
    rfl

end Sys2Proof.Machine
end

