-- ==== Sys2Proof/Proofs/Snapshots.lean ====
section
-- One proof at a time: a stack for every waiting proof of this text would pass the memory limit of the check.
set_option Elab.async false
/-! SNAPSHOT: the latch, and the bytes of the record field by field (R171, R189). -/

namespace Sys2Proof.Machine

namespace State

variable (s : State)

/-! ### The latch (R189) -/

theorem raise_snapshot : s.raise .snapshot = s.withCauses 0x40#8 :=
  s.raise_eq .snapshot

theorem applySnapshot_held (h : s.notices.snapshotLatch = true) :
    s.applySnapshot = (s, DirectiveResult.carried .alreadyLatched [] 0) :=
  if_pos h

/-- The record on the link, the latch held, and SNAPSHOT. -/
theorem applySnapshot_free (h : s.notices.snapshotLatch = false) :
    s.applySnapshot = (State.withCauses { s with
      notices := { s.notices with snapshotLatch := true }
      link := s.link ++ [.write (s.board.anchor + 0x300#64) s.snapshotBytes] } 0x40#8,
      DirectiveResult.carried .none [] 0) := by
  rw [← raise_snapshot]
  exact if_neg (by simp [h])

/-- SNAPSHOT carries no result data, whatever its code. -/
theorem direct_snapshot {t : State} {code : ResultCode} (ha : s.attached = true)
    (h : s.applySnapshot = (t, DirectiveResult.carried code [] 0)) : s.direct .snapshot = t.answering code [] 0 :=
  s.direct_carry (d := .snapshot) (fields := []) ha (fun _ => rfl) h

/-! ### The fields of the record (R171) -/

/-- The fields of the Snapshot record, as the model lists them. -/
def snapshotFields : List (Nat × List Byte) :=
  [(0, leBytes 4 s.cadence.frameNumber.toNat), (4, s.timecode.freeRun.bytes),
    (8, s.timecode.recordRun.bytes), (12, leBytes 1 s.cadence.lock.code),
    (13, leBytes 1 (recordFlags s.cadence s.writer)), (14, leBytes 1 s.writer.phase.code),
    (15, leBytes 1 s.writer.detail), (16, leBytes 8 s.cadence.counter),
    (24, leBytes 8 s.cadence.active.period), (32, leBytes 8 s.cadence.pendingPeriod),
    (40, leBytes 4 s.cadence.lastInterval), (44, signedBytes s.governor.full.level),
    (48, signedBytes s.governor.proxy.level), (52, leBytes 1 s.governor.full.q),
    (53, leBytes 1 s.governor.proxy.q), (54, leBytes 1 s.store.pressure),
    (56, leBytes 2 (s.store.records true)), (58, leBytes 2 (s.store.records false))] ++ s.store.liveFields 60

theorem snapshotBytes_eq : s.snapshotBytes = layout 128 s.snapshotFields := rfl

/-- Where the fields of the Snapshot record lie, and how long they are (R171). -/
def snapshotPlaces : List (Nat × Nat) :=
  [(0, 4), (4, 4), (8, 4), (12, 1), (13, 1), (14, 1), (15, 1), (16, 8), (24, 8), (32, 8), (40, 4), (44, 4), (48, 4),
    (52, 1), (53, 1), (54, 1), (56, 2), (58, 2), (60, 4), (64, 4), (68, 4), (72, 4)]

theorem snapshotFields_places : s.snapshotFields.map (fun f => (f.1, f.2.length)) = snapshotPlaces := rfl

theorem snapshotFields_apart : Apart 128 s.snapshotFields :=
  .of_places s.snapshotFields_places (by decide) (by decide)

theorem snapshotBytes_length : s.snapshotBytes.length = 128 := by
  rw [snapshotBytes_eq]
  exact length_layout _ _ s.snapshotFields_apart.fits

/-- Bytes 76 to 127 are reserved. -/
theorem snapshotBytes_reserved : slice s.snapshotBytes 76 52 = List.replicate 52 0#8 := by
  have low : ∀ p ∈ snapshotPlaces, p.1 + p.2 ≤ 76 := by decide
  rw [snapshotBytes_eq]
  refine slice_layout_zero _ _ _ _ (by decide) s.snapshotFields_apart.fits fun f hf => .inr ?_
  exact low (f.1, f.2.length) (s.snapshotFields_places ▸ List.mem_map_of_mem hf)

theorem snapshotBytes_reads : ∀ f ∈ s.snapshotFields, slice s.snapshotBytes f.1 f.2.length = f.2 := by
  rw [snapshotBytes_eq]
  exact s.snapshotFields_apart.reads

end State

/-- Settles O18: the command by the latch it finds, and the record's fields by `State.snapshotBytes_reads`. -/
theorem snapshotLatches : Obligations.SnapshotLatches := by
  intro s
  refine ⟨fun ha => ⟨fun free => ?free, fun held => ?held⟩, ?fields⟩
  case free => exact congrArg _ (s.direct_snapshot ha (s.applySnapshot_free free))
  case held => exact congrArg _ (s.direct_snapshot ha (s.applySnapshot_held held))
  case fields =>
    intro b
    have length : b.length = 128 := s.snapshotBytes_length
    have reads : ∀ g ∈ s.snapshotFields, slice b g.1 g.2.length = g.2 := s.snapshotBytes_reads
    have reserved : slice b 76 52 = List.replicate 52 0#8 := s.snapshotBytes_reserved
    clear_value b
    simp only [State.snapshotFields, Store.liveFields, List.cons_append, List.nil_append, List.forall_mem_cons,
      length_leBytes, Label.length_bytes, length_signedBytes] at reads
    obtain ⟨frame, freeRun, recordRun, lock, flags, phase, detail, counter, period, pending, interval, fullLevel,
      proxyLevel, fullQ, proxyQ, pressure, bound, unbound, fullBound, fullUnbound, proxyBound, proxyUnbound, -⟩ :=
      reads
    have shown : fieldAt b 15 1 = s.writer.detail := fieldAt_whole detail s.writer.detail_lt
    have staged : fieldAt b 32 8 = s.cadence.pendingPeriod % 2 ^ 64 := fieldAt_number pending
    refine ⟨length, fieldAt_word frame, freeRun, recordRun, fieldAt_whole lock (LockState.code_lt _),
      (fieldAt_whole flags (recordFlags_lt _ _)).trans (recordFlags_eq _ _),
      fieldAt_whole phase (WriterPhase.code_lt _), fun working => shown.trans (Writer.detail_working working),
      fun p c waiting wait => shown.trans (Writer.detail_waiting waiting wait),
      fun x blocked position => shown.trans (Writer.detail_blocked blocked position), fieldAt_number counter,
      fieldAt_number period, fun unset => ?_, fun x set => ?_, fieldAt_number interval, fieldAt_word fullLevel,
      fieldAt_word proxyLevel, fieldAt_number fullQ, fieldAt_number proxyQ, fieldAt_number pressure,
      fieldAt_number bound, fieldAt_number unbound, fieldAt_number fullBound, fieldAt_number fullUnbound,
      fieldAt_number proxyBound, fieldAt_number proxyUnbound, reserved⟩
    · rw [staged, Cadence.pendingPeriod_none unset, Nat.zero_mod]
    · rw [staged, Cadence.pendingPeriod_some set]

end Sys2Proof.Machine
end

