-- ==== Sys2Proof/Proofs/CommandQueue.lean ====
section
-- One proof at a time: a stack for every waiting proof of this text would pass the memory limit of the check.
set_option Elab.async false
/-! The queue of waiting commands: a step takes the first of them, and no command touches the rest (log 1). -/

namespace Sys2Proof.Machine

/-- Settles O1: the first branch of `step`. -/
theorem stepRunsFrontCommand : Obligations.StepRunsFrontCommand := by
  intro s c rest front
  simp only [step, front]

namespace State

/-- The state that an outcome goes on to, if any, has the waiting commands of `s`. -/
def KeepsQueue (s : State) (o : Host.Outcome State Fault Refusal) : Prop :=
  ∀ t, o = .next t → t.pending = s.pending

namespace KeepsQueue

variable {s t : State}

theorem next (h : t.pending = s.pending) : s.KeepsQueue (.next t) :=
  fun _ ht => Host.Outcome.next.inj ht ▸ h

theorem stays : s.KeepsQueue (.next s) :=
  next rfl

theorem fault {f : Fault} : s.KeepsQueue (.fault f) :=
  fun _ => nofun

theorem ite {p : Prop} [Decidable p] {a b : Host.Outcome State Fault Refusal} (ha : s.KeepsQueue a)
    (hb : s.KeepsQueue b) : s.KeepsQueue (if p then a else b) := by
  split
  · exact ha
  · exact hb

/-- A command that does one of two acts. -/
theorem nextOf {p : Prop} [Decidable p] {u v : State} (hu : u.pending = s.pending) (hv : v.pending = s.pending) :
    s.KeepsQueue (.next (if p then u else v)) :=
  next (by split <;> assumption)

variable (s)

/-! ### The register window and the Board (R162 to R168) -/

theorem boardAnchorHigh (value : Word) : s.KeepsQueue (execBoardAnchorHigh value s) :=
  next (by simp [commitAnchor_frame])

theorem noticeMaskClear (value : Word) : s.KeepsQueue (execNoticeMaskClear value s) :=
  next (by simp)

theorem visitRequest (value : Word) : s.KeepsQueue (execVisitRequest value s) :=
  ite (next (by simp [visitRequest_frame])) stays

theorem loseHost : s.KeepsQueue (.next s.loseHost) :=
  next (by simp [State.loseHost, detach_frame])

theorem headerReadDone (tag : Nat) (data : Option (List Byte)) : s.KeepsQueue (execHeaderReadDone tag data s) := by
  unfold execHeaderReadDone
  split
  · exact stays
  · exact ite (next (by simp [judgeHeader_frame])) stays

/-! ### The timed commands (R2, R5, R11, R12, R25) -/

theorem cadenceExpiry : s.KeepsQueue (execCadenceExpiry s) := by
  unfold execCadenceExpiry
  split
  · exact stays
  · exact ite stays (nextOf (by simp [takeExpiry_frame, elapse_frame]) (by simp [elapse_frame]))

theorem refEdge (polarity : Polarity) (ticks : Nat) : s.KeepsQueue (execRefEdge polarity ticks s) :=
  next (by simp [elapse_frame, latchEdge_frame])

theorem windowClose : s.KeepsQueue (execWindowClose s) :=
  ite (nextOf (by simp [frameStart_frame, openLate_frame, elapse_frame]) (by simp [openLate_frame, elapse_frame])) stays

theorem basePeriodBoundary : s.KeepsQueue (execBasePeriodBoundary s) :=
  ite stays (nextOf (by simp [baseBoundary_frame, elapse_frame]) (by simp [elapse_frame]))

/-! ### The Intake (R40 to R47) -/

theorem frameBegin : s.KeepsQueue (execFrameBegin s) := by
  unfold execFrameBegin
  split
  · exact next rfl
  · split
    · exact next rfl
    · exact next rfl

theorem lineEvent (index : Nat) (samples : List (BitVec 16)) (passed : Bool) :
    s.KeepsQueue (execLineEvent index samples passed s) := by
  unfold execLineEvent
  split
  · exact stays
  · split
    · exact stays
    · exact ite (ite (next rfl) fault) stays

theorem frameEnd : s.KeepsQueue (execFrameEnd s) := by
  unfold execFrameEnd
  split
  · exact next rfl
  · exact ite (next (by simp [loseCapture_frame])) (next (by simp [makeTicket_frame, usableFrame_frame]))

/-! ### The lanes (R55, R63, R64) -/

theorem jobStart (lane : Lane) : s.KeepsQueue (execJobStart lane s) := by
  unfold execJobStart
  split
  · exact stays
  · exact next (by simp [jobStart_frame])

theorem pass1End (lane : Lane) (tag size : Nat) : s.KeepsQueue (execPass1End lane tag size s) := by
  unfold execPass1End
  split
  · exact stays
  · exact next (by simp [endPass1_frame])

theorem pass2End (lane : Lane) (tag size : Nat) : s.KeepsQueue (execPass2End lane tag size s) := by
  unfold execPass2End
  split
  · exact stays
  · exact next (by simp [endPass2_frame])

/-! ### Directives and the chain (R175, R176) -/

theorem directive (d : Directive) : s.KeepsQueue (.next (s.direct d)) :=
  next (by simp [direct_frame])

theorem chainNextReadDone (tag : Nat) (data : Option (List Byte)) :
    s.KeepsQueue (execChainNextReadDone tag data s) := by
  unfold execChainNextReadDone
  split
  · refine ite ?_ stays
    split
    · exact next (by simp [chainFault_frame])
    · exact next (by simp [takeNext_frame])
  · exact stays

theorem chainRecordFetchDone (tag : Nat) (data : Option (List Byte)) :
    s.KeepsQueue (execChainRecordFetchDone tag data s) := by
  unfold execChainRecordFetchDone
  split
  · refine ite ?_ stays
    split
    · exact next (by simp [chainFault_frame])
    · exact next (by simp [takeRecordBytes_frame])
  · exact stays

/-! ### The Aperture Unit and the writer (R131, R133, R142, R155) -/

theorem apertureFetchDone (tag : Nat) (data : Option (List Byte)) :
    s.KeepsQueue (execApertureFetchDone tag data s) := by
  unfold execApertureFetchDone
  split
  · exact stays
  · exact ite (next (by simp [fetchDone_frame])) stays

theorem writerStartWork : s.KeepsQueue (execWriterStartWork s) :=
  ite stays (next (by simp [chooseWork_frame]))

theorem chunkEntryReadDone (tag : Nat) (data : Option (List Byte)) :
    s.KeepsQueue (execChunkEntryReadDone tag data s) := by
  have read (p : Pool) (a : Attempt) : s.KeepsQueue (.next (s.entryRead p a data)) := next (by simp [entryRead_frame])
  unfold execChunkEntryReadDone
  split
  · exact read .full _
  · split
    · exact read .proxy _
    · split
      · exact read .index _
      · exact stays

theorem proxySuspended : s.KeepsQueue (execProxySuspended s) :=
  ite (next (by simp [beginSuspension_frame])) stays

theorem coalescingAgeLimit : s.KeepsQueue (execCoalescingAgeLimit s) :=
  nextOf s.announce_pending rfl

/-! ### The dispatch -/

theorem command (c : Instr) : s.KeepsQueue (exec c s) := by
  cases c with
  | fundamentalReset => exact next rfl
  | linkDown => exact loseHost s
  | functionLevelReset => exact loseHost s
  | boardAnchorLow value => exact next rfl
  | boardAnchorHigh value => exact boardAnchorHigh s value
  | visitRequest value => exact visitRequest s value
  | noticeCause value => exact next rfl
  | noticeMaskSet value => exact next rfl
  | noticeMaskClear value => exact noticeMaskClear s value
  | ignoredRegisterWrite offset bytes value => exact stays
  | headerReadDone tag data => exact headerReadDone s tag data
  | cadenceExpiry => exact cadenceExpiry s
  | refEdge polarity ticks => exact refEdge s polarity ticks
  | windowClose => exact windowClose s
  | basePeriodBoundary => exact basePeriodBoundary s
  | frameBegin => exact frameBegin s
  | lineEvent index samples passed => exact lineEvent s index samples passed
  | frameEnd => exact frameEnd s
  | jobStart lane => exact jobStart s lane
  | pass1End lane tag size => exact pass1End s lane tag size
  | pass2End lane tag size => exact pass2End s lane tag size
  | setCadence period mode polarity tolerance => exact directive s _
  | startCadence => exact directive s _
  | stopCadence => exact directive s _
  | jamTimecode hh mm ss ff target => exact directive s _
  | setProfile params => exact directive s _
  | openTake take => exact directive s _
  | closeTake => exact directive s _
  | mark value => exact directive s _
  | remapApertures first count => exact directive s _
  | probeAperture page => exact directive s _
  | snapshot => exact directive s _
  | setNotice count age => exact directive s _
  | chainNextReadDone tag data => exact chainNextReadDone s tag data
  | chainRecordFetchDone tag data => exact chainRecordFetchDone s tag data
  | apertureFetchDone tag data => exact apertureFetchDone s tag data
  | writerStartWork => exact writerStartWork s
  | chunkEntryReadDone tag data => exact chunkEntryReadDone s tag data
  | proxySuspended => exact proxySuspended s
  | coalescingAgeLimit => exact coalescingAgeLimit s

end KeepsQueue
end State

/-- Settles O2: command by command, by what the frame lemmas say of its act. -/
theorem commandLeavesQueue : Obligations.CommandLeavesQueue :=
  fun c s => State.KeepsQueue.command s c

end Sys2Proof.Machine
end
